-- ==== Sys2Proof/Word.lean ====
section
/-! DEFINITION. The word types of the part and their plainest arithmetic (00_scope.md R4). -/

namespace Sys2Proof

/-- A scalar register's word. -/
abbrev W64 := BitVec 64
/-- One byte of memory. -/
abbrev Byte := BitVec 8
/-- The number of a scalar register g0-g31. -/
abbrev GReg := Fin 32
/-- The number of a predicate register p0-p127. -/
abbrev PReg := Fin 128
/-- A predicate register's 2,048 bits (R111). -/
abbrev PBits := BitVec 2048
/-- An axis tag (R120): bit d - 1 is the axis of lift depth d. -/
abbrev Tag := BitVec 3
/-- A user control thread's package number `ct_id` (R19). -/
abbrev CtId := Fin 128
/-- A scalar pipe of the package: 0-127 the user control threads, 128 + 4 * die + i system control thread i. -/
abbrev Agent := Fin 144

/-- The word of a number, modulo 2^64. -/
abbrev w64 (n : Nat) : W64 := BitVec.ofNat 64 n

/-- Sign extension to 64 bits (R172). -/
def sext64 {n : Nat} (x : BitVec n) : W64 := x.signExtend 64

/-- Bit field [lo + width - 1 : lo] of a number (R4). -/
def fld (w lo width : Nat) : Nat := w / 2 ^ lo % 2 ^ width

/-- 1 for true and 0 for false. -/
def b2n (b : Bool) : Nat := if b then 1 else 0

end Sys2Proof
end

