-- ==== Sys2Proof/Config.lean ====
section
/-! DEFINITION. What an implementation fixes, and the free values: opaque constants with no body, so that nothing can
be proved about the value the hardware chooses (notes/assumptions/3.md). -/

namespace Sys2Proof.Config

/-- FREE. A word the spec leaves open, one for each count of the state's `fresh` counter. -/
opaque freeWord : Nat → W64

/-- FREE. Clocks that pass between two reads of a counter (R6): the spec gives no time base. -/
opaque clocks : Nat → Nat

/-- FREE. The handle at which the part starts looking for a free one (R39: an order of its own choosing). -/
opaque pickHandle : Nat → Nat

/-- FREE. The child slot at which the part starts looking for a free one (R315), by the state's `fresh` counter. -/
opaque pickSlot : Nat → Nat

/-- FREE. The place on a die at which the part starts looking for a free frame (R39). -/
opaque pickFrame : Nat → Nat

/-- FREE. The approximant of the special-function unit (R161): magnitude m * 2^e of its result, for function number,
sign, magnitude and exponent of the exact argument. -/
opaque sfuApprox : (fn : Nat) → (sign : Bool) → (m : Nat) → (e : Int) → Bool × Nat × Int

/-- FREE. The magnitude of a block element that rounds past the largest one on its own grid (R144 states none), by the
largest magnitude and the one it rounds to. -/
opaque quantOver : (mmax m : Nat) → Nat

/-- FREE. The HBM address of a control thread's context image (R384: the supervisor sets the region). -/
opaque imageAddress : Nat → W64

/-- FREE. The check word of a context image (R384), by the state's `fresh` counter. -/
opaque imageCheck : Nat → W64

/-- FREE. Whether a report of this kind, 3 to 7, counts as uncorrectable at the physical function (R400 does not say in
which of its counters such a report counts). -/
opaque countsUncorrectable : (kind : Nat) → Bool

/-- FREE. The opaque bytes of a queue frame after its 32-byte header (R378), by the state's `fresh` counter. -/
opaque frameBody : Nat → List Byte

/-- FREE. The check word of a queue frame (R378). -/
opaque frameCheck : List Byte → W64

/-- FREE. The part's stepping (R378, Table 25.4). -/
opaque stepping : BitVec 32

/-- FREE. The serial number of HBM stack `k` of the package (R412). -/
opaque stackSerial : (k : Nat) → BitVec 64

/-- FREE. The delay and reference-voltage values that full training of a stack finds (R412), by the state's `fresh` counter. -/
opaque trainedDelays : (k fresh : Nat) → List Byte

/-- FREE. The die in whose HBM an address space's run table lies (R30: a region the supervisor sets). -/
opaque runTableDie : (fn : Nat) → Nat

/-- Whether the part measures module power: the modelled part is the ZXI-3208P, which does not (R1, R414). -/
def moduleSensor : Bool := false

/-- FREE. The cause code of a dump taken at a thermal trip (R414 states none). -/
opaque tripCause : BitVec 8

/-- FREE. SHA3-256 (R415, R416): named by the spec, defined outside it. -/
opaque sha3 : List Byte → BitVec 256

/-- FREE. An ML-DSA-44 signature of 2,420 bytes under a die's identity key (R417): defined outside the spec. -/
opaque mldsaSign : (die : Nat) → List Byte → BitVec 19360

/-- FREE. The digest of a die's identity public key (Table 29.4). -/
opaque identityHash : (die : Nat) → BitVec 256

/-- FREE. Die number and package serial digest, low bits (Table 29.4). -/
opaque dieSerial : (die : Nat) → BitVec 32

/-- FREE. The digests of a die's boot ROM (`k` = 0) and configuration (`k` = 1), which it measures (R416). -/
opaque stageDigest : (die k : Nat) → BitVec 256

/-- FREE. Which of several numbers beyond their declarations `tval` names (Table 25.1 says "the number that exceeds
its declaration"): a place in their list. -/
opaque whichNumber : List Nat → Nat

/-- The default formation buffer: 16 MiB (R59). -/
def formationDefault : Nat := 16 * 2 ^ 20

/-- Capacity of a view (R82): 128 KiB of bytes. -/
def viewCapacity : Nat := 131072
/-- Local bytes a strip write buffer holds (R210). -/
def stripLocalCap : Nat := 65536
/-- Bytes of trail entries and run-append data a strip write buffer holds (R210). -/
def stripTrailCap : Nat := 32768
/-- Tier-0 frames on one die (R38): frame numbers have 21 place bits. -/
def framesPerDie : Nat := 2 ^ 21
/-- Handles of one run table (R29). -/
def handles : Nat := 2 ^ 20
/-- Bytes of a run page and frame (R36). -/
def pageBytes : Nat := 65536
/-- The largest run in bytes (R27). -/
def runBytesMax : Nat := 2 ^ 42
/-- Bytes of a core's SRAM (R72). -/
def coreSram : Nat := 48 * 2 ^ 20
/-- Local bytes of the plane save area (R159). -/
def planeSaveBytes : Nat := 147456
/-- Convoys that others of a core may issue ahead of a ready one (R156). -/
def issuePromise : Nat := 4096
/-- Convoys a vector issue queue holds (Table 1.3). -/
def vqDepth : Nat := 32
/-- Engine commands one control thread may have in flight (R102). -/
def cmdMax : Nat := 64

end Sys2Proof.Config
end

