-- ==== Sys2Proof/Syntax.lean ====
section
/-! DEFINITION. The syntax of the part's steps: one constructor of `Instr` per row of the opcode table. Scalar
instructions carry the fields of Table 10.2, vector instructions the fields of Table 10.7, and the rows that are
events of the part or of its surroundings carry what the event brings with it. -/

namespace Sys2Proof

/-- Compare conditions of `cmp` and `vcmp` (Table 10.5). -/
inductive Cc where
  | eq | ne | lt | ltn | ge | gen
  deriving DecidableEq, Repr

/-- Access sizes of the M format (Table 10.5). -/
inductive MSize where
  | b | h | w | d
  deriving DecidableEq, Repr

/-- Operations of `amo` and `vamo` (Table 10.5). -/
inductive AmoOp where
  | add | and | or | xor | min | max | minn | maxn | swap | fadd
  deriving DecidableEq, Repr

/-- Folds of `lred` (Table 16.6). -/
inductive LredOp where
  | add | min | max | minn | maxn | and | or | xor
  deriving DecidableEq, Repr

/-- Element type codes of the vector format (Table 10.8). -/
inductive VTy where
  | none | i8 | i16 | i32 | n8 | n16 | n32 | bf16 | f16 | f32 | e4m3 | e5m2 | ds4 | ds8 | mx4 | record
  deriving DecidableEq, Repr

/-- The fields of a vector instruction other than its opcode (Table 10.7). -/
structure VFields where
  vd  : BitVec 6
  va  : BitVec 6
  vb  : BitVec 6
  vc  : BitVec 6
  pm  : PReg
  pn  : Bool
  t1  : VTy
  t2  : VTy
  rnd : BitVec 3
  smod : BitVec 3
  sat : Bool
  fn  : BitVec 9
  deriving DecidableEq, Repr

/-- The fields of a convoy header (Table 10.6). -/
structure ConvoyHdr where
  n     : BitVec 3
  u1    : BitVec 3
  u2    : BitVec 3
  u3    : BitVec 3
  u4    : BitVec 3
  u5    : BitVec 3
  u6    : BitVec 3
  chain : Bool
  deriving DecidableEq, Repr

/-- The fields of a launch record (Table 24.2). -/
structure LaunchRec where
  hseq   : W64
  kern   : Nat
  npar   : Nat
  tasks  : Nat
  width  : Nat
  cond   : Bool
  sense  : Bool
  npred  : Nat
  limg   : Nat
  caddr  : Nat
  rows   : Nat
  cols   : Nat
  pbase  : Nat
  preds  : List W64
  gaddr  : Nat
  stride : Nat
  zeroOk : Bool      -- the record's reserved bits 95:92 are zero
  deriving DecidableEq, Repr

/-- What a report of an error names (Table 27.3). -/
structure ErrLoc where
  src  : Nat
  grp  : Nat
  lane : Nat
  elem : Nat
  iadr : W64
  loc  : W64
  deriving DecidableEq, Repr

/-- A memory whose bytes can carry a poison mark (R393): the local window of a control thread, its trail and its view, by
agent; the home common memory of a partition; a frame of HBM, and one of the capacity tier; a context image, by agent. -/
inductive Place where
  | loc (ag : Agent)
  | trail (ag : Agent)
  | view (ag : Agent)
  | home (part : Fin 32)
  | frame (f : Nat)
  | pool (f : Nat)
  | image (ag : Agent)
  deriving DecidableEq, Repr

/-- A unit that a self-test tests, or that is found to fail (R397, R398): a lane, the register slice of a lane, a column of
the matrix array, `n` bytes of a memory. -/
inductive TestUnit where
  | lane (grp lane : Nat)
  | slice (grp lane : Nat)
  | column (col : Nat)
  | word (p : Place) (a n : Nat)
  deriving DecidableEq, Repr

/-- The source of a notification (R104). -/
inductive NotifySrc where
  | fromCt (ct : CtId)
  | remote
  deriving DecidableEq, Repr

/-- What a flit carries over the Lumen links (R409, R104; notes/assumptions/25.md): a notification with its sender's device,
control thread, timeline and number; the answer of its target; what a collective sends; or the link's own business: an
acknowledgement, a request for replay, stop and go of a channel. -/
inductive LumenMsg where
  | notify (dev : BitVec 15) (ag : Agent) (stl : Fin 8) (num : Nat) (target : CtId) (tl : Fin 8)
  | answer (ag : Agent) (stl : Fin 8) (num : Nat) (accepted : Bool)
  | data (bytes : List Byte)
  | ack (seq : BitVec 12)
  | replay (seq : BitVec 12)
  | stop (vc : BitVec 2)
  | go (vc : BitVec 2)
  | dropped
  deriving DecidableEq, Repr

/-- A flit (R409): virtual channel, sequence number, whether its CRC holds, the device it is for, and what it carries. -/
structure Flit where
  vc    : BitVec 2
  seq   : BitVec 12
  crcOk : Bool
  dest  : BitVec 15
  msg   : LumenMsg
  deriving DecidableEq, Repr

/-- A flit beside its channel and number: whether its CRC holds, the device it is for, and what it carries. -/
structure Cargo where
  crcOk : Bool
  dest  : BitVec 15
  msg   : LumenMsg
  deriving DecidableEq, Repr

/-- What became of an engine command that cannot run on the device alone: the records a remote member brings to a
collective (R296), or the answer of a remote target (R294). -/
inductive PeerAnswer where
  | none
  | unreachable
  | accepted (inputs : List (List (List Byte)))
  deriving DecidableEq, Repr

/-- Where a message makes no progress for 1 ms (R410): a command of an agent has sent it; it stands first among the flits for other
devices in a port's buffers; or first among those that a port has still to bring across. -/
inductive Stuck where
  | own (ag : Agent)
  | transit (port : Fin 16)
  | outgoing (port : Fin 16)
  deriving DecidableEq, Repr

/-- A firmware image as a reset finds it (R415): its bytes, whether its signature verifies, its security version, and the
supervisor code run that it installs (Table 29.1). -/
structure Firmware where
  image   : List Byte
  signed  : Bool
  version : BitVec 16
  sup     : List Byte
  deriving DecidableEq, Repr

/-- A training record of an HBM stack (R412): per-lane delay and reference-voltage values, the stack's serial number, and the
digest of the record. -/
structure Training where
  delays : List Byte
  serial : W64
  digest : BitVec 256
  deriving DecidableEq, Repr

/-- What a warm reset finds of its stacks' training (R412): the records that the host driver has supplied through the recovery
mailbox, by stack, and the stacks that pass their read test once they are restored. -/
structure Restore where
  mail   : List (Fin 8 × Training)
  readOk : BitVec 8
  deriving DecidableEq, Repr

/-- The steps of the part, one constructor per row of spec/opcode_table.json. -/
inductive Instr where
  -- register-register and register-immediate integer operations (R187-R190)
  | add (d a b : GReg) | sub (d a b : GReg) | mul (d a b : GReg) | mulh (d a b : GReg) | mulhn (d a b : GReg)
  | div (d a b : GReg) | divn (d a b : GReg) | rem (d a b : GReg) | remn (d a b : GReg)
  | and (d a b : GReg) | or (d a b : GReg) | xor (d a b : GReg) | andn (d a b : GReg)
  | shl (d a b : GReg) | shr (d a b : GReg) | sha (d a b : GReg)
  | min (d a b : GReg) | max (d a b : GReg) | minn (d a b : GReg) | maxn (d a b : GReg)
  | clz (d a : GReg) | ctz (d a : GReg) | popc (d a : GReg)
  | addi (d a : GReg) (i : BitVec 15) | andi (d a : GReg) (i : BitVec 15) | ori (d a : GReg) (i : BitVec 15)
  | xori (d a : GReg) (i : BitVec 15)
  | shli (d a : GReg) (i : BitVec 6) | shri (d a : GReg) (i : BitVec 6) | shai (d a : GReg) (i : BitVec 6)
  | lui (d : GReg) (i : BitVec 15) | li (d : GReg) (i : BitVec 15)
  | liLong (d : GReg) (i : BitVec 32) | luiLong (d : GReg) (i : BitVec 32) | addiLong (d : GReg) (i : BitVec 32)
  -- compares and predicates (R191-R193)
  | cmp (c : Cc) (p : PReg) (a b : GReg) | cmpi (c : Cc) (p : PReg) (a : GReg) (i : BitVec 10)
  | pand (d a b : PReg) | por (d a b : PReg) | pxor (d a b : PReg) | pnot (d a : PReg) | pmov (d a : PReg)
  | pall (d a : PReg) | pany (d a : PReg)
  -- control flow (R194-R200)
  | br (off : BitVec 25) | bp (p : PReg) (neg : Bool) (off : BitVec 17) | call (off : BitVec 25)
  | ret (a : GReg) | jr (d a : GReg) | loopn (d a : GReg) (i : BitVec 15) | loope (p : PReg) | nop
  -- scalar memory (R201-R205)
  | lds (d a : GReg) (sz : MSize) (sx : Bool) (i : BitVec 11) | sts (d a : GReg) (sz : MSize) (i : BitVec 11)
  | ldc (d a : GReg) (sz : MSize) (sx : Bool) (i : BitVec 11) | stc (d a : GReg) (sz : MSize) (i : BitVec 11)
  -- atomics and ordering (R304-R312, R95)
  | amo (op : AmoOp) (dbl rel acq : Bool) (d a b : GReg) | cas (dbl rel acq : Bool) (d a b : GReg)
  | rel | acq (a : GReg) | acqPartition | acqG (a : GReg)
  | fenceSv | fenceVs | fenceVv | fenceR (common : Bool) (a b : GReg)
  | sbar (mask : BitVec 4) | wfe (d : GReg) | wfeWatch (d a b : GReg)
  -- system (R320-R325)
  | trap (code : BitVec 10) | tret | uret
  | csrr (d : GReg) (csr : BitVec 12) | csrw (d a : GReg) (csr : BitVec 12)
  | csrs (d a : GReg) (csr : BitVec 12) | csrc (d a : GReg) (csr : BitVec 12)
  | yield (d : GReg) | vsaveq (d a : GReg) | vrestq (d a : GReg)
  | pdrain (d a : GReg) | pdrainGo (d a : GReg) | preset (a : GReg)
  -- runs, engines and timelines (R277-R294)
  | rnew (d a : GReg) (named : Bool) (die : BitVec 2) | rseal (d a : GReg) | rfork (d a : GReg) | rdrop (a : GReg)
  | rinfo (d a : GReg) (k : BitVec 2) | rinfoStream (d : GReg) (n k : BitVec 2)
  | ropenR (e a b : GReg) (n : BitVec 2) | ropenA (a : GReg) (n : BitVec 2) | rclose (n : BitVec 2)
  | sortr (d a : GReg) (cb : BitVec 3) (kw : Bool) (tl : Fin 8)
  | mrgr (d a b : GReg) (cb : BitVec 3) (kw : Bool) (tl : Fin 8)
  | joinr (d a b : GReg) (mode : BitVec 2) (kw : Bool) (tl : Fin 8)
  | cpy (a : GReg) (tl : Fin 8) | enqw (d a b : GReg) (tl : Fin 8)
  | rmig (d a b : GReg) (tier : BitVec 2) (tl : Fin 8) | stage (a : GReg) (tl : Fin 8)
  | tlwait (a : GReg) (tl : Fin 8) | tlwaitEv (a : GReg) (tl : Fin 8)
  | tlget (d : GReg) (clr : Bool) (word : BitVec 3) (tl : Fin 8) | tlnotify (a : GReg) (stl tl : Fin 8)
  -- barriers and collectives (R295, R296)
  | barinit (a b : GReg) (n : Fin 16) | bararr (d : GReg) (n : Fin 16) | barwait (a : GReg) (n : Fin 16)
  | baradd (a : GReg) (n : Fin 16) | coll (a : GReg) (tl : Fin 8)
  -- tasks (R313-R319)
  | panel (d a b : GReg) | spawn (d a : GReg) | join (d a : GReg) | tdone | wmset (n : BitVec 2)
  | wmwait (d a b : GReg) | ctkill (d a : GReg)
  -- vector configuration and lift (R206-R207, R268-R276)
  | vsetvl (d a : GReg) (mask : BitVec 4) | vsetf (d : GReg) (rsz : BitVec 6) (gap : BitVec 4) (ty : VTy)
  | vsetg (d : GReg) (grp : BitVec 2)
  | lift (a : GReg) (i : BitVec 15) | lend | lidx (d : GReg) (k : BitVec 2) | lred (d a : GReg) (op : LredOp)
  | lpick (d a b : GReg) | ltag (d : GReg) (file : Fin 3) (r : BitVec 7) | lact (p : PReg)
  -- convoys: the header and the words of its vector instructions, as one unit (R170, R175)
  | convoyHeader (h : ConvoyHdr) (words : List (BitVec 64))
  | convoyBind (core : Fin 32) | vectorRetire (ct : CtId) | stripCommit (ct : CtId)
  -- vector memory (R211-R221)
  | vld (f : VFields) | vlds (f : VFields) | vldx (f : VFields) | vldseg (f : VFields)
  | vst (f : VFields) | vsts (f : VFields) | vstx (f : VFields) | vstseg (f : VFields)
  | vldc (f : VFields) | vstc (f : VFields) | vspill (f : VFields) | vfill (f : VFields)
  | rld (f : VFields) | rapp (f : VFields) | vamo (f : VFields) | vldb (f : VFields)
  -- vector integer (R226-R231)
  | vadd (f : VFields) | vsub (f : VFields) | vmul (f : VFields) | vmulh (f : VFields) | vmacc (f : VFields)
  | vwmul (f : VFields) | vwmacc (f : VFields) | vsadd (f : VFields) | vssub (f : VFields)
  | vand (f : VFields) | vor (f : VFields) | vxor (f : VFields) | vshl (f : VFields) | vshr (f : VFields)
  | vsha (f : VFields) | vnshr (f : VFields) | vmin (f : VFields) | vmax (f : VFields) | vabs (f : VFields)
  | vcmp (f : VFields)
  -- vector floating (R232-R236)
  | vfadd (f : VFields) | vfsub (f : VFields) | vfmul (f : VFields) | vfma (f : VFields) | vfnma (f : VFields)
  | vfdiv (f : VFields) | vfmin (f : VFields) | vfmax (f : VFields) | vfabs (f : VFields) | vfneg (f : VFields)
  | vfcmp (f : VFields) | vcmpt (f : VFields) | vfsqrt (f : VFields) | vsfu (f : VFields)
  -- conversion, permutation, reduction (R237-R258)
  | vcvt (f : VFields) | vrnd (f : VFields) | vbscaleGet (f : VFields) | vbscaleSet (f : VFields)
  | vbquant (f : VFields) | vexpnGet (f : VFields) | vexpnScl (f : VFields)
  | vtailGet (f : VFields) | vtailSet (f : VFields) | vtailClr (f : VFields)
  | vmv (f : VFields) | vsel (f : VFields) | vbcast (f : VFields) | vextr (f : VFields) | vins (f : VFields)
  | viota (f : VFields) | vcompress (f : VFields) | vexpand (f : VFields) | vperm (f : VFields) | vpush (f : VFields)
  | vslideup (f : VFields) | vslidedn (f : VFields) | vrev (f : VFields) | vzip (f : VFields) | vunzip (f : VFields)
  | vredsum (f : VFields) | vfredsum (f : VFields) | vredmin (f : VFields) | vredmax (f : VFields)
  | vpopc (f : VFields) | vfirst (f : VFields) | vpand (f : VFields) | vpor (f : VFields) | vpxor (f : VFields)
  | vpnot (f : VFields) | vpset (f : VFields)
  -- matrix (R262-R267)
  | mld (f : VFields) | mswap (f : VFields) | mxrO (f : VFields) | mxrF (f : VFields) | mstat (f : VFields)
  -- vector sort group (R297)
  | vsort (f : VFields) | vsortk (f : VFields) | vmrg (f : VFields) | vsegred (f : VFields) | vuniq (f : VFields)
  | vtag (f : VFields) | vsplit (f : VFields) | vsrch (f : VFields)
  -- events of the engines, trails and control threads
  | engineCompletion (ag : Agent) (tl : Fin 8) (num : Nat) (peer : PeerAnswer)
  | streamResume (ct : CtId) (n : Fin 4) | hwPublish (ct : CtId) (tail : Nat) | trailAppendResume (ct : CtId)
  | compaction (trail : CtId)
  | notificationArrival (ct : CtId) (tl : Fin 8) (src : NotifySrc)
  | userEvent (ct : CtId) | vectorAsync (ct : CtId)
  | uncorrectableConsumed (ag : Agent) (loc : ErrLoc)
  | selfTestComplete (core : Fin 32) (unit : TestUnit) (passed retest : Bool)
  | watchdog (q : Nat)
  | preemption (ct : CtId) | contextRestore (ct : CtId) (readsBack : Bool)
  -- events of queues and launches
  | sqDoorbell (q : Nat) (tail : BitVec 16) | recordAccept (q : Nat) (r : LaunchRec) (cont : List Byte)
  | cqHeadWrite (q : Nat) (head : BitVec 16) | queueEnable (q : Nat) (word : W64) | phseq (q : Nat) (hseq : W64)
  | launchHead (q : Nat) | stagingComplete (q : Nat) | launchBind (q : Nat) | launchComplete (id : Nat)
  | childBind (id : Nat)
  -- events of scheduling, power, memory and reset
  | meridianPeriod | coreMove (core : Fin 32)
  | thermalSelfRefresh (stack : Fin 8) | thermalHold (die : Fin 4) | selfRefreshExit (stack : Fin 8)
  | rowActivationThreshold (die : Fin 4) (row : Nat) | powerCapPeriod (die : Fin 4) (temp power : Nat)
  | afterglowDump (die : Fin 4) (cause : BitVec 8) | coldReset (fw : Vector Firmware 4)
  | warmReset (fw : Vector Firmware 4) (r : Restore)
  | attestationRequest (die : Fin 4) (nonce : BitVec 256) | functionLevelReset (fn : Nat)
  | partitionCreate (num : Fin 32) (fn : Nat) (cores : BitVec 32) (desc : W64)
  | apertureWrite (window off : Nat) (bytes : List Byte) | runTableHostWrite (fn handle : Nat)
  | poolTimeout (frame : Nat) | lumenFlit (port : Fin 16) (vc : BitVec 2) (seq : BitVec 12) (cargo : Cargo)
  | lumenTimeout (at_ : Stuck) (chan : Fin 8) (num : Nat) | checkedModeWrite (part : Fin 32) (chk : Bool)
  | registerWrite (addr value : W64) | wfeWake (ag : Agent) | migrationRefused (ag : Agent) (tl : Fin 8) (num : Nat)
  | lumenLinkDown (port : Fin 16) | fusedMinimumRaise (die : Fin 4)
  | measurementExtend (die : Fin 4) (digest : BitVec 256)
  deriving DecidableEq, Repr

end Sys2Proof
end

