-- ==== Sys2Proof/Machine/State.lean ====
section
/-! DEFINITION. The state of the package as plain data: every register, memory, table, queue and control block the spec
gives the part, the outcomes of a step, and the state after reset. -/

namespace Sys2Proof.Machine

open Sys2Proof

/-- Bytes by address, in canonical form: addresses strictly rising and no listed byte 0, which is what an unlisted
address reads as (notes/assumptions/4.md). -/
abbrev Mem := List Host.Cell

/-- A table by number: keys strictly rising. -/
abbrev Tab (α : Type) := List (Nat × α)

/-- Poison marks over the bytes of a memory (R393): intervals, each by its first address and its length. -/
abbrev Marks := List (Nat × Nat)

/-- Cause codes (Table 25.1). -/
inductive Cause where
  | illegal | illegalConvoy | privilege | resource | localBounds | commonBounds | misalign | runHandle | runRange
  | runFault | runSealed | axisOverflow | batchedIndirect | planeBatched | planeFormat | timelineRange | barrier
  | group | watchdog | uncorrectable | break_ | vectorAsync
  deriving DecidableEq, Repr

/-- One vector register (R112, R114): 256 lanes of 32 bits and 16 side bits for each lane. -/
structure VReg where
  payload : BitVec 8192
  side    : BitVec 4096
  deriving DecidableEq, Repr

/-- One level of the loop nest (R197). -/
structure Loop where
  count : Nat
  left  : Nat
  start : W64
  stop  : W64
  idx   : GReg
  deriving DecidableEq, Repr

/-- One open batched-branch region (R272): forward or backward, its target, the tuples it masks, the axes its
predicate has, and the lift depth at which it opened. -/
structure Region where
  fwd    : Bool
  target : W64
  masked : List Nat
  tag    : Tag
  depth  : Nat
  deriving DecidableEq, Repr

/-- One level of the lift nest (R268): extent, return address, and the tuples active when it opened. -/
structure LiftLevel where
  extent : Nat
  ret    : W64
  outer  : List Nat
  deriving DecidableEq, Repr

/-- The lift nest (R268-R276): levels outermost first, the active tuples as linear indices in ascending order, the open
regions innermost first, and the copy at which the next instruction resumes (R375), with the instruction of a convoy to
which that copy belongs (notes/assumptions/30.md). -/
structure Lift where
  levels  : List LiftLevel
  active  : List Nat
  regions : List Region
  resume  : Option Nat
  item    : Nat
  deriving DecidableEq, Repr

/-- `vtype` (Table 6.5). -/
structure VType where
  ty  : VTy
  grp : BitVec 2
  gap : BitVec 4
  rsz : BitVec 6
  deriving DecidableEq, Repr

/-- One buffered write of a strip (R210): local bytes with the poison marks that go with them (R393), a data entry or an acquire
marker of the trail (R82), or the run data of an append. -/
inductive StripWrite where
  | loc (addr : Nat) (bytes : List Byte) (bad : Marks)
  | com (addr : Nat) (bytes : List Byte)
  | mark (trail tail : Nat) (gen : BitVec 16)
  | app (stream : Fin 4) (pc : W64) (bytes : List Byte)
  deriving DecidableEq, Repr

/-- The checkpoint of a strip (R207), with the mode in which its `vsetvl` ran: supervisor, in a user-event handler, in a trap
handler (notes/assumptions/13.md). -/
structure Checkpoint where
  pc    : W64
  sup   : Bool
  inUev : Bool
  inTrap : Bool
  vtype : VType
  vl    : Nat
  regs  : List (GReg × W64 × Tag)
  deriving DecidableEq, Repr

/-- A local notification accepted on a timeline: its number, the sender, and the tail and generation the sender's
implicit release wrote (R104, R343). -/
structure Note where
  num  : Nat
  from_ : Nat
  tail : Nat
  gen  : BitVec 16
  deriving DecidableEq, Repr

/-- An open strip (R207-R210); its writes are newest first. -/
structure Strip where
  check    : Checkpoint
  writes   : List StripWrite
  overflow : Bool
  rewound  : Bool
  rp       : Tab (Nat × BitVec 16)   -- the replay points when it opened
  notes    : List (Fin 8 × Note)     -- notifications that a `tlwait` of the strip has observed, by timeline (R343)
  deriving DecidableEq, Repr

/-- What becomes of a `barwait` that waits (R92). -/
inductive BarFate where
  | waiting | released | failed
  deriving DecidableEq, Repr

/-- A `barwait` that has begun to wait: its address, its barrier, the phase it waits to see pass, the group whose trails it
acquires, and its fate, which the completion of the phase or an error settles at once (R92). -/
structure BarWait where
  pc    : W64
  bar   : Fin 16
  phase : BitVec 16
  group : Nat
  fate  : BarFate
  deriving DecidableEq, Repr

/-- Kinds of trail entry (Table 4.3). -/
inductive EntryKind where
  | data | marker | commit
  deriving DecidableEq, Repr

/-- One trail entry (R77): data bytes at common address `addr`; a marker of trail `trail`'s tail `addr` and generation;
or a strip commit, `addr` the size of its group. Poisoned data bytes are marked at their common addresses (R393). -/
structure Entry where
  kind  : EntryKind
  addr  : Nat
  bytes : List Byte
  trail : Nat
  gen   : BitVec 16
  bad   : Marks
  deriving DecidableEq, Repr

/-- An acquire marker of an ended generation of a trail (R88): that generation and its index in it, and what it names. -/
structure PastMark where
  gen     : BitVec 16
  idx     : Nat
  trail   : Nat
  tail    : Nat
  tailGen : BitVec 16
  deriving DecidableEq, Repr

/-- A trail (R77-R81): every entry of the present generation, how many the compactor has applied, the published tail
and the generation of the publication word; and the published acquire markers of ended generations, the latest first (R88). -/
structure Trail where
  entries : List Entry
  done    : Nat
  pub     : Nat
  gen     : BitVec 16
  past    : List PastMark
  deriving DecidableEq, Repr

/-- One byte of a view with its source (R82) and its poison mark (R393). -/
structure ViewByte where
  val   : Byte
  trail : Nat
  idx   : Nat
  gen   : BitVec 16
  bad   : Bool
  deriving DecidableEq, Repr

/-- Stream modes (Table 5.1). -/
inductive StMode where
  | closed | read | append
  deriving DecidableEq, Repr

/-- A stream unit (Table 5.1). -/
structure Stream where
  run   : Nat
  mode  : StMode
  stall : Bool
  susp  : Bool
  voff  : Nat
  vwid  : Nat
  next  : Nat
  stop  : Nat
  ranOut  : Bool          -- the run at whose watermark it stalls has ended (R358)
  deriving DecidableEq, Repr

/-- An engine context (Tables 5.3 and 17.2); `fin` lists completed numbers above `done`. -/
structure Timeline where
  done   : Nat
  issued : Nat
  err    : Bool
  arm    : Bool
  armv   : Nat
  cons   : W64
  emit   : W64
  miss   : W64
  brk    : W64
  flg    : BitVec 6
  cause  : BitVec 8
  cnum   : Nat
  fin    : List Nat
  notes  : List Note
  deriving DecidableEq, Repr

/-- A byte interval of one space, for the range checker (R100). -/
structure Interval where
  common : Bool
  lo     : Nat
  hi     : Nat
  deriving DecidableEq, Repr

/-- The parameter block of a copy (Table 17.4); spaces 0 local, 1 common, 2 run. -/
structure CopyBlock where
  dims  : Nat
  esz   : Nat
  ssp   : Nat
  dsp   : Nat
  xsw   : Bool
  bar   : Nat
  sbase : Nat
  dbase : Nat
  shdl  : Nat
  dhdl  : Nat
  cnt   : List Nat
  ss    : List Int
  ds    : List Int
  deriving DecidableEq, Repr

/-- The parameter block of a collective (R296). -/
structure CollBlock where
  mode  : Nat
  kw    : Bool
  cb    : Nat
  m     : Nat
  rank  : Nat
  root  : Nat
  inp   : Nat
  out   : Nat
  devs  : List Nat
  deriving DecidableEq, Repr

/-- What an engine command does (R277-R296). -/
inductive CmdKind where
  | sort (out inp : Nat) (kw : Bool) (cb : Nat)
  | merge (out : Nat) (inps : List Nat) (kw : Bool) (cb : Nat)
  | join (out left right : Nat) (mode : Nat) (kw : Bool)
  | copy (b : CopyBlock) (total : Nat)
  | enqw (inbox src len : Nat)
  | migrate (run page target tier : Nat)
  | stage (run limit : Nat)
  | notify (target : Nat) (tl : Nat) (remote : Option Nat) (tail : Nat) (gen : BitVec 16)
  | coll (b : CollBlock)
  deriving DecidableEq, Repr

/-- What a command has taken of an input run: its records so far, and whether it has come to the input's end, which then
stays (R68, R70, R279). -/
structure Taken where
  recs  : List (List Byte)
  ended : Bool
  deriving DecidableEq, Repr

/-- What a command under way has done (R68, R69, R97): what it has taken of its inputs; elements copied or records written
to the output run; the common bytes that a copy has still to append, newest first, with their poison marks; bytes of an
output record not yet complete, with theirs (R393); the combine flags so far (R64); of a sort, the formation size at its
issue (R59), its completed passes, the intermediate runs that the last of them left and the frames these hold; of a
collective, whether its peers have answered and their records. -/
structure Progress where
  ins    : List Taken
  pos    : Nat
  com    : List (Nat × List Byte × Marks)
  out    : List Byte
  outBad : Marks
  flg    : BitVec 6
  form   : Nat
  pass   : Nat
  runs   : List (List (List Byte))
  frames : List Nat
  deriving DecidableEq, Repr

/-- An engine command in flight: timeline, number, the local and common intervals it reads and writes (R100), the
page at which it is suspended (R46): handle, record, page; its progress; the address of its instruction (R399); and
the cause with which it completes in error once its engine runs again, where that is settled: while it was suspended the driver has
refused the migration it waits for (R382), or what failed it came in a drained partition (R325, R388). -/
structure Cmd where
  tl     : Fin 8
  num    : Nat
  kind   : CmdKind
  reads  : List Interval
  writes : List Interval
  susp   : Option (Nat × Nat × Nat)
  prog   : Progress
  pc     : W64
  doom   : Option Nat
  deriving DecidableEq, Repr

/-- A child slot (R315-R316): the child's launch, its status once it has completed, and whether it has been joined. -/
structure Child where
  launch : Nat
  status : Option W64
  joined : Bool
  deriving DecidableEq, Repr

/-- How many registers a vector operand occupies: those of an element type (R119), twice those for a source read as
double-width elements (R178), one register, the fields of a segment (R214), or the n32 positions of a record group
(R297). -/
inductive Width where
  | ty (t : VTy) | dbl (t : VTy) | one | seg (t : VTy) (nf : Nat) | pos
  deriving DecidableEq, Repr

/-- A register named by an instruction: a scalar register, a predicate, or a vector register with its width. -/
inductive RegRef where
  | g (r : GReg) | p (r : PReg) | v (r : Nat) (w : Width)
  deriving DecidableEq, Repr

/-- The state a vector instruction takes at its push (R121): its first parcel, VL, `vtype`, rounding mode, `vstart`,
the scalar operands named by va, vb and vc, the first record of an `rld` (R219), and in a lift its copy: the tuple, the
tag of the results, the tags its registers had, and whether it is the first copy of the instruction (R270). -/
structure VCtx where
  pc     : W64
  vl     : Nat
  vtype  : VType
  frm    : BitVec 3
  vstart : Nat
  ga     : W64
  gb     : W64
  gc     : W64
  first  : Nat
  copy   : Option Nat
  tag    : Tag
  tags   : List (RegRef × Tag)
  lead   : Bool
  deriving DecidableEq, Repr

/-- One pushed vector instruction, the byte intervals its accesses cover (R327), and the iteration number that the loop
nest has since written to a scalar register this instruction has still to write (R121, R198). -/
structure VEntry where
  instr  : Instr
  ctx    : VCtx
  reads  : List Interval
  writes : List Interval
  late   : Option (GReg × W64)
  bar    : BitVec 4      -- the stream units whose later operations an `sbar` has put behind this one (R95)
  fenced : Bool          -- a `fence.vv` has put the accesses of later instructions behind this one (R308)
  quota  : Option Nat    -- how many elements of a `vamo` are performed next, before other agents' accesses (R326)
  deriving DecidableEq, Repr

/-- One convoy of the vector issue queue: its instructions not yet retired, its chain bit, whether the arbiter has bound
it and the lane groups it then holds (R152, R155), and whether its next instruction stalls. -/
structure Convoy where
  entries : List VEntry
  chain   : Bool
  bound   : Bool
  groups  : Nat
  stalled : Bool
  deriving DecidableEq, Repr

/-- A vector fault that has frozen the queue (R377): the faulting instruction's first parcel and restart element (R378),
and whether it has been taken as VECTOR_ASYNC (R324, R374). -/
structure VFault where
  cause : Cause
  tval  : W64
  free  : Bool
  pc    : W64
  elem  : Nat
  told  : Bool
  deriving DecidableEq, Repr

/-- A plane of the matrix array (R157): payload, scale area and format (none: zero plane). -/
structure Plane where
  payload : BitVec 524288
  scales  : BitVec 65536
  fmt     : VTy
  deriving DecidableEq, Repr

/-- One entry of a combine table (R348): operation words and rounding code; no words: unused. -/
structure Combine where
  ops : List (BitVec 64)
  rnd : BitVec 3
  deriving DecidableEq, Repr

/-- A kernel's declarations (Table 24.1). -/
structure Kernel where
  code   : Nat
  entry  : Nat
  vregs  : Nat
  gregs  : Nat
  pregs  : Nat
  nbar   : Nat
  ngrp   : Nat
  nst    : Nat
  ntl    : Nat
  loc    : Nat
  com    : Nat
  lift   : Nat
  trail  : Nat
  ws     : List Nat
  cmb    : List Combine
  deriving DecidableEq, Repr

/-- A register that carries a poison mark, or a parity error (R392): scalar, predicate, one logical lane of a vector register, a
control and status register, or a register of the user-event shadow bank or of the supervisor bank, by its place from g24 up. -/
inductive BadReg where
  | g (r : GReg) | p (r : PReg) | v (r lane : Nat) | csr (n : Nat) | user (k : Nat) | super (k : Nat)
  deriving DecidableEq, Repr

/-- States of a control thread (Table 24.6). -/
inductive CtStatus where
  | idle | bound | running | waiting | halted
  deriving DecidableEq, Repr

/-- The wake bits a waiting `wfe` has gathered (Table 20.2), where it stands and the common address it watches. A handler's own
`wfe` may wait while that of the code it interrupted still does: `level` is 0 outside every handler, 1 in a user-event handler, from
2 up in supervisor mode, by the traps being handled (R374). -/
structure Wfe where
  level : Nat
  pc  : W64
  addr : Option Nat
  tln : Bool
  wat : Bool
  oth : Bool
  deriving DecidableEq, Repr

/-- What a scalar access of common memory that is put off will do: a load, extended with its sign or not; or an atomic (Table 21.5;
notes/assumptions/5.md). -/
inductive SlowKind where
  | load (sx : Bool)
  | amo (op : AmoOp) (x : Nat)
  | cas (expect x : Nat)
  deriving DecidableEq, Repr

/-- A scalar access of common memory that has still to be performed: the instruction's address, the register it writes, its bytes. -/
structure Slow where
  pc   : W64
  dest : GReg
  addr : Nat
  size : Nat
  kind : SlowKind
  deriving DecidableEq, Repr

/-- Where a trap that interrupted an instruction found it (R375): the instruction, the lift copy at which it was to go on, and the
instruction of a convoy to which that copy belongs. -/
structure Back where
  pc     : W64
  resume : Option Nat
  item   : Nat
  deriving DecidableEq, Repr

/-- The state of one control thread (06_registers.md and the files its rules name). -/
structure CT where
  -- register files (Table 6.1)
  g       : Vector W64 32
  gtag    : Vector Tag 32
  p       : Vector PBits 128
  ptag    : Vector Tag 128
  v       : Vector VReg 48
  vtag    : Vector Tag 48
  uBank   : Vector (W64 × Tag) 8
  sBank   : Vector (W64 × Tag) 8
  -- control
  pc      : W64
  sup     : Bool
  inUev   : Bool
  inTrap  : Bool
  status  : CtStatus
  wasRun  : CtStatus
  back    : List Back          -- the instructions that the traps being handled interrupted, the latest first (R375)
  faulting : Bool              -- the last instruction ended, or waits to end, in a fault or a consumed error of its own (R374)
  late    : Bool               -- the `vrestq` at the program counter has found the queue not empty (R324)
  -- control and status registers (Table 6.4)
  frm     : BitVec 3
  fflags  : BitVec 6
  vl      : Nat
  vtype   : VType
  vstart  : BitVec 11
  spset   : BitVec 32
  uevec   : W64
  uecause : BitVec 8
  kparm   : W64
  bankwave : W64
  vlcap   : BitVec 4
  ctweight : BitVec 4
  tcause  : W64
  tval    : W64
  tpc     : W64
  -- nests, strip, memory
  loops   : List Loop
  lift    : Lift
  strip   : Option Strip
  again   : List (Nat × W64)   -- each `vsetvl` at which a rewound strip opens again, with the level of its code (R209, R396)
  held    : List StripWrite
  loc     : Mem
  locBad  : Marks                     -- poisoned bytes of the window (R393)
  locStuck : Marks                    -- bytes of it with a lasting fault, poisoned at each write (R398)
  regBad  : List BadReg               -- registers with an error that cannot be corrected (R392)
  trail   : Trail
  trailStuck : Marks                  -- places of the trail's ring with a lasting fault (R398)
  view    : Tab ViewByte
  viewStuck : Marks                   -- common bytes whose place in the view has one (R398; notes/assumptions/21.md)
  rp      : Tab (Nat × BitVec 16)
  out     : List Entry                -- entries of performed writes that wait for room in the trail (R79)
  marks   : List Entry                -- acquire markers that wait for earlier vector loads (R79)
  early   : Tab Byte                  -- common bytes that a queued vector load has read ahead (R329; notes/assumptions/5.md)
  acqd    : List Nat                  -- the trails that the task has acquired (Table 21.9; notes/assumptions/5.md)
  delay   : Bool                      -- the next scalar load or atomic of common memory is put off (notes/assumptions/5.md)
  slow    : Option Slow               -- the one that has been put off and has still to be performed (R329)
  owed    : Nat                       -- the tail that an executed `rel` has still to publish; 0 if none does (R306)
  putOff  : Bool                      -- the next `rel` is one of those (notes/assumptions/5.md)
  -- engines
  streams : Vector Stream 4
  tls     : Vector Timeline 8
  cmds    : List Cmd
  children : Tab Child
  -- vector unit and matrix array
  vq      : List Convoy
  frozen  : Option VFault
  deficit : Int
  passed  : Nat                -- convoys others of the core have issued while the head was ready (R156)
  front   : Plane
  shadow  : Plane
  planesValid : Bool
  planesSaved : Bool
  pushFront : VTy
  pushShadow : VTy
  xfer    : BitVec 32
  -- task
  kernel  : Kernel
  launch  : Option Nat
  task    : Option Nat
  imageIn : Bool
  col0    : Nat
  row0    : Nat
  band    : Nat
  chk     : Bool
  -- waiting and requests
  wfe     : List Wfe
  ranOut    : List (Nat × W64)   -- the `wmwait`s, by level and address, whose run has ended while they waited (R358)
  barw    : List BarWait
  preempt : Bool
  deriving DecidableEq, Repr

/-- A context image (R384): what it holds, its address in its die's context region, its size, the check word over it, and
whether it holds poisoned data (R386). -/
structure Image where
  ctx   : CT
  addr  : W64
  size  : Nat
  check : W64
  bad   : Bool
  deriving DecidableEq, Repr

/-- Arbiter, lanes and array of a core. -/
structure Core where
  well    : List Nat                -- the lane groups that have not retired, ascending: logical group i is the i-th (R112)
  spare   : Vector (Option Nat) 8   -- by physical group, the lane in whose place the spare lane is steered (R398)
  owner   : Option (Fin 4)
  colSpare : Option Nat   -- the matrix column in whose place the spare column is steered (R398)
  arrayFailed : Bool
  rows    : Nat          -- consecutive rows of the plane owner (R156)
  bin     : Nat
  cycle   : W64
  part    : Option (Fin 32)
  partId  : W64          -- what part_id read before a warm reset, which it survives (R10)
  mark    : Option (Fin 32)
  upset   : Option TestUnit            -- a lane or column whose next operation goes wrong (R394)
  tests   : List (TestUnit × Bool)     -- self-tests in progress, each with whether it follows a change of bin (R397, R398)
  deriving DecidableEq, Repr

/-- How many healthy lane groups a core has (R116). -/
def Core.healthy (k : Core) : Nat := k.well.length

/-- The physical lane group onto which a logical one is mapped: the logical groups ascend over the healthy ones (R112). -/
def Core.groupAt (k : Core) (i : Nat) : Nat := k.well[i]?.getD 8

/-- An error report (Table 27.3). -/
structure Report where
  kind  : Nat
  rew   : Bool
  cause : BitVec 8
  core  : Nat
  ct    : Nat
  fn    : Nat
  strip : W64
  loc   : ErrLoc
  deriving DecidableEq, Repr

/-- What a dump holds of a control thread (R418): its control and status registers, and its register files with their tags. -/
structure ThreadDump where
  ag   : Nat
  csrs : List W64
  g    : List (W64 × Tag)
  p    : List (PBits × Tag)
  v    : List (VReg × Tag)
  user : List (W64 × Tag)
  super : List (W64 × Tag)
  deriving DecidableEq, Repr

/-- The afterglow dump of a die (R418): what its header and its tables hold. -/
structure Dump where
  valid : Bool
  writing : Bool         -- firmware has still to write it to its end, the valid bit last
  cause : BitVec 8
  dclk  : W64
  more  : Nat
  cts   : List ThreadDump
  pubs  : List (Nat × Nat × BitVec 16)
  queues : List (Nat × List W64)
  ring  : List Report
  power : W64
  deriving DecidableEq, Repr

/-- An attestation report (Table 29.4). -/
structure Attestation where
  ver   : BitVec 16
  svn   : BitVec 16
  die   : BitVec 32
  meas  : Vector (BitVec 256) 4
  nonce : BitVec 256
  idh   : BitVec 256
  sig   : BitVec 19360
  deriving DecidableEq, Repr

/-- The state of one die. -/
structure Die where
  dclk    : W64
  cycle   : W64          -- the system core's clock counter
  supCode : Mem
  supLen  : Nat
  formB   : Nat
  -- Table 29.2
  capen   : Bool
  cclk    : Nat
  floor   : BitVec 8
  temp    : BitVec 8
  tcap    : BitVec 8
  ttrip   : BitVec 8
  hold    : BitVec 2     -- the stacks in self-refresh (R50)
  capd    : Bool
  thold   : Bool
  -- Table 27.1
  pol     : Bool
  minbin  : BitVec 3
  ring    : List Report   -- the entries of the report ring that are written, oldest first (R399)
  reports : Nat           -- reports written so far
  rowThr  : Nat
  rowCnt  : Tab (BitVec 14)   -- activations of a row (R51)
  rowBad  : List Nat          -- rows whose counter will fail its parity check
  meas    : Vector (BitVec 256) 4
  minVer  : BitVec 16
  recovery : Bool
  up      : Bool          -- the last step of Table 29.1 has been performed (R411)
  svn     : BitVec 16     -- the security version of the image that runs (R415)
  training : Vector (Option Training) 2   -- the records by which its stacks are trained (R412)
  attest  : Option Attestation
  stopped : Bool
  dump    : Option Dump
  deriving DecidableEq, Repr

/-- The last entry applied to a 16-byte granule of home (R88). -/
structure Granule where
  trail : Nat
  idx   : Nat
  gen   : BitVec 16
  deriving DecidableEq, Repr

/-- The `conflict` register (Table 4.4). -/
structure Conflict where
  valid : Bool
  more  : Bool
  trla  : BitVec 7
  trlb  : BitVec 7
  idxa  : BitVec 24
  idxb  : BitVec 24
  deriving DecidableEq, Repr

/-- A partition (R72, R76, R364); by priority, `lastQ` holds the queue served last and `turns` the queue whose turn stays with it
until its head binds (R353). -/
structure Partition where
  fn    : Nat
  locw  : Nat
  coms  : Nat
  trsz  : Nat
  crep  : Bool
  chk   : Bool
  common : List (Fin 32)
  home  : Mem
  homeBad : Marks        -- poisoned bytes of home (R393)
  grans : Tab Granule
  conflict : Conflict
  drained : Bool
  stopDispatch : Bool
  floor : BitVec 5
  ceil  : BitVec 6
  target : Nat
  prog  : Nat
  lastQ : Tab Nat
  turns : Tab Nat
  deriving DecidableEq, Repr

/-- A barrier (Table 4.5). -/
structure Barrier where
  expect  : Nat
  arrived : Nat
  group   : Nat
  phase   : BitVec 16
  pending : Nat
  err     : Bool
  deriving DecidableEq, Repr

/-- States of a launch (Table 24.5). -/
inductive LState where
  | accepted | staging | deciding | binding | running | done
  deriving DecidableEq, Repr

/-- A launch: its record, its function and queue (children: the parent's agent and slot), and its progress. -/
structure Launch where
  lrec   : LaunchRec
  params : List Byte
  fn     : Nat
  part   : Fin 32
  q      : Nat
  parent : Option (Nat × Nat)
  depth  : Nat
  state  : LState
  kernel : Kernel
  pval   : W64
  bound  : List Nat
  blocks : Tab (Nat × Nat)     -- by agent, the task ids left in its block: from the first, below the second (R360)
  groups : List (BitVec 128)
  bars   : Vector Barrier 16
  dealt  : Bool
  ended  : Nat
  ok     : Nat
  cause  : BitVec 8
  flt    : Bool
  kil    : Bool
  firstKill : Bool
  runs   : List Nat
  deriving DecidableEq, Repr

/-- A completion record (Table 24.4). -/
structure Completion where
  hseq   : W64
  dseq   : W64
  status : BitVec 3
  cause  : BitVec 8
  ntask  : BitVec 32
  pval   : W64
  deriving DecidableEq, Repr

/-- A queue: its control block (Table 24.3), its host block (Table 28.1), and the part's ring indices. -/
structure Queue where
  en    : Bool
  prio  : BitVec 2
  part  : BitVec 5
  err   : Bool
  acc   : W64
  dseq  : W64
  wdlim : BitVec 31
  wdcnt : BitVec 31
  expired : Bool
  wdtrap : Bool          -- its WATCHDOG trap waits for system control thread 0 (R368)
  pst   : BitVec 3
  pcause : BitVec 8
  sqb   : W64
  cqb   : W64
  sqsz  : BitVec 4
  cqsz  : BitVec 4
  cqh   : BitVec 16
  lhseq : W64
  head  : Nat
  tail  : Nat
  post  : Nat
  pend  : List Nat
  held  : List Completion
  posted : List Completion
  finished : List W64
  deriving DecidableEq, Repr

/-- States of a run (Table 2.1). -/
inductive RunState where
  | open_ | sealed | truncated
  deriving DecidableEq, Repr

/-- Who appends to a run: a stream unit or an engine command of an agent (R32, R68). -/
inductive Appender where
  | stream (ag : Nat) (n : Fin 4)
  | engine (ag : Nat) (tl : Fin 8) (num : Nat)
  deriving DecidableEq, Repr

/-- A reserved range of records (R32-R35). -/
structure Range where
  first : Nat
  count : Nat
  by_   : Appender
  pub   : Bool
  deriving DecidableEq, Repr

/-- A leaf entry (Table 2.5). -/
structure Leaf where
  frame : Nat
  tier  : Nat
  cow   : Bool
  skew  : Nat
  deriving DecidableEq, Repr

/-- A run descriptor (Table 2.1) with its page list (R36); record size in bytes. -/
structure Run where
  state  : RunState
  depth  : Bool
  dpend  : Bool
  recsz  : Nat
  root   : Nat
  die    : Nat
  length : Nat
  wmark  : Nat
  streams : Nat
  ranges : List Range
  ended  : Bool
  leaves : List Leaf
  dirs   : List Nat
  deriving DecidableEq, Repr

/-- A tier-0 frame in use: its reference count (R39), its 64 KiB of bytes, and the poisoned ones among them (R393). -/
structure Frame where
  count : Nat
  data  : Mem
  bad   : Marks
  deriving DecidableEq, Repr

/-- A queue frame written by `vsaveq` (R324): its bytes, and the queue they stand for. -/
structure SavedQueue where
  bytes : List Byte
  vq    : List Convoy
  frozen : Option VFault
  deriving DecidableEq, Repr

/-- A Lumen port's link (R409): whether it is down; of the receiver, the sequence number expected next, the flits in its
buffers, oldest first, and the channels it has stopped; of the sender, the sequence number of the next flit, the flits that
wait for a stopped channel, those sent and not yet acknowledged, the channels its peer has stopped, and every flit put on the
wire so far. -/
structure Link where
  down    : Bool
  rxSeq   : BitVec 12
  bufs    : List Flit
  halted  : BitVec 4
  txSeq   : BitVec 12
  wait    : List Flit
  sent    : List Flit
  stopped : BitVec 4
  wire    : List Flit
  deriving DecidableEq, Repr

/-- A notice sent to a command processor or to the physical function (R46, R50, R30, R407); or that a die's free list is empty
for a sort's intermediate runs (R69). -/
inductive Notice where
  | migration (fn handle rec page : Nat)
  | thermalHold (die : Nat)
  | isolation (fn : Nat)
  | freeList (fn die : Nat)
  deriving DecidableEq, Repr

/-- Error counters of a function (R400). -/
structure Counters where
  corr : W64
  uncorr : W64
  rew  : W64
  deriving DecidableEq, Repr

/-- An error of the hardware that comes about of itself (R392; notes/assumptions/21.md): bytes of a memory or a register
become poisoned; a single symbol goes wrong where an agent's next read, or its engine command's, will correct it; the next
operation of a lane or column of a core goes wrong; or an error of a fabric, a die edge or a shared buffer that no
consumption reaches (R400). And what an HBM controller does by itself (R51; notes/assumptions/24.md): it activates a row, or
a row's activation counter will fail its parity check. -/
inductive Upset where
  | bytes (p : Place) (a n : Nat)
  | reg (ag : Agent) (r : BadReg)
  | symbol (ag : Agent) (loc : ErrLoc) (word : Option TestUnit)
  | unit (core : Fin 32) (u : TestUnit)
  | shared (die : Fin 4) (corrected : Bool)
  | activation (die : Fin 4) (row : Nat)
  | rowParity (die : Fin 4) (row : Nat)
  deriving DecidableEq, Repr

/-- What moves next (notes/assumptions/5.md): an agent's scalar pipe; an event; so many elements or records of an engine
command that does not complete yet (R340; notes/assumptions/16.md); an error that comes about; common bytes that an agent's
queued vector load reads ahead of accesses it need not follow (Table 21.5); the choice that an agent's next `rel` publishes
later, behind an acquire that is not ordered after it (R306), or that its next scalar load or atomic of common memory is performed
later, behind accesses that are not ordered after it (R329); so many elements of the `vamo` that an agent retires next (R326); or
the end of the writing of a die's dump (R418). -/
inductive Act where
  | run (ag : Agent)
  | event (i : Instr)
  | work (ag : Agent) (tl : Fin 8) (num amount : Nat)
  | upset (u : Upset)
  | look (ag : Agent) (a n : Nat)
  | putOff (ag : Agent)
  | delay (ag : Agent)
  | amoPart (ct : CtId) (amount : Nat)
  | dumped (die : Fin 4)
  deriving DecidableEq, Repr

/-- The state of the package. -/
structure State where
  cts      : Vector CT 144
  cur      : Agent
  cores    : Vector Core 32
  dies     : Vector Die 4
  parts    : Vector (Option Partition) 32
  runs     : Tab Run
  frames   : Tab Frame
  pool     : Mem         -- the capacity tier, by address at the fabric port (R408)
  poolBase : Nat         -- base and size of the pool window (R408)
  poolSize : Nat
  windows  : Tab Nat     -- select words of the frame aperture (R407)
  newSkew  : BitVec 2    -- the skew that the supervisor has chosen for pages first allocated from here on (R38)
  poison   : List Nat    -- addresses of pages of it whose next read is delivered poisoned (R408)
  poolBad  : Marks       -- its poisoned bytes (R393, R408)
  homeStuck : Tab Marks  -- by core, bytes of its common slice with a lasting fault, by slice offset (R76, R398)
  stuck    : Tab Marks   -- by tier-0 frame, bytes with a lasting fault (R398)
  flips    : Tab (ErrLoc × Option TestUnit)  -- the single-symbol error that the next read meets, with the memory word it lies in: an agent's own, and from 144 up its engine commands' (R392)
  queues   : Tab Queue
  launches : Tab Launch
  nextLaunch : Nat
  counters : Tab Counters
  images   : Tab Image
  saved    : List SavedQueue
  notices  : List Notice
  routes   : Tab Nat
  links    : Vector Link 16
  device   : Nat
  sched    : List Act
  fresh    : Nat
  deriving DecidableEq, Repr

/-- Why the model stops where the spec gives no effect. -/
inductive Fault where
  /-- Raised by a step of a die or agent that has stopped after a fatal event (R418: the die stops every control
  thread). Safe: the hardware does nothing either. -/
  | dieStopped (die : Nat)
  deriving DecidableEq, Repr

/-- Why an instruction has no meaning in the model. -/
inductive Refusal where
  /-- Raised by an arm of `exec` whose instruction is not modelled. Safe: nothing is claimed of it. -/
  | notModelled (mnemonic : String)
  deriving DecidableEq, Repr

/-! ### Reset (R411) -/

/-- A vector register of zeros (notes/assumptions/1.md). -/
def VReg.zero : VReg := ⟨0, 0⟩
/-- `vtype` at reset: f32, group 1 (Table 6.5). -/
def VType.reset : VType := ⟨.f32, 0, 0, 0⟩
/-- An empty lift nest. -/
def Lift.empty : Lift := ⟨[], [0], [], none, 0⟩
/-- An empty trail of generation 0 (R77). -/
def Trail.empty : Trail := ⟨[], 0, 0, 0, []⟩
/-- A command that has done nothing yet. -/
def Progress.start (form : Nat) : Progress := ⟨[], 0, [], [], [], 0, form, 0, [], []⟩
/-- A closed stream (Table 5.1). -/
def Stream.closed : Stream := ⟨0, .closed, false, false, 0, 0, 0, 0, false⟩
/-- A timeline at task start (R281). -/
def Timeline.zero : Timeline := ⟨0, 0, false, false, 0, 0, 0, 0, 0, 0, 0, 0, [], []⟩
/-- A zero plane (R160). -/
def Plane.zero : Plane := ⟨0, 0, .none⟩
/-- No declarations: the kernel of a control thread that has run none. -/
def Kernel.none : Kernel := ⟨0, 0, 0, 0, 0, 0, 0, 0, 0, 0, 0, 0, 0, [], []⟩
/-- The declarations under which a system control thread runs: every scalar and predicate register; no vector register,
since the system core is scalar only (R17), and no stream and no timeline, since those of the package are the 512 and 1,024
of its user control threads (R26; notes/assumptions/6.md). -/
def Kernel.system : Kernel := { Kernel.none with gregs := 32, pregs := 128 }
/-- A barrier as it stands before `barinit` (Table 4.5). -/
def Barrier.zero : Barrier := ⟨0, 0, 0, 0, 0, false⟩
/-- No conflict recorded (Table 4.4). -/
def Conflict.zero : Conflict := ⟨false, false, 0, 0, 0, 0⟩

/-- A user control thread at reset. -/
def CT.reset : CT where
  g := Vector.replicate 32 0
  gtag := Vector.replicate 32 0
  p := Vector.replicate 128 0
  ptag := Vector.replicate 128 0
  v := Vector.replicate 48 VReg.zero
  vtag := Vector.replicate 48 0
  uBank := Vector.replicate 8 (0, 0)
  sBank := Vector.replicate 8 (0, 0)
  pc := 0
  sup := false
  inUev := false
  inTrap := false
  status := .idle
  wasRun := .idle
  back := []
  faulting := false
  late := false
  frm := 1
  fflags := 0
  vl := 0
  vtype := VType.reset
  vstart := 0
  spset := 0
  uevec := 0
  uecause := 0
  kparm := 0
  bankwave := 0
  vlcap := 8
  ctweight := 4
  tcause := 0
  tval := 0
  tpc := 0
  loops := []
  lift := Lift.empty
  strip := none
  again := []
  held := []
  loc := []
  locBad := []
  locStuck := []
  regBad := []
  trail := Trail.empty
  trailStuck := []
  view := []
  viewStuck := []
  rp := []
  out := []
  marks := []
  early := []
  acqd := []
  delay := false
  slow := none
  owed := 0
  putOff := false
  streams := Vector.replicate 4 Stream.closed
  tls := Vector.replicate 8 Timeline.zero
  cmds := []
  children := []
  vq := []
  frozen := none
  deficit := 0
  passed := 0
  front := Plane.zero
  shadow := Plane.zero
  planesValid := false
  planesSaved := false
  pushFront := .none
  pushShadow := .none
  xfer := 0
  kernel := Kernel.none
  launch := none
  task := none
  imageIn := false
  col0 := 0
  row0 := 0
  band := 0
  chk := false
  wfe := []
  ranOut := []
  barw := []
  preempt := false

/-- A system control thread at reset: in supervisor mode (R373), waiting in the firmware's idle loop (R372). -/
def CT.resetSystem : CT := { CT.reset with sup := true, kernel := Kernel.system }

/-- A core at reset (R18). -/
def Core.reset : Core := ⟨List.range 8, Vector.replicate 8 none, none, none, false, 0, 0, 0, none, 0, none, none, []⟩

/-- A link at reset: up, with nothing sent and nothing received (notes/assumptions/25.md). -/
def Link.reset : Link := ⟨false, 0, [], 0, 0, [], [], 0, []⟩

/-- A die at reset (Tables 27.1 and 29.2). -/
def Die.reset : Die where
  dclk := 0
  cycle := 0
  supCode := []
  supLen := 0
  formB := Config.formationDefault
  capen := true
  cclk := 40
  floor := 10
  temp := 0
  tcap := 95
  ttrip := 115
  hold := 0
  capd := false
  thold := false
  pol := false
  minbin := 3
  ring := []
  reports := 0
  rowThr := 2048
  rowCnt := []
  rowBad := []
  meas := Vector.replicate 4 0
  minVer := 0
  recovery := false
  up := false
  svn := 0
  training := Vector.replicate 2 none
  attest := none
  stopped := false
  dump := none

/-- A queue at reset (Tables 24.3 and 28.1). -/
def Queue.reset : Queue where
  en := false
  prio := 0
  part := 0
  err := false
  acc := 0
  dseq := 0
  wdlim := 0
  wdcnt := 0
  expired := false
  wdtrap := false
  pst := 0
  pcause := 0
  sqb := 0
  cqb := 0
  sqsz := 0
  cqsz := 0
  cqh := 0
  lhseq := 0
  head := 0
  tail := 0
  post := 0
  pend := []
  held := []
  posted := []
  finished := []

/-- The package right after cold reset (R411): no partition, no queue enabled, no run, every user control thread idle,
system control thread 0 of die 0 the agent that runs next. -/
def State.reset : State where
  cts := (Vector.replicate 128 CT.reset) ++ (Vector.replicate 16 CT.resetSystem)
  cur := 128
  cores := Vector.replicate 32 Core.reset
  dies := Vector.replicate 4 Die.reset
  parts := Vector.replicate 32 none
  runs := []
  frames := []
  pool := []
  poolBase := 0
  poolSize := 0
  windows := []
  newSkew := 1
  poison := []
  poolBad := []
  homeStuck := []
  stuck := []
  flips := []
  queues := []
  launches := []
  nextLaunch := 0
  counters := []
  images := []
  saved := []
  notices := []
  routes := []
  links := Vector.replicate 16 Link.reset
  device := 0
  sched := []
  fresh := 0

end Sys2Proof.Machine
end

