-- ==== Sys2Proof/Machine/Flags.lean ====
section
/-! DEFINITION. The sticky flags of `fflags` (Table 6.7): arithmetic only sets them (R125, R140). -/

namespace Sys2Proof.Machine

/-- The six flags: nx, uf, of, nv, dz, sat in bits 0-5. -/
abbrev Flags := BitVec 6

/-- No flag. -/
def noFlags : Flags := 0
/-- Inexact. -/
def fNx : Flags := BitVec.twoPow 6 0
/-- Underflow. -/
def fUf : Flags := BitVec.twoPow 6 1
/-- Overflow. -/
def fOf : Flags := BitVec.twoPow 6 2
/-- Invalid. -/
def fNv : Flags := BitVec.twoPow 6 3
/-- Divide by zero. -/
def fDz : Flags := BitVec.twoPow 6 4
/-- Integer saturation. -/
def fSat : Flags := BitVec.twoPow 6 5

/-- A flag raised under a condition. -/
def flagIf (b : Bool) (f : Flags) : Flags := if b then f else noFlags

/-- ORs raised flags into `fflags` (R162, R225). -/
def CT.raise (c : CT) (f : Flags) : CT := { c with fflags := c.fflags ||| f }

end Sys2Proof.Machine
end

