-- ==== Sys2Proof/WellFormed.lean ====
section
/-! DEFINITION. Which terms of `Instr` an encoding, or an event of the part, can stand for. -/

namespace Sys2Proof

/-- The vector instructions a header with this count field brings with it: none where n is 0 or 7 (R175). -/
def ConvoyHdr.body (h : ConvoyHdr) : Nat := if h.n.toNat = 7 then 0 else h.n.toNat

/-- A queue of the part: 16 queues of each of the functions 0-384 (R352). -/
def queueOk (q : Nat) : Bool := q < 6160

/-- Whether a term can stand for an encoding or an event. Sign extension is legal only on loads of sizes b, h and w
(R174); a convoy has as many words as its header says (R175); the rows that share a vector opcode are told apart by
their fn bits (Table 14.1); events name queues and functions that exist. -/
def Instr.wellFormed : Instr → Bool
  | .lds _ _ sz sx _ | .ldc _ _ sz sx _ => !sx || sz != .d
  | .convoyHeader h ws => ws.length == h.body
  | .vbscaleGet f | .vexpnGet f => !f.fn.getLsbD 0
  | .vbscaleSet f | .vexpnScl f => f.fn.getLsbD 0
  | .vtailGet f => !f.fn.getLsbD 0 && !f.fn.getLsbD 1
  | .vtailSet f => f.fn.getLsbD 0 && !f.fn.getLsbD 1
  | .vtailClr f => !f.fn.getLsbD 0 && f.fn.getLsbD 1
  | .sqDoorbell q _ | .recordAccept q _ _ | .cqHeadWrite q _ | .queueEnable q _ | .phseq q _ | .launchHead q
  | .stagingComplete q | .launchBind q | .watchdog q => queueOk q
  | .functionLevelReset fn => 0 < fn && fn ≤ 384
  | .partitionCreate _ fn _ _ => fn ≤ 384
  | .runTableHostWrite fn handle => fn ≤ 384 && handle < 2 ^ 20
  | _ => true

end Sys2Proof
end

