-- ==== Sys2Proof/Decode.lean ====
section
/-! DEFINITION. The decoder (10_encoding_and_opcode_map.md R170-R180), total on any parcels and rejecting by name, and
the encoder written from the same tables. Fields are read from the parcel's number with `fld`. -/

namespace Sys2Proof

/-- Why an encoding is no instruction. -/
inductive DecodeError where
  /-- A reserved major opcode (Tables 10.4 and 10.10). -/
  | reservedOpcode
  /-- An unlisted selector or field code (Table 10.5). -/
  | reservedCode
  /-- A nonzero reserved or unused field (R172). -/
  | unusedField
  /-- Nonzero bits [5:0] of a convoy header (R175). -/
  | headerBits
  /-- Fewer parcels than the unit has (R171). -/
  | truncated
  deriving DecidableEq, Repr

/-- Scalar register named at bit `lo`. -/
def gAt (w lo : Nat) : GReg := Fin.ofNat 32 (fld w lo 5)
/-- Predicate register named at bit `lo`. -/
def pAt (w lo : Nat) : PReg := Fin.ofNat 128 (fld w lo 7)
/-- Immediate of `n` bits at bit `lo`. -/
def bAt (n w lo : Nat) : BitVec n := BitVec.ofNat n (fld w lo n)
/-- Timeline in sub[2:0]. -/
def tlAt (w : Nat) : Fin 8 := Fin.ofNat 8 (fld w 0 3)
/-- Flag at bit `lo`. -/
def flagAt (w lo : Nat) : Bool := fld w lo 1 == 1

/-- An instruction whose unused fields, `bits` read together, must be zero (R172). -/
def ifZero (bits : Nat) (i : Instr) : Except DecodeError Instr :=
  if bits = 0 then .ok i else .error .unusedField

/-- Code of a compare condition (Table 10.5). -/
def ccOf : Nat → Option Cc
  | 0 => some .eq | 1 => some .ne | 2 => some .lt | 3 => some .ltn | 4 => some .ge | 5 => some .gen | _ => none
/-- The condition's code. -/
def Cc.code : Cc → Nat
  | .eq => 0 | .ne => 1 | .lt => 2 | .ltn => 3 | .ge => 4 | .gen => 5

/-- Code of an access size (Table 10.5). -/
def szOf : Nat → Option MSize
  | 0 => some .b | 1 => some .h | 2 => some .w | 3 => some .d | _ => none
/-- The size's code. -/
def MSize.code : MSize → Nat
  | .b => 0 | .h => 1 | .w => 2 | .d => 3

/-- Code of an atomic operation (Table 10.5). -/
def amoOf : Nat → Option AmoOp
  | 0 => some .add | 1 => some .and | 2 => some .or | 3 => some .xor | 4 => some .min | 5 => some .max
  | 6 => some .minn | 7 => some .maxn | 8 => some .swap | 9 => some .fadd | _ => none
/-- The atomic operation's code. -/
def AmoOp.code : AmoOp → Nat
  | .add => 0 | .and => 1 | .or => 2 | .xor => 3 | .min => 4 | .max => 5 | .minn => 6 | .maxn => 7 | .swap => 8
  | .fadd => 9

/-- Code of a fold (Table 16.6). -/
def lredOf : Nat → LredOp
  | 0 => .add | 1 => .min | 2 => .max | 3 => .minn | 4 => .maxn | 5 => .and | 6 => .or | _ => .xor
/-- The fold's code. -/
def LredOp.code : LredOp → Nat
  | .add => 0 | .min => 1 | .max => 2 | .minn => 3 | .maxn => 4 | .and => 5 | .or => 6 | .xor => 7

/-- Element type of a code (Table 10.8). -/
def tyOf : Nat → VTy
  | 0 => .none | 1 => .i8 | 2 => .i16 | 3 => .i32 | 4 => .n8 | 5 => .n16 | 6 => .n32 | 7 => .bf16 | 8 => .f16
  | 9 => .f32 | 10 => .e4m3 | 11 => .e5m2 | 12 => .ds4 | 13 => .ds8 | 14 => .mx4 | _ => .record
/-- The type's code. -/
def VTy.code : VTy → Nat
  | .none => 0 | .i8 => 1 | .i16 => 2 | .i32 => 3 | .n8 => 4 | .n16 => 5 | .n32 => 6 | .bf16 => 7 | .f16 => 8
  | .f32 => 9 | .e4m3 => 10 | .e5m2 => 11 | .ds4 => 12 | .ds8 => 13 | .mx4 => 14 | .record => 15

/-! ### Scalar formats -/

/-- Format A: the register-register operations, opcodes 0x00-0x16 (Table 11.1); fn, and gb where unused, are zero. -/
def decodeA (op w : Nat) : Except DecodeError Instr :=
  let d := gAt w 20
  let a := gAt w 15
  let b := gAt w 10
  let fn := fld w 0 10
  match op with
  | 0 => ifZero fn (.add d a b)
  | 1 => ifZero fn (.sub d a b)
  | 2 => ifZero fn (.mul d a b)
  | 3 => ifZero fn (.mulh d a b)
  | 4 => ifZero fn (.mulhn d a b)
  | 5 => ifZero fn (.div d a b)
  | 6 => ifZero fn (.divn d a b)
  | 7 => ifZero fn (.rem d a b)
  | 8 => ifZero fn (.remn d a b)
  | 9 => ifZero fn (.and d a b)
  | 10 => ifZero fn (.or d a b)
  | 11 => ifZero fn (.xor d a b)
  | 12 => ifZero fn (.andn d a b)
  | 13 => ifZero fn (.shl d a b)
  | 14 => ifZero fn (.shr d a b)
  | 15 => ifZero fn (.sha d a b)
  | 16 => ifZero fn (.min d a b)
  | 17 => ifZero fn (.max d a b)
  | 18 => ifZero fn (.minn d a b)
  | 19 => ifZero fn (.maxn d a b)
  | 20 => ifZero (fld w 0 15) (.clz d a)
  | 21 => ifZero (fld w 0 15) (.ctz d a)
  | 22 => ifZero (fld w 0 15) (.popc d a)
  | _ => .error .reservedOpcode

/-- Format I: the register-immediate operations, opcodes 0x17-0x1F (Table 11.3). -/
def decodeI (op w : Nat) : Except DecodeError Instr :=
  let d := gAt w 20
  let a := gAt w 15
  let i := bAt 15 w 0
  match op with
  | 0x17 => .ok (.addi d a i)
  | 0x18 => .ok (.andi d a i)
  | 0x19 => .ok (.ori d a i)
  | 0x1A => .ok (.xori d a i)
  | 0x1B => ifZero (fld w 6 9) (.shli d a (bAt 6 w 0))
  | 0x1C => ifZero (fld w 6 9) (.shri d a (bAt 6 w 0))
  | 0x1D => ifZero (fld w 6 9) (.shai d a (bAt 6 w 0))
  | 0x1E => ifZero (fld w 15 5) (.lui d i)
  | 0x1F => ifZero (fld w 15 5) (.li d i)
  | _ => .error .reservedOpcode

/-- Formats P and PI: compares and predicate operations, opcodes 0x20-0x27 (R191-R193). -/
def decodeP (op w : Nat) : Except DecodeError Instr :=
  let cc := fld w 22 3
  let d := pAt w 15
  let a := pAt w 8
  let b := pAt w 1
  let odd := fld w 0 1
  let one := fld w 0 8
  match op with
  | 0x20 => match ccOf cc with
    | some c => ifZero (fld w 0 5) (.cmp c d (gAt w 10) (gAt w 5))
    | none => .error .reservedCode
  | 0x21 => match ccOf cc with
    | some c => .ok (.cmpi c d (gAt w 10) (bAt 10 w 0))
    | none => .error .reservedCode
  | 0x22 => ifZero (cc + odd) (.pand d a b)
  | 0x23 => ifZero (cc + odd) (.por d a b)
  | 0x24 => ifZero (cc + odd) (.pxor d a b)
  | 0x25 => ifZero (cc + one) (.pnot d a)
  | 0x26 => ifZero (cc + one) (.pmov d a)
  | 0x27 => match cc with
    | 0 => ifZero one (.pall d a)
    | 1 => ifZero one (.pany d a)
    | _ => .error .reservedCode
  | _ => .error .reservedOpcode

/-- Formats J, B and X of control flow, opcodes 0x28-0x2F (R194-R199). -/
def decodeC (op w : Nat) : Except DecodeError Instr :=
  match op with
  | 0x28 => .ok (.br (bAt 25 w 0))
  | 0x29 => .ok (.bp (pAt w 18) (flagAt w 17) (bAt 17 w 0))
  | 0x2A => .ok (.call (bAt 25 w 0))
  | 0x2B => ifZero (fld w 20 5 + fld w 0 15) (.ret (gAt w 15))
  | 0x2C => ifZero (fld w 0 15) (.jr (gAt w 20) (gAt w 15))
  | 0x2D => .ok (.loopn (gAt w 20) (gAt w 15) (bAt 15 w 0))
  | 0x2E => ifZero (fld w 7 18) (.loope (pAt w 0))
  | 0x2F => ifZero (fld w 0 25) .nop
  | _ => .error .reservedOpcode

/-- Format M: scalar memory, opcodes 0x30-0x33 (R201); sx is legal only on loads of sizes b, h and w (R174). -/
def decodeM (op w : Nat) : Except DecodeError Instr :=
  let d := gAt w 20
  let a := gAt w 15
  let i := bAt 11 w 0
  let sx := flagAt w 11
  match szOf (fld w 12 3) with
  | none => .error .reservedCode
  | some sz =>
    match op with
    | 0x30 => if sx && sz == .d then .error .reservedCode else .ok (.lds d a sz sx i)
    | 0x31 => if sx then .error .reservedCode else .ok (.sts d a sz i)
    | 0x32 => if sx && sz == .d then .error .reservedCode else .ok (.ldc d a sz sx i)
    | 0x33 => if sx then .error .reservedCode else .ok (.stc d a sz i)
    | _ => .error .reservedOpcode

/-- Atomics and ordering, opcodes 0x38-0x3F (R304-R312). -/
def decodeX3 (op w : Nat) : Except DecodeError Instr :=
  let d := gAt w 20
  let a := gAt w 15
  let b := gAt w 10
  let sub := fld w 0 10
  match op with
  | 0x38 => match amoOf (fld w 0 4) with
    | some o => ifZero (fld w 7 3) (.amo o (flagAt w 4) (flagAt w 5) (flagAt w 6) d a b)
    | none => .error .reservedCode
  | 0x39 => ifZero (fld w 7 3 + fld w 0 4) (.cas (flagAt w 4) (flagAt w 5) (flagAt w 6) d a b)
  | 0x3A => ifZero (fld w 0 25) .rel
  | 0x3B => match sub with
    | 0 => ifZero (fld w 20 5 + fld w 10 5) (.acq a)
    | 1 => ifZero (fld w 10 15) .acqPartition
    | _ => .error .reservedCode
  | 0x3C => ifZero (fld w 20 5 + fld w 0 15) (.acqG a)
  | 0x3D => match fld w 7 3 with
    | 0 => ifZero (fld w 10 15 + fld w 0 7) .fenceSv
    | 1 => ifZero (fld w 10 15 + fld w 0 7) .fenceVs
    | 2 => ifZero (fld w 10 15 + fld w 0 7) .fenceVv
    | 3 => ifZero (fld w 20 5 + fld w 1 6) (.fenceR (flagAt w 0) a b)
    | _ => .error .reservedCode
  | 0x3E => ifZero (fld w 4 21) (.sbar (bAt 4 w 0))
  | 0x3F => match sub with
    | 0 => ifZero (fld w 10 10) (.wfe d)
    | 1 => .ok (.wfeWatch d a b)
    | _ => .error .reservedCode
  | _ => .error .reservedOpcode

/-- System instructions, opcodes 0x40-0x4B (R320-R325). -/
def decodeX4 (op w : Nat) : Except DecodeError Instr :=
  let d := gAt w 20
  let a := gAt w 15
  let c := bAt 12 w 0
  match op with
  | 0x40 => ifZero (fld w 10 15) (.trap (bAt 10 w 0))
  | 0x41 => ifZero (fld w 0 25) .tret
  | 0x42 => ifZero (fld w 0 25) .uret
  | 0x43 => ifZero (fld w 12 8) (.csrr d c)
  | 0x44 => ifZero (fld w 12 3) (.csrw d a c)
  | 0x45 => ifZero (fld w 12 3) (.csrs d a c)
  | 0x46 => ifZero (fld w 12 3) (.csrc d a c)
  | 0x47 => ifZero (fld w 0 20) (.yield d)
  | 0x48 => ifZero (fld w 0 15) (.vsaveq d a)
  | 0x49 => ifZero (fld w 0 15) (.vrestq d a)
  | 0x4A => match fld w 0 10 with
    | 0 => ifZero (fld w 10 5) (.pdrain d a)
    | 1 => ifZero (fld w 10 5) (.pdrainGo d a)
    | _ => .error .reservedCode
  | 0x4B => ifZero (fld w 20 5 + fld w 0 15) (.preset a)
  | _ => .error .reservedOpcode

/-- Runs, engines and timelines, opcodes 0x50-0x5C (17_instructions_runs_sort_and_engines.md). -/
def decodeX5 (op w : Nat) : Except DecodeError Instr :=
  let d := gAt w 20
  let a := gAt w 15
  let b := gAt w 10
  let kw := flagAt w 3
  let t := tlAt w
  match op with
  | 0x50 => match fld w 7 3 with
    | 0 => ifZero (fld w 10 5 + fld w 3 4) (.rnew d a (flagAt w 2) (bAt 2 w 0))
    | 1 => ifZero (fld w 10 5 + fld w 0 7) (.rseal d a)
    | 2 => ifZero (fld w 10 5 + fld w 0 7) (.rfork d a)
    | 3 => ifZero (fld w 20 5 + fld w 10 5 + fld w 0 7) (.rdrop a)
    | 4 => if fld w 2 1 = 0 then ifZero (fld w 10 5 + fld w 3 4) (.rinfo d a (bAt 2 w 0))
      else ifZero (fld w 10 10 + fld w 5 2) (.rinfoStream d (bAt 2 w 3) (bAt 2 w 0))
    | _ => .error .reservedCode
  | 0x51 => if fld w 2 1 = 0 then ifZero (fld w 3 7) (.ropenR d a b (bAt 2 w 0))
      else ifZero (fld w 20 5 + fld w 10 5 + fld w 3 7) (.ropenA a (bAt 2 w 0))
  | 0x52 => ifZero (fld w 2 23) (.rclose (bAt 2 w 0))
  | 0x53 => ifZero (fld w 7 8) (.sortr d a (bAt 3 w 4) kw t)
  | 0x54 => ifZero (fld w 7 3) (.mrgr d a b (bAt 3 w 4) kw t)
  | 0x55 => ifZero (fld w 6 4) (.joinr d a b (bAt 2 w 4) kw t)
  | 0x56 => ifZero (fld w 20 5 + fld w 3 12) (.cpy a t)
  | 0x57 => ifZero (fld w 3 7) (.enqw d a b t)
  | 0x58 => ifZero (fld w 5 5) (.rmig d a b (bAt 2 w 3) t)
  | 0x59 => ifZero (fld w 20 5 + fld w 3 12) (.stage a t)
  | 0x5A => if fld w 3 1 = 0 then ifZero (fld w 20 5 + fld w 4 11) (.tlwait a t)
      else ifZero (fld w 20 5 + fld w 4 11) (.tlwaitEv a t)
  | 0x5B => ifZero (fld w 7 13) (.tlget d (flagAt w 6) (bAt 3 w 3) t)
  | 0x5C => ifZero (fld w 20 5 + fld w 6 9) (.tlnotify a (Fin.ofNat 8 (fld w 3 3)) t)
  | _ => .error .reservedOpcode

/-- Barriers, collectives, tasks, vector configuration and the lift group, opcodes 0x5D-0x65. -/
def decodeX6 (op w : Nat) : Except DecodeError Instr :=
  let d := gAt w 20
  let a := gAt w 15
  let b := gAt w 10
  let n : Fin 16 := Fin.ofNat 16 (fld w 0 4)
  match op with
  | 0x5D => match fld w 7 3 with
    | 0 => ifZero (fld w 20 5 + fld w 4 3) (.barinit a b n)
    | 1 => ifZero (fld w 10 10 + fld w 4 3) (.bararr d n)
    | 2 => ifZero (fld w 20 5 + fld w 10 5 + fld w 4 3) (.barwait a n)
    | 3 => ifZero (fld w 20 5 + fld w 10 5 + fld w 4 3) (.baradd a n)
    | _ => .error .reservedCode
  | 0x5E => ifZero (fld w 20 5 + fld w 3 12) (.coll a (tlAt w))
  | 0x60 => match fld w 7 3 with
    | 0 => ifZero (fld w 0 7) (.panel d a b)
    | 1 => ifZero (fld w 10 5 + fld w 0 7) (.spawn d a)
    | 2 => ifZero (fld w 10 5 + fld w 0 7) (.join d a)
    | 3 => ifZero (fld w 10 15 + fld w 0 7) .tdone
    | 4 => ifZero (fld w 10 15 + fld w 2 5) (.wmset (bAt 2 w 0))
    | 5 => ifZero (fld w 0 7) (.wmwait d a b)
    | 6 => ifZero (fld w 10 5 + fld w 0 7) (.ctkill d a)
    | _ => .error .reservedCode
  | 0x61 => ifZero (fld w 4 11) (.vsetvl d a (bAt 4 w 0))
  | 0x62 => ifZero (fld w 14 6) (.vsetf d (bAt 6 w 8) (bAt 4 w 4) (tyOf (fld w 0 4)))
  | 0x63 => ifZero (fld w 2 18) (.vsetg d (bAt 2 w 0))
  | 0x64 => ifZero (fld w 20 5) (.lift a (bAt 15 w 0))
  | 0x65 => match fld w 7 3 with
    | 0 => ifZero (fld w 10 15 + fld w 0 7) .lend
    | 1 => ifZero (fld w 10 10 + fld w 2 5) (.lidx d (bAt 2 w 0))
    | 2 => ifZero (fld w 10 5 + fld w 3 4) (.lred d a (lredOf (fld w 0 3)))
    | 3 => ifZero (fld w 0 7) (.lpick d a b)
    | 4 => if fld w 10 5 < 3 then ifZero (fld w 15 5) (.ltag d (Fin.ofNat 3 (fld w 10 5)) (bAt 7 w 0))
      else .error .reservedCode
    | 5 => ifZero (fld w 10 15) (.lact (pAt w 0))
    | _ => .error .reservedCode
  | _ => .error .reservedOpcode

/-- A one-parcel scalar instruction (Table 10.4). -/
def decodeScalar (w : Nat) : Except DecodeError Instr :=
  let op := fld w 25 7
  if op ≤ 0x16 then decodeA op w
  else if op ≤ 0x1F then decodeI op w
  else if op ≤ 0x27 then decodeP op w
  else if op ≤ 0x2F then decodeC op w
  else if op ≤ 0x33 then decodeM op w
  else if op ≤ 0x37 then .error .reservedOpcode
  else if op ≤ 0x3F then decodeX3 op w
  else if op ≤ 0x4B then decodeX4 op w
  else if op ≤ 0x4F then .error .reservedOpcode
  else if op ≤ 0x5C then decodeX5 op w
  else if op ≤ 0x65 then decodeX6 op w
  else .error .reservedOpcode

/-- A long form from its two parcels: opcodes 0x78-0x7A, sub zero (R174). -/
def decodeLong (w imm : Nat) : Except DecodeError Instr :=
  let d := gAt w 20
  let i := bAt 32 imm 0
  match fld w 25 7 with
  | 0x78 => ifZero (fld w 0 20) (.liLong d i)
  | 0x79 => ifZero (fld w 0 20) (.luiLong d i)
  | 0x7A => ifZero (fld w 0 20) (.addiLong d i)
  | _ => .error .reservedOpcode

/-- The fields of a convoy header (Table 10.6). -/
def decodeHeader (w : Nat) : ConvoyHdr :=
  ⟨bAt 3 w 25, bAt 3 w 22, bAt 3 w 19, bAt 3 w 16, bAt 3 w 13, bAt 3 w 10, bAt 3 w 7, flagAt w 6⟩

/-! ### The vector format -/

/-- The fields of Table 10.7. -/
def vecFields (w : Nat) : VFields :=
  ⟨bAt 6 w 50, bAt 6 w 44, bAt 6 w 38, bAt 6 w 32, pAt w 25, flagAt w 24, tyOf (fld w 20 4), tyOf (fld w 16 4),
    bAt 3 w 13, bAt 3 w 10, flagAt w 9, bAt 9 w 0⟩

/-- Vector memory opcodes 0x00-0x0F (Table 10.10). -/
def decodeVMem (op : Nat) (f : VFields) : Except DecodeError Instr :=
  match op with
  | 0x00 => .ok (.vld f)
  | 0x01 => .ok (.vlds f)
  | 0x02 => .ok (.vldx f)
  | 0x03 => .ok (.vldseg f)
  | 0x04 => .ok (.vst f)
  | 0x05 => .ok (.vsts f)
  | 0x06 => .ok (.vstx f)
  | 0x07 => .ok (.vstseg f)
  | 0x08 => .ok (.vldc f)
  | 0x09 => .ok (.vstc f)
  | 0x0A => .ok (.vspill f)
  | 0x0B => .ok (.vfill f)
  | 0x0C => .ok (.rld f)
  | 0x0D => .ok (.rapp f)
  | 0x0E => .ok (.vamo f)
  | 0x0F => .ok (.vldb f)
  | _ => .error .reservedOpcode

/-- Vector integer opcodes 0x20-0x33. -/
def decodeVInt (op : Nat) (f : VFields) : Except DecodeError Instr :=
  match op with
  | 0x20 => .ok (.vadd f)
  | 0x21 => .ok (.vsub f)
  | 0x22 => .ok (.vmul f)
  | 0x23 => .ok (.vmulh f)
  | 0x24 => .ok (.vmacc f)
  | 0x25 => .ok (.vwmul f)
  | 0x26 => .ok (.vwmacc f)
  | 0x27 => .ok (.vsadd f)
  | 0x28 => .ok (.vssub f)
  | 0x29 => .ok (.vand f)
  | 0x2A => .ok (.vor f)
  | 0x2B => .ok (.vxor f)
  | 0x2C => .ok (.vshl f)
  | 0x2D => .ok (.vshr f)
  | 0x2E => .ok (.vsha f)
  | 0x2F => .ok (.vnshr f)
  | 0x30 => .ok (.vmin f)
  | 0x31 => .ok (.vmax f)
  | 0x32 => .ok (.vabs f)
  | 0x33 => .ok (.vcmp f)
  | _ => .error .reservedOpcode

/-- Vector float opcodes 0x40-0x4D. -/
def decodeVFloat (op : Nat) (f : VFields) : Except DecodeError Instr :=
  match op with
  | 0x40 => .ok (.vfadd f)
  | 0x41 => .ok (.vfsub f)
  | 0x42 => .ok (.vfmul f)
  | 0x43 => .ok (.vfma f)
  | 0x44 => .ok (.vfnma f)
  | 0x45 => .ok (.vfdiv f)
  | 0x46 => .ok (.vfmin f)
  | 0x47 => .ok (.vfmax f)
  | 0x48 => .ok (.vfabs f)
  | 0x49 => .ok (.vfneg f)
  | 0x4A => .ok (.vfcmp f)
  | 0x4B => .ok (.vcmpt f)
  | 0x4C => .ok (.vfsqrt f)
  | 0x4D => .ok (.vsfu f)
  | _ => .error .reservedOpcode

/-- Conversion, permutation and reduction opcodes 0x60-0x7F; fn tells the rows of one opcode apart (Table 14.1). -/
def decodeVConv (op : Nat) (f : VFields) : Except DecodeError Instr :=
  match op with
  | 0x60 => .ok (.vcvt f)
  | 0x61 => .ok (.vrnd f)
  | 0x62 => .ok (if f.fn.getLsbD 0 then .vbscaleSet f else .vbscaleGet f)
  | 0x63 => .ok (.vbquant f)
  | 0x64 => .ok (if f.fn.getLsbD 0 then .vexpnScl f else .vexpnGet f)
  | 0x65 => if f.fn.getLsbD 1 then (if f.fn.getLsbD 0 then .error .reservedCode else .ok (.vtailClr f))
      else .ok (if f.fn.getLsbD 0 then .vtailSet f else .vtailGet f)
  | 0x66 => .ok (.vmv f)
  | 0x67 => .ok (.vsel f)
  | 0x68 => .ok (.vbcast f)
  | 0x69 => .ok (.vextr f)
  | 0x6A => .ok (.vins f)
  | 0x6B => .ok (.viota f)
  | 0x6C => .ok (.vcompress f)
  | 0x6D => .ok (.vexpand f)
  | 0x6E => .ok (.vperm f)
  | 0x6F => .ok (.vpush f)
  | 0x70 => .ok (.vslideup f)
  | 0x71 => .ok (.vslidedn f)
  | 0x72 => .ok (.vrev f)
  | 0x73 => .ok (.vzip f)
  | 0x74 => .ok (.vunzip f)
  | 0x75 => .ok (.vredsum f)
  | 0x76 => .ok (.vfredsum f)
  | 0x77 => .ok (.vredmin f)
  | 0x78 => .ok (.vredmax f)
  | 0x79 => .ok (.vpopc f)
  | 0x7A => .ok (.vfirst f)
  | 0x7B => .ok (.vpand f)
  | 0x7C => .ok (.vpor f)
  | 0x7D => .ok (.vpxor f)
  | 0x7E => .ok (.vpnot f)
  | 0x7F => .ok (.vpset f)
  | _ => .error .reservedOpcode

/-- Matrix opcodes 0x80-0x84. -/
def decodeVMatrix (op : Nat) (f : VFields) : Except DecodeError Instr :=
  match op with
  | 0x80 => .ok (.mld f)
  | 0x81 => .ok (.mswap f)
  | 0x82 => .ok (.mxrO f)
  | 0x83 => .ok (.mxrF f)
  | 0x84 => .ok (.mstat f)
  | _ => .error .reservedOpcode

/-- Vector sort and merge opcodes 0x90-0x97. -/
def decodeVSort (op : Nat) (f : VFields) : Except DecodeError Instr :=
  match op with
  | 0x90 => .ok (.vsort f)
  | 0x91 => .ok (.vsortk f)
  | 0x92 => .ok (.vmrg f)
  | 0x93 => .ok (.vsegred f)
  | 0x94 => .ok (.vuniq f)
  | 0x95 => .ok (.vtag f)
  | 0x96 => .ok (.vsplit f)
  | 0x97 => .ok (.vsrch f)
  | _ => .error .reservedOpcode

/-- A vector instruction from its 64 bits (R176, R179). -/
def decodeVec (w : Nat) : Except DecodeError Instr :=
  let op := fld w 56 8
  let f := vecFields w
  if op < 0x20 then decodeVMem op f
  else if op < 0x40 then decodeVInt op f
  else if op < 0x60 then decodeVFloat op f
  else if op < 0x80 then decodeVConv op f
  else if op < 0x90 then decodeVMatrix op f
  else decodeVSort op f

/-! ### Units -/

/-- How many parcels the unit that begins with this parcel has (R170); a header of n 0 or 7 brings none with it. -/
def unitParcels (w : Nat) : Nat :=
  if fld w 28 4 = 14 then 1 + 2 * (decodeHeader w).body
  else if fld w 28 4 = 15 then 2
  else 1

/-- The 64-bit words of pairs of parcels, the lower half first (R171). -/
def vecWords : List (BitVec 32) → List (BitVec 64)
  | lo :: hi :: rest => (hi ++ lo) :: vecWords rest
  | _ => []

/-- Decodes the unit at the head of the parcels, and says how many parcels it has (R170). -/
def decode (ps : List (BitVec 32)) : Except DecodeError (Instr × Nat) :=
  match ps with
  | [] => .error .truncated
  | p :: rest =>
    let w := p.toNat
    let n := unitParcels w
    if rest.length + 1 < n then .error .truncated
    else if fld w 28 4 = 14 then
      if fld w 0 6 = 0 then .ok (.convoyHeader (decodeHeader w) (vecWords (rest.take (n - 1))), n)
      else .error .headerBits
    else if fld w 28 4 = 15 then
      match rest with
      | imm :: _ => (decodeLong w imm.toNat).map (fun i => (i, 2))
      | [] => .error .truncated
    else (decodeScalar w).map (fun i => (i, 1))

/-! ### The encoder -/

/-- Fields of format A, I and X: opcode, gd, ga, gb and the low ten bits. -/
def encA (op : Nat) (d a b : GReg) (fn : Nat) : Nat :=
  op * 2 ^ 25 + d.val * 2 ^ 20 + a.val * 2 ^ 15 + b.val * 2 ^ 10 + fn
/-- Format I. -/
def encI (op : Nat) (d a : GReg) (i : Nat) : Nat := op * 2 ^ 25 + d.val * 2 ^ 20 + a.val * 2 ^ 15 + i
/-- Predicate-reading format P. -/
def encP (op cc : Nat) (d a b : PReg) : Nat :=
  op * 2 ^ 25 + cc * 2 ^ 22 + d.val * 2 ^ 15 + a.val * 2 ^ 8 + b.val * 2
/-- Format M. -/
def encM (op : Nat) (d a : GReg) (sz : MSize) (sx : Bool) (i : BitVec 11) : Nat :=
  op * 2 ^ 25 + d.val * 2 ^ 20 + a.val * 2 ^ 15 + sz.code * 2 ^ 12 + b2n sx * 2 ^ 11 + i.toNat

/-- The parcel of a one-parcel scalar instruction; none for every other step. -/
def encodeScalar : Instr → Option Nat
  | .add d a b => some (encA 0x00 d a b 0)
  | .sub d a b => some (encA 0x01 d a b 0)
  | .mul d a b => some (encA 0x02 d a b 0)
  | .mulh d a b => some (encA 0x03 d a b 0)
  | .mulhn d a b => some (encA 0x04 d a b 0)
  | .div d a b => some (encA 0x05 d a b 0)
  | .divn d a b => some (encA 0x06 d a b 0)
  | .rem d a b => some (encA 0x07 d a b 0)
  | .remn d a b => some (encA 0x08 d a b 0)
  | .and d a b => some (encA 0x09 d a b 0)
  | .or d a b => some (encA 0x0A d a b 0)
  | .xor d a b => some (encA 0x0B d a b 0)
  | .andn d a b => some (encA 0x0C d a b 0)
  | .shl d a b => some (encA 0x0D d a b 0)
  | .shr d a b => some (encA 0x0E d a b 0)
  | .sha d a b => some (encA 0x0F d a b 0)
  | .min d a b => some (encA 0x10 d a b 0)
  | .max d a b => some (encA 0x11 d a b 0)
  | .minn d a b => some (encA 0x12 d a b 0)
  | .maxn d a b => some (encA 0x13 d a b 0)
  | .clz d a => some (encA 0x14 d a 0 0)
  | .ctz d a => some (encA 0x15 d a 0 0)
  | .popc d a => some (encA 0x16 d a 0 0)
  | .addi d a i => some (encI 0x17 d a i.toNat)
  | .andi d a i => some (encI 0x18 d a i.toNat)
  | .ori d a i => some (encI 0x19 d a i.toNat)
  | .xori d a i => some (encI 0x1A d a i.toNat)
  | .shli d a i => some (encI 0x1B d a i.toNat)
  | .shri d a i => some (encI 0x1C d a i.toNat)
  | .shai d a i => some (encI 0x1D d a i.toNat)
  | .lui d i => some (encI 0x1E d 0 i.toNat)
  | .li d i => some (encI 0x1F d 0 i.toNat)
  | .cmp c p a b => some (0x20 * 2 ^ 25 + c.code * 2 ^ 22 + p.val * 2 ^ 15 + a.val * 2 ^ 10 + b.val * 2 ^ 5)
  | .cmpi c p a i => some (0x21 * 2 ^ 25 + c.code * 2 ^ 22 + p.val * 2 ^ 15 + a.val * 2 ^ 10 + i.toNat)
  | .pand d a b => some (encP 0x22 0 d a b)
  | .por d a b => some (encP 0x23 0 d a b)
  | .pxor d a b => some (encP 0x24 0 d a b)
  | .pnot d a => some (encP 0x25 0 d a 0)
  | .pmov d a => some (encP 0x26 0 d a 0)
  | .pall d a => some (encP 0x27 0 d a 0)
  | .pany d a => some (encP 0x27 1 d a 0)
  | .br off => some (0x28 * 2 ^ 25 + off.toNat)
  | .bp p neg off => some (0x29 * 2 ^ 25 + p.val * 2 ^ 18 + b2n neg * 2 ^ 17 + off.toNat)
  | .call off => some (0x2A * 2 ^ 25 + off.toNat)
  | .ret a => some (encA 0x2B 0 a 0 0)
  | .jr d a => some (encA 0x2C d a 0 0)
  | .loopn d a i => some (encI 0x2D d a i.toNat)
  | .loope p => some (0x2E * 2 ^ 25 + p.val)
  | .nop => some (0x2F * 2 ^ 25)
  | .lds d a sz sx i => some (encM 0x30 d a sz sx i)
  | .sts d a sz i => some (encM 0x31 d a sz false i)
  | .ldc d a sz sx i => some (encM 0x32 d a sz sx i)
  | .stc d a sz i => some (encM 0x33 d a sz false i)
  | .amo op dbl rel acq d a b =>
    some (encA 0x38 d a b (b2n acq * 64 + b2n rel * 32 + b2n dbl * 16 + op.code))
  | .cas dbl rel acq d a b => some (encA 0x39 d a b (b2n acq * 64 + b2n rel * 32 + b2n dbl * 16))
  | .rel => some (0x3A * 2 ^ 25)
  | .acq a => some (encA 0x3B 0 a 0 0)
  | .acqPartition => some (encA 0x3B 0 0 0 1)
  | .acqG a => some (encA 0x3C 0 a 0 0)
  | .fenceSv => some (0x3D * 2 ^ 25)
  | .fenceVs => some (0x3D * 2 ^ 25 + 1 * 128)
  | .fenceVv => some (0x3D * 2 ^ 25 + 2 * 128)
  | .fenceR c a b => some (encA 0x3D 0 a b (3 * 128 + b2n c))
  | .sbar m => some (0x3E * 2 ^ 25 + m.toNat)
  | .wfe d => some (encA 0x3F d 0 0 0)
  | .wfeWatch d a b => some (encA 0x3F d a b 1)
  | .trap c => some (0x40 * 2 ^ 25 + c.toNat)
  | .tret => some (0x41 * 2 ^ 25)
  | .uret => some (0x42 * 2 ^ 25)
  | .csrr d c => some (encI 0x43 d 0 c.toNat)
  | .csrw d a c => some (encI 0x44 d a c.toNat)
  | .csrs d a c => some (encI 0x45 d a c.toNat)
  | .csrc d a c => some (encI 0x46 d a c.toNat)
  | .yield d => some (encA 0x47 d 0 0 0)
  | .vsaveq d a => some (encA 0x48 d a 0 0)
  | .vrestq d a => some (encA 0x49 d a 0 0)
  | .pdrain d a => some (encA 0x4A d a 0 0)
  | .pdrainGo d a => some (encA 0x4A d a 0 1)
  | .preset a => some (encA 0x4B 0 a 0 0)
  | .rnew d a named die => some (encA 0x50 d a 0 (b2n named * 4 + die.toNat))
  | .rseal d a => some (encA 0x50 d a 0 (1 * 128))
  | .rfork d a => some (encA 0x50 d a 0 (2 * 128))
  | .rdrop a => some (encA 0x50 0 a 0 (3 * 128))
  | .rinfo d a k => some (encA 0x50 d a 0 (4 * 128 + k.toNat))
  | .rinfoStream d n k => some (encA 0x50 d 0 0 (4 * 128 + n.toNat * 8 + 4 + k.toNat))
  | .ropenR e a b n => some (encA 0x51 e a b n.toNat)
  | .ropenA a n => some (encA 0x51 0 a 0 (4 + n.toNat))
  | .rclose n => some (0x52 * 2 ^ 25 + n.toNat)
  | .sortr d a cb kw tl => some (encA 0x53 d a 0 (cb.toNat * 16 + b2n kw * 8 + tl.val))
  | .mrgr d a b cb kw tl => some (encA 0x54 d a b (cb.toNat * 16 + b2n kw * 8 + tl.val))
  | .joinr d a b mode kw tl => some (encA 0x55 d a b (mode.toNat * 16 + b2n kw * 8 + tl.val))
  | .cpy a tl => some (encA 0x56 0 a 0 tl.val)
  | .enqw d a b tl => some (encA 0x57 d a b tl.val)
  | .rmig d a b tier tl => some (encA 0x58 d a b (tier.toNat * 8 + tl.val))
  | .stage a tl => some (encA 0x59 0 a 0 tl.val)
  | .tlwait a tl => some (encA 0x5A 0 a 0 tl.val)
  | .tlwaitEv a tl => some (encA 0x5A 0 a 0 (8 + tl.val))
  | .tlget d clr word tl => some (encA 0x5B d 0 0 (b2n clr * 64 + word.toNat * 8 + tl.val))
  | .tlnotify a stl tl => some (encA 0x5C 0 a 0 (stl.val * 8 + tl.val))
  | .barinit a b n => some (encA 0x5D 0 a b n.val)
  | .bararr d n => some (encA 0x5D d 0 0 (1 * 128 + n.val))
  | .barwait a n => some (encA 0x5D 0 a 0 (2 * 128 + n.val))
  | .baradd a n => some (encA 0x5D 0 a 0 (3 * 128 + n.val))
  | .coll a tl => some (encA 0x5E 0 a 0 tl.val)
  | .panel d a b => some (encA 0x60 d a b 0)
  | .spawn d a => some (encA 0x60 d a 0 (1 * 128))
  | .join d a => some (encA 0x60 d a 0 (2 * 128))
  | .tdone => some (0x60 * 2 ^ 25 + 3 * 128)
  | .wmset n => some (0x60 * 2 ^ 25 + 4 * 128 + n.toNat)
  | .wmwait d a b => some (encA 0x60 d a b (5 * 128))
  | .ctkill d a => some (encA 0x60 d a 0 (6 * 128))
  | .vsetvl d a m => some (encA 0x61 d a 0 m.toNat)
  | .vsetf d rsz gap ty => some (encI 0x62 d 0 (rsz.toNat * 256 + gap.toNat * 16 + ty.code))
  | .vsetg d grp => some (encI 0x63 d 0 grp.toNat)
  | .lift a i => some (encI 0x64 0 a i.toNat)
  | .lend => some (0x65 * 2 ^ 25)
  | .lidx d k => some (encA 0x65 d 0 0 (1 * 128 + k.toNat))
  | .lred d a op => some (encA 0x65 d a 0 (2 * 128 + op.code))
  | .lpick d a b => some (encA 0x65 d a b (3 * 128))
  | .ltag d file r => some (0x65 * 2 ^ 25 + d.val * 2 ^ 20 + file.val * 2 ^ 10 + 4 * 128 + r.toNat)
  | .lact p => some (0x65 * 2 ^ 25 + 5 * 128 + p.val)
  | _ => none

/-- The opcode of a vector instruction (Table 10.10), with its fields; none for every other step. -/
def vecParts : Instr → Option (Nat × VFields)
  | .vld f => some (0x00, f)
  | .vlds f => some (0x01, f)
  | .vldx f => some (0x02, f)
  | .vldseg f => some (0x03, f)
  | .vst f => some (0x04, f)
  | .vsts f => some (0x05, f)
  | .vstx f => some (0x06, f)
  | .vstseg f => some (0x07, f)
  | .vldc f => some (0x08, f)
  | .vstc f => some (0x09, f)
  | .vspill f => some (0x0A, f)
  | .vfill f => some (0x0B, f)
  | .rld f => some (0x0C, f)
  | .rapp f => some (0x0D, f)
  | .vamo f => some (0x0E, f)
  | .vldb f => some (0x0F, f)
  | .vadd f => some (0x20, f)
  | .vsub f => some (0x21, f)
  | .vmul f => some (0x22, f)
  | .vmulh f => some (0x23, f)
  | .vmacc f => some (0x24, f)
  | .vwmul f => some (0x25, f)
  | .vwmacc f => some (0x26, f)
  | .vsadd f => some (0x27, f)
  | .vssub f => some (0x28, f)
  | .vand f => some (0x29, f)
  | .vor f => some (0x2A, f)
  | .vxor f => some (0x2B, f)
  | .vshl f => some (0x2C, f)
  | .vshr f => some (0x2D, f)
  | .vsha f => some (0x2E, f)
  | .vnshr f => some (0x2F, f)
  | .vmin f => some (0x30, f)
  | .vmax f => some (0x31, f)
  | .vabs f => some (0x32, f)
  | .vcmp f => some (0x33, f)
  | .vfadd f => some (0x40, f)
  | .vfsub f => some (0x41, f)
  | .vfmul f => some (0x42, f)
  | .vfma f => some (0x43, f)
  | .vfnma f => some (0x44, f)
  | .vfdiv f => some (0x45, f)
  | .vfmin f => some (0x46, f)
  | .vfmax f => some (0x47, f)
  | .vfabs f => some (0x48, f)
  | .vfneg f => some (0x49, f)
  | .vfcmp f => some (0x4A, f)
  | .vcmpt f => some (0x4B, f)
  | .vfsqrt f => some (0x4C, f)
  | .vsfu f => some (0x4D, f)
  | .vcvt f => some (0x60, f)
  | .vrnd f => some (0x61, f)
  | .vbquant f => some (0x63, f)
  | .vmv f => some (0x66, f)
  | .vsel f => some (0x67, f)
  | .vbcast f => some (0x68, f)
  | .vextr f => some (0x69, f)
  | .vins f => some (0x6A, f)
  | .viota f => some (0x6B, f)
  | .vcompress f => some (0x6C, f)
  | .vexpand f => some (0x6D, f)
  | .vperm f => some (0x6E, f)
  | .vpush f => some (0x6F, f)
  | .vslideup f => some (0x70, f)
  | .vslidedn f => some (0x71, f)
  | .vrev f => some (0x72, f)
  | .vzip f => some (0x73, f)
  | .vunzip f => some (0x74, f)
  | .vredsum f => some (0x75, f)
  | .vfredsum f => some (0x76, f)
  | .vredmin f => some (0x77, f)
  | .vredmax f => some (0x78, f)
  | .vpopc f => some (0x79, f)
  | .vfirst f => some (0x7A, f)
  | .vpand f => some (0x7B, f)
  | .vpor f => some (0x7C, f)
  | .vpxor f => some (0x7D, f)
  | .vpnot f => some (0x7E, f)
  | .vpset f => some (0x7F, f)
  | .mld f => some (0x80, f)
  | .mswap f => some (0x81, f)
  | .mxrO f => some (0x82, f)
  | .mxrF f => some (0x83, f)
  | .mstat f => some (0x84, f)
  | .vsort f => some (0x90, f)
  | .vsortk f => some (0x91, f)
  | .vmrg f => some (0x92, f)
  | .vsegred f => some (0x93, f)
  | .vuniq f => some (0x94, f)
  | .vtag f => some (0x95, f)
  | .vsplit f => some (0x96, f)
  | .vsrch f => some (0x97, f)
  | .vbscaleGet f => some (0x62, f)
  | .vbscaleSet f => some (0x62, f)
  | .vexpnGet f => some (0x64, f)
  | .vexpnScl f => some (0x64, f)
  | .vtailGet f => some (0x65, f)
  | .vtailSet f => some (0x65, f)
  | .vtailClr f => some (0x65, f)
  | _ => none

/-- The 64 bits of a vector instruction with opcode `op` (Table 10.7). -/
def encVec (op : Nat) (f : VFields) : Nat :=
  op * 2 ^ 56 + f.vd.toNat * 2 ^ 50 + f.va.toNat * 2 ^ 44 + f.vb.toNat * 2 ^ 38 + f.vc.toNat * 2 ^ 32
    + f.pm.val * 2 ^ 25 + b2n f.pn * 2 ^ 24 + f.t1.code * 2 ^ 20 + f.t2.code * 2 ^ 16 + f.rnd.toNat * 2 ^ 13
    + f.smod.toNat * 2 ^ 10 + b2n f.sat * 2 ^ 9 + f.fn.toNat

/-- The word of a vector instruction; none for every other step. -/
def encodeVec (i : Instr) : Option Nat := (vecParts i).map (fun q => encVec q.1 q.2)

/-- The parcel of a convoy header (Table 10.6). -/
def encHeader (h : ConvoyHdr) : Nat :=
  0xE * 2 ^ 28 + h.n.toNat * 2 ^ 25 + h.u1.toNat * 2 ^ 22 + h.u2.toNat * 2 ^ 19 + h.u3.toNat * 2 ^ 16
    + h.u4.toNat * 2 ^ 13 + h.u5.toNat * 2 ^ 10 + h.u6.toNat * 2 ^ 7 + b2n h.chain * 2 ^ 6

/-- The two parcels of each vector word, the lower half first (R171). -/
def wordParcels : List (BitVec 64) → List (BitVec 32)
  | [] => []
  | w :: ws => w.extractLsb' 0 32 :: w.extractLsb' 32 32 :: wordParcels ws

/-- The first parcel of a long form. -/
def encLong (op : Nat) (d : GReg) : Nat := op * 2 ^ 25 + d.val * 2 ^ 20

/-- The parcels of a unit; none for a step that is not a unit of the instruction stream. -/
def encode : Instr → List (BitVec 32)
  | .convoyHeader h ws => BitVec.ofNat 32 (encHeader h) :: wordParcels ws
  | .liLong d i => [BitVec.ofNat 32 (encLong 0x78 d), i]
  | .luiLong d i => [BitVec.ofNat 32 (encLong 0x79 d), i]
  | .addiLong d i => [BitVec.ofNat 32 (encLong 0x7A d), i]
  | i =>
    match encodeScalar i with
    | some w => [BitVec.ofNat 32 w]
    | none => []

/-- The parcels of an instruction whose bits, from bit 0 of the first parcel up, are those of `w`: as many parcels as
`w` has bits of the row, and zeros up to the longest unit (13 parcels). -/
def tableParcels (w : Nat) : List (BitVec 32) :=
  (List.range 13).map (fun k => BitVec.ofNat 32 (w / 2 ^ (32 * k)))

/-- What the decoder reads from a row of the opcode table laid out as the hardware stores it. -/
def decodeTableWord (nbits w : Nat) : Option Instr :=
  match decode (tableParcels (w % 2 ^ nbits)) with
  | .ok (i, _) => some i
  | .error _ => none

end Sys2Proof
end

