-- ==== Sys2Proof/Machine/Mem.lean ====
section
/-! DEFINITION. Byte memories in canonical form, tables by number, and byte strings as numbers (00_scope.md R4). -/

namespace Sys2Proof.Machine

open Sys2Proof

/-- Reads one byte: an unlisted address reads 0 (notes/assumptions/4.md). -/
def memGet : Mem → Nat → Byte
  | [], _ => 0
  | (k, b) :: m, a => if k = a then b else memGet m a

/-- Drops an address from a memory. -/
def memDrop (m : Mem) (a : Nat) : Mem := m.filter (fun c => c.1 != a)

/-- Puts a cell at its place among rising addresses. -/
def memInsert (a : Nat) (b : Byte) : Mem → Mem
  | [] => [(a, b)]
  | (k, c) :: m => if a < k then (a, b) :: (k, c) :: m else (k, c) :: memInsert a b m

/-- Writes one byte; writing 0 leaves the address unlisted. -/
def memSet (m : Mem) (a : Nat) (b : Byte) : Mem :=
  if b = 0 then memDrop m a else memInsert a b (memDrop m a)

/-- The canonical form: addresses strictly rising, no listed byte 0. -/
def Memory.wf : Mem → Bool
  | [] => true
  | (a, b) :: m => b != 0 && m.all (fun c => a < c.1) && Memory.wf m

/-- Reads `n` bytes from `a` up. -/
def memRead (m : Mem) (a n : Nat) : List Byte := (List.range n).map (fun k => memGet m (a + k))

/-- Writes bytes from `a` up. -/
def memWrite (m : Mem) (a : Nat) : List Byte → Mem
  | [] => m
  | b :: bs => memWrite (memSet m a b) (a + 1) bs

/-- The `n` bytes of a memory from `lo` up, as a memory from 0 up. -/
def memSlice (m : Mem) (lo n : Nat) : Mem :=
  (m.filter (fun c => decide (lo ≤ c.1) && decide (c.1 < lo + n))).map (fun c => (c.1 - lo, c.2))

/-- A memory with the first `n` bytes of another in place of its own from `lo` up. -/
def memPaste (m : Mem) (lo n : Nat) (page : Mem) : Mem :=
  m.filter (fun c => decide (c.1 < lo)) ++ (page.filter (fun c => decide (c.1 < n))).map (fun c => (lo + c.1, c.2)) ++
    m.filter (fun c => decide (lo + n ≤ c.1))

/-! ### Poison marks (R393) -/

/-- Whether some of `n` bytes from `a` up is marked. -/
def marked (m : Marks) (a n : Nat) : Bool :=
  decide (0 < n) && m.any (fun q => decide (q.1 < a + n) && decide (a < q.1 + q.2))

/-- The marks on `n` bytes from `a` up, moved with them to `to_`. -/
def marksIn (m : Marks) (a n to_ : Nat) : Marks :=
  m.filterMap (fun q =>
    let lo := max q.1 a
    let hi := min (q.1 + q.2) (a + n)
    if lo < hi then some (to_ + (lo - a), hi - lo) else none)

/-- The marks outside `n` bytes from `a` up: a write of new data clears the others. -/
def unmark (m : Marks) (a n : Nat) : Marks :=
  m.flatMap (fun q =>
    [(q.1, min (q.1 + q.2) a - q.1), (max q.1 (a + n), q.1 + q.2 - max q.1 (a + n))].filter (fun r => 0 < r.2))

/-- The marks after a write of `n` bytes at `a`: those of the data written, at its addresses, and those of the bytes there
that a lasting fault poisons at each write (R398). -/
def remark (m stuck : Marks) (a n : Nat) (bad : Marks) : Marks := unmark m a n ++ bad ++ marksIn stuck a n a

/-- Little-endian number of bytes (R4). -/
def leNat : List Byte → Nat
  | [] => 0
  | b :: bs => b.toNat + 256 * leNat bs

/-- The `n` little-endian bytes of a number, modulo 256^n. -/
def leBytes : (n : Nat) → Nat → List Byte
  | 0, _ => []
  | n + 1, w => BitVec.ofNat 8 w :: leBytes n (w / 256)

/-- Big-endian number of bytes (the order of sort keys, R4). -/
def beNat (bs : List Byte) : Nat := leNat bs.reverse

/-- The `n` big-endian bytes of a number. -/
def beBytes (n w : Nat) : List Byte := (leBytes n w).reverse

/-- The entry of a table. -/
def tabGet {α : Type} : Tab α → Nat → Option α
  | [], _ => none
  | (k, v) :: t, n => if k = n then some v else tabGet t n

/-- Drops an entry of a table. -/
def tabDrop {α : Type} (t : Tab α) (n : Nat) : Tab α := t.filter (fun e => e.1 != n)

/-- Puts an entry at its place among rising numbers. -/
def tabInsert {α : Type} (n : Nat) (v : α) : Tab α → Tab α
  | [] => [(n, v)]
  | (k, w) :: t => if n < k then (n, v) :: (k, w) :: t else (k, w) :: tabInsert n v t

/-- Sets an entry of a table. -/
def tabSet {α : Type} (t : Tab α) (n : Nat) (v : α) : Tab α := tabInsert n v (tabDrop t n)

/-- Changes an entry that is there. -/
def tabUpd {α : Type} (t : Tab α) (n : Nat) (f : α → α) : Tab α :=
  match tabGet t n with
  | some v => tabSet t n (f v)
  | none => t

/-- Bytes padded with zeros to a multiple of 16 (R77). -/
def pad16 (n : Nat) : Nat := (n + 15) / 16 * 16

/-- The signed value of a word. -/
def sval {n : Nat} (x : BitVec n) : Int := x.toInt

/-- An integer in `w` bits, modulo 2^w. -/
def wrapInt (w : Nat) (x : Int) : Nat := (x % (2 ^ w : Nat)).toNat

end Sys2Proof.Machine
end

