-- ==== Sys2Proof/Machine/RunMem.lean ====
section
/-! DEFINITION. Run descriptors, page lists, frames and their bytes (02_runs_in_main_memory.md R27-R48). A run is kept
under the key fn * 2^20 + handle; a handle with no entry names a free descriptor. -/

namespace Sys2Proof.Machine

open Sys2Proof

/-- The key of a handle of an address space (R29). -/
def runKey (fn h : Nat) : Nat := fn * 2 ^ 20 + h

/-- The descriptor a register names, with its key: handle 0, nonzero upper bits and free descriptors name none, and
a run that was dropped while streams were open names none to new users (R29, Table 2.2). -/
def findRun (s : State) (fn : Nat) (w : W64) : Option (Nat × Run) :=
  if w.toNat = 0 ∨ w.toNat ≥ 2 ^ 20 then none
  else
    match tabGet s.runs (runKey fn w.toNat) with
    | some r => if r.dpend then none else some (runKey fn w.toNat, r)
    | none => none

/-- Changes a run that is there. -/
def updRun (s : State) (k : Nat) (f : Run → Run) : State := { s with runs := tabUpd s.runs k f }

/-! ### Frames (R38, R39) -/

/-- The first frame number of a die: bits [22:21] give the die (R38). -/
def dieFrames (die : Nat) : Nat := die * Config.framesPerDie

/-- Places of a die's frames that cannot be allocated, being in use. A frame that the host has filled
through the aperture is in use only once a page names it (R291, R407). -/
def usedPlaces (s : State) (die : Nat) : List Nat :=
  ((s.frames.filter (fun e => e.2.count ≠ 0)).map (·.1)).filter (fun f => f / Config.framesPerDie = die)

/-- A free frame of a die, in an order of the part's own choosing (R39): none exactly when every frame is in use. -/
def pickFrame (s : State) (die : Nat) : Option Nat :=
  let used := usedPlaces s die
  if used.length < Config.framesPerDie then
    let start := Config.pickFrame s.fresh
    let place (k : Nat) := dieFrames die + (start + k) % Config.framesPerDie
    match (List.range (used.length + 1)).find? (fun k => !used.contains (place k)) with
    | some k => some (place k)
    | none => some (place 0)
  else none

/-- Takes a free frame into use with count 1 (R39), its bytes with their poison marks. -/
def takeFrame (s : State) (die : Nat) (data : Mem) (bad : Marks) : Option (Nat × State) :=
  match pickFrame s die with
  | some f =>
    let stuck := if data = [] then [] else (tabGet s.stuck f).getD []
    some (f, { s with frames := tabSet s.frames f ⟨1, data, bad ++ stuck⟩, fresh := s.fresh + 1 })
  | none => none

/-- Subtracts 1 from a frame's count; at 0 it returns to the free list (R39). -/
def dropFrame (s : State) (f : Nat) : State :=
  match tabGet s.frames f with
  | some fr => if fr.count ≤ 1 then { s with frames := tabDrop s.frames f }
      else { s with frames := tabSet s.frames f { fr with count := fr.count - 1 } }
  | none => s

/-- Adds 1 to a frame's count (R39). -/
def shareFrame (s : State) (f : Nat) : State :=
  { s with frames := tabUpd s.frames f (fun fr => { fr with count := fr.count + 1 }) }

/-- A free handle of an address space, in an order of the part's own choosing (R39); none when all are taken. -/
def pickHandle (s : State) (fn : Nat) : Option Nat :=
  let used := s.runs.filter (fun e => e.1 / 2 ^ 20 = fn)
  if used.length < Config.handles - 1 then
    let place (k : Nat) := 1 + (Config.pickHandle s.fresh + k) % (Config.handles - 1)
    match (List.range (used.length + 1)).find? (fun k => (tabGet s.runs (runKey fn (place k))).isNone) with
    | some k => some (place k)
    | none => some (place 0)
  else none

/-! ### Reading (R46, R47) -/

/-- The address in the capacity tier of a byte of a tier-1 page: the pool window's base and the page's place in it (R38,
R408). -/
def poolAddress (s : State) (f off : Nat) : Nat := s.poolBase + f * Config.pageBytes + off

/-- The bytes of a page in tier 0 or 1; a page in tier 2 or 3 is not requested (R46). -/
def pageMem (s : State) (l : Leaf) : Option Mem :=
  if l.tier = 0 then (tabGet s.frames l.frame).map (·.data)
  else if l.tier = 1 then some (memSlice s.pool (poolAddress s l.frame 0) Config.pageBytes)
  else none

/-- The leaf entry of a page: absent where the page list does not reach (Table 2.5). -/
def leafAt (r : Run) (q : Nat) : Leaf := (r.leaves[q]?).getD ⟨0, 3, false, 0⟩

/-- One byte of a run's byte space. -/
def runByte (s : State) (r : Run) (b : Nat) : Option Byte :=
  (pageMem s (leafAt r (b / Config.pageBytes))).map (fun m => memGet m (b % Config.pageBytes))

/-- `n` bytes of a run's byte space. -/
def runBytes (s : State) (r : Run) (b n : Nat) : Option (List Byte) :=
  (List.range n).mapM (fun k => runByte s r (b + k))

/-- The bytes of one record; none when a page it touches is in tier 2 or 3. -/
def runRecord (s : State) (r : Run) (k : Nat) : Option (List Byte) := runBytes s r (k * r.recsz) r.recsz

/-- Whether the run traffic of a die is held: a stack of it is in self-refresh (R50), or the die has stopped, and traffic of
other dies to it stalls (R418). -/
def dieHeld (s : State) (die : Nat) : Bool :=
  let d := s.dies.get (Fin.ofNat 4 die)
  d.hold != 0 || d.stopped

/-- Whether a page lies on a die that is held (R50, R418). -/
def pageHeld (s : State) (l : Leaf) : Bool := decide (l.tier = 0) && dieHeld s (l.frame / Config.framesPerDie)

/-- The frames of a run: its root, its directory pages, and its pages in tier 0 (R36). -/
def Run.frames (r : Run) : List Nat := r.root :: r.dirs ++ (r.leaves.filter (fun l => l.tier = 0)).map (·.frame)

/-- Whether some of a run's frames lies on a die that has stopped: what would count them waits (R418). -/
def runStopped (s : State) (r : Run) : Bool := r.frames.any (fun f => (s.dies.get (Fin.ofNat 4 (f / Config.framesPerDie))).stopped)

/-- Whether a read of a record is held (R50). -/
def recordHeld (s : State) (r : Run) (k : Nat) : Bool :=
  pageHeld s (leafAt r (k * r.recsz / Config.pageBytes)) ||
    pageHeld s (leafAt r ((k * r.recsz + r.recsz - 1) / Config.pageBytes))

/-- The record of a command's range, whose first record is `lo`, at which page `q` faults: the first that touches it; and
which of its pages that is (R108, R371). -/
def faultAt (r : Run) (lo q : Nat) : Nat × Nat :=
  let k := max lo (q * Config.pageBytes / r.recsz)
  (k, if k * r.recsz / Config.pageBytes = q then 0 else 1)

/-- Whether a page lies in tier 2 or 3: it is not requested, and a migration notice goes out for it (R46). -/
def pageAway (r : Run) (q : Nat) : Bool := decide (q < r.leaves.length) && decide (2 ≤ (leafAt r q).tier)

/-- Whether the notice of a page is with the command processor. -/
def noticed (s : State) (fn h q : Nat) : Bool := s.notices.any (fun n => match n with
  | .migration fn2 h2 _ q2 => fn2 == fn && h2 == h && q2 == q
  | _ => false)

/-- Sends the command processor the migration notice of a page, once while it lies there (R46). -/
def sendMigration (s : State) (fn h rec_ q : Nat) : State :=
  if noticed s fn h q then s else { s with notices := s.notices ++ [.migration fn h rec_ q] }

/-- The notices of the pages in tier 2 or 3 among `qs`, each with the first record from `lo` up that touches it. -/
def sendMigrations (s : State) (fn h : Nat) (r : Run) (lo : Nat) (qs : List Nat) : State :=
  (qs.filter (pageAway r)).foldl (fun s q => sendMigration s fn h (faultAt r lo q).1 q) s

/-- The pages that `n` records from `lo` up touch. -/
def pagesOf (r : Run) (lo n : Nat) : List Nat :=
  let b := lo * r.recsz
  (List.range ((b % Config.pageBytes + n * r.recsz + Config.pageBytes - 1) / Config.pageBytes)).map
    (fun k => b / Config.pageBytes + k)

/-- The poison marks of a page in tier 0 or 1; every byte of a pool page whose request has stayed unanswered is poisoned
(R408). -/
def pageBad (s : State) (l : Leaf) : Marks :=
  if l.tier = 0 then ((tabGet s.frames l.frame).map (·.bad)).getD []
  else if l.tier = 1 then
    let a := poolAddress s l.frame 0
    if s.poison.contains a then [(0, Config.pageBytes)] else marksIn s.poolBad a Config.pageBytes 0
  else []

/-- The parts of a run's byte space from `b` up that lie on one page each: page, first byte in it, length, place among the
`n` bytes. -/
def pageParts (b n : Nat) : List (Nat × Nat × Nat × Nat) :=
  (List.range ((b % Config.pageBytes + n + Config.pageBytes - 1) / Config.pageBytes)).map (fun k =>
    let q := b / Config.pageBytes + k
    let lo := max b (q * Config.pageBytes)
    let hi := min (b + n) ((q + 1) * Config.pageBytes)
    (q, lo - q * Config.pageBytes, hi - lo, lo - b))

/-- The poison marks of `n` bytes of a run's byte space, by their place among these bytes (R393). -/
def runBad (s : State) (r : Run) (b n : Nat) : Marks :=
  (pageParts b n).flatMap (fun q => marksIn (pageBad s (leafAt r q.1)) q.2.1 q.2.2.1 q.2.2.2)

/-- The first poisoned byte of records of a run: the tier-0 frame or the page of the pool window that holds it, and the byte
there. -/
def recsPoisoned (s : State) (r : Run) (first n : Nat) : Option (Place × Nat) :=
  (pageParts (first * r.recsz) (n * r.recsz)).findSome? (fun q =>
    let l := leafAt r q.1
    ((marksIn (pageBad s l) q.2.1 q.2.2.1 q.2.1).head?).map (fun m =>
      (if l.tier = 0 then Place.frame l.frame else Place.pool l.frame, m.1)))

/-- The tier-0 frame or the page of the pool window that holds a byte of a run's byte space, and the byte's place there. -/
def bytePlace (r : Run) (b : Nat) : Place × Nat :=
  let l := leafAt r (b / Config.pageBytes)
  (if l.tier = 0 then .frame l.frame else .pool l.frame, b % Config.pageBytes)

/-- A byte of a run's page as a report names it: HBM frame × 65,536 + offset (Table 27.3). -/
def pageLocation : Place × Nat → W64
  | (.frame f, o) | (.pool f, o) => w64 (f * Config.pageBytes + o)
  | (_, o) => w64 o

/-- The memory word that is tested after poison in a run's page was consumed (R397): one of the part's own HBM. -/
def pageWord : Place × Nat → Option TestUnit
  | (.frame f, o) => some (.word (.frame f) o 1)
  | _ => none

/-- Takes the marks of unanswered requests off the pool frames that records lie on: they have been delivered (R408). -/
def delivered (s : State) (r : Run) (first n : Nat) : State :=
  if s.poison = [] then s
  else
    let fs := (pagesOf r first n).map (leafAt r)
    { s with poison := s.poison.filter (fun a => !fs.any (fun l => l.tier = 1 && poolAddress s l.frame 0 = a)) }

/-- Which page of a record is not resident: 0 that of its first byte, 1 the next (R371). -/
def faultPage (s : State) (r : Run) (k : Nat) : Nat :=
  if (pageMem s (leafAt r (k * r.recsz / Config.pageBytes))).isSome then 1 else 0

/-- The run fault word (Table 25.3). -/
def runFaultWord (h rec pg str : Nat) : W64 :=
  w64 (rec % 2 ^ 41 + pg % 2 * 2 ^ 41 + str % 4 * 2 ^ 42 + h % 2 ^ 20 * 2 ^ 44)

/-! ### Publication (R33) -/

/-- Advances the watermark over the longest prefix of published ranges. -/
def advanceMark : List Range → Nat → List Range × Nat
  | [], w => ([], w)
  | g :: gs, w => if g.pub then advanceMark gs (g.first + g.count) else (g :: gs, w)

/-- Publishes the ranges of the appenders that a test accepts, and moves the watermark (R33). -/
def publishRun (r : Run) (who : Appender → Bool) : Run :=
  let gs := r.ranges.map (fun g => if who g.by_ then { g with pub := true } else g)
  let (rest, w) := advanceMark gs r.wmark
  { r with ranges := rest, wmark := w }

/-- Publishes in every run of the package (a `rel` publishes every range its control thread has reserved, R305). -/
def publishAll (s : State) (who : Appender → Bool) : State :=
  { s with runs := s.runs.map (fun e => (e.1, if e.2.state = .open_ then publishRun e.2 who else e.2)) }

/-- The run after one of its appenders is killed: with unpublished records it becomes truncated, its watermark frozen
and every unpublished record discarded (Table 2.2, R35). Its length stays what it was, those records counted (DESIGN CHOICE,
notes/assumptions/32.md). -/
def killAppender (r : Run) (who : Appender → Bool) : Run :=
  if r.state = .open_ ∧ r.ranges.any (fun g => !g.pub && who g.by_) then
    { r with state := .truncated, ranges := [] }
  else r

/-- Frees a run: the count of every frame it references falls by 1 (R39), and its handle, once taken again, names no run that a
launch has appended to (R358). -/
def freeRun (s : State) (k : Nat) : State :=
  match tabGet s.runs k with
  | some r =>
    let s := r.frames.foldl dropFrame s
    { s with
      runs := tabDrop s.runs k
      launches := s.launches.map (fun e => (e.1, { e.2 with runs := e.2.runs.filter (· ≠ k) })) }
  | none => s

/-! ### Appending (R32, R41, R47) -/

/-- What an append comes to. -/
inductive AppendRes where
  | ok (s : State) (first : Nat)
  | sealed
  | range (rec : Nat)
  | hold                              -- a page of it lies on a die that is held (R50)
  | fault (page : Nat) (free : Bool)  -- the page that is not ready

/-- Makes ready one page for an append, page by page: a page in tier 0 with cow clear is ready; a cow page whose frame
has count 1 only loses its mark, and one shared gets a copy of the bytes below `keep`, the run's length, so of every
range that some appender has reserved (R41); a page beyond the list gets a new frame of the run's die, with the skew
that the supervisor has chosen (R38). The answer is none when the page is not in tier 0 (R47), and `true` beside it when
the free list was empty. -/
def readyPage (s : State) (k q keep : Nat) : Except Bool State :=
  match tabGet s.runs k with
  | none => .error false
  | some r =>
    if q < r.leaves.length then
      let l := leafAt r q
      if l.tier ≠ 0 then .error false
      else if !l.cow then .ok s
      else
        match tabGet s.frames l.frame with
        | none => .error false
        | some fr =>
          if fr.count ≤ 1 then
            .ok (updRun s k (fun r => { r with leaves := r.leaves.set q { l with cow := false } }))
          else
            let kept := fr.data.filter (fun c => q * Config.pageBytes + c.1 < keep)
            match takeFrame s (l.frame / Config.framesPerDie) kept (marksIn fr.bad 0 (keep - q * Config.pageBytes) 0) with
            | none => .error true
            | some (f, s) =>
              let s := dropFrame s l.frame
              .ok (updRun s k (fun r => { r with leaves := r.leaves.set q { l with frame := f, cow := false } }))
    else
      match takeFrame s r.die [] [] with
      | none => .error true
      | some (f, s) =>
        let leaf : Leaf := ⟨f, 0, false, s.newSkew.toNat⟩
        let s := updRun s k (fun r => { r with leaves := r.leaves ++ [leaf] })
        -- page 8,192 turns the root page into a directory, the old root its leaf page 0 (R36, R380)
        if q % 8192 = 0 ∧ q > 0 then
          match takeFrame s r.die [] [] with
          | none => .error true
          | some (d, s) =>
            if r.depth then .ok (updRun s k (fun r => { r with dirs := r.dirs ++ [d] }))
            else
              match takeFrame s r.die [] [] with
              | none => .error true
              | some (d2, s) =>
                .ok (updRun s k (fun r => { r with depth := true, dirs := [r.root, d], root := d2 }))
        else .ok s

/-- Makes ready pages `q` to `q + n - 1`. -/
def readyPages (s : State) (k keep : Nat) : (q n : Nat) → Except (Nat × Bool) State
  | _, 0 => .ok s
  | q, n + 1 =>
    match readyPage s k q keep with
    | .ok s => readyPages s k keep (q + 1) n
    | .error e => .error (q, e)

/-- Writes bytes of a run's byte space into the frames of its ready pages; the write clears their poison marks. -/
def putRun (s : State) (k b : Nat) : List Byte → State
  | [] => s
  | x :: xs =>
    match tabGet s.runs k with
    | some r =>
      let l := leafAt r (b / Config.pageBytes)
      let s := { s with frames := tabUpd s.frames l.frame (fun fr =>
        { fr with
          data := memSet fr.data (b % Config.pageBytes) x
          bad := remark fr.bad ((tabGet s.stuck l.frame).getD []) (b % Config.pageBytes) 1 [] }) }
      putRun s k (b + 1) xs
    | none => s

/-- Puts poison marks on bytes of a run's byte space, by their place from `b` up. -/
def badRun (s : State) (r : Run) (b : Nat) (bad : Marks) : State :=
  (bad.flatMap (fun m => pageParts (b + m.1) m.2)).foldl (fun s q =>
    { s with frames := tabUpd s.frames (leafAt r q.1).frame (fun fr => { fr with bad := (q.2.1, q.2.2.1) :: fr.bad }) }) s

/-- Whether an append that needs pages `q` to `q2` is held: one of them lies on a held die, or would be taken there (R50). -/
def appendHeld (s : State) (r : Run) (q q2 : Nat) : Bool :=
  (List.range (q2 + 1 - q)).any (fun k =>
    if q + k < r.leaves.length then pageHeld s (leafAt r (q + k)) else dieHeld s r.die)

/-- Reserves `n` records at a run's tail for an appender and writes their bytes, with their poison marks (R32); nothing is reserved when the
range does not fit (R27), when a page is not ready (R41, R47) or when the run is not open (Table 2.2). -/
def appendRun (s : State) (k : Nat) (who : Appender) (n : Nat) (bytes : List Byte) (bad : Marks) : AppendRes :=
  match tabGet s.runs k with
  | none => .sealed
  | some r =>
    if r.state ≠ .open_ then .sealed
    else if (r.length + n) * r.recsz > Config.runBytesMax then .range (Config.runBytesMax / r.recsz)
    else if n = 0 then .ok s r.length
    else
      let lo := r.length * r.recsz
      let hi := (r.length + n) * r.recsz
      let q := lo / Config.pageBytes
      let q2 := (hi - 1) / Config.pageBytes
      if appendHeld s r q q2 then .hold
      else
      match readyPages s k lo q (q2 + 1 - q) with
      | .error (p, free) => .fault p free
      | .ok s =>
        let s := updRun s k (fun r =>
          { r with length := r.length + n, ranges := r.ranges ++ [⟨r.length, n, who, false⟩] })
        let s := putRun s k lo bytes
        .ok (match tabGet s.runs k with | some r2 => badRun s r2 lo bad | none => s) r.length

/-- Closes a count of the run's open streams; a run dropped while streams were open is freed at the last (R30). -/
def unstream (s : State) (k : Nat) : State :=
  match tabGet s.runs k with
  | some r =>
    if r.dpend ∧ r.streams ≤ 1 then freeRun s k
    else updRun s k (fun r => { r with streams := r.streams - 1 })
  | none => s

end Sys2Proof.Machine
end

