-- ==== Sys2Proof/Machine/Access.lean ====
section
/-! DEFINITION. The named operations over control threads and their register files (06_registers.md R109-R125). Every
read and write of a register goes through these. -/

namespace Sys2Proof.Machine

open Sys2Proof

/-! ### Agents (R17-R19) -/

/-- Whether an agent is a user control thread. -/
def isUser (ag : Agent) : Bool := ag.val < 128
/-- The agent of a user control thread. -/
def ctAgent (ct : CtId) : Agent := ⟨ct.val, by omega⟩
/-- The agent with this number. -/
def agentOf (n : Nat) : Agent := Fin.ofNat 144 n
/-- The core of a user control thread (R19). -/
def coreOf (ag : Agent) : Fin 32 := Fin.ofNat 32 (ag.val / 4)
/-- The die of an agent (R17, R19). -/
def dieOf (ag : Agent) : Fin 4 := if ag.val < 128 then Fin.ofNat 4 (ag.val / 32) else Fin.ofNat 4 ((ag.val - 128) / 4)
/-- System control thread 0 of a die. -/
def system0 (die : Nat) : Agent := Fin.ofNat 144 (128 + 4 * (die % 4))

/-- The control thread of an agent. -/
def State.ct (s : State) (ag : Agent) : CT := s.cts.get ag
/-- The state with a control thread replaced. -/
def State.setCt (s : State) (ag : Agent) (c : CT) : State := { s with cts := s.cts.set ag.val c ag.isLt }
/-- The state with a control thread changed. -/
def State.updCt (s : State) (ag : Agent) (f : CT → CT) : State := s.setCt ag (f (s.ct ag))
/-- The control thread whose scalar pipe runs. -/
def State.me (s : State) : CT := s.ct s.cur
/-- The state with that control thread changed. -/
def State.upd (s : State) (f : CT → CT) : State := s.updCt s.cur f

/-- Changes one core. -/
def State.updCore (s : State) (k : Fin 32) (f : Core → Core) : State :=
  { s with cores := s.cores.set k.val (f (s.cores.get k)) k.isLt }
/-- Changes one die. -/
def State.updDie (s : State) (k : Fin 4) (f : Die → Die) : State :=
  { s with dies := s.dies.set k.val (f (s.dies.get k)) k.isLt }
/-- Changes a partition that exists. -/
def State.updPart (s : State) (k : Fin 32) (f : Partition → Partition) : State :=
  { s with parts := s.parts.set k.val ((s.parts.get k).map f) k.isLt }
/-- Changes a launch. -/
def State.updLaunch (s : State) (id : Nat) (f : Launch → Launch) : State :=
  { s with launches := tabUpd s.launches id f }
/-- A queue's block; a queue never written is as it was at reset. -/
def State.queue (s : State) (q : Nat) : Queue := (tabGet s.queues q).getD Queue.reset
/-- Changes a queue. -/
def State.updQueue (s : State) (q : Nat) (f : Queue → Queue) : State :=
  { s with queues := tabSet s.queues q (f (s.queue q)) }

/-- The partition number of a user control thread: that of its core; none for a system control thread. -/
def partNo (s : State) (ag : Agent) : Option (Fin 32) :=
  if isUser ag then (s.cores.get (coreOf ag)).part else none
/-- The partition of a user control thread. -/
def partOf (s : State) (ag : Agent) : Option Partition :=
  match partNo s ag with
  | some k => s.parts.get k
  | none => none
/-- The control threads of a partition, ascending. -/
def partCts (s : State) (k : Fin 32) : List CtId :=
  (List.finRange 128).filter (fun ct => (s.cores.get (coreOf (ctAgent ct))).part = some k)
/-- Whether a partition exists on a die: a core of its common set, or one that runs its tasks, lies there (R319, R325). -/
def partOnDie (s : State) (p : Fin 32) (die : Fin 4) : Bool := match s.parts.get p with
  | some q => (q.common ++ (List.finRange 32).filter (fun k => (s.cores.get k).part = some p)).any (fun k => decide (k.val / 8 = die.val))
  | none => false
/-- The function whose address space an agent uses: its partition's, and the physical function for a system control
thread (R29). -/
def fnOf (s : State) (ag : Agent) : Nat :=
  match partOf s ag with
  | some q => q.fn
  | none => 0

/-! ### Scalar and predicate registers (R110, R111) -/

/-- Reads a scalar register: g0 reads as zero. -/
def CT.getG (c : CT) (r : GReg) : W64 := if r = 0 then 0 else c.g.get r
/-- Writes a scalar register: writes to g0 are ignored. -/
def CT.setG (c : CT) (r : GReg) (w : W64) : CT := if r = 0 then c else { c with g := c.g.set r.val w r.isLt }
/-- The axis tag of a scalar register: g0's is always 0 (R120). -/
def CT.getGTag (c : CT) (r : GReg) : Tag := if r = 0 then 0 else c.gtag.get r
/-- Sets the axis tag of a scalar register. -/
def CT.setGTag (c : CT) (r : GReg) (t : Tag) : CT :=
  if r = 0 then c else { c with gtag := c.gtag.set r.val t r.isLt }
/-- Reads a predicate register: p0 reads as all ones. -/
def CT.getP (c : CT) (r : PReg) : PBits := if r = 0 then BitVec.allOnes 2048 else c.p.get r
/-- Writes a predicate register: writes to p0 are ignored. -/
def CT.setP (c : CT) (r : PReg) (w : PBits) : CT := if r = 0 then c else { c with p := c.p.set r.val w r.isLt }
/-- The axis tag of a predicate register: p0's is always 0 (R120). -/
def CT.getPTag (c : CT) (r : PReg) : Tag := if r = 0 then 0 else c.ptag.get r
/-- Sets the axis tag of a predicate register. -/
def CT.setPTag (c : CT) (r : PReg) (t : Tag) : CT :=
  if r = 0 then c else { c with ptag := c.ptag.set r.val t r.isLt }
/-- The vector register with this number; numbers from 48 up name none and read as zeros (they raise ILLEGAL before
any access, R112). -/
def CT.getV (c : CT) (r : Nat) : VReg := if h : r < 48 then c.v[r] else VReg.zero
/-- Writes a vector register. -/
def CT.setV (c : CT) (r : Nat) (x : VReg) : CT := if h : r < 48 then { c with v := c.v.set r x h } else c
/-- The axis tag of a vector register. -/
def CT.getVTag (c : CT) (r : Nat) : Tag := if h : r < 48 then c.vtag[r] else 0
/-- Sets the axis tag of a vector register. -/
def CT.setVTag (c : CT) (r : Nat) (t : Tag) : CT := if h : r < 48 then { c with vtag := c.vtag.set r t h } else c

/-- A predicate value that is the same condition in all 2,048 bits (R111). -/
def pAll (b : Bool) : PBits := if b then BitVec.allOnes 2048 else 0
/-- The scalar condition of a predicate value: bit 0 (R111). -/
def pCond (x : PBits) : Bool := x.getLsbD 0

/-- The lift depth (R268). -/
def CT.depth (c : CT) : Nat := c.lift.levels.length

/-! ### Register banks (R106, R373) -/

/-- Exchanges g24-g31, with their tags, with a bank of eight registers. -/
def CT.swapBank (c : CT) (bank : Vector (W64 × Tag) 8) : CT × Vector (W64 × Tag) 8 :=
  let out := Vector.ofFn (fun k : Fin 8 => (c.g[24 + k.val]'(by omega), c.gtag[24 + k.val]'(by omega)))
  let g := Vector.ofFn (fun k : Fin 32 => if 24 ≤ k.val then (bank.get (Fin.ofNat 8 (k.val - 24))).1 else c.g.get k)
  let t := Vector.ofFn (fun k : Fin 32 => if 24 ≤ k.val then (bank.get (Fin.ofNat 8 (k.val - 24))).2 else c.gtag.get k)
  ({ c with g := g, gtag := t }, out)

/-- Where the error of a register lies once g24-g31 and the supervisor bank have been exchanged (R393). -/
def BadReg.swapSup : BadReg → BadReg
  | .g r => if 24 ≤ r.val then .super (r.val - 24) else .g r
  | .super k => .g (Fin.ofNat 32 (24 + k % 8))
  | b => b
/-- Where it lies once g24-g31 and the user-event shadow bank have been exchanged. -/
def BadReg.swapUser : BadReg → BadReg
  | .g r => if 24 ≤ r.val then .user (r.val - 24) else .g r
  | .user k => .g (Fin.ofNat 32 (24 + k % 8))
  | b => b

/-- Exchanges g24-g31 with the supervisor bank (R373), errors with the registers. -/
def CT.swapSup (c : CT) : CT :=
  let q := c.swapBank c.sBank
  { q.1 with sBank := q.2, regBad := c.regBad.map BadReg.swapSup }
/-- Exchanges g24-g31 with the user-event shadow bank (R106), errors with the registers. -/
def CT.swapUser (c : CT) : CT :=
  let q := c.swapBank c.uBank
  { q.1 with uBank := q.2, regBad := c.regBad.map BadReg.swapUser }

/-- The level of the code that a control thread runs: from 2 up in supervisor mode, by the traps being handled, 1 in a user-event
handler, else 0. -/
def CT.level (c : CT) : Nat := if c.sup then 2 + c.back.length else if c.inUev then 1 else 0

/-- A control thread put into a mode: the banks of the handlers that it leaves or comes back to are exchanged. -/
def CT.inMode (c : CT) (sup inUev inTrap : Bool) : CT :=
  let c := if c.inTrap then c.swapSup else c
  let c := if c.inUev != inUev then c.swapUser else c
  { (if inTrap then c.swapSup else c) with sup := sup, inUev := inUev, inTrap := inTrap }

/-! ### Vector length (R116, R117) -/

/-- Width in bits of an element of a type; a block type's element is 8 or 4 bits (R112, R114). -/
def tyWidth : VTy → Nat
  | .i8 | .n8 | .e4m3 | .e5m2 | .ds8 => 8
  | .i16 | .n16 | .bf16 | .f16 => 16
  | .i32 | .n32 | .f32 => 32
  | .ds4 | .mx4 => 4
  | .none | .record => 0

/-- Whether a type is one of the block types. -/
def tyIsBlock : VTy → Bool
  | .ds4 | .ds8 | .mx4 => true
  | _ => false

/-- The register group g of `vtype` (Table 6.5). -/
def VType.group (t : VType) : Nat := 2 ^ t.grp.toNat
/-- The record size z in bytes (Table 6.5). -/
def VType.recBytes (t : VType) : Nat := 4 * (t.rsz.toNat + 1)
/-- The DS gap: 0 selects 2 for ds4 and 3 for ds8 (Table 6.5). -/
def VType.dsGap (t : VType) (ty : VTy) : Nat :=
  if t.gap = 0 then (if ty = .ds8 then 3 else 2) else t.gap.toNat

/-- The active lane count A (R116); a system control thread's core has no vector unit and no lanes (R17). -/
def lanes (s : State) (ag : Agent) : Nat :=
  if isUser ag then 32 * min (s.cores.get (coreOf ag)).healthy (s.ct ag).vlcap.toNat else 0

/-- The image of a vector register (Table 6.2); lanes at or above the active count are zero (R115). -/
def vImage (a : Nat) (x : VReg) : List Byte :=
  let pay := leBytes 1024 (x.payload.toNat % 2 ^ (32 * a))
  let side := leBytes 512 (x.side.toNat % 2 ^ (16 * a))
  pay ++ side

/-- A register from an image: lanes at or above the active count keep what the register holds (R115, R218). -/
def vFromImage (a : Nat) (old : VReg) (bs : List Byte) : VReg :=
  let pay := leNat (bs.take 1024) % 2 ^ (32 * a)
  let side := leNat (bs.drop 1024) % 2 ^ (16 * a)
  ⟨BitVec.ofNat 8192 (old.payload.toNat / 2 ^ (32 * a) * 2 ^ (32 * a) + pay),
   BitVec.ofNat 4096 (old.side.toNat / 2 ^ (16 * a) * 2 ^ (16 * a) + side)⟩

/-- A vector register as an image holds it: lanes at or above the active count are zero (R115). -/
def VReg.lower (a : Nat) (x : VReg) : VReg := vFromImage a VReg.zero (vImage a x)

/-- VLMAX of an element type under an active lane count (R116). -/
def vlmaxOf (a : Nat) (t : VType) : Nat :=
  match t.ty with
  | .none => 0
  | .record => t.group * a * 4 / t.recBytes
  | ty => min 2048 (t.group * a * 32 / tyWidth ty)

/-- VLMAX of a control thread. -/
def vlmax (s : State) (ag : Agent) : Nat := vlmaxOf (lanes s ag) (s.ct ag).vtype

end Sys2Proof.Machine
end

