-- ==== Sys2Proof/Machine/Trail.lean ====
section
/-! DEFINITION. Local scratch, common memory, trails, views, compaction and strips (04_on_package_sram.md R72-R88,
12_instructions_vector_memory_and_streams.md R207-R210, R220). -/

namespace Sys2Proof.Machine

open Sys2Proof

/-! ### Local scratch (R73, R74) -/

/-- The newest byte of a strip's buffered local writes that covers an address; the buffer is newest first. -/
def stripLoc : List StripWrite → Nat → Option Byte
  | [], _ => none
  | .loc a bs _ :: ws, x => if a ≤ x ∧ x < a + bs.length then bs[x - a]? else stripLoc ws x
  | _ :: ws, x => stripLoc ws x

/-- Whether that byte is poisoned (R393). -/
def stripBad : List StripWrite → Nat → Option Bool
  | [], _ => none
  | .loc a bs m :: ws, x => if a ≤ x ∧ x < a + bs.length then some (marked m x 1) else stripBad ws x
  | _ :: ws, x => stripBad ws x

/-- A byte of a control thread's local window as it reads it itself. -/
def CT.locByte (c : CT) (a : Nat) : Byte :=
  match c.strip with
  | some st => (stripLoc st.writes a).getD (memGet c.loc a)
  | none => memGet c.loc a

/-- Local bytes as the control thread reads them. -/
def CT.locRead (c : CT) (a n : Nat) : List Byte := (List.range n).map (fun k => c.locByte (a + k))

/-- Whether a local byte that a control thread reads is poisoned (R393): in its strip's buffer where that holds it, else in the
window. -/
def CT.locBadAt (c : CT) (a : Nat) : Bool := (c.strip.bind (fun st => stripBad st.writes a)).getD (marked c.locBad a 1)

/-- Whether a local byte that a control thread reads may be poisoned at all. -/
def CT.maybePoisoned (c : CT) : Bool := c.locBad != [] || c.strip.isSome

/-- Whether local bytes that a control thread reads hold a poisoned one (R393). -/
def CT.locPoisoned (c : CT) (a n : Nat) : Bool :=
  c.maybePoisoned && (List.range n).any (fun k => c.locBadAt (a + k))

/-- The poison marks of local bytes as a control thread reads them, by their place from `at_` up. -/
def CT.locMarks (c : CT) (a n at_ : Nat) : Marks :=
  if !c.maybePoisoned then []
  else ((List.range n).filter (fun k => c.locBadAt (a + k))).map (fun k => (at_ + k, 1))

/-- Local bytes a buffer holds (R210). -/
def bufLocal (ws : List StripWrite) : Nat :=
  ws.foldl (fun n w => match w with | .loc _ bs _ => n + bs.length | _ => n) 0

/-- Bytes of trail entries, headers included, and run-append data a buffer holds (R210). -/
def bufTrail (ws : List StripWrite) : Nat :=
  ws.foldl (fun n w => match w with
    | .com _ bs => n + 16 + pad16 bs.length
    | .mark _ _ _ => n + 16
    | .app _ _ bs => n + bs.length
    | .loc _ _ _ => n) 0

/-! ### Trail entries (R77, R78) -/

/-- Bytes an entry takes in its trail: a 16-byte header, and for data the bytes padded to a multiple of 16. -/
def entryBytes (e : Entry) : Nat := match e.kind with
  | .data => 16 + pad16 e.bytes.length
  | _ => 16

/-- A data entry, with the poison marks of its bytes. -/
def dataEntry (addr : Nat) (bytes : List Byte) (bad : Marks) : Entry := ⟨.data, addr, bytes, 0, 0, bad⟩
/-- An acquire marker: it names a trail, its tail and its generation. -/
def markEntry (trail tail : Nat) (gen : BitVec 16) : Entry := ⟨.marker, tail, [], trail, gen, []⟩
/-- A strip-commit entry with the size of its group, itself included. -/
def commitEntry (n : Nat) : Entry := ⟨.commit, n, [], 0, 0, []⟩

/-- Bytes cut at stripe boundaries, in ascending address order (R78); `fuel` bounds the number of pieces. -/
def stripePieces : (fuel : Nat) → Nat → List Byte → List (Nat × List Byte)
  | 0, _, _ => []
  | fuel + 1, a, bs =>
    if bs = [] then []
    else
      let n := 128 - a % 128
      (a, bs.take n) :: stripePieces fuel (a + n) (bs.drop n)

/-- The pieces of a store, one for each stripe it touches. -/
def stripes (a : Nat) (bs : List Byte) : List (Nat × List Byte) := stripePieces (bs.length + 1) a bs

/-- Bytes of a trail's entries that are not yet compacted. -/
def trailUsed (t : Trail) : Nat := ((t.entries.drop t.done).map entryBytes).sum

/-- The trail size of a control thread's partition: 64 KiB * 2^trsz (Table 4.2). -/
def trailSize (s : State) (ag : Agent) : Nat :=
  match partOf s ag with
  | some q => 65536 * 2 ^ q.trsz
  | none => 65536 * 4

/-- Publishes every entry of a trail (R80), those that an earlier `rel` has still to publish among them. -/
def publishTrail (s : State) (ag : Agent) : State :=
  s.updCt ag (fun c => { c with trail := { c.trail with pub := c.trail.entries.length }, owed := 0 })

/-- A control thread once what an earlier `rel` has still to publish is published. -/
def CT.publishOwed (c : CT) : CT := { c with trail := { c.trail with pub := max c.trail.pub c.owed }, owed := 0 }

/-- Splits entries into those that find room in a trail, in order, and the rest (R79). -/
def fitEntries : (room : Nat) → List Entry → List Entry × List Entry
  | _, [] => ([], [])
  | room, e :: es =>
    if entryBytes e ≤ room then
      let q := fitEntries (room - entryBytes e) es
      (e :: q.1, q.2)
    else ([], e :: es)

/-- An entry whose data comes to lie at ring offset `off`, with the poison of places there that have a lasting fault (R398). -/
def Entry.laid (e : Entry) (stuck : Marks) (size off : Nat) : Entry :=
  if e.kind = EntryKind.data then
    { e with bad := ((List.range e.bytes.length).filter (fun k => marked stuck ((off + 16 + k) % size) 1)).map (fun k => (e.addr + k, 1))
        ++ e.bad }
  else e

/-- Entries laid one after the other into a ring from an offset on. -/
def layEntries (stuck : Marks) (size : Nat) : (off : Nat) → List Entry → List Entry
  | _, [] => []
  | off, e :: es => e.laid stuck size off :: layEntries stuck size (off + entryBytes e) es

/-- A control thread after entries have entered its trail. -/
def CT.appended (c : CT) (size : Nat) (es : List Entry) : CT :=
  { c with trail := { c.trail with entries := c.trail.entries ++
      (if c.trailStuck = [] then es else layEntries c.trailStuck size (c.trail.entries.map entryBytes).sum es) } }

/-- Whether a vector load or atomic that a control thread has pushed has still to be performed; a frozen queue performs
none (R377), and what the handler does then follows nothing of it (notes/assumptions/13.md). -/
def CT.loadsQueued (c : CT) : Bool :=
  c.frozen.isNone && c.vq.any (fun v => v.entries.any (fun e => e.reads != []))

/-- Whether a read of memory or of a run that a control thread has pushed has still to be performed: an acquire comes after
it (R341; Table 22.13). -/
def CT.readsQueued (c : CT) : Bool :=
  c.loadsQueued || (c.frozen.isNone && c.vq.any (fun v => v.entries.any (fun e => match e.instr with
    | .rld _ => true
    | _ => false)))

/-- The acquire markers that wait for earlier loads enter among the entries to append once those are performed (R79). -/
def CT.withMarks (c : CT) : CT :=
  if c.loadsQueued then c else { c with out := c.out ++ c.marks, marks := [] }

/-- Moves the entries that wait for room into the trail, one by one; while one finds none the trail is published and the
appends stall (R79, R81). -/
def flushOut (s : State) (ag : Agent) : State :=
  let c := s.ct ag
  let q := fitEntries (trailSize s ag - trailUsed c.trail) c.out
  let s := s.updCt ag (fun c => { c.appended (trailSize s ag) q.1 with out := q.2 })
  if q.2 = [] then s else publishTrail s ag

/-- Appends entries one after the other (R79): those without room wait, and with them whatever the control thread does
next (notes/assumptions/7.md). -/
def appendEach (s : State) (ag : Agent) (es : List Entry) : State :=
  if es = [] then s
  else flushOut (s.updCt ag (fun c => { c.withMarks with out := c.withMarks.out ++ es })) ag

/-- Appends a strip group as one piece: without room for all of it the trail is published and the append stalls (R79, R81).
A group always fits once its trail has drained (R85). -/
def appendGroup (s : State) (ag : Agent) (es : List Entry) : Except State State :=
  let s := flushOut (s.updCt ag CT.withMarks) ag
  let c := s.ct ag
  if es = [] ∧ c.out = [] then .ok s
  else if c.out = [] ∧ trailUsed c.trail + (es.map entryBytes).sum ≤ trailSize s ag then
    .ok (s.updCt ag (fun c => c.appended (trailSize s ag) es))
  else .error (publishTrail s ag)

/-! ### Reading common memory (R83) -/

/-- The byte an entry holds for an address. -/
def entryByte (e : Entry) (a : Nat) : Option Byte :=
  if e.kind = EntryKind.data ∧ e.addr ≤ a ∧ a < e.addr + e.bytes.length then e.bytes[a - e.addr]? else none

/-- The newest buffered common write that covers an address; the buffer is newest first. -/
def stripCom : List StripWrite → Nat → Option Byte
  | [], _ => none
  | .com a bs :: ws, x => if a ≤ x ∧ x < a + bs.length then bs[x - a]? else stripCom ws x
  | _ :: ws, x => stripCom ws x

/-- The newest entry of a control thread's trail that covers an address and has not been compacted, one that waits for room
included. -/
def CT.trailByte (c : CT) (a : Nat) : Option Byte :=
  ((c.trail.entries.drop c.trail.done ++ c.out).reverse).findSome? (fun e => entryByte e a)

/-- A home byte of a control thread's partition. -/
def homeByte (s : State) (ag : Agent) (a : Nat) : Byte :=
  match partOf s ag with
  | some q => memGet q.home a
  | none => 0

/-- A read of a common byte by a control thread: strip write buffer, own trail, view, home (R83). -/
def comByte (s : State) (ag : Agent) (a : Nat) : Byte :=
  let c := s.ct ag
  match c.strip.bind (fun st => stripCom st.writes a) with
  | some b => b
  | none =>
    match c.trailByte a with
    | some b => b
    | none =>
      match tabGet c.view a with
      | some v => v.val
      | none => homeByte s ag a

/-- Common bytes as a control thread reads them. -/
def comRead (s : State) (ag : Agent) (a n : Nat) : List Byte := (List.range n).map (fun k => comByte s ag (a + k))

/-- A loaded value, extended to 64 bits (R202). -/
def extend (bs : List Byte) (sx : Bool) : W64 :=
  if sx then BitVec.ofInt 64 (BitVec.ofNat (8 * bs.length) (leNat bs)).toInt else w64 (leNat bs)

/-- Common bytes as a vector load of a control thread reads them: one that has been read ahead has the value it had then
(Table 21.5). -/
def vecRead (s : State) (ag : Agent) (a n : Nat) : List Byte :=
  (List.range n).map (fun k => (tabGet (s.ct ag).early (a + k)).getD (comByte s ag (a + k)))

/-- The first byte of the 16-byte granule that holds a byte. -/
def granuleOf (a : Nat) : Nat := a / 16 * 16
/-- The first granule boundary at or above an address. -/
def granuleEnd (a : Nat) : Nat := (a + 15) / 16 * 16

/-- A control thread whose reads ahead of `n` bytes from `a` up no longer stand: a later access to these bytes is ordered
behind what it has done to them (R327). A granule is read ahead whole, so it is dropped whole (R216). -/
def CT.dropEarly (c : CT) (a n : Nat) : CT :=
  if c.early = [] then c
  else { c with early := c.early.filter (fun e => decide (e.1 < granuleOf a) || decide (granuleEnd (a + n) ≤ e.1)) }

/-- A control thread whose reads ahead no longer stand. -/
def CT.noEarly (c : CT) : CT := { c with early := [] }

/-- Whether an interval meets one of a list; an empty one meets nothing. -/
def meets (common : Bool) (lo hi : Nat) (xs : List Interval) : Bool :=
  decide (lo < hi) &&
    xs.any (fun x => x.common == common && decide (x.lo < x.hi) && decide (x.lo < hi) && decide (lo < x.hi))

/-- Where a control thread that reads a common byte meets a poisoned one (R83, R393): in the entry or the view byte that
holds it, or at home; what its strip has buffered is good. -/
def comBad (s : State) (ag : Agent) (a : Nat) : Option Place :=
  let c := s.ct ag
  if (c.strip.bind (fun st => stripCom st.writes a)).isSome then none
  else
    match ((c.trail.entries.drop c.trail.done ++ c.out).reverse).find? (fun e => (entryByte e a).isSome) with
    | some e => if marked e.bad a 1 then some (.trail ag) else none
    | none =>
      match tabGet c.view a with
      | some v => if v.bad then some (.view ag) else none
      | none =>
        match partNo s ag, partOf s ag with
        | some p, some q => if marked q.homeBad a 1 then some (.home p) else none
        | _, _ => none

/-- The first poisoned byte among common bytes that a control thread reads, with its place. -/
def comPoisoned (s : State) (ag : Agent) (a n : Nat) : Option (Nat × Place) :=
  (List.range n).findSome? (fun k => (comBad s ag (a + k)).map (fun p => (a + k, p)))

/-- Whether home bytes of a partition hold a poisoned one. -/
def homePoisoned (s : State) (p : Fin 32) (a n : Nat) : Bool := match s.parts.get p with
  | some q => marked q.homeBad a n
  | none => false

/-- Whether some die has stopped (R418). -/
def anyStopped (s : State) : Bool := s.dies.toList.any (·.stopped)

/-- Whether the core in whose slice a common byte has its home (R76) lies on a stopped die. -/
def homeStopped (s : State) (q : Partition) (a : Nat) : Bool :=
  match q.common[a / 128 % q.common.length]? with
  | some core => (s.dies.get (Fin.ofNat 4 (core.val / 8))).stopped
  | none => false

/-- Whether traffic to some of `n` home bytes of a partition stalls, since it would go to a stopped die (R418). -/
def homeStalled (s : State) (pn : Fin 32) (a n : Nat) : Bool :=
  anyStopped s && (match s.parts.get pn with
    | some q => (List.range n).any (fun k => homeStopped s q (a + k))
    | none => false)

/-- Whether a control thread's read of some of `n` common bytes stalls: it takes one from home there (R83, R418). -/
def comStalled (s : State) (ag : Agent) (a n : Nat) : Bool :=
  let c := s.ct ag
  let far (x : Nat) : Bool := (c.strip.bind (fun st => stripCom st.writes x)).isNone && (c.trailByte x).isNone &&
    (tabGet c.view x).isNone
  anyStopped s && (match partNo s ag with
    | some pn => (List.range n).any (fun k => far (a + k) && homeStalled s pn (a + k) 1)
    | none => false)

/-- Whether an access must wait for a queued vector instruction: their footprints meet and one of the two writes (R327),
or it is a store and an earlier vector load has not been performed (Table 21.5); a handler does not wait for a frozen
queue, which performs nothing (R377). -/
def queueHolds (c : CT) (common write : Bool) (lo hi : Nat) : Bool :=
  c.frozen.isNone && c.vq.any (fun v => v.entries.any (fun e =>
    meets common lo hi e.writes || (write && (e.reads ≠ [] || meets common lo hi e.reads))))

/-- Whether an entry of a queue has still to be performed that `n` common bytes from `lo` to `hi` may be read ahead for: a load of
some of them, with nothing queued before it that writes one of them, and no `fence.vv` (R216, R308, Table 21.5). -/
def lookable (lo hi : Nat) : List VEntry → Bool
  | [] => false
  | e :: es =>
    if meets true lo hi e.writes then false
    else if meets true lo hi e.reads then true
    else !e.fenced && lookable lo hi es

/-- Reads the 16-byte granules that hold `n` common bytes from `a` up, ahead of accesses that a vector load in the queue of the
thread need not follow (Table 21.5): between the load's push and its retirement, and each granule at one moment (R216). Poisoned bytes,
and bytes that cannot be read, are left to the load itself. -/
def lookAhead (s : State) (ag : Agent) (a n : Nat) : State :=
  let c := s.ct ag
  let lo := granuleOf a
  let hi := granuleEnd (a + n)
  if c.frozen.isSome || !lookable lo hi (c.vq.flatMap (·.entries)) || comStalled s ag lo (hi - lo) ||
      (comPoisoned s ag lo (hi - lo)).isSome then s
  else s.updCt ag (fun c => { c with
    early := (List.range (hi - lo)).foldl (fun m k => tabSet m (lo + k) (comByte s ag (lo + k))) c.early })

/-- The first poisoned byte among common bytes that a vector load of a control thread reads, with its place: those that it has read
ahead were good. -/
def vecPoisoned (s : State) (ag : Agent) (a n : Nat) : Option (Nat × Place) :=
  (List.range n).findSome? (fun k => if (tabGet (s.ct ag).early (a + k)).isSome then none
    else (comBad s ag (a + k)).map (fun p => (a + k, p)))

/-- Whether a vector load of a control thread stalls on some of `n` common bytes: on one that it has not read ahead (R418). -/
def vecStalled (s : State) (ag : Agent) (a n : Nat) : Bool :=
  anyStopped s && (List.range n).any (fun k => (tabGet (s.ct ag).early (a + k)).isNone && comStalled s ag (a + k) 1)

/-- Home bytes of a control thread's partition. -/
def homeRead (s : State) (ag : Agent) (a n : Nat) : List Byte := (List.range n).map (fun k => homeByte s ag (a + k))

/-! ### Compaction (R84, R85, R88) -/

/-- Whether a marker holds its trail back: it names the current generation of a trail not yet compacted to the named
tail (R85). -/
def markerHolds (s : State) (e : Entry) : Bool :=
  if e.kind = EntryKind.marker ∧ e.trail < 128 then
    let t := (s.ct (agentOf e.trail)).trail
    t.gen = e.gen && t.done < e.addr
  else false

/-- How many generations ago a generation of a trail was: 0 is the present one. -/
def Trail.age (t : Trail) (gen : BitVec 16) : Nat := (t.gen - gen).toNat

/-- The acquire markers that a trail had before entry `n` of its generation `gen`, as trail, tail and generation (R88):
those of earlier generations too, whether or not `gen` itself held any. -/
def marksBefore (t : Trail) (gen : BitVec 16) (n : Nat) : List (Nat × Nat × BitVec 16) :=
  (if t.gen = gen then
    ((t.entries.take n).filter (fun e => e.kind = EntryKind.marker)).map (fun e => (e.trail, e.addr, e.gen)) else [])
    ++ (t.past.filter (fun m => decide (t.age gen < t.age m.gen) || (decide (m.gen = gen) && decide (m.idx < n)))).map
      (fun m => (m.trail, m.tail, m.tailGen))

/-- Whether, by its acquire markers before entry `n` of its generation `g`, a trail covers entry `idx` of generation `gen` of
trail `src`; markers of markers count (R82, R88). A marker that names another generation of `src` than the entry's covers nothing of
it, also where it names a later one (DESIGN CHOICE, notes/assumptions/32.md). -/
def covers (s : State) (src idx : Nat) (gen : BitVec 16) : (fuel : Nat) → (trail : Nat) → (g : BitVec 16) → (n : Nat) → Bool
  | 0, _, _, _ => false
  | fuel + 1, trail, g, n =>
    (marksBefore (s.ct (agentOf trail)).trail g n).any (fun m =>
      (m.1 = src && m.2.2 = gen && decide (idx < m.2.1)) || covers s src idx gen fuel m.1 m.2.2 m.2.1)

/-- Fuel that no chain of markers outlasts (R85: each leads strictly back in time): one more than all there are. -/
def coverFuel (s : State) : Nat := (s.cts.toList.map (fun c => c.trail.entries.length + c.trail.past.length)).sum + 1

/-- Records a conflict in a partition's register: the first report fills it, later ones set more (Table 4.4); more stays until
software clears it. -/
def reportConflict (q : Partition) (g : Granule) (trail idx : Nat) : Partition :=
  if q.conflict.valid then { q with conflict := { q.conflict with more := true } }
  else { q with conflict := ⟨true, q.conflict.more, BitVec.ofNat 7 g.trail, BitVec.ofNat 7 trail, BitVec.ofNat 24 g.idx,
    BitVec.ofNat 24 idx⟩ }

/-- Notes the source of a granule of home, reporting a conflict in conflict-report mode (R88). -/
def noteGranule (s : State) (pn : Fin 32) (trail idx : Nat) (gen : BitVec 16) (gran : Nat) : State :=
  match s.parts.get pn with
  | none => s
  | some q =>
    let clash := match tabGet q.grans gran with
      | some g => q.crep && g.trail != trail && !covers s g.trail g.idx g.gen (coverFuel s) trail gen idx
      | none => false
    let q1 := match tabGet q.grans gran with
      | some g => if clash then reportConflict q g trail idx else q
      | none => q
    s.updPart pn (fun _ => { q1 with grans := tabSet q1.grans gran ⟨trail, idx, gen⟩ })

/-- A `wfe` that waits notes a write of some byte of the word that it watches (R310). -/
def Wfe.wakeAt (w : Wfe) (a n : Nat) : Wfe := match w.addr with
  | some x => if x < a + n ∧ a < x + 8 then { w with wat := true } else w
  | none => w

/-- A control thread each `wfe` of which that watches such a word has noted the write. -/
def CT.wakeAt (c : CT) (a n : Nat) : CT := { c with wfe := c.wfe.map (fun w => w.wakeAt a n) }

/-- Marks the wake of every `wfe` of a partition that watches a word some byte of which is written at home, those of saved
contexts too (R310, R383). -/
def wakeWatchers (s : State) (pn : Fin 32) (a n : Nat) : State :=
  { s with
    cts := Vector.ofFn (fun k : Fin 144 => if partNo s k = some pn then (s.cts.get k).wakeAt a n else s.cts.get k)
    images := s.images.map (fun e =>
      if partNo s (agentOf e.1) = some pn then (e.1, { e.2 with ctx := e.2.ctx.wakeAt a n }) else e) }

/-- The home of a common byte (R76): a core of the common set, and the offset in its slice. -/
def homePlace (cores : List (Fin 32)) (a : Nat) : Nat × Nat :=
  let m := cores.length
  (((cores[a / 128 % m]?).map (·.val)).getD 0, a / 128 / m * 128 + a % 128)

/-- The common bytes that lie on `n` bytes of a core's slice from an offset up, byte by byte (R76). -/
def sliceMarks (cores : List (Fin 32)) (j : Nat) (q : Nat × Nat) : Marks :=
  (List.range q.2).map (fun k => (((q.1 + k) / 128 * cores.length + j) * 128 + (q.1 + k) % 128, 1))

/-- The home bytes of a partition that have a lasting fault: those of its cores' slices (R76, R398). -/
def homeStuckOf (s : State) (q : Partition) : Marks :=
  if s.homeStuck = [] then []
  else (q.common.zipIdx).flatMap (fun k => ((tabGet s.homeStuck k.1.val).getD []).flatMap (sliceMarks q.common k.2))

/-- Writes bytes at home, with their poison marks. -/
def homeWrite (s : State) (pn : Fin 32) (a : Nat) (bs : List Byte) (bad : Marks) : State :=
  let stuck := match s.parts.get pn with
    | some q => homeStuckOf s q
    | none => []
  let s := s.updPart pn (fun q => { q with
    home := memWrite q.home a bs, homeBad := remark q.homeBad stuck a bs.length bad })
  if bs = [] then s else wakeWatchers s pn a bs.length

/-- Applies entry `idx` of a trail to home, and drops the view copies it is the source of (R84, R85). -/
def applyEntry (s : State) (ct : CtId) (idx : Nat) : State :=
  let t := (s.ct (ctAgent ct)).trail
  let s := match t.entries[idx]?, partNo s (ctAgent ct) with
    | some e, some pn =>
      if e.kind = EntryKind.data then
        let grans := (List.range (e.bytes.length / 16 + 2)).map (fun k => e.addr / 16 + k)
        let grans := grans.filter (fun g => 16 * g < e.addr + e.bytes.length)
        let s := grans.foldl (fun s g => noteGranule s pn ct.val idx t.gen g) s
        homeWrite s pn e.addr e.bytes e.bad
      else s
    | _, _ => s
  { s with cts := Vector.ofFn (fun k : Fin 144 =>
      let c := s.cts.get k
      let c := { c with view := c.view.filter (fun v => !(v.2.trail = ct.val && v.2.idx = idx && v.2.gen = t.gen)) }
      if k = ctAgent ct then { c with trail := { c.trail with done := idx + 1 } } else c) }

/-- The last entry of the unit that begins at `idx`: a strip group is applied as a unit (R85). -/
def unitEnd (t : Trail) (idx : Nat) : Nat :=
  let js := (List.range t.entries.length).filter (fun j => idx ≤ j)
  match js.find? (fun j => (t.entries[j]?.map (·.kind)) = some EntryKind.commit) with
  | some j =>
    match t.entries[j]? with
    | some e => if j + 1 ≤ idx + e.addr then j else idx
    | none => idx
  | none => idx

/-- Whether entries of a trail cannot be applied since a die has stopped: that of the trail, with its compactor, or that of
the home of one of them (R418). -/
def unitStalled (s : State) (ct : CtId) (es : List Entry) : Bool :=
  anyStopped s && ((s.dies.get (dieOf (ctAgent ct))).stopped || (match partNo s (ctAgent ct) with
    | some pn => es.any (fun e => homeStalled s pn e.addr e.bytes.length)
    | none => false))

/-- The load that a control thread has put off, unless it has put off an atomic or nothing. -/
def CT.slowLoad (c : CT) : Option (Slow × Bool) := c.slow.bind (fun q => match q.kind with
  | .load sx => some (q, sx)
  | _ => none)

/-- Whether a load that a control thread has put off meets poison, or a die that has stopped: it is then the thread's own to
perform. -/
def slowStuck (s : State) (ag : Agent) : Bool := match (s.ct ag).slowLoad with
  | some (q, _) => comStalled s ag q.addr q.size || (comPoisoned s ag q.addr q.size).isSome
  | none => false

/-- Performs a load that a control thread has put off: its value is fixed now (R326). -/
def performLoad (s : State) (ag : Agent) : State := match (s.ct ag).slowLoad with
  | some (q, sx) =>
    let bs := comRead s ag q.addr q.size
    s.updCt ag (fun c => ({ c with slow := none }.dropEarly q.addr q.size).setG q.dest (extend bs sx))
  | none => s

/-- The control threads that have acquired a trail and have an access under way whose value may still be fixed out of order: a
later acquire's effects must not be seen before theirs (R82, Tables 21.9 and 22.9; notes/assumptions/5.md). -/
def acquirers (s : State) (trail : Nat) : List Agent :=
  (List.finRange 144).filter (fun ag =>
    ((s.ct ag).slow.isSome || (s.ct ag).early != []) && (s.ct ag).acqd.contains trail)

/-- The state in which every acquirer of a trail has performed the load that it had put off, and reads nothing ahead. -/
def settleAcquirers (s : State) (trail : Nat) : State :=
  (acquirers s trail).foldl (fun s ag => (performLoad s ag).updCt ag CT.noEarly) s

/-- Whether the compactor can apply the next unit of a trail: it is published, no marker up to its end holds it back, no
stopped die does, and no acquirer's load that is put off. -/
def canCompact (s : State) (ct : CtId) : Bool :=
  let t := (s.ct (ctAgent ct)).trail
  let j := unitEnd t t.done
  let es := (t.entries.drop t.done).take (j + 1 - t.done)
  decide (t.done < t.pub) && decide (j < t.pub) && !es.any (markerHolds s) && !unitStalled s ct es &&
    !(acquirers s ct.val).any (slowStuck s)

/-- Applies the next unit of a trail, where the compactor can (R85). -/
def compactUnit (s : State) (ct : CtId) : State :=
  if canCompact s ct then
    let s := settleAcquirers s ct.val
    let t := (s.ct (ctAgent ct)).trail
    let j := unitEnd t t.done
    (List.range (j + 1 - t.done)).foldl (fun s k => applyEntry s ct (t.done + k)) s
  else s

/-- Whether every published entry of a trail has been applied. -/
def drainedTrail (t : Trail) : Bool := decide (t.pub ≤ t.done)

/-- The published acquire markers of a trail's generation, the latest first, as a reset keeps them (R88). -/
def pastMarks (t : Trail) : List PastMark :=
  ((List.range (min t.pub t.entries.length)).reverse.filterMap (fun k => (t.entries[k]?).bind (fun e =>
    if e.kind = EntryKind.marker then some ⟨t.gen, k, e.trail, e.addr, e.gen⟩ else none)))

/-- Resets a trail: generation plus 1, tail 0, no entries (R80). -/
def resetTrail (t : Trail) : Trail := ⟨[], 0, 0, t.gen + 1, pastMarks t ++ t.past⟩

/-! ### Views and acquire (R82) -/

/-- Writes bytes with their source and their poison marks into a view. -/
def viewWrite (v : Tab ViewByte) (bad : Marks) (a : Nat) (trail idx : Nat) (gen : BitVec 16) : List Byte → Tab ViewByte
  | [] => v
  | b :: bs => viewWrite (tabSet v a ⟨b, trail, idx, gen, marked bad a 1⟩) bad (a + 1) trail idx gen bs

/-- Replays trail `t` up to a tail into a control thread's view and replay points (R82). -/
def replay (s : State) (ag : Agent) : (fuel : Nat) → (t tail : Nat) → (gen : BitVec 16) → State
  | 0, _, _, _ => s
  | fuel + 1, t, tail, gen =>
    let tr := (s.ct (agentOf t)).trail
    if gen ≠ tr.gen then s
    else
      let p := (tabGet (s.ct ag).rp t).getD (0, 0)
      let first := if p.2 = gen then p.1 else 0
      (List.range (tail - first)).foldl (fun s k =>
        let idx := first + k
        match tr.entries[idx]? with
        | none => s
        | some e =>
          let s := if e.kind = EntryKind.marker then replay s ag fuel e.trail e.addr e.gen else s
          s.updCt ag (fun c =>
            let view := if e.kind = EntryKind.data ∧ tr.done ≤ idx then
                viewWrite c.view (e.bad ++ c.viewStuck) e.addr t idx gen e.bytes else c.view
            { c with view := view, rp := tabSet c.rp t (idx + 1, gen) }))
        (s.updCt ag (fun c => { c with rp := tabSet c.rp t (first, gen) }))

/-- Fuel that no chain of markers outlasts: one more than the entries of all trails. -/
def markerFuel (s : State) : Nat := (s.cts.toList.map (fun c => c.trail.entries.length)).sum + 1

/-! ### Run appends of a stream (R32, R220) -/

/-- What an append through a stream comes to. -/
inductive StreamRes where
  | ok (s : State)
  | hold                                                            -- a page of its range lies on a held die (R50)
  | fault (s : State) (cause : Cause) (tval : W64) (free : Bool)    -- with the notice and the stream's mark (R46, R382)

/-- Notes that an agent's launch appended to a run (R358); an appending agent also ends the run's ended state. -/
def noteAppend (s : State) (ag : Agent) (k : Nat) : State :=
  match (s.ct ag).launch with
  | some id => s.updLaunch id (fun l => if l.runs.contains k then l else { l with runs := l.runs ++ [k] })
  | none => s

/-- Changes one stream of an agent. -/
def State.updStream (s : State) (ag : Agent) (n : Fin 4) (f : Stream → Stream) : State :=
  s.updCt ag (fun c => { c with streams := c.streams.set n.val (f (c.streams.get n)) n.isLt })

/-- Reserves and fills the range of an append through stream `n` (R32, R220). A page that is not in tier 0 is reported at the
range's first record (R47); one in tier 2 or 3 sends a notice and marks the stream suspended (R46, R382). -/
def streamAppend (s : State) (ag : Agent) (n : Fin 4) (bytes : List Byte) : StreamRes :=
  let st := (s.ct ag).streams.get n
  let fn := fnOf s ag
  let k := runKey fn st.run
  match tabGet s.runs k with
  | none => .fault s .runSealed (runFaultWord st.run 0 0 n.val) false
  | some r =>
    let cnt := bytes.length / r.recsz
    match appendRun s k (.stream ag.val n) cnt bytes [] with
    | .ok s _ => .ok ((noteAppend s ag k).updStream ag n (fun st => { st with susp := false, next := st.next + cnt }))
    | .sealed => .fault s .runSealed (runFaultWord st.run r.length 0 n.val) false
    | .range rec_ => .fault s .runRange (runFaultWord st.run rec_ 0 n.val) false
    | .hold => .hold
    | .fault q free =>
      let s := if pageAway r q then
          (sendMigrations s fn st.run r r.length (pagesOf r r.length cnt)).updStream ag n (fun st => { st with susp := true })
        else s
      .fault s .runFault (runFaultWord st.run r.length (q - r.length * r.recsz / Config.pageBytes) n.val) free

/-- Reserves held ranges in program order; at a failure it and the later ranges stay held and the failure freezes the
queue as a vector fault of that `rapp` (R220). -/
def flushHeld (s : State) (ag : Agent) : List StripWrite → State × Bool
  | [] => (s.updCt ag (fun c => { c with held := [] }), true)
  | .app n pc bs :: ws =>
    match streamAppend s ag n bs with
    | .ok s => flushHeld s ag ws
    | .hold => (s.updCt ag (fun c => { c with held := .app n pc bs :: ws }), false)
    | .fault s cause tval free =>
      (s.updCt ag (fun c => { c with held := .app n pc bs :: ws, frozen := some ⟨cause, tval, free, pc, 0, false⟩ }), false)
  | _ :: ws => flushHeld s ag ws

/-! ### Strips (R207-R210) -/

/-- The trail entries of a buffer, oldest first. -/
def bufEntries (ws : List StripWrite) : List Entry :=
  ws.reverse.filterMap (fun w => match w with
    | .com a bs => some (dataEntry a bs [])
    | .mark t n g => some (markEntry t n g)
    | _ => none)

/-- The run appends of a buffer, oldest first. -/
def bufAppends (ws : List StripWrite) : List StripWrite :=
  ws.reverse.filter (fun w => match w with | .app _ _ _ => true | _ => false)

/-- Applies a buffer's local writes to the window, oldest first. -/
def applyLocals (m : Mem) (ws : List StripWrite) : Mem :=
  ws.reverse.foldl (fun m w => match w with | .loc a bs _ => memWrite m a bs | _ => m) m

/-- The poison marks of a window after a buffer's local writes, oldest first. -/
def localMarks (m stuck : Marks) (ws : List StripWrite) : Marks :=
  ws.reverse.foldl (fun m w => match w with | .loc a bs bad => remark m stuck a bs.length bad | _ => m) m

/-- A control thread after the local writes of a buffer. -/
def CT.putLocal (c : CT) (ws : List StripWrite) : CT :=
  { c with loc := applyLocals c.loc ws, locBad := localMarks c.locBad c.locStuck ws }

/-- A control thread after a write of local bytes that does not pass through a strip's buffer, with their poison marks. -/
def CT.writeLoc (c : CT) (a : Nat) (bs : List Byte) (bad : Marks) : CT :=
  { c with loc := memWrite c.loc a bs, locBad := remark c.locBad c.locStuck a bs.length bad }

/-- What a strip commit comes to: done; stalled at a full trail; or a failed reservation, reported at the boundary
before the instruction that caused the commit (R220). -/
inductive Commit where
  | done (s : State)
  | stall (s : State)
  | fault (s : State)

/-- Applies what a strip has buffered (R208): the local writes in program order, the trail entries as one group with its
strip-commit entry, the run ranges in program order. -/
def applyBuffer (s : State) (ag : Agent) (ws : List StripWrite) : Commit :=
  let es := bufEntries ws
  let group := if es = [] then [] else es ++ [commitEntry (es.length + 1)]
  match appendGroup s ag group with
  | .error s => .stall s
  | .ok s =>
    let s := s.updCt ag (fun c => c.putLocal ws)
    let (s, ok) := flushHeld s ag ((s.ct ag).held ++ bufAppends ws)
    if ok then .done s else .fault s

/-- Commits an open strip (R208); with none open it does nothing. -/
def commitStrip (s : State) (ag : Agent) : Commit :=
  match (s.ct ag).strip with
  | none => .done s
  | some st =>
    match applyBuffer s ag st.writes with
    | .stall s => .stall s
    | .done s => .done (s.updCt ag (fun c => { c with strip := none }))
    | .fault s => .fault (s.updCt ag (fun c => { c with strip := none }))

/-- An open strip whose buffer has been committed before its end (R210). -/
def Strip.spilled (st : Strip) : Strip := { st with writes := [], overflow := true }

/-- Applies local and common writes directly, outside any strip. -/
def directWrite (s : State) (ag : Agent) (ws : List StripWrite) : State :=
  (appendEach s ag (bufEntries ws)).updCt ag (fun c => c.putLocal ws)

/-- Whether a strip write buffer can hold these writes (R210). -/
def bufferFits (ws : List StripWrite) : Bool :=
  decide (bufLocal ws ≤ Config.stripLocalCap) && decide (bufTrail ws ≤ Config.stripTrailCap)

/-- Where writes go. -/
inductive Room where
  | buffered (s : State)   -- they are in the strip write buffer
  | direct (s : State)     -- no strip is open, or it has overflowed: they go to their targets
  | stall (s : State)
  | fault (s : State)

/-- Makes writes, newest first, if they go into the strip write buffer; a strip whose buffer would overflow commits what it
holds and is marked overflowed (R74, R79, R210). -/
def makeRoom (s : State) (ag : Agent) (ws : List StripWrite) : Room :=
  match (s.ct ag).strip with
  | none => .direct s
  | some st =>
    if st.overflow then .direct s
    else if bufferFits (ws ++ st.writes) then
      .buffered (s.updCt ag (fun c => { c with strip := some { st with writes := ws ++ st.writes } }))
    else
      match applyBuffer s ag st.writes with
      | .stall s => .stall s
      | .fault s => .fault (s.updCt ag (fun c => { c with strip := some st.spilled }))
      | .done s => .direct (s.updCt ag (fun c => { c with strip := some st.spilled }))

/-- A control thread after writes of its own: its reads ahead of the common bytes among them no longer stand (R327). -/
def CT.overwritten (c : CT) (ws : List StripWrite) : CT :=
  ws.foldl (fun c w => match w with | .com a bs => c.dropEarly a bs.length | _ => c) c

/-- Makes local and common writes, newest first. -/
def putWrites (s : State) (ag : Agent) (ws : List StripWrite) : Commit :=
  match makeRoom (s.updCt ag (fun c => c.overwritten ws)) ag ws with
  | .buffered s => .done s
  | .direct s => .done (directWrite s ag ws)
  | .stall s => .stall s
  | .fault s => .fault s

/-- Commits what a strip holds when the part's own frame writes have made its buffer overflow (R210). Where the commit
stalls, the strip is marked overflowed already and the rest follows before the agent goes on. -/
def settleFrame (s : State) (ag : Agent) : State :=
  match (s.ct ag).strip with
  | none => s
  | some st =>
    if bufLocal st.writes ≤ Config.stripLocalCap ∧ (!st.overflow ∨ st.writes = []) then s
    else
      match applyBuffer s ag st.writes with
      | .stall s => s.updCt ag (fun c => { c with strip := some { st with overflow := true } })
      | .done s => s.updCt ag (fun c => { c with strip := some st.spilled })
      | .fault s => s.updCt ag (fun c => { c with strip := some st.spilled })

/-- Whether the strip of a control thread has still to commit what it held when it overflowed. -/
def CT.spilling (c : CT) : Bool := match c.strip with
  | some st => st.overflow && st.writes != []
  | none => false

/-- What a control thread owes before it goes on: entries that wait for room in its trail (R79), a strip's overflow (R210),
ranges held from a failed commit, which are reserved once the handler has returned (R220). The answer tells whether
nothing is left. -/
def settleTrail (s : State) (ag : Agent) : State × Bool :=
  let c := s.ct ag
  if c.out = [] ∧ c.marks = [] ∧ c.held = [] ∧ !c.spilling then (s, true)
  else
    let s := settleFrame (flushOut (s.updCt ag CT.withMarks) ag) ag
    let c := s.ct ag
    if c.out ≠ [] ∨ c.spilling then (s, false)
    else if c.held ≠ [] ∧ c.frozen.isNone ∧ !c.inTrap then flushHeld s ag c.held
    else (s, true)

/-- A store of local bytes. -/
def storeLocal (s : State) (ag : Agent) (a : Nat) (bs : List Byte) : Commit :=
  if bs = [] then .done s else putWrites s ag [.loc a bs []]

/-- A store of common bytes: one entry for each stripe it touches (R78, R79). -/
def storeCommon (s : State) (ag : Agent) (a : Nat) (bs : List Byte) : Commit :=
  putWrites s ag ((stripes a bs).map (fun q => StripWrite.com q.1 q.2)).reverse

/-! ### Acquire (R82, R306) -/

/-- The markers an acquire appends: in a strip they wait in its buffer, else for the earlier loads (R79, R82). -/
def putMarkers (s : State) (ag : Agent) (ms : List Entry) : Except State State :=
  match makeRoom s ag ((ms.map (fun m => StripWrite.mark m.trail m.addr m.gen)).reverse) with
  | .buffered s => .ok s
  | .direct s => .ok (s.updCt ag (fun c => { c with marks := c.marks ++ ms }))
  | .stall s => .error s
  | .fault s => .error s

/-- Whether a tail of a trail shows entries that a replay point has not passed. -/
def markNew (s : State) (ag : Agent) (m : Entry) : Bool :=
  let p := (tabGet (s.ct ag).rp m.trail).getD (0, 0)
  m.gen = (s.ct (agentOf m.trail)).trail.gen && (if p.2 = m.gen then decide (p.1 < m.addr) else decide (0 < m.addr))

/-- One marker for each trail, at the highest tail, in ascending trail id (R82). -/
def oneEach (ms : List Entry) : List Entry :=
  (List.range 128).filterMap (fun t =>
    (ms.filter (fun m => m.trail = t)).foldl (fun best m => match best with
      | some b => if b.addr < m.addr then some m else some b
      | none => some m) none)

/-- Whether a replay between two states has read a trail that lies on a stopped die (R418). -/
def replaysStopped (s s1 : State) (ag : Agent) : Bool :=
  anyStopped s && (List.range 128).any (fun t => (s.dies.get (dieOf (agentOf t))).stopped &&
    tabGet (s1.ct ag).rp t != tabGet (s.ct ag).rp t)

/-- A control thread that acquires the trails of markers: what it has read ahead no longer stands, and it is an acquirer of those
trails from here on, whether or not they show anything new. -/
def CT.acquiring (c : CT) (ms : List Entry) : CT :=
  { c with early := [], acqd := c.acqd ++ ((ms.map (·.trail)).filter (fun t => !c.acqd.contains t)).eraseDups }

/-- Acquires trails at the tails that markers name: replay in ascending trail id, then the markers of the trails that the
replay advanced over. It comes after every earlier read, which still have to be performed while they are queued (R341;
Tables 22.9, 22.13; notes/assumptions/13.md), and before every later one, so that what was read ahead no longer stands (R306). A
view that would be full stalls the acquire until compaction has made room (R84), and so does a trail on a stopped die (R418);
an acquire of the issuer's own trail replays nothing (R306). -/
def acquireMarks (s : State) (ag : Agent) (ms : List Entry) : Except State State :=
  let news := oneEach (ms.filter (fun m => m.trail ≠ ag.val && markNew s ag m))
  let s1 := news.foldl (fun s m => replay s ag (markerFuel s) m.trail m.addr m.gen) (s.updCt ag (fun c => c.acquiring ms))
  if (s.ct ag).readsQueued || (s1.ct ag).view.length > Config.viewCapacity || replaysStopped s s1 ag then .error s
  else
    match putMarkers s1 ag news with
    | .ok s2 => .ok s2
    | .error s2 => .error (s2.updCt ag (fun c => { c with view := (s.ct ag).view, rp := (s.ct ag).rp }))

/-- Acquires the named trails, ascending, at their published tails (R82). -/
def acquireTrails (s : State) (ag : Agent) (ts : List CtId) : Except State State :=
  acquireMarks s ag (ts.map (fun t =>
    let tr := (s.ct (ctAgent t)).trail
    markEntry t.val tr.pub tr.gen))

/-! ### Rewind (R209) -/

/-- Puts notifications back on the timeline where a `tlwait` had observed them. -/
def CT.renote (c : CT) (xs : List (Fin 8 × Note)) : CT :=
  xs.foldl (fun c x =>
    let t := c.tls.get x.1
    { c with tls := c.tls.set x.1.val { t with notes := x.2 :: t.notes } x.1.isLt }) c

/-- A control thread none of whose `wfe`s and `wmwait`s wait, and none of whose rewound strips opens again, but those of the code below a
level. -/
def CT.dropWaits (c : CT) (level : Nat) : CT := { c with
  wfe := c.wfe.filter (fun w => decide (w.level < level)), ranOut := c.ranOut.filter (fun w => decide (w.1 < level))
  again := c.again.filter (fun w => decide (w.1 < level)) }

/-- Rewinds an open strip to its `vsetvl`: the checkpoint is restored, buffered writes and reservations and every later
vector instruction, all of them the strip's own (R207), are discarded (R209, R396), with the plane formats that those would have left
(R263), the loads put off or read ahead (R327), and the handler of a trap taken since the strip opened. The mode is that of the
`vsetvl` (notes/assumptions/13.md). With the acquire markers that the buffer held go the advances of the replay points and the
observations of notifications, so that the acquires, run again, append them (R82, R334, R343). The registers restored
carry no error (R393). R209 names no state of a stream: stall, susp and next of one whose `rld` is discarded stay as they stood
(DESIGN CHOICE, notes/assumptions/32.md). -/
def rewindStrip (s : State) (ag : Agent) : State :=
  s.updCt ag (fun c =>
    match c.strip with
    | none => c
    | some st =>
      let k := st.check
      let level := c.level
      let late := (c.vq.flatMap (·.entries)).filterMap (·.late)
      let c := { c.inMode k.sup k.inUev k.inTrap with back := if k.inTrap then c.back else [] }
      let c := c.dropWaits (min level c.level)
      let c := late.foldl (fun c q => c.setG q.1 q.2) c
      let c := { c with
        pc := k.pc, vtype := k.vtype, vl := k.vl, vstart := 0, vq := [], frozen := none
        strip := none, again := (c.level, k.pc) :: c.again, rp := st.rp, pushFront := c.front.fmt, pushShadow := c.shadow.fmt
        early := [], slow := none, lift := { c.lift with resume := none, item := 0 }
        streams := c.streams.map (fun (t : Stream) => { t with ranOut := false })
        regBad := c.regBad.filter (fun b => !(k.regs.any (fun r => b = BadReg.g r.1) || late.any (fun q => b = BadReg.g q.1)
          || b = BadReg.csr 0x008 || b = BadReg.csr 0x00A || b = BadReg.csr 0x00B)) }
      (k.regs.foldl (fun c r => (c.setG r.1 r.2.1).setGTag r.1 r.2.2) c).renote st.notes)

end Sys2Proof.Machine
end

