-- ==== Sys2Proof/Machine/Operands.lean ====
section
/-! DEFINITION. The operand forms of the vector instructions: what each field names (Tables 12.2, 13.1, 14.1, 16.1,
17.7), the fates that bits alone decide, the registers an operand occupies (R119), and the unit classes (Table 8.1). -/

namespace Sys2Proof.Machine

open Sys2Proof

/-- The unit classes of Table 8.1; VA and VB serve one class. -/
inductive UnitClass where
  | va | vm | vl | mx | sf | ps
  deriving DecidableEq, Repr

/-- What a field of a vector instruction names: nothing (it must be zero), a vector register, a scalar register, a
predicate register with bit 6 in fn[bit] (R176), an immediate, or a form that does not exist. -/
inductive Role where
  | zero | vec (w : Width) | g | pred (bit : Nat) | imm | bad
  deriving DecidableEq, Repr

/-- The form of a vector instruction. -/
structure Form where
  cls    : UnitClass
  vd     : Role
  va     : Role
  vb     : Role
  vc     : Role
  store  : Bool := false      -- vd is a source
  acc    : Bool := false      -- vd is read as well as written
  vcOut  : Bool := false      -- vc is written
  fnMask : Nat := 0           -- the fn bits the form uses
  rnd    : Bool := false      -- rnd is read
  sat    : Bool := false      -- sat is read
  smod   : List Nat := [0]    -- the source modifiers accepted
  p0     : Bool := false      -- only p0 may govern
  orNone : Bool := false      -- t1 0000 takes the type of `vtype`
  acc1   : VTy → VTy → Bool   -- the combinations of t1 and t2 accepted
  extra  : Bool := true       -- every other condition that bits alone decide

/-! ### Types (Table 10.8, R239) -/

/-- The integer types i8-n32. -/
def isInt : VTy → Bool
  | .i8 | .i16 | .i32 | .n8 | .n16 | .n32 => true
  | _ => false
/-- The float types. -/
def isFloat : VTy → Bool
  | .bf16 | .f16 | .f32 | .e4m3 | .e5m2 => true
  | _ => false
/-- The signed integer types. -/
def isSigned : VTy → Bool
  | .i8 | .i16 | .i32 => true
  | _ => false
/-- The unsigned integer types. -/
def isUnsigned : VTy → Bool
  | .n8 | .n16 | .n32 => true
  | _ => false
/-- The types whose values the 6-bit modifiers convert (R178). -/
def takesF6 : VTy → Bool
  | .bf16 | .f16 | .f32 => true
  | _ => false
/-- Integers and floats: codes 0001-1011. -/
def isElem (t : VTy) : Bool := isInt t || isFloat t
/-- t2, where 0000 is the same as t1 (Table 10.7). -/
def ty2 (f : VFields) : VTy := if f.t2 = .none then f.t1 else f.t2
/-- The 6-bit modifiers f6a and f6b (Table 10.9). -/
def isF6 (f : VFields) : Bool := f.smod = 3 || f.smod = 4
/-- fn[7:6], the form of the second source (R222). -/
def formBits (f : VFields) : Nat := fld f.fn.toNat 6 2
/-- fn bit. -/
def fnBit (f : VFields) (k : Nat) : Bool := f.fn.getLsbD k

/-- The second source of an integer instruction: `.vv`, `.vs` or `.vi` (R223). -/
def src2Int (f : VFields) (t : VTy) : Role := match formBits f with
  | 0 => .vec (.ty t) | 1 => .g | 2 => .imm | _ => .bad
/-- The second source of a float instruction: `.vv` or `.vs` (R222). -/
def src2Float (f : VFields) (t : VTy) : Role := match formBits f with
  | 0 => .vec (.ty t) | 1 => .g | _ => .bad
/-- The slide amount: `.vs` or `.vi` (Table 14.1). -/
def slideAmount (f : VFields) : Role := match formBits f with
  | 1 => .g | 2 => .imm | _ => .bad
/-- The first source of an integer instruction: under high or low, elements of twice the width (R178). -/
def src1Int (f : VFields) (t : VTy) : Width := if f.smod = 5 || f.smod = 6 then .dbl t else .ty t

/-! ### Forms by family -/

/-- Loads and stores of elements (Table 12.2): offset in imm9; `vld` and `vst` also take block types, and 6-bit fields
with f6a and f6b (Table 12.3). -/
def memForm (f : VFields) (store wide : Bool) (vb vc : Role) (d : Width) : Form :=
  { cls := .vl, vd := .vec d, va := .g, vb := vb, vc := vc, store := store, fnMask := 0x1FF
    rnd := store, sat := store, smod := if wide then [0, 3, 4] else [0], orNone := true
    p0 := wide && tyIsBlock f.t1
    acc1 := fun a b => (isElem a || a = .record || (wide && tyIsBlock a)) &&
      (b = .none || (store && isFloat b && isFloat a)) && (!isF6 f || takesF6 a) }

/-- The type of the register side of a load or store (R212). -/
def memReg (f : VFields) (store : Bool) : VTy := if store then ty2 f else f.t1

/-- Integer element-wise instructions (Tables 13.1, 13.2, 13.4). -/
def intForm (f : VFields) (cls : UnitClass) (rnd sat nib acc : Bool) : Form :=
  { cls := cls, vd := .vec (.ty f.t1), va := .vec (src1Int f f.t1), vb := src2Int f f.t1, vc := .zero, acc := acc
    fnMask := if nib then 0xC8 else 0xC0, rnd := rnd, sat := sat
    smod := if fnBit f 3 then [0] else [0, 1, 5, 6]
    acc1 := fun a b => isInt a && b = .none && (!fnBit f 3 || a = .i8 || a = .n8) }

/-- Float arithmetic with a second source (Tables 13.3, 13.4). -/
def floatForm (f : VFields) (cls : UnitClass) (vc : Role) (sat : Bool) : Form :=
  { cls := cls, vd := .vec (.ty f.t1), va := .vec (if isF6 f then .one else .ty f.t1), vb := src2Float f (ty2 f)
    vc := vc, fnMask := 0xC0, sat := sat, smod := [0, 1, 2, 3, 4]
    acc1 := fun a b => isFloat a && (b = .none || (isFloat b && tyWidth b ≤ tyWidth a)) && (!isF6 f || takesF6 a) }

/-- Unary float instructions; `sat` is read by those of Table 13.3 only (R178, R232). -/
def unaryFloat (f : VFields) (cls : UnitClass) (sat : Bool) : Form :=
  { cls := cls, vd := .vec (.ty f.t1), va := .vec (.ty f.t1), vb := .zero, vc := .zero, sat := sat
    acc1 := fun a b => isFloat a && b = .none }

/-- Instructions of the permute unit that move elements of one type (Table 14.2). -/
def moveForm (f : VFields) (vb : Role) (mask : Nat) : Form :=
  { cls := .ps, vd := .vec (.ty f.t1), va := .vec (.ty f.t1), vb := vb, vc := .zero, fnMask := mask
    acc1 := fun a b => (isElem a || a = .record) && b = .none }

/-- Predicate operations (R258). -/
def predForm (vd va vb : Role) (mask : Nat) (cls : UnitClass) : Form :=
  { cls := cls, vd := vd, va := va, vb := vb, vc := .zero, fnMask := mask, acc1 := fun a b => a = .none && b = .none }

/-- The vector sort group (Table 17.7): t1 names the record type; fn[0] the key width, fn[3:1] the combine entry. -/
def sortForm (vd va vb vc : Role) (p0 : Bool) : Form :=
  { cls := .ps, vd := vd, va := va, vb := vb, vc := vc, fnMask := 1, p0 := p0
    acc1 := fun a b => a = .record && b = .none }

/-- The pairs of `vnshr` (R230). -/
def nshrPair : VTy → VTy → Bool
  | .i8, .i16 | .i16, .i32 | .n8, .n16 | .n16, .n32 | .n8, .i16 | .n16, .i32 => true
  | _, _ => false
/-- The pairs of `vwmul` and `vwmacc` (R229). -/
def widenPair : VTy → VTy → Bool
  | .i16, .i8 | .i32, .i16 | .n16, .n8 | .n32, .n16 => true
  | _, _ => false
/-- The pairs of `vcvt` without 6-bit operands (Table 14.3). -/
def cvtPair (a b : VTy) : Bool :=
  let b := if b = .none then a else b
  (isFloat a && (isFloat b || isInt b || tyIsBlock b)) || (isInt a && (isFloat b || isInt b))
/-- The pairs with a 6-bit side (R241). -/
def f6Pair (a b : VTy) : Bool := (a = .none && takesF6 b) || (b = .none && takesF6 a)

/-- The form of each vector instruction; none for every other step. -/
def formOf : Instr → Option Form
  | .vld f => some (memForm f false true .zero .zero (.ty f.t1))
  | .vlds f => some (memForm f false false .g .zero (.ty f.t1))
  | .vldx f => some { memForm f false false (.vec (.ty (ty2 f))) .zero (.ty f.t1) with
      orNone := false
      acc1 := fun a b => isElem a && (b = .n16 || b = .n32 || (b = .none && (a = .n16 || a = .n32))) }
  | .vldseg f => some { memForm f false false .zero .imm (.seg f.t1 (f.vc.toNat + 1)) with
      extra := 1 ≤ f.vc.toNat && f.vc.toNat ≤ 7 }
  | .vst f => some (memForm f true true .zero .zero (.ty (ty2 f)))
  | .vsts f => some (memForm f true false .g .zero (.ty (ty2 f)))
  | .vstx f => some { memForm f true false (.vec (.ty (ty2 f))) .zero (.ty f.t1) with
      orNone := false
      acc1 := fun a b => isElem a && (b = .n16 || b = .n32 || (b = .none && (a = .n16 || a = .n32))) }
  | .vstseg f => some { memForm f true false .zero .imm (.seg (ty2 f) (f.vc.toNat + 1)) with
      extra := 1 ≤ f.vc.toNat && f.vc.toNat ≤ 7 }
  | .vldc f => some (memForm f false false .zero .zero (.ty f.t1))
  | .vstc f => some (memForm f true false .zero .zero (.ty (ty2 f)))
  | .vspill _ => some {
      cls := .vl, vd := .vec .one, va := .g, vb := .zero, vc := .zero, store := true, fnMask := 0x1FF
      p0 := true, acc1 := fun a b => a = .none && b = .none }
  | .vfill _ => some {
      cls := .vl, vd := .vec .one, va := .g, vb := .zero, vc := .zero, fnMask := 0x1FF
      p0 := true, acc1 := fun a b => a = .none && b = .none }
  | .rld f => some { memForm f false false .zero .zero (.ty f.t1) with va := .zero, fnMask := 3 }
  | .rapp f => some { memForm f true false .zero .zero (.ty (ty2 f)) with va := .zero, fnMask := 3, p0 := true }
  | .vamo f => some {
      cls := .vl, vd := .vec (.ty f.t1), va := .g, vb := .vec (.ty .n32), vc := .vec (.ty f.t1)
      fnMask := 0x7F, extra := fld f.fn.toNat 0 4 ≤ 9
      acc1 := fun a b => b = .none &&
        (if fld f.fn.toNat 0 4 = 9 then a = .f32 else (a = .n32 || a = .i32)) }
  | .vldb f => some (memForm f false false .zero .zero (.ty f.t1))
  | .vadd f => some (intForm f .va false true true false)
  | .vsub f => some (intForm f .va false true true false)
  | .vmul f => some (intForm f .vm false true false false)
  | .vmulh f => some (intForm f .vm true false false false)
  | .vmacc f => some (intForm f .vm false true false true)
  | .vwmul f => some {
      cls := .vm, vd := .vec (.ty f.t1), va := .vec (.ty f.t2), vb := src2Float f f.t2, vc := .zero
      fnMask := 0xC0, acc1 := widenPair }
  | .vwmacc f => some {
      cls := .vm, vd := .vec (.ty f.t1), va := .vec (.ty f.t2), vb := src2Float f f.t2, vc := .zero
      fnMask := 0xC0, acc := true, sat := true, acc1 := widenPair }
  | .vsadd f => some (intForm f .vm true false false false)
  | .vssub f => some (intForm f .vm true false false false)
  | .vand f => some (intForm f .va false false true false)
  | .vor f => some (intForm f .va false false true false)
  | .vxor f => some (intForm f .va false false true false)
  | .vshl f => some (intForm f .va false true true false)
  | .vshr f => some (intForm f .va false false true false)
  | .vsha f => some (intForm f .va false false true false)
  | .vnshr f => some {
      cls := .va, vd := .vec (.ty f.t1), va := .vec (.ty f.t2), vb := src2Int f f.t1, vc := .zero
      fnMask := 0xC0, rnd := true, sat := true, acc1 := nshrPair }
  | .vmin f => some (intForm f .va false false true false)
  | .vmax f => some (intForm f .va false false true false)
  | .vabs f => some { intForm f .va false true true false with
      vb := .zero, fnMask := 8, smod := if fnBit f 3 then [0] else [0, 5, 6]
      acc1 := fun a b => isSigned a && b = .none && (!fnBit f 3 || a = .i8) }
  | .vcmp f => some {
      cls := .va, vd := .pred 8, va := .vec (src1Int f f.t1), vb := .vec (.ty f.t1), vc := .zero
      fnMask := 0x107, smod := [0, 5, 6], extra := fld f.fn.toNat 0 3 ≤ 5
      acc1 := fun a b => isInt a && b = .none }
  | .vfadd f => some (floatForm f .va .zero true)
  | .vfsub f => some (floatForm f .va .zero true)
  | .vfmul f => some (floatForm f .vm .zero true)
  | .vfma f => some (floatForm f .vm (.vec (.ty f.t1)) true)
  | .vfnma f => some (floatForm f .vm (.vec (.ty f.t1)) true)
  | .vfdiv f => some (floatForm f .vm .zero true)
  | .vfmin f => some (floatForm f .va .zero false)
  | .vfmax f => some (floatForm f .va .zero false)
  | .vfabs f => some (unaryFloat f .va false)
  | .vfneg f => some (unaryFloat f .va false)
  | .vfcmp f => some {
      cls := .va, vd := .pred 8, va := .vec (.ty f.t1), vb := .vec (.ty (ty2 f)), vc := .zero
      fnMask := 0x107, rnd := true, smod := [0, 1, 2], extra := fld f.fn.toNat 0 3 ≤ 5
      acc1 := fun a b => isFloat a && (b = .none || isFloat b) }
  | .vcmpt f => some {
      cls := .va, vd := .pred 8, va := .vec (.ty f.t1), vb := .vec (.ty f.t1), vc := .zero
      fnMask := 0x107, extra := fld f.fn.toNat 0 3 ≤ 5, acc1 := fun a b => isFloat a && b = .none }
  | .vfsqrt f => some (unaryFloat f .vm true)
  | .vsfu f => some {
      cls := .sf, vd := .vec (.ty f.t1), va := .vec (.ty (ty2 f)), vb := .zero, vc := .zero, fnMask := 7
      acc1 := fun a b => isFloat a && (b = .none || (isFloat b && tyWidth b ≤ tyWidth a)) }
  | .vcvt f => some {
      cls := .va, vd := .vec (if isF6 f && f.t1 = .none then .one else .ty f.t1)
      va := .vec (if isF6 f && f.t2 = .none then .one else .ty (ty2 f)), vb := .zero, vc := .zero
      rnd := isInt f.t1 && isFloat (ty2 f), sat := true, smod := [0, 3, 4]
      acc1 := fun a b => if isF6 f then f6Pair a b else cvtPair a b }
  | .vrnd f => some {
      cls := .va, vd := .vec (if isF6 f && f.t1 = .none then .one else .ty f.t1)
      va := .vec (if isF6 f && f.t2 = .none then .one else .ty (ty2 f)), vb := .zero, vc := .zero
      rnd := true, sat := true, smod := [0, 3, 4]
      acc1 := fun a b => if isF6 f then f6Pair a b else isFloat a && (b = .none || isFloat b) }
  | .vbscaleGet f => some {
      cls := .ps, vd := .vec .one, va := .vec (.ty f.t2), vb := .zero, vc := .zero, fnMask := 1
      p0 := true, acc1 := fun a b => tyIsBlock b && a = (if b = .mx4 then .n8 else .n16) }
  | .vbscaleSet f => some {
      cls := .ps, vd := .vec (.ty f.t1), va := .vec (.ty f.t1), vb := .vec .one, vc := .zero
      fnMask := 1, p0 := true
      acc1 := fun a b => tyIsBlock a && b = (if a = .mx4 then .n8 else .n16) }
  | .vbquant f => some {
      cls := .ps, vd := .vec (.ty f.t1), va := .vec (.ty f.t2), vb := .zero, vc := .zero
      rnd := true, sat := true, p0 := true
      acc1 := fun a b => tyIsBlock a && (isFloat b || (b = .mx4 && a = .ds8)) }
  | .vexpnGet f => some {
      cls := .va, vd := .vec (.ty f.t1), va := .vec (.ty f.t2), vb := .zero, vc := .zero, fnMask := 1
      sat := true, acc1 := fun a b => isSigned a && isFloat b }
  | .vexpnScl f => some {
      cls := .va, vd := .vec (.ty f.t1), va := .vec (.ty f.t1), vb := .vec (.ty f.t2), vc := .zero
      fnMask := 1, acc1 := fun a b => isFloat a && isSigned b }
  | .vtailGet f => some {
      cls := .va, vd := .vec (.ty f.t1), va := .vec (.ty f.t2), vb := .zero, vc := .zero, fnMask := 3
      acc1 := fun a b => isInt a && isFloat b }
  | .vtailSet f => some {
      cls := .va, vd := .vec (.ty f.t1), va := .vec (.ty f.t1), vb := .vec (.ty f.t2), vc := .zero
      fnMask := 3, acc1 := fun a b => isFloat a && isInt b }
  | .vtailClr f => some {
      cls := .va, vd := .vec (.ty f.t1), va := .vec (.ty f.t1), vb := .zero, vc := .zero, fnMask := 3
      acc1 := fun a b => isFloat a && b = .none }
  | .vmv f => some { moveForm f .zero 0 with
      cls := .va, p0 := tyIsBlock f.t1, acc1 := fun a b => a ≠ .none && b = .none }
  | .vsel f => some { moveForm f (src2Float f f.t1) 0xE0 with cls := .va, vc := .pred 5 }
  | .vbcast f => some { moveForm f (if fld f.fn.toNat 0 2 = 1 then .g else .zero) 3 with
      va := (match fld f.fn.toNat 0 2 with | 0 => .g | 3 => .bad | _ => .vec (.ty f.t1))
      extra := fld f.fn.toNat 0 2 = 2 || f.t1 ≠ .record }
  | .vextr f => some { moveForm f .g 0 with
      vd := .g, rnd := isFloat f.t1, sat := isFloat f.t1, p0 := true, acc1 := fun a b => isElem a && b = .none }
  | .vins f => some { moveForm f .g 0 with va := .g, p0 := true, acc1 := fun a b => isElem a && b = .none }
  | .viota f => some { moveForm f .zero 0x80 with va := .pred 7, acc1 := fun a b => isInt a && b = .none }
  | .vcompress f => some { moveForm f (.pred 6) 0x40 with p0 := true }
  | .vexpand f => some { moveForm f (.pred 6) 0x40 with p0 := true }
  | .vperm f => some { moveForm f (.vec (.ty (ty2 f))) 0x21 with
      vc := if fnBit f 0 then .pred 5 else .zero, vcOut := true, extra := fnBit f 0 || !fnBit f 5
      acc1 := fun a b => (isElem a || a = .record) && (isUnsigned b || (b = .none && isUnsigned a)) }
  | .vpush f => some { moveForm f (.vec (.ty (ty2 f))) 0x21 with
      vc := if fnBit f 0 then .pred 5 else .zero, vcOut := true, extra := fnBit f 0 || !fnBit f 5
      acc1 := fun a b => (isElem a || a = .record) && (isUnsigned b || (b = .none && isUnsigned a)) }
  | .vslideup f => some (moveForm f (slideAmount f) 0xC0)
  | .vslidedn f => some (moveForm f (slideAmount f) 0xC0)
  | .vrev f => some (moveForm f .zero 0)
  | .vzip f => some (moveForm f (.vec (.ty f.t1)) 1)
  | .vunzip f => some (moveForm f (.vec (.ty f.t1)) 1)
  | .vredsum f => some { moveForm f (.vec (.ty f.t1)) 0 with
      va := .vec (.ty (ty2 f)), sat := true
      acc1 := fun a b => isInt a && (b = .none || (isInt b && tyWidth b ≤ tyWidth a && isSigned a = isSigned b)) }
  | .vfredsum f => some { moveForm f (.vec (.ty f.t1)) 1 with
      va := .vec (.ty (ty2 f))
      acc1 := fun a b => isFloat a && (b = .none || (isFloat b && tyWidth b ≤ tyWidth a)) }
  | .vredmin f => some { moveForm f (.vec (.ty f.t1)) 0 with acc1 := fun a b => isElem a && b = .none }
  | .vredmax f => some { moveForm f (.vec (.ty f.t1)) 0 with acc1 := fun a b => isElem a && b = .none }
  | .vpopc _ => some (predForm .g (.pred 7) .zero 0x80 .ps)
  | .vfirst _ => some (predForm .g (.pred 7) .zero 0x80 .ps)
  | .vpand _ => some (predForm (.pred 8) (.pred 7) (.pred 6) 0x1C0 .va)
  | .vpor _ => some (predForm (.pred 8) (.pred 7) (.pred 6) 0x1C0 .va)
  | .vpxor _ => some (predForm (.pred 8) (.pred 7) (.pred 6) 0x1C0 .va)
  | .vpnot _ => some (predForm (.pred 8) (.pred 7) .zero 0x180 .va)
  | .vpset _ => some (predForm (.pred 8) .g .zero 0x100 .va)
  | .mld _ => some {
      cls := .mx, vd := .zero, va := .g, vb := .zero, vc := .zero, fnMask := 0x1FF, p0 := true
      acc1 := fun a b => (b = .none && (a = .e4m3 || a = .e5m2 || a = .bf16 || a = .ds8 || a = .ds4)) ||
        (a = .ds8 && b = .mx4) || (a = .bf16 && (b = .e4m3 || b = .e5m2)) }
  | .mswap _ => some { predForm .zero .zero .zero 0 .mx with p0 := true }
  | .mxrO f => some {
      cls := .mx, vd := .vec .one, va := .vec .one, vb := .zero, vc := .zero, acc := !fnBit f 2
      fnMask := 7, acc1 := fun a b => b = .none &&
        (a = .e4m3 || a = .e5m2 || a = .ds8 || a = .bf16 || a = .ds4) }
  | .mxrF f => some {
      cls := .mx, vd := .vec .one, va := .vec .one, vb := .zero, vc := .zero, acc := !fnBit f 2
      fnMask := 7, acc1 := fun a b => b = .none &&
        (a = .e4m3 || a = .e5m2 || a = .ds8 || a = .bf16 || a = .ds4) }
  | .mstat _ => some { predForm .g .zero .zero 0 .mx with p0 := true }
  | .vsort _ => some (sortForm (.vec (.ty .record)) (.vec (.ty .record)) .zero .zero true)
  | .vsortk _ => some { sortForm (.vec (.ty .record)) (.vec (.ty .record)) .zero (.vec .pos) true with vcOut := true }
  | .vmrg _ => some (sortForm (.vec (.ty .record)) (.vec (.ty .record)) .g .zero true)
  | .vsegred f => some { sortForm (.vec (.ty .record)) (.vec (.ty .record)) .zero .g true with
      vcOut := true, fnMask := 0xF, extra := fld f.fn.toNat 1 3 ≠ 0 }
  | .vuniq _ => some { sortForm (.vec (.ty .record)) (.vec (.ty .record)) .zero .g true with vcOut := true }
  | .vtag f => some { sortForm (.vec (.ty .record)) (.vec (.ty f.t1)) .g .zero false with
      acc1 := fun a b => isInt a && b = .none }
  | .vsplit _ => some (sortForm (.vec (.ty .record)) (.vec (.ty .record)) .g .zero false)
  | .vsrch _ => some (sortForm (.vec .pos) (.vec (.ty .record)) (.vec (.ty .record)) .zero false)
  | _ => none

/-- The fields of a vector instruction. -/
def fieldsOf (i : Instr) : Option VFields := (vecParts i).map (·.2)

/-- An instruction with its fields replaced. -/
def roleOk (r : Role) (x : BitVec 6) : Bool := match r with
  | .zero => x = 0
  | .vec _ => x.toNat < 48
  | .g => x.toNat < 32
  | .pred _ => true
  | .imm => true
  | .bad => false

/-- Whether t1 and t2 are a combination that some `vtype` makes legal (R419 step 2). -/
def typesOk (m : Form) (f : VFields) : Bool :=
  if f.t1 = .none && m.orNone then
    [VTy.i8, .i16, .i32, .n8, .n16, .n32, .bf16, .f16, .f32, .e4m3, .e5m2, .ds4, .ds8, .mx4, .record].any
      (fun t => m.acc1 t f.t2)
  else m.acc1 f.t1 f.t2

/-- The fates of a vector instruction that its bits alone decide (R419 step 2): false is ILLEGAL. -/
def bitsOk (m : Form) (f : VFields) : Bool :=
  roleOk m.vd f.vd && roleOk m.va f.va && roleOk m.vb f.vb && roleOk m.vc f.vc &&
    (f.fn &&& ~~~(BitVec.ofNat 9 m.fnMask)) = 0 && (m.rnd || f.rnd = 0) && (m.sat || !f.sat) && f.rnd ≠ 7 &&
    m.smod.contains f.smod.toNat && (!m.p0 || (f.pm = 0 && !f.pn)) && typesOk m f && m.extra

/-! ### Registers an operand occupies (R119) -/

/-- Width in bits of an element, a record's from `vtype` (R116). -/
def elemBits (vt : VType) (t : VTy) : Nat := if t = .record then 8 * vt.recBytes else tyWidth t

/-- The type an operand has: 0000 is the type of `vtype`. -/
def resolveTy (vt : VType) (t : VTy) : VTy := if t = .none then vt.ty else t

/-- gw: registers of an operand of this many bits (R119), at least one. A gw that is no whole number, under a record type, is
rounded up, and under type 1111, which has no width, gw is g (DESIGN CHOICE, notes/assumptions/32.md). -/
def groupRegs (vt : VType) (bits : Nat) : Nat :=
  let wv := elemBits vt vt.ty
  if wv = 0 then vt.group else max 1 ((vt.group * bits + wv - 1) / wv)

/-- Registers of one field of an operand. -/
def spanOf (vt : VType) (vl a : Nat) : Width → Nat
  | .ty t => groupRegs vt (elemBits vt (resolveTy vt t))
  | .dbl t => groupRegs vt (2 * elemBits vt (resolveTy vt t))
  | .one => 1
  | .seg t nf => nf * groupRegs vt (elemBits vt (resolveTy vt t))
  | .pos => (vl + a - 1) / a

/-- The number an operand must be a multiple of (R119). -/
def alignOf (vt : VType) : Width → Nat
  | .ty t => groupRegs vt (elemBits vt (resolveTy vt t))
  | .dbl t => groupRegs vt (2 * elemBits vt (resolveTy vt t))
  | .one => 1
  | .seg t _ => groupRegs vt (elemBits vt (resolveTy vt t))
  | .pos => 1

/-- Whether an operand keeps R119: a multiple of its group, a group of at most 8, not past v47. -/
def widthOk (vt : VType) (vl a : Nat) (w : Width) (r : Nat) : Bool :=
  alignOf vt w ≤ 8 && r % alignOf vt w = 0 && r + spanOf vt vl a w ≤ 48

/-- The predicate register of a predicate operand (R176). -/
def predNo (f : VFields) (x : BitVec 6) (bit : Nat) : PReg :=
  Fin.ofNat 128 (x.toNat + 64 * b2n (fnBit f bit))

/-- The register a field names, if any. -/
def roleRef (f : VFields) (r : Role) (x : BitVec 6) : List RegRef := match r with
  | .vec w => [.v x.toNat w]
  | .g => [.g (Fin.ofNat 32 x.toNat)]
  | .pred b => [.p (predNo f x b)]
  | _ => []

/-- The registers an instruction reads: sources, the governing predicate, and a destination it reads. -/
def vecReads (m : Form) (f : VFields) : List RegRef :=
  (if m.store || m.acc then roleRef f m.vd f.vd else []) ++ roleRef f m.va f.va ++ roleRef f m.vb f.vb ++
    (if m.vcOut then [] else roleRef f m.vc f.vc) ++ [.p f.pm]

/-- The registers an instruction writes. -/
def vecWrites (m : Form) (f : VFields) : List RegRef :=
  (if m.store then [] else roleRef f m.vd f.vd) ++ (if m.vcOut then roleRef f m.vc f.vc else [])

/-- The registers of one kind that a reference covers: vector registers by R119. -/
def refRegs (vt : VType) (vl a : Nat) : RegRef → List (Nat × Nat)
  | .g r => if r = 0 then [] else [(0, r.val)]
  | .p r => if r = 0 then [] else [(1, r.val)]
  | .v r w => (List.range (spanOf vt vl a w)).map (fun k => (2, r + k))

/-- Whether two sets of references share a register. -/
def refsMeet (vt : VType) (vl a : Nat) (xs ys : List RegRef) : Bool :=
  let as := xs.flatMap (refRegs vt vl a)
  (ys.flatMap (refRegs vt vl a)).any (fun y => as.contains y)

/-- Vector references as references to single registers. -/
def singles (vt : VType) (vl a : Nat) (xs : List RegRef) : List RegRef :=
  xs.flatMap (fun x => match x with
    | .v r w => (List.range (spanOf vt vl a w)).map (fun k => .v (r + k) .one)
    | x => [x])

end Sys2Proof.Machine
end

