-- ==== Sys2Proof/Machine/Ops.lean ====
section
/-! DEFINITION. The shared operations: control registers as words, release, the end of a task, taking an exception and
returning from one (25_faults_preemption_and_translation.md R369-R376), fetch, and the frame in which every scalar
instruction runs (10_encoding_and_opcode_map.md R419, 16_instructions_matrix_and_lift.md R268-R272). -/

namespace Sys2Proof.Machine

open Sys2Proof

/-- The outcome of a step. -/
abbrev Out := Host.Outcome State Fault Refusal

/-! ### Control registers as words (Tables 6.4-6.7) -/

/-- `vtype` as a word (Table 6.5). -/
def VType.word (t : VType) : W64 :=
  w64 (t.ty.code + t.grp.toNat * 2 ^ 4 + t.gap.toNat * 2 ^ 8 + t.rsz.toNat * 2 ^ 12)

/-- The extent of the lift level at a depth, minus 1; 0 where there is none (Table 6.6). -/
def liftExt (l : Lift) (d : Nat) : Nat :=
  match l.levels[d - 1]? with
  | some v => v.extent - 1
  | none => 0

/-- `liftd` (Table 6.6). -/
def liftWord (l : Lift) : W64 :=
  w64 (l.levels.length + liftExt l 1 * 2 ^ 2 + liftExt l 2 * 2 ^ 10 + liftExt l 3 * 2 ^ 18)

/-- The conflict register as a word (Table 4.4). -/
def Conflict.word (c : Conflict) : W64 :=
  w64 (b2n c.valid + b2n c.more * 2 + c.trla.toNat * 2 ^ 2 + c.trlb.toNat * 2 ^ 9 + c.idxa.toNat * 2 ^ 16
    + c.idxb.toNat * 2 ^ 40)

/-- `part_id`: partition and function (Table 6.7). On a user control thread whose core lies in no partition it reads what it read
before the warm reset that took the partition (R10), from cold reset 0; on a system control thread, which never lies in one,
0 (DESIGN CHOICE, notes/assumptions/32.md). -/
def partWord (s : State) (ag : Agent) : W64 :=
  match partNo s ag with
  | some k => w64 (k.val + fnOf s ag * 2 ^ 16)
  | none => if isUser ag then (s.cores.get (coreOf ag)).partId else 0

/-- The number of a control thread as `ct_id` gives it: a system control thread has its number within its die, 0 to 3, since R19 gives it
no package number (DESIGN CHOICE, notes/assumptions/32.md). -/
def ctNumber (ag : Agent) : Nat := if isUser ag then ag.val else (ag.val - 128) % 4

/-- The package core of a control thread as `core_id` gives it: 0 for a system core, which R19 gives no number (DESIGN CHOICE,
notes/assumptions/32.md). -/
def reportCore (ag : Agent) : Nat := if isUser ag then (coreOf ag).val else 0

/-- The value of a control and status register (Table 6.4); none for a number that is not listed. `cycle` and `dclk` as
last read are in State. -/
def csrValue (s : State) (ag : Agent) (n : Nat) : Option W64 :=
  let c := s.ct ag
  match n with
  | 0x000 => some (c.frm.zeroExtend 64)
  | 0x001 => some (c.fflags.zeroExtend 64)
  | 0x008 => some (w64 c.vl)
  | 0x009 => some (w64 (vlmax s ag))
  | 0x00A => some c.vtype.word
  | 0x00B => some (c.vstart.zeroExtend 64)
  | 0x00C => some (c.spset.zeroExtend 64)
  | 0x00D => some (liftWord c.lift)
  | 0x010 => some c.uevec
  | 0x011 => some (c.uecause.zeroExtend 64)
  | 0x020 => some (if isUser ag then (s.cores.get (coreOf ag)).cycle else (s.dies.get (dieOf ag)).cycle)
  | 0x021 => some (s.dies.get (dieOf ag)).dclk
  | 0x022 => some (w64 (ctNumber ag))
  | 0x023 => some (w64 (reportCore ag))
  | 0x024 => some (partWord s ag)
  | 0x025 => some c.kparm
  | 0x026 => some c.bankwave
  | 0x030 => some (match partOf s ag with | some q => q.conflict.word | none => 0)
  | 0x100 => some (c.vlcap.zeroExtend 64)
  | 0x101 => some (c.ctweight.zeroExtend 64)
  | 0x102 => some c.tcause
  | 0x103 => some c.tval
  | 0x104 => some c.tpc
  | _ => none

/-- Every CSR number of Table 6.4. -/
def csrNumbers : List Nat :=
  [0x000, 0x001, 0x008, 0x009, 0x00A, 0x00B, 0x00C, 0x00D, 0x010, 0x011, 0x020, 0x021, 0x022, 0x023, 0x024, 0x025,
    0x026, 0x030, 0x100, 0x101, 0x102, 0x103, 0x104]

/-! ### Release, streams, engine commands at the end of a task -/

/-- The range appender that is any stream of an agent. -/
def anyStream (ag : Agent) : Appender → Bool
  | .stream g _ => g = ag.val
  | .engine _ _ _ => false

/-- The range appender that is one stream of an agent. -/
def oneStream (ag : Agent) (n : Fin 4) : Appender → Bool
  | .stream g k => g = ag.val && k = n
  | .engine _ _ _ => false

/-- What `rel` does once its wait is over: the trail is published to its tail, and every run range the control thread
has reserved is published (R305). -/
def release (s : State) (ag : Agent) : State := publishAll (publishTrail s ag) (anyStream ag)

/-- Whether some run has a range that an agent has reserved and not published. -/
def hasUnpublished (s : State) (ag : Agent) : Bool :=
  s.runs.any (fun e => e.2.ranges.any (fun r => !r.pub && anyStream ag r.by_))

/-- `rel` where its publication is left for later (R306: nothing after it is ordered behind it; notes/assumptions/5.md): the
tail it has still to publish is noted. One that has run ranges to publish too is not put off. -/
def releaseLater (s : State) (ag : Agent) : State :=
  if (s.ct ag).putOff && !hasUnpublished s ag then
    s.updCt ag (fun c => { c with putOff := false, owed := c.trail.entries.length })
  else release s ag

/-- Closes a stream: its appends are published, and the run's count of streams falls (R33, R94). Of a closed stream every other
field reads 0 (DESIGN CHOICE, notes/assumptions/32.md). -/
def closeStream (s : State) (ag : Agent) (n : Fin 4) : State :=
  let st := (s.ct ag).streams.get n
  if st.mode = .closed then s
  else
    let k := runKey (fnOf s ag) st.run
    let s := updRun s k (fun r => if r.state = .open_ then publishRun r (oneStream ag n) else r)
    let s := unstream s k
    s.updCt ag (fun c => { c with streams := c.streams.set n.val Stream.closed n.isLt })

/-- Closes every stream of a control thread. -/
def closeStreams (s : State) (ag : Agent) : State := (List.finRange 4).foldl (fun s n => closeStream s ag n) s

/-- The input runs of an engine command, each counted in its run's streams field until the command completes (R68); a run
named by several operands counts once for each (notes/assumptions/32.md). -/
def cmdInputs : CmdKind → List Nat
  | .sort _ i _ _ => [i]
  | .merge _ is _ _ => is
  | .join _ l r _ _ => [l, r]
  | .copy b _ => if b.ssp = 2 then [b.shdl] else []
  | .coll b => [b.inp]
  | _ => []

/-- The run that a command appends to, which a killed or failed command leaves truncated (R68). -/
def cmdOutputs : CmdKind → List Nat
  | .sort o _ _ _ => [o]
  | .merge o _ _ _ => [o]
  | .join o _ _ _ _ => [o]
  | .copy b _ => if b.dsp = 2 then [b.dhdl] else []
  | .enqw o _ _ => [o]
  | .coll b => [b.out]
  | _ => []

/-- Cancels a command: it publishes nothing, its output run becomes truncated, the frames of its intermediate runs return and
its inputs are let go (R68, R69, R105). -/
def cancelCmd (s : State) (ag : Agent) (c : Cmd) : State :=
  let fn := fnOf s ag
  let s := c.prog.frames.foldl dropFrame s
  let s := (cmdOutputs c.kind).foldl (fun s h => updRun s (runKey fn h) (fun r =>
    if r.state = .open_ then { r with state := .truncated, ranges := [] } else r)) s
  (cmdInputs c.kind).foldl (fun s h => unstream s (runKey fn h)) s

/-- How a task ends. -/
inductive TaskEnd where
  | done
  | fault (cause : BitVec 8)
  | kill (cause : BitVec 8)
  deriving DecidableEq, Repr

/-- What becomes of a control thread whose task is killed or faults (R86, R319): the uncommitted strip and unpublished
trail entries are dropped, engine commands cancelled, unpublished ranges leave their runs truncated, streams close. -/
def wreck (s : State) (ag : Agent) : State :=
  let s := s.updCt ag (fun c => { c with
    strip := none, again := [], held := [], out := [], marks := [], vq := [], frozen := none, owed := 0
    early := [], slow := none
    trail := { c.trail with
      pub := max c.trail.pub c.owed, entries := c.trail.entries.take (max c.trail.pub c.owed) } })
  let s := (s.ct ag).cmds.foldl (fun s c => cancelCmd s ag c) s
  let s := s.updCt ag (fun c => { c with cmds := [] })
  let s := { s with runs := s.runs.map (fun e => (e.1, killAppender e.2 (anyStream ag))) }
  closeStreams s ag

/-- Notes the end of a task in its launch, its queue's watchdog and its partition's progress (R354, R365, R367): only a task that ends
with `tdone` completes in the sense of R367 (R388). -/
def noteTaskEnd (s : State) (ag : Agent) (how : TaskEnd) : State :=
  match (s.ct ag).launch with
  | none => s
  | some id =>
    let s := s.updLaunch id (fun l =>
      let first := l.cause = 0 && !l.flt && !l.kil
      match how with
      | .done => { l with ended := l.ended + 1, ok := l.ok + 1 }
      | .fault c => { l with ended := l.ended + 1, flt := true, cause := if first then c else l.cause }
      | .kill c => { l with
          ended := l.ended + 1, kil := true, cause := if first then c else l.cause
          firstKill := if first then true else l.firstKill })
    if how ≠ .done then s
    else
      let s := match tabGet s.launches id with
        | some l => s.updQueue l.q (fun q => { q with wdcnt := 0, expired := false })
        | none => s
      match partNo s ag with
      | some k => s.updPart k (fun q => { q with prog := q.prog + 1 })
      | none => s

/-- The children a task leaves behind: each that has not completed posts its completion itself (R315). -/
def orphan (s : State) (ag : Agent) : State :=
  (s.ct ag).children.foldl (fun s e => if e.2.status.isNone
    then s.updLaunch e.2.launch (fun l => { l with parent := none }) else s) s

/-- Ends the task of a control thread: nests, lift frame and planes are discarded without a save (R160, R317), and the
thread stays bound to its launch (Table 24.6). -/
def endTask (s : State) (ag : Agent) (how : TaskEnd) : State :=
  if (s.ct ag).task.isNone then s
  else
    let s := if how = .done then s else wreck s ag
    let s := orphan (noteTaskEnd s ag how) ag
    let s := if isUser ag then s.updCore (coreOf ag) (fun k =>
      { k with owner := if k.owner = some (Fin.ofNat 4 ag.val) then none else k.owner }) else s
    s.updCt ag (fun c =>
      let c := if c.inTrap then c.swapSup else c
      { c with
        loops := [], lift := Lift.empty, front := Plane.zero, shadow := Plane.zero
        planesValid := false, planesSaved := false, pushFront := .none, pushShadow := .none
        sup := false, inTrap := false, inUev := false, wfe := [], ranOut := [], task := none, frozen := none, held := []
        back := [], late := false, marks := [], barw := [], early := [], putOff := false
        acqd := [], delay := false, slow := none
        status := if c.status = .halted then .halted else .bound
        wasRun := .bound })

/-! ### A queue's control block (Table 24.3) -/

/-- Whether a launch is staging or has a bound task. -/
def launchBusy (s : State) (id : Nat) (l : Launch) : Bool :=
  l.state == .staging || (l.state == .running &&
    l.bound.any (fun n => (s.ct (agentOf n)).launch == some id && (s.ct (agentOf n)).task.isSome))

/-- Whether a queue has a launch that is staging or has a bound task. -/
def queueBusy (s : State) (q : Nat) : Bool := s.launches.any (fun e => e.2.q == q && launchBusy s e.1 e.2)

/-- Whether a queue's watchdog is paused: a stack of the die is held, or the partition is drained (Table 24.8). -/
def watchPaused (s : State) (q : Queue) : Bool :=
  match s.parts.get (Fin.ofNat 32 q.part.toNat) with
  | some p => p.drained || (s.dies.get (Fin.ofNat 4 ((p.common.head?.getD 0).val / 8))).hold != 0
  | none => false

/-- The watchdog's state (Table 24.8). -/
def watchState (s : State) (n : Nat) : Nat :=
  let q := s.queue n
  if q.wdlim = 0 then 0 else if q.expired then 4 else if !queueBusy s n then 1 else if watchPaused s q then 3 else 2

/-- Word `k` of a queue's control block as it reads. -/
def queueWord (s : State) (n k : Nat) : W64 :=
  let q := s.queue n
  match k with
  | 0 => w64 (b2n q.en + q.prio.toNat * 2 + q.part.toNat * 8 + b2n q.err * 256)
  | 1 => q.acc
  | 2 => q.dseq
  | 3 => w64 (q.wdlim.toNat + q.wdcnt.toNat * 2 ^ 32)
  | 4 => w64 (watchState s n)
  | _ => 0

/-! ### A fatal event (R418) -/


/-- The power and thermal register of a die as a word (Table 29.2). -/
def powerWord (d : Die) : W64 :=
  w64 (b2n d.capen + d.cclk % 128 * 2 + d.floor.toNat * 2 ^ 8 + d.temp.toNat * 2 ^ 16 + d.tcap.toNat * 2 ^ 24
    + d.ttrip.toNat * 2 ^ 32 + b2n (d.hold != 0) * 2 ^ 40 + b2n d.capd * 2 ^ 41 + b2n d.thold * 2 ^ 42)

/-- The agents of a die. -/
def dieAgents (die : Fin 4) : List Agent := (List.finRange 144).filter (fun ag => dieOf ag = die)

/-- What the afterglow dump of a die holds: header, CSRs and the register files of every control thread, both shadow banks among
them (Table 6.1) and vector registers as images (R115), publication words, queue blocks, the error ring, the power and thermal
register. -/
def dumpOf (s : State) (die : Fin 4) (cause : BitVec 8) : Dump :=
  let d := s.dies.get die
  let ags := dieAgents die
  { valid := false, writing := true, cause := cause, dclk := d.dclk, more := 0
    cts := ags.map (fun ag =>
      let c := s.ct ag
      { ag := ag.val, csrs := csrNumbers.filterMap (csrValue s ag), g := c.g.toList.zip c.gtag.toList
        p := c.p.toList.zip c.ptag.toList, v := (c.v.toList.map (VReg.lower (lanes s ag))).zip c.vtag.toList
        user := c.uBank.toList, super := c.sBank.toList })
    pubs := (ags.filter isUser).map (fun ag => (ag.val, (s.ct ag).trail.pub, (s.ct ag).trail.gen))
    queues := s.queues.map (fun e => (e.1, (List.range 7).map (queueWord s e.1)))
    ring := d.ring
    power := powerWord d }

/-- Time passes on a die before its dump takes its counters: `dclk`, and `cycle` of its cores and its system core, advance by
clocks that the spec leaves open (R6). -/
def countOn (s : State) (die : Fin 4) : State :=
  let k (n : Nat) : W64 := w64 (Config.clocks (s.fresh + n))
  let s := s.updDie die (fun d => { d with dclk := d.dclk + k 0, cycle := d.cycle + k 1 })
  let s := (List.finRange 8).foldl (fun (s : State) (j : Fin 8) =>
    s.updCore (Fin.ofNat 32 (8 * die.val + j.val)) (fun c => { c with cycle := c.cycle + k (2 + j.val) })) s
  { s with fresh := s.fresh + 10 }

/-- An event fatal to a die: the die stops and its firmware begins to write the dump; while a valid dump is held, or one is being
written, a further event only raises its count (R418). -/
def fatalDie (s : State) (die : Fin 4) (cause : BitVec 8) : State :=
  match (s.dies.get die).dump.filter (fun u => u.valid || u.writing) with
  | some u => s.updDie die (fun d => { d with stopped := true, dump := some { u with more := u.more + 1 } })
  | none =>
    let s := countOn s die
    s.updDie die (fun d => { d with stopped := true, dump := some (dumpOf s die cause) })

/-- A die's firmware writes its dump to the end: the valid bit comes last (R418). -/
def finishDump (s : State) (die : Fin 4) : State :=
  s.updDie die (fun d => { d with dump := d.dump.map (fun u =>
    if u.writing then { u with valid := true, writing := false } else u) })

/-- The first die whose firmware is writing a dump. -/
def dumpingDie (s : State) : Option (Fin 4) :=
  (List.finRange 4).find? (fun die => ((s.dies.get die).dump.map (·.writing)).getD false)

/-! ### Reports and counters (R399, R400) -/

/-- An error report as its 32 bytes (Table 27.3). -/
def Report.word (r : Report) : BitVec 256 :=
  BitVec.ofNat 256 (r.kind % 16 + r.loc.src % 8 * 2 ^ 4 + b2n r.rew * 2 ^ 7 + r.cause.toNat * 2 ^ 8
    + r.loc.grp % 8 * 2 ^ 16 + r.loc.lane % 64 * 2 ^ 19 + r.loc.elem % 2048 * 2 ^ 25 + r.core % 32 * 2 ^ 36
    + r.ct % 128 * 2 ^ 41 + r.fn % 512 * 2 ^ 48 + r.loc.iadr.toNat * 2 ^ 64 + r.strip.toNat * 2 ^ 128
    + r.loc.loc.toNat * 2 ^ 192)

/-- Entries of a die's report ring (R399). -/
def ringEntries : Nat := 4096

/-- Writes a report into a die's ring, over the oldest one when the ring is full. -/
def addReport (s : State) (die : Fin 4) (r : Report) : State :=
  s.updDie die (fun d => { d with
    ring := (d.ring ++ [r]).drop (d.ring.length + 1 - ringEntries), reports := d.reports + 1 })

/-- Whether an error in unit `u` joins the test of unit `t` of the same core: it is the same unit, or memory words that overlap
(R397). -/
def unitJoins (t u : TestUnit) : Bool := match t, u with
  | .word p a n, .word q b m => p = q && decide (a < b + m) && decide (b < a + n)
  | t, u => t = u

/-- Whether a unit is a memory word. -/
def isWordUnit : TestUnit → Bool
  | .word _ _ _ => true
  | _ => false

/-- Begins the self-test of a unit of a core after a report of an error in it; an error found while its test runs joins that test: a
memory word is one unit whichever core's read has met it (R397). -/
def startTest (s : State) (core : Fin 32) (unit : Option TestUnit) : State := match unit with
  | none => s
  | some u =>
    let tested (k : Core) : Bool := k.tests.any (fun q => unitJoins q.1 u)
    if if isWordUnit u then s.cores.toList.any tested else tested (s.cores.get core) then s
    else s.updCore core (fun k => { k with tests := k.tests ++ [(u, false)] })

/-- The unit of a core in which an error of an agent lies, by the place its report names; memory words are known by their
mark. -/
def locUnit (loc : ErrLoc) : Option TestUnit :=
  if loc.src = 0 then some (.slice loc.grp loc.lane)
  else if loc.src = 1 then some (.lane loc.grp loc.lane)
  else if loc.src = 2 then some (.column loc.lane)
  else none

/-- A function's counters. -/
def countersOf (s : State) (fn : Nat) : Counters := (tabGet s.counters fn).getD ⟨0, 0, 0⟩

/-- Changes a function's counters. -/
def updCounters (s : State) (fn : Nat) (f : Counters → Counters) : State :=
  { s with counters := tabSet s.counters fn (f (countersOf s fn)) }

/-- Counts an uncorrectable error that a function's work consumed, and its rewind. -/
def countConsumed (s : State) (fn : Nat) (rew : Bool) : State :=
  updCounters s fn (fun c => { c with uncorr := c.uncorr + 1, rew := c.rew + w64 (b2n rew) })

/-- A report of a consumed error (Table 27.3): a mismatch of the shadow pass where the unit is shadowed and checked mode
is in force, else an uncorrectable error. -/
def consumedReport (s : State) (ag : Agent) (loc : ErrLoc) (rew : Bool) : Report :=
  let c := s.ct ag
  { kind := if c.chk ∧ (loc.src = 1 ∨ loc.src = 2) then 2 else 1
    rew := rew, cause := if rew then 0x1B else 0x15
    core := reportCore ag, ct := ctNumber ag, fn := fnOf s ag
    strip := match c.strip with
      | some st => st.check.pc
      | none => BitVec.allOnes 64
    loc := loc }

/-- Begins the self-tests that a report of an agent's error calls for (R397): of the unit its place names, and of another
beside it: the memory word, or the lane that served second where a comparison cannot tell which of two went wrong. -/
def testAfter (s : State) (ag : Agent) (loc : ErrLoc) (word : Option TestUnit) : State :=
  if isUser ag then startTest (startTest s (coreOf ag) (locUnit loc)) (coreOf ag) word else s

/-- Reports and counts a consumed error. -/
def reportConsumed (s : State) (ag : Agent) (loc : ErrLoc) (rew : Bool) (word : Option TestUnit) : State :=
  testAfter (countConsumed (addReport s (dieOf ag) (consumedReport s ag loc rew)) (fnOf s ag) rew) ag loc word

/-- A read of an agent that meets a single-symbol error, or one of its engine commands that does (R392): the data is
corrected on read, so it does not change; the error is reported, counts as a correctable one of the issuer's function, or of the
physical function where it lies in a fabric or at a die edge (R400), and its unit is tested (R397). Which read meets one comes
with the schedule. -/
def correctAt (s : State) (ag : Agent) (key : Nat) : State :=
  match tabGet s.flips key with
  | none => s
  | some (loc, word) =>
    let fn := if loc.src = 7 then 0 else fnOf s ag
    let r : Report := { consumedReport s ag loc false with kind := 0, cause := 0, fn := fn }
    let s := updCounters (addReport { s with flips := tabDrop s.flips key } (dieOf ag) r) fn
      (fun c => { c with corr := c.corr + 1 })
    testAfter s ag loc word

/-- What a read of an agent corrects. -/
def correctOnRead (s : State) (ag : Agent) : State := correctAt s ag ag.val

/-- What a read of an engine command of an agent corrects. -/
def correctEngine (s : State) (ag : Agent) : State := correctAt s ag (144 + ag.val)

/-! ### Taking an exception and returning from one (R369-R376) -/

/-- The cause codes of Table 25.1. -/
def Cause.code : Cause → Nat
  | .illegal => 0x01 | .illegalConvoy => 0x02 | .privilege => 0x03 | .resource => 0x04 | .localBounds => 0x05
  | .commonBounds => 0x06 | .misalign => 0x07 | .runHandle => 0x08 | .runRange => 0x09 | .runFault => 0x0A
  | .runSealed => 0x0B | .axisOverflow => 0x0C | .batchedIndirect => 0x0D | .planeBatched => 0x0E
  | .planeFormat => 0x0F | .timelineRange => 0x11 | .barrier => 0x12 | .group => 0x13 | .watchdog => 0x14
  | .uncorrectable => 0x15 | .break_ => 0x17 | .vectorAsync => 0x18

/-- `tcause` as trap entry writes it (Table 25.2). -/
def tcauseWord (cause sub : Nat) (pm free : Bool) (copy : Option Nat) : W64 :=
  w64 (cause + sub * 2 ^ 8 + b2n pm * 2 ^ 16 + b2n free * 2 ^ 17 + b2n copy.isSome * 2 ^ 18
    + (copy.getD 0) % 4096 * 2 ^ 20)

/-- A control thread after registers have been written: their errors are gone (R393). -/
def CT.clean (c : CT) (xs : List BadReg) : CT :=
  if c.regBad = [] then c else { c with regBad := c.regBad.filter (fun b => !xs.contains b) }

/-- Whether a trap interrupts the instruction at the program counter and is no fault of its own (Table 25.1). -/
def interruptsAt (cause : Nat) : Bool :=
  decide (cause = Cause.vectorAsync.code) || decide (cause = Cause.uncorrectable.code) || decide (cause = Cause.watchdog.code)

/-- What a trap keeps of the instruction it was taken at, for the return (R375): where one that was interrupted was to go on; one that
faulted goes on where `tcause` says. -/
def backOf (c : CT) (cause : Nat) (tpc : W64) : Back :=
  ⟨tpc, if interruptsAt cause then c.lift.resume else none, c.lift.item⟩

/-- A control thread that begins to run a handler: a `wfe` that an earlier handler at its level left waiting waits no more. -/
def CT.newLevel (c : CT) : CT := c.dropWaits c.level

/-- Trap entry (R373) once the strip has been seen to: `tcause`, `tval` and `tpc` are written, g24-g31 switch to the
supervisor bank unless a trap that is being handled has it in place (notes/assumptions/8.md), user events are held and the
loop nest is not tested while `inTrap` is set, the mode becomes supervisor, and control passes to byte 0 of the die's
supervisor code run. What the return needs to know of the instruction is kept (R375), and a `wfe` that an earlier handler left waiting
waits no more (R310). A `barwait` that ends in BARRIER, and a `wmwait` that ends in a fault, wait no more (R92, R358). -/
def enterTrap (s : State) (ag : Agent) (cause sub : Nat) (free : Bool) (copy : Option Nat) (tval tpc : W64) : State :=
  s.updCt ag (fun c =>
    let c := { c.clean [.csr 0x102, .csr 0x103, .csr 0x104] with
      tcause := tcauseWord cause sub c.sup free copy, tval := tval, tpc := tpc
      back := backOf c cause tpc :: (if c.inTrap then c.back else []), lift := { c.lift with resume := none, item := 0 }
      ranOut := if interruptsAt cause then c.ranOut else c.ranOut.filter (fun w => decide (w.1 < c.level))
      barw := if cause = 0x12 then c.barw.filter (fun w => w.pc ≠ tpc) else c.barw }
    ({ (if c.inTrap then c else c.swapSup) with sup := true, inTrap := true, pc := 0, status := .running } : CT).newLevel)

/-- The agent waits at its instruction: nothing else changes, and the instruction is attempted again. -/
def waitHere (s : State) (ag : Agent) : State := s.updCt ag (fun c => { c with status := .waiting })

/-- A precise trap of an agent (R369, R373, R376). Every earlier instruction completes first, so while the vector queue
holds work the agent waits. In supervisor mode a user control thread's task ends with the new cause, and a system
control thread's fault is fatal to its die. A strip commit that fails is reported first (R220). That the instruction faults is noted,
since what comes after a precise fault stays pending meanwhile (R374). -/
def preciseTrap (s : State) (ag : Agent) (cause : Cause) (tval : W64) (free : Bool) (copy : Option Nat) (tpc : W64) :
    State :=
  let c := s.ct ag
  let s := s.updCt ag (fun c => { c with faulting := true })
  if c.vq ≠ [] ∧ c.frozen.isNone then waitHere s ag
  else if c.sup then
    if isUser ag then endTask s ag (.fault (BitVec.ofNat 8 cause.code))
    else fatalDie s (dieOf ag) (BitVec.ofNat 8 cause.code)
  else
    match commitStrip s ag with
    | .stall s => waitHere s ag
    | .fault s => waitHere s ag
    | .done s => enterTrap s ag cause.code 0 free copy tval tpc

/-- VECTOR_ASYNC: the imprecise trap of a frozen vector queue, taken at a boundary; the strip stays open (R373, R377). The
lift copy it reports is that of the faulting instruction (R270). -/
def vectorTrap (s : State) (ag : Agent) (f : VFault) : State :=
  let copy := match (s.ct ag).vq with
    | v :: _ => match v.entries with
      | e :: _ => if e.ctx.pc = f.pc then e.ctx.copy else none
      | [] => none
    | [] => none
  let s := s.updCt ag (fun c => { c with frozen := some { f with told := true } })
  enterTrap s ag Cause.vectorAsync.code f.cause.code f.free copy f.tval (s.ct ag).pc

/-- A control thread whose waiting `wfe`s, but for those of the code it goes on with, wait no more once it has left a handler: the
instruction that it returns to goes on waiting only where it stands (R310, R374). -/
def CT.keepWaits (c : CT) : CT :=
  let stays (level : Nat) (pc : W64) : Bool := decide (level < c.level) || (decide (level = c.level) && decide (pc = c.pc))
  { c with
    wfe := c.wfe.filter (fun w => stays w.level w.pc), ranOut := c.ranOut.filter (fun w => stays w.1 w.2)
    again := c.again.filter (fun w => decide (w.1 ≤ c.level)) }

/-- The return from a trap (R375): the mode is pm's, execution resumes at `tpc`, and a frozen vector queue whose fault has
been taken resumes. The instruction at `tpc` resumes at lift copy cpy when cpv is 1; where it was interrupted and is returned to, it
goes on where it stood (a VECTOR_ASYNC's copy is that of the queue). The bank switches back, unless the trap interrupted
the handler of another one: a user control thread whose pm is 1 is then still in a handler. -/
def trapReturn (s : State) (ag : Agent) : State :=
  s.updCt ag (fun c =>
    let w := c.tcause.toNat
    let nested := isUser ag && c.inTrap && decide (fld w 16 1 = 1)
    let here := c.back.find? (fun b => b.pc = c.tpc)
    let c := if c.inTrap && !nested then c.swapSup else c
    ({ c with
      sup := if isUser ag then fld w 16 1 = 1 else true
      inTrap := nested, pc := c.tpc
      frozen := if (c.frozen.map (·.told)) = some true then none else c.frozen
      lift := { c.lift with
        resume := if fld w 0 8 ≠ Cause.vectorAsync.code ∧ fld w 18 1 = 1 then some (fld w 20 12) else here.bind (·.resume)
        item := (here.map (·.item)).getD 0 }
      back := if nested then c.back.drop 1 else [] } : CT).keepWaits)

/-! ### Consuming an uncorrectable error (R396) -/

/-- The fate of an error that a control thread consumes (Table 27.2); it comes before a pre-emption and what else is pending
(R374). -/
def consume (s : State) (ag : Agent) (loc : ErrLoc) (word : Option TestUnit) : State :=
  let c := s.ct ag
  let s := s.updCt ag (fun c => { c with faulting := true })
  if !isUser ag then fatalDie (reportConsumed s ag loc false word) (dieOf ag) 0x15
  else
    match c.strip with
    | some st =>
      if st.overflow || st.rewound then endTask (reportConsumed s ag loc false word) ag (.fault 0x15)
      else rewindStrip (reportConsumed s ag loc true word) ag
    | none =>
      let index := (s.dies.get (dieOf ag)).reports
      let s := reportConsumed s ag loc false word
      enterTrap s ag Cause.uncorrectable.code 0 false none (w64 (index % 2 ^ 32)) c.pc

/-- The place of an error that a scalar instruction consumes: a parity error of the scalar pipe's registers. -/
def scalarLoc (c : CT) : ErrLoc := ⟨6, 0, 0, 0, c.pc, 0⟩

/-- The place of a poisoned SRAM byte that a control thread reads (Table 27.3). -/
def sramLoc (pc : W64) (elem a : Nat) : ErrLoc := ⟨3, 0, 0, elem, pc, w64 a⟩

/-- A register as one that can carry an error; vector registers do so lane by lane. -/
def RegRef.asBad : RegRef → Option BadReg
  | .g r => some (.g r)
  | .p r => some (.p r)
  | .v _ _ => none

/-! ### Fetch (R170, R171) -/

/-- The length in bytes of the code run an agent executes: the die's supervisor code in supervisor mode (R373), the
kernel's code run otherwise. -/
def codeBytes (s : State) (ag : Agent) : Nat :=
  let c := s.ct ag
  if c.sup then (s.dies.get (dieOf ag)).supLen
  else
    match tabGet s.runs (runKey (fnOf s ag) c.kernel.code) with
    | some r => r.wmark * r.recsz
    | none => 0

/-- The handle of the code run; the supervisor's run has none that an instruction can name. -/
def codeHandle (s : State) (ag : Agent) : Nat := if (s.ct ag).sup then 0 else (s.ct ag).kernel.code

/-- A parcel of the code run; none where its page is not resident. -/
def codeParcel (s : State) (ag : Agent) (a : Nat) : Option (BitVec 32) :=
  let c := s.ct ag
  if c.sup then some (BitVec.ofNat 32 (leNat (memRead (s.dies.get (dieOf ag)).supCode a 4)))
  else
    match tabGet s.runs (runKey (fnOf s ag) c.kernel.code) with
    | some r => (runBytes s r a 4).map (fun bs => BitVec.ofNat 32 (leNat bs))
    | none => none

/-- The `n` parcels from an address up; none where a page is not resident. -/
def codeParcels (s : State) (ag : Agent) (a n : Nat) : Option (List (BitVec 32)) :=
  (List.range n).mapM (fun k => codeParcel s ag (a + 4 * k))

/-- Whether a convoy header's own fields are legal (R175, R419 step 1). -/
def headerOk (h : ConvoyHdr) : Bool :=
  let us := [h.u1, h.u2, h.u3, h.u4, h.u5, h.u6]
  let n := h.n.toNat
  let used := us.take n
  1 ≤ n && n ≤ 6 && !used.contains 7 && (us.drop n).all (· = 0) && decide used.Nodup

/-- What a fetch comes to. -/
inductive Fetched where
  | instr (i : Instr) (parcels : Nat)
  | trap (cause : Cause) (tval : W64)
  | held
  deriving DecidableEq, Repr

/-- Whether the fetch of a parcel is held: its page lies on a held die (R50). The die's supervisor code run, which the spec gives no
place in HBM, is never held (DESIGN CHOICE, notes/assumptions/24.md). -/
def codeHeld (s : State) (ag : Agent) (a : Nat) : Bool :=
  !(s.ct ag).sup && (match tabGet s.runs (runKey (fnOf s ag) (s.ct ag).kernel.code) with
    | some r => pageHeld s (leafAt r (a / Config.pageBytes))
    | none => false)

/-- The first parcel of a unit whose page is not resident. -/
def missingParcel (s : State) (ag : Agent) (a n : Nat) : Nat :=
  (((List.range n).find? (fun k => (codeParcel s ag (a + 4 * k)).isNone)).map (fun k => a + 4 * k)).getD a

/-- Fetches and decodes the unit at an address (R170, R171, R180, R371): a misaligned address MISALIGN
(notes/assumptions/10.md), beyond the code run RUN_RANGE, a page that is not resident RUN_FAULT at its first parcel, no
instruction ILLEGAL, a bad header ILLEGAL_CONVOY; a page on a held die is waited for (R50). Of a unit that reaches beyond the run
and is malformed as well, a bad header is reported first, then RUN_RANGE, then ILLEGAL (DESIGN CHOICE,
notes/assumptions/32.md: R419 does not place RUN_RANGE). -/
def fetchAt (s : State) (ag : Agent) (pc : W64) : Fetched :=
  let len := codeBytes s ag
  let a := pc.toNat
  let hdl := codeHandle s ag
  if a % 4 ≠ 0 then .trap .misalign pc
  else if a + 4 > len then .trap .runRange (runFaultWord hdl (a / 4) 0 0)
  else if codeHeld s ag a then .held
  else
    match codeParcel s ag a with
    | none => .trap .runFault (runFaultWord hdl (a / 4) 0 0)
    | some p =>
      let n := unitParcels p.toNat
      if fld p.toNat 28 4 = 14 ∧ (fld p.toNat 0 6 ≠ 0 ∨ !headerOk (decodeHeader p.toNat)) then
        .trap .illegalConvoy (w64 p.toNat)
      else if a + 4 * n > len then .trap .runRange (runFaultWord hdl (len / 4) 0 0)
      else if codeHeld s ag (a + 4 * (n - 1)) then .held
      else
        match codeParcels s ag a n with
        | none => .trap .runFault (runFaultWord hdl (missingParcel s ag a n / 4) 0 0)
        | some ps =>
          match decode ps with
          | .ok (i, k) => .instr i k
          | .error _ => .trap .illegal pc

/-! ### Lift frames (R268-R270) -/

/-- Whether a tag has the axis of a depth. -/
def hasAxis (t : Tag) (d : Nat) : Bool := t.getLsbD (d - 1)
/-- The deepest axis of a tag; 0 for none. -/
def deepest (t : Tag) : Nat := if hasAxis t 3 then 3 else if hasAxis t 2 then 2 else if hasAxis t 1 then 1 else 0
/-- The extents of the open levels, depth 1 first. -/
def CT.extents (c : CT) : List Nat := c.lift.levels.map (·.extent)
/-- The product of the extents at depths 1 to k. -/
def extProd (es : List Nat) (k : Nat) : Nat := (es.take k).foldl (· * ·) 1
/-- The coordinates of a linear tuple index over the extents, depth 1 first. -/
def coords : List Nat → Nat → List Nat
  | [], _ => []
  | _ :: es, n => n / es.foldl (· * ·) 1 :: coords es (n % es.foldl (· * ·) 1)
/-- The linear index of coordinates over the extents. -/
def linear : List Nat → List Nat → Nat
  | _ :: es, i :: is => i * es.foldl (· * ·) 1 + linear es is
  | _, _ => 0
/-- The OR of the tags of the predicates of the open regions (R270). -/
def CT.mask (c : CT) : Tag := c.lift.regions.foldl (fun t r => t ||| r.tag) 0
/-- Bytes of one slot: S = 8g + 256p + 1,536v (R269). -/
def CT.slotBytes (c : CT) : Nat := 8 * c.kernel.gregs + 256 * c.kernel.pregs + 1536 * c.kernel.vregs
/-- Local address of the slot of a tuple prefix (coordinates at depths 1 to k) in depth k's region (R269). -/
def CT.slotAddr (c : CT) (k n : Nat) : Nat :=
  let es := c.extents
  let before := ((List.range (k - 1)).map (fun j => extProd es (j + 1))).sum
  c.kernel.loc - c.kernel.lift + c.slotBytes * (before + n)

/-- The offset of a register within a slot, and its bytes (R269). -/
def slotField (c : CT) : RegRef → Nat × Nat
  | .g r => (8 * r.val, 8)
  | .p r => (8 * c.kernel.gregs + 256 * r.val, 256)
  | .v r _ => (8 * c.kernel.gregs + 256 * c.kernel.pregs + 1536 * r, 1536)

/-- The tag of a register. -/
def CT.refTag (c : CT) : RegRef → Tag
  | .g r => c.getGTag r
  | .p r => c.getPTag r
  | .v r _ => c.getVTag r
/-- Sets the tag of a register. -/
def CT.setRefTag (c : CT) (x : RegRef) (t : Tag) : CT := match x with
  | .g r => c.setGTag r t
  | .p r => c.setPTag r t
  | .v r _ => c.setVTag r t

/-- The bytes a register's slot holds for its present value. -/
def CT.refBytes (c : CT) (a : Nat) : RegRef → List Byte
  | .g r => leBytes 8 (c.getG r).toNat
  | .p r => leBytes 256 (c.getP r).toNat
  | .v r _ => vImage a (c.getV r)
/-- Loads a register from the bytes of a slot. -/
def CT.loadRef (c : CT) (a : Nat) (x : RegRef) (bs : List Byte) : CT := match x with
  | .g r => c.setG r (w64 (leNat bs))
  | .p r => c.setP r (BitVec.ofNat 2048 (leNat bs))
  | .v r _ => c.setV r (vFromImage a (c.getV r) bs)

/-- A local store of the part into the frame, with the poison marks of its bytes: buffered inside a strip (R269, R393). -/
def CT.frameWrite (c : CT) (a : Nat) (bs : List Byte) (bad : Marks) : CT :=
  match c.strip with
  | some st =>
    if st.overflow then c.writeLoc a bs bad
    else { c with strip := some { st with writes := .loc a bs bad :: st.writes } }
  | none => c.writeLoc a bs bad

/-- The local address of a batched register's copy for a tuple. -/
def CT.copyAddr (c : CT) (x : RegRef) (t : Tag) (tuple : Nat) : Nat :=
  let k := deepest t
  c.slotAddr k (linear (c.extents.take k) ((coords c.extents tuple).take k)) + (slotField c x).1

/-- The poison marks of that copy, by their place in the register's image. -/
def CT.copyMarks (c : CT) (x : RegRef) (t : Tag) (tuple : Nat) : Marks := c.locMarks (c.copyAddr x t tuple) (slotField c x).2 0

/-- The poison marks of a register's image, for the errors of the register itself (R393). -/
def CT.refMarks (c : CT) (x : RegRef) : Marks := c.regBad.flatMap (fun b => match x, b with
  | .g r, .g q => if r = q then [(0, 8)] else []
  | .p r, .p q => if r = q then [(0, 256)] else []
  | .v r _, .v q l => if r = q then [(4 * l, 4), (1024 + 2 * l, 2)] else []
  | _, _ => [])

/-- The bytes of a batched register's copy for a tuple. -/
def CT.copyBytes (c : CT) (x : RegRef) (t : Tag) (tuple : Nat) : List Byte :=
  c.locRead (c.copyAddr x t tuple) (slotField c x).2

/-- Whether a register is one whose writes are ignored: g0 and p0 (R110, R111). -/
def RegRef.ignored : RegRef → Bool
  | .g r => r = 0
  | .p r => r = 0
  | .v _ _ => false

/-- The local address of a batched register's copy for a tuple, where a byte of the copy is poisoned. -/
def CT.copyPoisoned (c : CT) (x : RegRef) (t : Tag) (tuple : Nat) : Option Nat :=
  let a := c.copyAddr x t tuple
  if c.locPoisoned a (slotField c x).2 then some a else none

/-- Writes a copy, with the poison marks of its bytes by their place in it: every slot of depth k's region that agrees with the tuple
on the tag's axes (R269). A write to g0 or p0 is ignored, so it has no copies. -/
def CT.writeCopy (c : CT) (x : RegRef) (t : Tag) (tuple : Nat) (bs : List Byte) (bad : Marks) : CT :=
  if x.ignored then c else
  let k := deepest t
  let es := c.extents.take k
  let is := (coords c.extents tuple).take k
  let (off, _) := slotField c x
  (List.range (es.foldl (· * ·) 1)).foldl (fun c n =>
    let js := coords es n
    let agree := (List.range k).all (fun d => !hasAxis t (d + 1) || js[d]? = is[d]?)
    let at_ := c.slotAddr k n + off
    if agree then c.frameWrite at_ bs (marksIn bad 0 bs.length at_) else c) c

/-- A register's value for a tuple, as bytes: its copy where it is batched, else the register itself. -/
def CT.valueBytes (c : CT) (a : Nat) (x : RegRef) (tuple : Nat) : List Byte :=
  if c.refTag x = 0 then c.refBytes a x else c.copyBytes x (c.refTag x) tuple

/-- The poison marks of that value. -/
def CT.valueMarks (c : CT) (x : RegRef) (tuple : Nat) : Marks :=
  if c.refTag x = 0 then c.refMarks x else c.copyMarks x (c.refTag x) tuple

/-- The projection of a tuple onto the axes of a tag, as coordinates. -/
def project (es : List Nat) (t : Tag) (tuple : Nat) : List Nat :=
  ((coords es tuple).zipIdx).map (fun q => if hasAxis t (q.2 + 1) then q.1 else 0)

/-- One tuple for each projection of the active tuples onto the axes of a tag, ascending (R270). -/
def projections (es : List Nat) (t : Tag) (active : List Nat) : List Nat :=
  let keyed := active.map (fun n => (linear es (project es t n), n))
  let firsts := keyed.foldl (fun acc q => if acc.any (fun r => r.1 = q.1) then acc else acc ++ [q]) []
  let keys := (List.range (extProd es es.length)).filter (fun k => firsts.any (fun q => q.1 = k))
  keys.filterMap (fun k => (firsts.find? (fun q => q.1 = k)).map (·.2))

/-- Spreads a register's old copies over the region of a new tag, so that copies which are not written keep their
values, with what is wrong with them (R270, R393). -/
def CT.spread (c : CT) (a : Nat) (x : RegRef) (t : Tag) : CT :=
  let old := c.refTag x
  if t = 0 ∨ old = t then c
  else
    let k := deepest t
    let es := c.extents
    let below := (es.drop k).foldl (· * ·) 1
    (List.range (extProd es k)).foldl (fun acc n => acc.writeCopy x t (n * below) (c.valueBytes a x (n * below)) (c.valueMarks x (n * below))) c

/-- The tuples of two lists over the open extents, ascending. -/
def joinTuples (l : Lift) (xs ys : List Nat) : List Nat :=
  (List.range (extProd (l.levels.map (·.extent)) l.levels.length)).filter (fun n => xs.contains n || ys.contains n)

/-- Closes the forward regions of the present depth that end where the program counter stands (R272). -/
def closeRegions (l : Lift) (pc : W64) : (fuel : Nat) → Lift
  | 0 => l
  | fuel + 1 =>
    match l.regions with
    | r :: rs =>
      if r.fwd ∧ r.target = pc ∧ r.depth = l.levels.length then
        closeRegions { l with regions := rs, active := joinTuples l l.active r.masked } pc fuel
      else l
    | [] => l

/-- Where no tuple is active, control passes to the target of the innermost forward region, and the regions opened after
it close into it (R272). -/
def CT.emptyActive (c : CT) : CT :=
  if c.lift.active ≠ [] then c
  else
    let inner := c.lift.regions.takeWhile (fun r => !r.fwd)
    match c.lift.regions.dropWhile (fun r => !r.fwd) with
    | r :: rs =>
      let masked := inner.foldl (fun xs q => joinTuples c.lift xs q.masked) r.masked
      { c with pc := r.target, lift := { c.lift with regions := { r with masked := masked } :: rs } }
    | [] => c

/-- What precedes an instruction: in a lift, the regions that end here (R272); it has not faulted yet. -/
def CT.atBoundary (c : CT) : CT :=
  let c := c.emptyActive
  { c with faulting := false, lift := closeRegions c.lift c.pc c.lift.regions.length }

/-! ### The frame of a scalar instruction -/

/-- What one copy of a scalar instruction comes to. -/
inductive Res where
  | ok (s : State)                                         -- on to the next instruction
  | jump (target : W64) (s : State)                        -- control was transferred
  | halt (s : State)                                       -- the instruction has set what runs next itself
  | trap (cause : Cause) (tval : W64) (free : Bool)        -- a precise fault
  | after (s : State) (cause : Cause) (tval : W64)         -- a precise fault that leaves an effect behind (R295)
  | wait (s : State)                                       -- attempted again
  | poison (loc : ErrLoc) (word : TestUnit)                -- it reads poisoned data (R396)

/-- How an instruction follows the lift (R270, R271): copies by the tags; once; only unbatched; only with no region
mask (`call`); or copies on the axes of a tag of its own (R274). -/
inductive LiftRule where
  | copies | once | unbatched | unmasked | on (t : Tag)

/-- What the frame of a scalar instruction needs to know of it. -/
structure Shape where
  size    : Nat := 1                    -- parcels
  reads   : List RegRef := []
  writes  : List RegRef := []
  parity  : List BadReg := []           -- control and status registers it reads
  priv    : Bool := false               -- supervisor only
  parcel  : Nat := 0                    -- the first parcel, for PRIVILEGE
  numbers : List (Nat × Nat) := []      -- other numbers, each with its declared count (RESOURCE)
  commits : Bool := false               -- commits an open strip (R208)
  drains  : Bool := false               -- waits for every earlier vector instruction
  fault   : Option (Cause × W64) := none  -- a fault of its description that comes before the lift's own (R419)
  rule    : LiftRule := .copies

/-- The register numbers of a shape, each with its declared count (R110); in supervisor mode g24-g31 are the supervisor
bank, which needs no declaration (notes/assumptions/8.md). -/
def shapeNumbers (c : CT) (m : Shape) : List (Nat × Nat) :=
  (m.writes ++ m.reads).filterMap (fun x => match x with
    | .g r => if c.sup && 24 ≤ r.val then none else if r = 0 then none else some (r.val, c.kernel.gregs)
    | .p r => if r = 0 then none else some (r.val, c.kernel.pregs)
    | .v r _ => some (r, c.kernel.vregs)) ++ m.numbers

/-- A number that exceeds its declaration; the spec does not say which of several is reported, so that is free
(notes/assumptions/27.md). -/
def overNumber (ns : List (Nat × Nat)) : Option Nat :=
  match (ns.filter (fun q => decide (q.2 ≤ q.1))).map (·.1) with
  | [] => none
  | q :: rest => some ((q :: rest).getD (Config.whichNumber (q :: rest) % (rest.length + 1)) q)

/-- The stream unit of a queued stream operation. -/
def streamNo : Instr → Option Nat
  | .rld f | .rapp f => some (f.fn.toNat % 4)
  | _ => none

/-- Whether a `vamo` with `.acq` that a control thread has pushed has still to perform: every later access, acquire, atomic
and command begins after it (R221, R312). What a handler does while the queue is frozen waits for nothing in it. -/
def CT.acqQueued (c : CT) : Bool :=
  c.frozen.isNone && c.vq.any (fun v => v.entries.any (fun e => match e.instr with
    | .vamo f => fnBit f 6
    | _ => false))

/-- Whether some queued vector instruction has still to write a register of the list, or to read or write a predicate
or scalar register that is to be written (R121); a handler does not wait for a frozen queue. -/
def queueMeets (c : CT) (reads writes : List RegRef) : Bool :=
  c.frozen.isNone && c.vq.any (fun v => v.entries.any (fun e =>
    match formOf e.instr, fieldsOf e.instr with
    | some m, some f =>
      refsMeet e.ctx.vtype e.ctx.vl 1 (vecWrites m f) (reads ++ writes) ||
        refsMeet e.ctx.vtype e.ctx.vl 1 ((vecReads m f).filter (fun x => match x with | .p _ => true | _ => false)) writes
    | _, _ => false))

/-- Whether a queued vector instruction has still to write a scalar register. -/
def writesG (r : GReg) (e : VEntry) : Bool := match formOf e.instr, fieldsOf e.instr with
  | some m, some f => (vecWrites m f).contains (.g r)
  | _, _ => false

/-- Marks the last queued instruction that writes a scalar register with a later value of it; none if no queued one does. -/
def markLast (r : GReg) (w : W64) : List VEntry → Option (List VEntry)
  | [] => none
  | e :: es =>
    match markLast r w es with
    | some es => some (e :: es)
    | none => if writesG r e then some ({ e with late := some (r, w) } :: es) else none

/-- The same for the convoys of a queue. -/
def markQueue (r : GReg) (w : W64) : List Convoy → Option (List Convoy)
  | [] => none
  | v :: vs =>
    match markQueue r w vs with
    | some vs => some (v :: vs)
    | none => (markLast r w v.entries).map (fun es => { v with entries := es } :: vs)

/-- The write of an index register by the loop nest, after every earlier vector instruction that writes it (R121, R198). The
register is then unbatched: it holds the one iteration number for every tuple, an open region's masked ones too (DESIGN CHOICE,
notes/assumptions/32.md). -/
def CT.setIndex (c : CT) (r : GReg) (w : W64) : CT :=
  match markQueue r w c.vq with
  | some vq => { c with vq := vq }.setGTag r 0
  | none => (c.setG r w).setGTag r 0

/-- The loop nest after an instruction of `n` parcels at `pc` that transferred no control (R198): the next program
counter. -/
def loopTest (c : CT) (pc : W64) (n : Nat) : (fuel : Nat) → CT
  | 0 => { c with pc := pc + w64 (4 * n) }
  | fuel + 1 =>
    match c.loops with
    | [] => { c with pc := pc + w64 (4 * n) }
    | l :: ls =>
      if pc.toNat ≤ l.stop.toNat ∧ l.stop.toNat < pc.toNat + 4 * n then
        if l.left > 1 then
          let c := { c with loops := { l with left := l.left - 1 } :: ls, pc := l.start }
          if l.idx = 0 then c else c.setIndex l.idx (w64 (l.count - (l.left - 1)))
        else loopTest { c with loops := ls } pc n fuel
      else { c with pc := pc + w64 (4 * n) }

/-- The control thread after an instruction of `n` parcels completes: while a user event or a trap is handled no level
is tested (R200, R373). -/
def advance (c : CT) (n : Nat) : CT :=
  let c := { c with status := .running }
  if c.inUev || c.inTrap then { c with pc := c.pc + w64 (4 * n) } else loopTest c c.pc n (c.loops.length + 1)

/-- Before a copy runs: each batched register it reads or writes holds that copy's value, each unbatched one the value it
had before the instruction (R270). -/
def loadCopies (s : State) (m : Shape) (t : Tag) (orig : CT) (b : Nat) : State :=
  let a := lanes s s.cur
  s.upd (fun c => (m.reads ++ m.writes).foldl (fun c x =>
    if orig.refTag x = 0 then c.loadRef a x (orig.refBytes a x)
    else if orig.refTag x &&& ~~~t = 0 then c.loadRef a x (c.copyBytes x (orig.refTag x) b) else c) c)

/-- After a copy has run: its results become copies of the tag (R270). -/
def storeCopies (s : State) (m : Shape) (t : Tag) (b : Nat) : State :=
  let a := lanes s s.cur
  s.upd (fun c => m.writes.foldl (fun c x => c.writeCopy x t b (c.refBytes a x) []) c)

/-- When a copy faults or waits: unbatched destinations are as they were, and the instruction resumes at this copy. -/
def backTo (s : State) (m : Shape) (orig : CT) (b : Nat) : State :=
  let a := lanes s s.cur
  s.upd (fun c => m.writes.foldl (fun c x => if orig.refTag x = 0 then c.loadRef a x (orig.refBytes a x) else c)
    { c with lift := { c.lift with resume := some b } })

/-- The OR of the tags an instruction reads, the open regions' mask among them (R270). -/
def readTags (c : CT) (m : Shape) : Tag := m.reads.foldl (fun t x => t ||| c.refTag x) c.mask

/-- The tag the copies of an instruction are formed on: under masking the old tags of its destinations join (R270), but for
the queries, whose result tag Table 16.6 gives. -/
def copyTag (c : CT) (m : Shape) : Tag :=
  match m.rule with
  | .on t => t
  | .once => 0
  | .unmasked => 0
  | _ => if c.mask = 0 then readTags c m else m.writes.foldl (fun t x => t ||| c.refTag x) (readTags c m)

/-- Sets the result tags; g0 and p0 keep tag 0. What was wrong with the registers written is gone. -/
def setTags (c : CT) (m : Shape) (t : Tag) : CT :=
  (m.writes.foldl (fun c x => c.setRefTag x t) c).clean (m.writes.filterMap RegRef.asBad)

/-- The control thread past an instruction of `n` parcels: where a lift copy was to resume is forgotten. -/
def CT.proceed (c : CT) (n : Nat) : CT :=
  let d := advance c n
  { d with lift := { d.lift with resume := none, item := 0 } }

/-- The control thread after a transfer of control. -/
def CT.landAt (c : CT) (p : W64) : CT :=
  { c with pc := p, status := .running, lift := { c.lift with resume := none, item := 0 } }

/-- Completes a scalar instruction. -/
def finish (s : State) (m : Shape) (r : Res) : Out :=
  let pc := s.me.pc
  match r with
  | .ok s2 => .next (settleFrame (s2.upd (fun c => c.proceed m.size)) s.cur)
  | .jump p s2 => .next (settleFrame (s2.upd (fun c => c.landAt p)) s.cur)
  | .halt s2 => .next s2
  | .wait s2 => .next (waitHere s2 s.cur)
  | .poison loc word => .next (consume s s.cur loc (some word))
  | .trap cause tval free => .next (preciseTrap s s.cur cause tval free none pc)
  | .after s2 cause tval => .next (preciseTrap s2 s.cur cause tval false none pc)

/-- The poisoned copy, by its local address, that a scalar instruction whose copies are formed on tag `t` would read for a tuple:
of a batched register that it reads, all of whose axes are in `t` (R269, R393). -/
def badCopy (c : CT) (m : Shape) (t : Tag) (b : Nat) : Option Nat :=
  if !c.maybePoisoned then none
  else m.reads.findSome? (fun x =>
    if c.refTag x = 0 ∨ c.refTag x &&& ~~~t ≠ 0 then none else c.copyPoisoned x (c.refTag x) b)

/-- Runs the copies of an instruction in ascending order; a fault or a wait at a copy leaves the earlier ones complete
(R270). The frame writes of each copy count at once against what the strip's buffer holds (R210). -/
def copyLoop (m : Shape) (t : Tag) (orig : CT) (body : Nat → State → Res) : List Nat → State → Out
  | [], s => finish s m (.ok (s.upd (fun c => setTags c m t)))
  | b :: bs, s =>
    match badCopy orig m t b with
    | some w => .next (consume (backTo s m orig b) s.cur (sramLoc s.me.pc 0 w) (some (.word (.loc s.cur) w 1)))
    | none =>
    match body b (loadCopies s m t orig b) with
    | .ok s2 => copyLoop m t orig body bs (settleFrame (storeCopies s2 m t b) s.cur)
    | .trap cause tval free =>
      .next (preciseTrap (backTo s m orig b) s.cur cause tval free (some b) s.me.pc)
    | .after s2 cause tval => .next (preciseTrap (backTo s2 m orig b) s.cur cause tval false (some b) s.me.pc)
    | .wait s2 => finish s m (.wait (backTo s2 m orig b))
    | .poison loc word => .next (consume (backTo s m orig b) s.cur loc (some word))
    | .jump p s2 => finish s m (.jump p s2)
    | .halt s2 => finish s m (.halt s2)

/-- The tag for which an instruction that must not be batched raises BATCHED_INDIRECT (Table 16.5). -/
def indirectTag (c : CT) (m : Shape) : Tag := match m.rule with
  | .unbatched => readTags c m
  | .unmasked => c.mask
  | _ => 0

/-- Runs an instruction once, for every active tuple: a batched register it reads holds the copy of the first. -/
def runOnce (s : State) (m : Shape) (body : Nat → State → Res) : Out :=
  let c := s.me
  let b := (c.lift.active.head?).getD 0
  match badCopy c m (BitVec.allOnes 3) b with
  | some w => .next (consume s s.cur (sramLoc c.pc 0 w) (some (.word (.loc s.cur) w 1)))
  | none =>
  let s1 := s.upd (fun c => m.reads.foldl (fun c x =>
    if c.refTag x = 0 then c else c.loadRef (lanes s s.cur) x (c.copyBytes x (c.refTag x) b)) c)
  match body b s1 with
  | .ok s2 => finish s m (.ok (s2.upd (fun c => setTags c m 0)))
  | .jump p s2 => finish s m (.jump p (s2.upd (fun c => setTags c m 0)))
  | r => finish s m r

/-- Runs the body of a scalar instruction by its lift rule (R270, R271, R274). -/
def runBody (s : State) (m : Shape) (body : Nat → State → Res) : Out :=
  let c := s.me
  let t := copyTag c m
  if indirectTag c m ≠ 0 then finish s m (.trap .batchedIndirect ((indirectTag c m).zeroExtend 64) false)
  else if t = 0 then runOnce s m body
  else
    let a := lanes s s.cur
    let bs := projections c.extents t c.lift.active
    let todo := match c.lift.resume with
      | some r => bs.dropWhile (fun b => b ≠ r)
      | none => bs
    let s0 := if c.lift.resume.isSome ∨ c.mask = 0 then s
      else settleFrame (s.upd (fun c => m.writes.foldl (fun c x => c.spread a x t) c)) s.cur
    copyLoop m t c body todo s0

/-- Whether an instruction reads a register with an error that cannot be corrected (R392). -/
def badOperand (c : CT) (m : Shape) : Bool :=
  c.regBad != [] && (m.reads.filterMap RegRef.asBad ++ m.parity).any c.regBad.contains

/-- Whether a scalar instruction must wait for queued vector instructions in the lift frame (R269, R327): the copies that it reads are
local loads of the part, and those that it writes local stores. -/
def frameHolds (c : CT) (m : Shape) : Bool :=
  c.kernel.lift ≠ 0 && c.lift.levels != [] &&
    (((m.reads ++ m.writes).any (fun x => c.refTag x ≠ 0) &&
        queueHolds c false false (c.kernel.loc - c.kernel.lift) c.kernel.loc) ||
      (copyTag c m ≠ 0 && m.writes != [] && queueHolds c false true (c.kernel.loc - c.kernel.lift) c.kernel.loc))

/-- The frame of every scalar instruction: PRIVILEGE, then RESOURCE, then a first fault of its description, then the waits
for earlier vector instructions (R121, R312); a register error that it reads is consumed in its place (R396); then the strip
commit of R208, then the body by its lift rule (R186, R419, R271). While a vector fault has the queue frozen, its handler waits
for nothing of the queue, and the strip stays open with its buffer (R373, R377; notes/assumptions/13.md). -/
def scalar (s : State) (m : Shape) (body : Nat → State → Res) : Out :=
  let c := s.me
  if m.priv && !c.sup then finish s m (.trap .privilege (w64 m.parcel) false)
  else
    match overNumber (shapeNumbers c m), m.fault with
    | some n, _ => finish s m (.trap .resource (w64 n) false)
    | none, some (cause, tval) => finish s m (.trap cause tval false)
    | none, none =>
      if queueMeets c m.reads m.writes || c.acqQueued || frameHolds c m ||
          ((m.drains || (m.commits && c.strip.isSome)) && c.vq ≠ [] && c.frozen.isNone) then .next (waitHere s s.cur)
      else if badOperand c m then .next (consume s s.cur (scalarLoc c) none)
      else if m.commits && c.frozen.isNone then
        match commitStrip s s.cur with
        | .done s => runBody s m body
        | .stall s => .next (waitHere s s.cur)
        | .fault s => .next (waitHere s s.cur)
      else runBody s m body

end Sys2Proof.Machine
end

