-- ==== Sys2Proof/Machine/Control.lean ====
section
/-! DEFINITION. Branches, calls and loop nests (11_instructions_scalar_and_control.md R194-R200), batched branches
(16_instructions_matrix_and_lift.md R272), and the traps and returns of R321 and R106. -/

namespace Sys2Proof.Machine

open Sys2Proof

/-- ILLEGAL at the instruction (R419): nothing else of it is looked at. -/
def illegalHere (s : State) : Out := finish s {} (.trap .illegal s.me.pc false)

/-- A transfer of control to an address: RUN_RANGE at the branch when the target lies at or beyond the code run's length
(R195, R371). -/
def jumpTo (s : State) (t : W64) : Res :=
  if codeBytes s s.cur ≤ t.toNat then .trap .runRange (runFaultWord (codeHandle s s.cur) (t.toNat / 4) 0 0) false
  else .jump t s

/-- A transfer through a register: MISALIGN first when bits [1:0] are not zero (R171). -/
def jumpInd (s : State) (t : W64) : Res := if t.toNat % 4 ≠ 0 then .trap .misalign t false else jumpTo s t

/-- The address of a parcel offset. -/
def CT.relative {n : Nat} (c : CT) (off : BitVec n) : W64 := c.pc + sext64 off * 4

/-! ### Batched branches (R272) -/

/-- Open regions at the present depth, innermost first. -/
def CT.regionsHere (c : CT) : List Region := c.lift.regions.filter (fun r => decide (r.depth = c.depth))

/-- The tuples that take a batched branch, and those that stay. -/
def splitActive (c : CT) (p : PReg) (neg : Bool) : List Nat × List Nat :=
  c.lift.active.partition (fun b =>
    (leNat ((c.copyBytes (.p p) (c.getPTag p) b).take 1) % 2 == 1) != neg)

/-- A forward batched branch. -/
def branchForward (s : State) (tag : Tag) (target : W64) (take stay : List Nat) : Res :=
  let c := s.me
  let beyond := match c.lift.regions.find? (·.fwd) with
    | some r => decide (r.target.toNat < target.toNat)
    | none => false
  if beyond then .trap .batchedIndirect (tag.zeroExtend 64) false
  else if take = [] then .ok s
  else
    match jumpTo s target with
    | .jump t s1 =>
      if stay = [] then .jump t s1
      else if c.regionsHere.length ≥ 16 then .trap .resource 17 false
      else .ok (s.upd (fun c => { c with lift := { c.lift with
        active := stay, regions := ⟨true, target, take, tag, c.depth⟩ :: c.lift.regions } }))
    | r => r

/-- A backward batched branch. -/
def branchBackward (s : State) (tag : Tag) (target : W64) (take stay : List Nat) : Res :=
  let c := s.me
  let next := c.pc + 4
  let here (r : Region) : Bool := !r.fwd && decide (r.target = next) && decide (r.depth = c.depth)
  if !c.lift.regions.any here && c.regionsHere.length ≥ 16 then .trap .resource 17 false
  else
    let regions := if c.lift.regions.any here then c.lift.regions
      else ⟨false, next, [], 0, c.depth⟩ :: c.lift.regions
    let regions := regions.map (fun r => if here r then
      { r with masked := joinTuples c.lift r.masked stay, tag := r.tag ||| tag } else r)
    if take = [] then
      .ok (s.upd (fun c => { c with lift := { c.lift with
        active := (regions.filter here).flatMap (·.masked), regions := regions.filter (fun r => !here r) } }))
    else
      jumpTo (s.upd (fun c => { c with lift := { c.lift with active := take, regions := regions } })) target

/-! ### Instructions -/

/-- `br` (R194). -/
def execBr (off : BitVec 25) (s : State) : Out :=
  scalar s { rule := .once } (fun _ s => jumpTo s (s.me.relative off))

/-- `bp` (R194); on a batched predicate, a batched branch (R272). -/
def execBp (p : PReg) (neg : Bool) (off : BitVec 17) (s : State) : Out :=
  scalar s { reads := [.p p], rule := .once } (fun _ s =>
    let c := s.me
    let target := c.relative off
    let tag := c.getPTag p
    if tag = 0 then (if pCond (c.getP p) != neg then jumpTo s target else .ok s)
    else
      let (take, stay) := splitActive c p neg
      if 0 < off.toInt then branchForward s tag target take stay
      else branchBackward s tag target take stay)

/-- `call` (R195): g1 holds the return address. -/
def execCall (off : BitVec 25) (s : State) : Out :=
  scalar s { writes := [.g 1], rule := .unmasked } (fun _ s =>
    match jumpTo s (s.me.relative off) with
    | .jump t s => .jump t (s.upd (fun c => c.setG 1 (c.pc + 4)))
    | r => r)

/-- `ret` (R195). -/
def execRet (a : GReg) (s : State) : Out :=
  scalar s { reads := [.g a], rule := .unbatched } (fun _ s => jumpInd s (s.me.getG a))

/-- `jr` (R195): ga is read before gd is written. -/
def execJr (d a : GReg) (s : State) : Out :=
  scalar s { reads := [.g a], writes := [.g d], rule := .unbatched } (fun _ s =>
    match jumpInd s (s.me.getG a) with
    | .jump t s => .jump t (s.upd (fun c => c.setG d (c.pc + 4)))
    | r => r)

/-- `loopn` (R197), its cases in their order. -/
def execLoopn (d a : GReg) (i : BitVec 15) (s : State) : Out :=
  let stop := s.me.relative i
  let past := match s.me.loops with
    | l :: _ => decide (l.stop.toNat < stop.toNat)
    | [] => false
  scalar s {
      reads := [.g a], writes := [.g d], rule := .unbatched
      fault := if i.toInt ≤ 0 ∨ past = true then some (.illegal, s.me.pc) else none } (fun _ s =>
    let c := s.me
    if c.getG a = 0 then .jump (stop + 4) (s.upd (fun c => c.setG d 0))
    else if c.loops.length ≥ 6 then .trap .resource 7 false
    else
      let n := (c.getG a).toNat
      .ok (s.upd (fun c => { c.setG d 0 with loops := ⟨n, n, c.pc + 4, stop, d⟩ :: c.loops })))

/-- `loope` (R199): leaves the innermost level. -/
def execLoope (p : PReg) (s : State) : Out :=
  scalar s { reads := [.p p], rule := .unbatched } (fun _ s =>
    let c := s.me
    match c.loops with
    | l :: ls => if pCond (c.getP p) then .jump (l.stop + 4) (s.upd (fun c => { c with loops := ls })) else .ok s
    | [] => .ok s)

/-- `nop` (R196). -/
def execNop (s : State) : Out := scalar s { rule := .once } (fun _ s => .ok s)

/-- `trap` (R321): BREAK with the code, `tpc` after the instruction. -/
def execTrap (code : BitVec 10) (s : State) : Out :=
  scalar s { commits := true, drains := true, rule := .once } (fun _ s =>
    .halt (preciseTrap s s.cur .break_ (code.zeroExtend 64) false none (s.me.pc + 4)))

/-- `tret` (R321, R375). -/
def execTret (s : State) : Out :=
  scalar s { priv := true, parcel := 0x82000000, parity := [.csr 0x102, .csr 0x104], rule := .once } (fun _ s => .halt (trapReturn s s.cur))

/-- `uret` (R106): the interrupted bank returns, and control passes to shadow g31. -/
def execUret (s : State) : Out :=
  scalar s { parity := [.g 31], rule := .once } (fun _ s =>
    let c := s.me
    if !c.inUev then .trap .illegal c.pc false
    else if queueMeets c [.g 31] [] then .wait s
    else .jump (c.getG 31) (s.upd (fun c => ({ c.swapUser with inUev := false, pc := c.getG 31 } : CT).keepWaits)))

end Sys2Proof.Machine
end

