-- ==== Sys2Proof/Machine/Runs.lean ====
section
/-! DEFINITION. The run lifecycle and stream opening (17_instructions_runs_sort_and_engines.md R282, R283,
02_runs_in_main_memory.md R29-R40, 05_streams_copy_and_timelines.md R93-R94). -/

namespace Sys2Proof.Machine

open Sys2Proof

/-- The run a register names, or RUN_HANDLE (R29). -/
def withRun (s : State) (w : W64) (go : Nat → Run → Res) : Res :=
  match findRun s (fnOf s s.cur) w with
  | some (k, r) => go k r
  | none => .trap .runHandle w false

/-- A stream number with its declared count (R93). -/
def streamNumber (c : CT) (n : BitVec 2) : List (Nat × Nat) := [(n.toNat, c.kernel.nst)]

/-- Whether a queued instruction uses a stream unit, or one that an `sbar` has put before it: operations on one unit, and on
those an `sbar` names, keep program order (R95). -/
def streamQueued (c : CT) (n : Fin 4) : Bool :=
  c.vq.any (fun v => v.entries.any (fun e => match streamNo e.instr with
    | some k => k == n.val || e.bar.getLsbD n.val
    | none => false))

/-! ### Lifecycle (R282) -/

/-- An open run of no records. -/
def Run.fresh (recsz root die : Nat) : Run := ⟨.open_, false, false, recsz, root, die, 0, 0, 0, [], false, [], []⟩

/-- `rnew` (R282): 0 when no handle or no frame is free; sub[1:0] means nothing, and must be zero, where sub[2] is 0. The frames of a
die that has stopped are waited for (R418). -/
def execRnew (d a : GReg) (named : Bool) (die : BitVec 2) (s : State) : Out :=
  if !named && die ≠ 0 then illegalHere s
  else
    scalar s { reads := [.g a], writes := [.g d], commits := true } (fun _ s =>
      let z := (s.me.getG a).toNat
      if z % 4 ≠ 0 ∨ z < 4 ∨ 16384 < z then .trap .runRange 0 false
      else
        let from_ := if named then die.toNat else (dieOf s.cur).val
        if (s.dies.get (Fin.ofNat 4 from_)).stopped then .wait s else
        match pickHandle s (fnOf s s.cur), takeFrame s from_ [] [] with
        | some h, some (f, s) =>
          let s := { s with runs := tabSet s.runs (runKey (fnOf s s.cur) h) (Run.fresh z f from_) }
          .ok (s.upd (fun c => c.setG d (w64 h)))
        | _, _ => .ok (s.upd (fun c => c.setG d 0)))

/-- `rseal` (R282): publishes the issuer's reservations, waits until the watermark reaches the length, and seals. -/
def execRseal (d a : GReg) (s : State) : Out :=
  scalar s { reads := [.g a], writes := [.g d], commits := true } (fun _ s =>
    withRun s (s.me.getG a) (fun k r =>
      match r.state with
      | .sealed => .ok (s.upd (fun c => c.setG d 0))
      | .truncated => .ok (s.upd (fun c => c.setG d 1))
      | .open_ =>
        let r := publishRun r (anyStream s.cur)
        if r.wmark = r.length then
          .ok ((updRun s k (fun _ => { r with state := .sealed, ranges := [] })).upd (fun c => c.setG d 0))
        else .wait (updRun s k (fun _ => r))))

/-- Takes `n` frames of a die for pages of the part's own. -/
def takeFrames (s : State) (die : Nat) : (n : Nat) → Option (List Nat × State)
  | 0 => some ([], s)
  | n + 1 =>
    match takeFrame s die [] [] with
    | some (f, s) => (takeFrames s die n).map (fun q => (f :: q.1, q.2))
    | none => none

/-- Whether a frame of some page has a count that cannot rise (R39). -/
def pagesFull (s : State) (ls : List Leaf) : Bool :=
  ls.any (fun l => l.tier == 0 && (match tabGet s.frames l.frame with
    | some f => decide (2 ^ 32 - 1 ≤ f.count)
    | none => false))

/-- How many pages hold the records below a run's watermark. -/
def sharedPages (r : Run) : Nat := (r.wmark * r.recsz + Config.pageBytes - 1) / Config.pageBytes

/-- How many directory frames a run of this many pages takes (R36). -/
def dirFrames (n : Nat) : Nat := if n ≤ 8192 then 0 else (n + 8191) / 8192

/-- A run's leaf entries once its pages below the watermark are shared: the last of them is marked cow where it reaches
beyond the watermark (R40). -/
def markShared (r : Run) (xs : List Leaf) : List Leaf :=
  if r.wmark * r.recsz % Config.pageBytes = 0 then xs
  else xs.set (sharedPages r - 1) { leafAt r (sharedPages r - 1) with cow := true }

/-- The run that `rfork` makes of a run, with its own root and directory frames (R40). These and its later pages lie on the
source's die (DESIGN CHOICE, notes/assumptions/32.md). -/
def childRun (r : Run) (root : Nat) (dirs : List Nat) : Run :=
  { Run.fresh r.recsz root r.die with
    state := if r.state = .sealed then .sealed else .open_
    depth := !dirs.isEmpty, dirs := dirs, length := r.wmark, wmark := r.wmark
    leaves := markShared r ((List.range (sharedPages r)).map (leafAt r)) }

/-- The state once the pages of run `k` are shared and the new run stands under a handle (R39, R40). -/
def forkInto (s : State) (k : Nat) (r : Run) (h root : Nat) (dirs : List Nat) : State :=
  let s := ((List.range (sharedPages r)).map (leafAt r)).foldl
    (fun s l => if l.tier = 0 then shareFrame s l.frame else s) s
  let s := updRun s k (fun r' => { r' with leaves := markShared r r'.leaves })
  { s with runs := tabSet s.runs (runKey (k / 2 ^ 20) h) (childRun r root dirs) }

/-- `rfork` (R40): the pages below the watermark are shared; none where no handle is free or a count would pass 2^32 - 1 (R39),
nor where no frame is free for its own root or a directory page (DESIGN CHOICE, notes/assumptions/32.md). -/
def forkRun (s : State) (k : Nat) (r : Run) : Option (Nat × State) :=
  if pagesFull s ((List.range (sharedPages r)).map (leafAt r)) then none
  else
    match pickHandle s (k / 2 ^ 20), takeFrames s r.die (1 + dirFrames (sharedPages r)) with
    | some h, some (root :: ds, s) => some (h, forkInto s k r h root ds)
    | _, _ => none

/-- `rfork` (R282); what would share frames of a die that has stopped, or take some, waits (R418). -/
def execRfork (d a : GReg) (s : State) : Out :=
  scalar s { reads := [.g a], writes := [.g d], commits := true } (fun _ s =>
    withRun s (s.me.getG a) (fun k r =>
      if runStopped s r || (s.dies.get (Fin.ofNat 4 r.die)).stopped then .wait s else
      match forkRun s k r with
      | some (h, s) => .ok (s.upd (fun c => c.setG d (w64 h)))
      | none => .ok (s.upd (fun c => c.setG d 0))))

/-- `rdrop` (Table 2.2): with streams open the run waits for the last of them. Frames of a die that has stopped are waited for
(R418). -/
def execRdrop (a : GReg) (s : State) : Out :=
  scalar s { reads := [.g a], commits := true } (fun _ s =>
    withRun s (s.me.getG a) (fun k r =>
      if r.streams = 0 && runStopped s r then .wait s else
      .ok (if r.streams = 0 then freeRun s k else updRun s k (fun r => { r with dpend := true }))))

/-- The state code of Table 2.1. -/
def RunState.code : RunState → Nat
  | .open_ => 1 | .sealed => 2 | .truncated => 3

/-- Word `k` of a run descriptor (Table 2.1). -/
def descWord (r : Run) (k : Nat) : W64 :=
  match k with
  | 0 => w64 (r.state.code + b2n r.depth * 2 ^ 2 + b2n r.dpend * 2 ^ 3 + (r.recsz / 4 - 1) * 2 ^ 4 + r.root * 2 ^ 32)
  | 1 => w64 r.length
  | 2 => w64 r.wmark
  | _ => w64 (r.streams % 2 ^ 10)

/-- `rinfo gd, ga, k` (R282). -/
def execRinfo (d a : GReg) (k : BitVec 2) (s : State) : Out :=
  scalar s { reads := [.g a], writes := [.g d] } (fun _ s =>
    withRun s (s.me.getG a) (fun _ r => .ok (s.upd (fun c => c.setG d (descWord r k.toNat)))))

/-- The mode code of Table 5.1. -/
def StMode.code : StMode → Nat
  | .closed => 0 | .read => 1 | .append => 2

/-- Word `k` of a stream's state (Table 5.1). -/
def streamWord (t : Stream) (k : Nat) : W64 :=
  match k with
  | 0 => w64 (t.run + t.mode.code * 2 ^ 20 + b2n t.stall * 2 ^ 22 + b2n t.susp * 2 ^ 23 + t.voff * 2 ^ 32
      + t.vwid * 2 ^ 44)
  | 1 => w64 (t.next % 2 ^ 41)
  | _ => w64 (t.stop % 2 ^ 41)

/-- `rinfo gd, stN, k` (R282): k = 3 is ILLEGAL. -/
def execRinfoStream (d : GReg) (n k : BitVec 2) (s : State) : Out :=
  if k = 3 then illegalHere s
  else
    scalar s { writes := [.g d], numbers := streamNumber s.me n } (fun _ s =>
      .ok (s.upd (fun c => c.setG d (streamWord (c.streams.get (Fin.ofNat 4 n.toNat)) k.toNat))))

/-! ### Streams (R283) -/

/-- Binds stream `n` to a run, an open stream first closed as `rclose` closes it (R94). -/
def bindStream (s : State) (n : Fin 4) (k : Nat) (t : Stream) : State :=
  let s := closeStream s s.cur n
  let s := updRun s k (fun r => { r with
    streams := r.streams + 1, ended := if t.mode = .append then false else r.ended })
  s.upd (fun c => { c with streams := c.streams.set n.val t n.isLt })

/-- Whether closing one of some stream units would free a run with frames on a die that has stopped, which is waited for (R418). -/
def closeWaits (s : State) (ns : List (Fin 4)) : Bool :=
  ns.any (fun n =>
    let t := s.me.streams.get n
    t.mode != .closed && (match tabGet s.runs (runKey (fnOf s s.cur) t.run) with
      | some r => r.dpend && runStopped s r
      | none => false))

/-- Whether a stream unit is open: closing it publishes, and commits an open strip (R208). -/
def streamOpen (c : CT) (n : BitVec 2) : Bool := (c.streams.get (Fin.ofNat 4 n.toNat)).mode != .closed

/-- `ropen.r` (R283): first record and view from gb, end from gd or without one. -/
def execRopenR (e a b : GReg) (n : BitVec 2) (s : State) : Out :=
  scalar s { reads := [.g e, .g a, .g b], numbers := streamNumber s.me n, commits := streamOpen s.me n } (fun _ s =>
    let i := Fin.ofNat 4 n.toNat
    let c := s.me
    let w := (c.getG b).toNat
    withRun s (c.getG a) (fun k _ =>
      if streamQueued c i || closeWaits s [i] then .wait s
      else
        .ok (bindStream s i k {
          run := (c.getG a).toNat, mode := .read, stall := false, susp := false
          voff := fld w 40 12, vwid := fld w 52 12, next := fld w 0 40
          stop := if e = 0 then 2 ^ 41 - 1 else (c.getG e).toNat % 2 ^ 41, ranOut := false })))

/-- `ropen.a` (R283): RUN_SEALED for a run that takes no appends. -/
def execRopenA (a : GReg) (n : BitVec 2) (s : State) : Out :=
  scalar s { reads := [.g a], numbers := streamNumber s.me n, commits := streamOpen s.me n } (fun _ s =>
    let i := Fin.ofNat 4 n.toNat
    let c := s.me
    withRun s (c.getG a) (fun k r =>
      if r.state ≠ .open_ then
        .trap .runSealed (runFaultWord (c.getG a).toNat r.length 0 n.toNat) false
      else if streamQueued c i || closeWaits s [i] then .wait s
      else .ok (bindStream s i k { Stream.closed with run := (c.getG a).toNat, mode := .append })))

/-- `rclose` (R283). -/
def execRclose (n : BitVec 2) (s : State) : Out :=
  scalar s { numbers := streamNumber s.me n, commits := true } (fun _ s =>
    let i := Fin.ofNat 4 n.toNat
    if streamQueued s.me i || closeWaits s [i] then .wait s else .ok (closeStream s s.cur i))

end Sys2Proof.Machine
end

