-- ==== Sys2Proof/Machine/Numeric.lean ====
section
/-! DEFINITION. Number formats, tails and rounding (07_number_formats_and_rounding.md). An exact finite value is a sign, a
magnitude and a power of two; a quotient or root that is not one carries a sticky last bit far below every format's
grid, so that narrowing it gives what narrowing the exact value gives. -/

namespace Sys2Proof.Machine

open Sys2Proof

/-! ### Formats (Table 7.2) -/

/-- The floating formats. -/
inductive FFmt where
  | f32 | f16 | bf16 | e5m2 | e4m3 | e3m2 | e2m3 | e2m1
  deriving DecidableEq, Repr

/-- Fraction bits. -/
def FFmt.frac : FFmt → Nat
  | .f32 => 23 | .f16 => 10 | .bf16 => 7 | .e5m2 => 2 | .e4m3 => 3 | .e3m2 => 2 | .e2m3 => 3 | .e2m1 => 1
/-- Exponent bits. -/
def FFmt.exp : FFmt → Nat
  | .f32 => 8 | .f16 => 5 | .bf16 => 8 | .e5m2 => 5 | .e4m3 => 4 | .e3m2 => 3 | .e2m3 => 2 | .e2m1 => 2
/-- Bias. -/
def FFmt.bias : FFmt → Int
  | .f32 => 127 | .f16 => 15 | .bf16 => 127 | .e5m2 => 15 | .e4m3 => 7 | .e3m2 => 3 | .e2m3 => 1 | .e2m1 => 1
/-- Whether the format has infinities: E all ones, F = 0. -/
def FFmt.hasInf : FFmt → Bool
  | .f32 | .f16 | .bf16 | .e5m2 => true
  | _ => false
/-- Whether the format has NaN. -/
def FFmt.hasNan : FFmt → Bool
  | .f32 | .f16 | .bf16 | .e5m2 | .e4m3 => true
  | _ => false
/-- Weight of the sign bit. -/
def FFmt.signBit (f : FFmt) : Nat := 2 ^ (f.exp + f.frac)
/-- Encoding of an infinity's magnitude. -/
def FFmt.infCode (f : FFmt) : Nat := (2 ^ f.exp - 1) * 2 ^ f.frac
/-- Encoding of the largest finite magnitude. -/
def FFmt.maxCode (f : FFmt) : Nat :=
  if f.hasInf then f.infCode - 1 else if f = .e4m3 then 0x7E else f.signBit - 1
/-- The canonical quiet NaN (R129). -/
def FFmt.nanCode (f : FFmt) : Nat :=
  if f.hasInf then f.infCode + 2 ^ (f.frac - 1) else if f = .e4m3 then 0x7F else 0

/-- The format of a floating element type. -/
def fmtOf : VTy → FFmt
  | .f32 => .f32 | .f16 => .f16 | .bf16 => .bf16 | .e5m2 => .e5m2 | _ => .e4m3

/-! ### Exact values -/

/-- A real number as the arithmetic holds it, an infinity or a NaN: `fin neg m e` is (-1)^neg * m * 2^e. -/
inductive Num where
  | nan (signalling : Bool)
  | inf (neg : Bool)
  | fin (neg : Bool) (m : Nat) (e : Int)
  deriving DecidableEq, Repr

/-- A signed zero. -/
def Num.zero (neg : Bool) : Num := .fin neg 0 0
/-- The number of an integer. -/
def Num.ofInt (x : Int) : Num := .fin (decide (x < 0)) x.natAbs 0
/-- Whether a number is a NaN. -/
def Num.isNan : Num → Bool
  | .nan _ => true
  | _ => false
/-- Whether a number is a signalling NaN. -/
def Num.isSnan : Num → Bool
  | .nan q => q
  | _ => false
/-- Whether a number is an infinity. -/
def Num.isInf : Num → Bool
  | .inf _ => true
  | _ => false
/-- Whether a number is a zero of either sign. -/
def Num.isZero : Num → Bool
  | .fin _ m _ => m == 0
  | _ => false
/-- The sign. -/
def Num.neg : Num → Bool
  | .nan _ => false
  | .inf s => s
  | .fin s _ _ => s
/-- The number with its sign set. -/
def Num.withSign (x : Num) (s : Bool) : Num := match x with
  | .nan q => .nan q
  | .inf _ => .inf s
  | .fin _ m e => .fin s m e

/-- The extended value of an encoding and its tail (R128, R134). -/
def decodeNum (f : FFmt) (code tail : Nat) : Num :=
  let neg := code / f.signBit % 2 == 1
  let mag := code % f.signBit
  let ex := mag / 2 ^ f.frac
  let fr := mag % 2 ^ f.frac
  if f.hasInf ∧ f.infCode ≤ mag then
    if fr = 0 then .inf neg else .nan (fr < 2 ^ (f.frac - 1))
  else if f = .e4m3 ∧ mag = 0x7F then .nan false
  else
    let m := if ex = 0 then fr else 2 ^ f.frac + fr
    let e : Int := (if ex = 0 then 1 else (ex : Int)) - f.bias - f.frac
    .fin neg (4 * m + tail) (e - 2)

/-! ### Narrowing (R135) -/

/-- Magnitude `m * 2^e` cut toward zero onto a format's grid, as encoding and tail; beyond the largest finite value it
is (max, 11). -/
def narrowMag (f : FFmt) (m : Nat) (e : Int) : Nat × Nat :=
  if m = 0 then (0, 0)
  else
    let q : Int := max ((Nat.log2 m : Int) + e - f.frac) (1 - f.bias - f.frac)
    let (sig, tail) :=
      if q ≤ e then (m * 2 ^ (e - q).toNat, 0)
      else
        let s := (q - e).toNat
        if Nat.log2 m + 2 < s then (0, 1)
        else
          let r := m % 2 ^ s
          let half := 2 ^ (s - 1)
          (m / 2 ^ s, if r = 0 then 0 else if r < half then 1 else if r = half then 2 else 3)
    let code := if sig < 2 ^ f.frac then sig else ((q + f.frac + f.bias).toNat - 1) * 2 ^ f.frac + sig
    if f.maxCode < code then (f.maxCode, 3) else (code, tail)

/-- A narrowed value: encoding, tail, and the flags narrowing itself raises (nv for a NaN into a format without one,
R129). -/
structure Narrow where
  code : Nat
  tail : Nat
  flags : Flags
  deriving DecidableEq, Repr

/-- `narrow_tail` (R135). -/
def narrowTail (f : FFmt) : Num → Narrow
  | .nan _ => ⟨f.nanCode, 0, flagIf (!f.hasNan) fNv⟩
  | .inf s => if f.hasInf then ⟨b2n s * f.signBit + f.infCode, 0, 0⟩ else ⟨b2n s * f.signBit + f.maxCode, 3, 0⟩
  | .fin s m e => let r := narrowMag f m e; ⟨b2n s * f.signBit + r.1, r.2, 0⟩

/-! ### Final rounding (R139) -/

/-- The rounding modes by their codes (Table 6.7). -/
inductive RMode where
  | rne | rna | rz | ru | rd | keep
  deriving DecidableEq, Repr

/-- The mode of a code; 001 rne to 110 keep. -/
def modeOf (c : BitVec 3) : RMode := match c.toNat with
  | 2 => .rna | 3 => .rz | 4 => .ru | 5 => .rd | 6 => .keep | _ => .rne
/-- The mode of an instruction: its rnd field, or `frm` where that is 000 (R138). -/
def modeWith (rnd frm : BitVec 3) : RMode := modeOf (if rnd = 0 then frm else rnd)

/-- Whether a cut is rounded away from zero (R139). -/
def away (m : RMode) (tail : Nat) (neg odd : Bool) : Bool := match m with
  | .rne => tail == 3 || (tail == 2 && odd)
  | .rna => tail == 2 || tail == 3
  | .rz => false
  | .ru => tail != 0 && !neg
  | .rd => tail != 0 && neg
  | .keep => tail != 0 && !odd

/-- `round_final` (R139): the encoding and the flags it raises. -/
def roundFinal (f : FFmt) (code tail : Nat) (mode : RMode) (sat : Bool) : Nat × Flags :=
  let neg := code / f.signBit % 2 == 1
  let mag := code % f.signBit
  let s := b2n neg * f.signBit
  if f.hasNan ∧ (if f.hasInf then f.infCode < mag else mag = 0x7F) then (code, 0)
  else if f.hasInf ∧ mag = f.infCode then (if sat then s + f.maxCode else code, 0)
  else
    let fl := flagIf (tail ≠ 0) fNx ||| flagIf (tail ≠ 0 ∧ mag < 2 ^ f.frac) fUf
    if !away mode tail neg (mag % 2 == 1) then (code, fl)
    else if mag = f.maxCode then
      let fl := fl ||| fOf
      if sat ∨ !(f.hasInf || f.hasNan) then (s + f.maxCode, fl)
      else if f.hasInf then (s + f.infCode, fl)
      else (f.nanCode, fl)
    else (code + 1, fl)

/-- `round_int` (R228) of `n / 2^s`. -/
def roundInt (n : Int) (s : Nat) (mode : RMode) : Int :=
  let d : Int := 2 ^ s
  let q := n / d
  let r := n - q * d
  let up := match mode with
    | .rne => decide (d < 2 * r) || (decide (2 * r = d) && q % 2 == 1)
    | .rna => decide (d < 2 * r) || (decide (2 * r = d) && decide (0 ≤ q))
    | .rz => decide (0 < r) && decide (q < 0)
    | .ru => decide (0 < r)
    | .rd => false
    | .keep => decide (0 < r) && q % 2 == 0
  if up then q + 1 else q

/-- A finite exact value rounded to an integer, and whether it was one already. -/
def roundNum (neg : Bool) (m : Nat) (e : Int) (mode : RMode) : Int × Bool :=
  let n : Int := if neg then -(m : Int) else m
  if 0 ≤ e then (n * 2 ^ e.toNat, true)
  else if (Nat.log2 m : Int) + 2 < -e then (roundInt (if neg then -(min m 1 : Nat) else (min m 1 : Nat)) 2 mode, m == 0)
  else (roundInt n (-e).toNat mode, n % 2 ^ (-e).toNat == 0)

/-! ### Exact arithmetic (R136) -/

/-- The signed integers of two finite values at their common exponent. -/
def align (s1 : Bool) (m1 : Nat) (e1 : Int) (s2 : Bool) (m2 : Nat) (e2 : Int) : Int × Int × Int :=
  let e := min e1 e2
  let v (s : Bool) (m : Nat) (x : Int) : Int :=
    let w : Int := (m : Int) * 2 ^ (x - e).toNat
    if s then -w else w
  (v s1 m1 e1, v s2 m2 e2, e)

/-- The exact sum of finite values; an exact zero of operands of opposite sign is +0. -/
def addFin (s1 : Bool) (m1 : Nat) (e1 : Int) (s2 : Bool) (m2 : Nat) (e2 : Int) : Num :=
  if m1 = 0 ∧ m2 = 0 then .zero (s1 && s2)
  else if m1 = 0 then .fin s2 m2 e2
  else if m2 = 0 then .fin s1 m1 e1
  else
    let (a, b, e) := align s1 m1 e1 s2 m2 e2
    if a + b = 0 then .zero false else .fin (decide (a + b < 0)) (a + b).natAbs e

/-- A special result with its flags. -/
abbrev NumRes := Num × Flags

/-- The invalid result: NaN with nv. -/
def invalid : NumRes := (.nan false, fNv)

/-- a + b. -/
def numAdd (a b : Num) : NumRes :=
  if a.isSnan || b.isSnan then invalid
  else match a, b with
    | .inf s, .inf t => if s = t then (.inf s, 0) else invalid
    | .nan _, _ => (.nan false, 0)
    | _, .nan _ => (.nan false, 0)
    | .inf s, _ => (.inf s, 0)
    | _, .inf t => (.inf t, 0)
    | .fin s m e, .fin t n k => (addFin s m e t n k, 0)

/-- The number with the other sign. -/
def Num.negate (x : Num) : Num := x.withSign (!x.neg)

/-- a - b. -/
def numSub (a b : Num) : NumRes := numAdd a b.negate

/-- a * b. -/
def numMul (a b : Num) : NumRes :=
  if a.isSnan || b.isSnan || (a.isZero && b.isInf) || (a.isInf && b.isZero) then invalid
  else if a.isNan || b.isNan then (.nan false, 0)
  else match a, b with
    | .fin s m e, .fin t n k => (.fin (s != t) (m * n) (e + k), 0)
    | _, _ => (.inf (a.neg != b.neg), 0)

/-- a * b + c with one narrowing: 0 * inf is invalid whatever c holds. -/
def numFma (a b c : Num) : NumRes :=
  if c.isSnan then invalid
  else match numMul a b with
    | (p, fl) => if fl ≠ 0 then invalid else if p.isNan || c.isNan then (.nan false, 0) else numAdd p c

/-- Bits of quotient and root kept below the leading one: more than any format's grid needs. -/
def guardBits : Nat := 64

/-- a / b of finite nonzero values, with a sticky last bit. -/
def divFin (s : Bool) (m1 : Nat) (e1 : Int) (m2 : Nat) (e2 : Int) : Num :=
  let k := guardBits + Nat.log2 m2 + 1
  let q := m1 * 2 ^ k / m2
  let r := m1 * 2 ^ k % m2
  .fin s (2 * q + (if r = 0 then 0 else 1)) (e1 - e2 - k - 1)

/-- a / b. -/
def numDiv (a b : Num) : NumRes :=
  if a.isSnan || b.isSnan || (a.isZero && b.isZero) || (a.isInf && b.isInf) then invalid
  else if a.isNan || b.isNan then (.nan false, 0)
  else
    let s := a.neg != b.neg
    match a, b with
    | .fin _ m e, .fin _ n k => if n = 0 then (.inf s, fDz) else if m = 0 then (.zero s, 0) else (divFin s m e n k, 0)
    | .inf _, _ => (.inf s, 0)
    | _, _ => (.zero s, 0)

/-- Whole square root by Newton's steps from above; `fuel` bounds their number. -/
def isqrtFrom (n : Nat) : (fuel : Nat) → Nat → Nat
  | 0, x => x
  | fuel + 1, x =>
    let y := (x + n / x) / 2
    if y < x then isqrtFrom n fuel y else x

/-- The whole square root of a number. -/
def isqrt (n : Nat) : Nat := if n = 0 then 0 else isqrtFrom n (2 * Nat.log2 n + 4) (2 ^ (Nat.log2 n / 2 + 1))

/-- The square root of a finite positive value, with a sticky last bit. -/
def sqrtFin (m : Nat) (e : Int) : Num :=
  let (m, e) := if e % 2 = 0 then (m, e) else (2 * m, e - 1)
  let n := m * 2 ^ (2 * guardBits)
  let q := isqrt n
  .fin false (2 * q + (if q * q = n then 0 else 1)) (e / 2 - guardBits - 1)

/-- The square root: a value below -0 is invalid. -/
def numSqrt (a : Num) : NumRes := match a with
  | .nan q => if q then invalid else (.nan false, 0)
  | .inf s => if s then invalid else (.inf false, 0)
  | .fin s m e => if m = 0 then (.zero s, 0) else if s then invalid else (sqrtFin m e, 0)

/-- Order of two numbers that are not NaN: -0 and +0 are equal. -/
def numLt (a b : Num) : Bool := match a, b with
  | .inf s, .inf t => s && !t
  | .inf s, _ => s
  | _, .inf t => !t
  | .fin s m e, .fin t n k => let (x, y, _) := align s m e t n k; decide (x < y)
  | _, _ => false

/-- Equality of two numbers that are not NaN. -/
def numEq (a b : Num) : Bool := !numLt a b && !numLt b a

/-- min (`big` false) or max of two numbers (R136, R234): equal values give the first. -/
def numMinMax (big : Bool) (a b : Num) : NumRes :=
  if a.isSnan || b.isSnan then invalid
  else if a.isNan then (if b.isNan then .nan false else b, 0)
  else if b.isNan then (a, 0)
  else if (if big then numLt a b else numLt b a) then (b, 0) else (a, 0)

/-! ### Integers -/

/-- The range of an integer type: (least, greatest), by signedness and width. -/
def intRange (signed : Bool) (w : Nat) : Int × Int :=
  if signed then (-(2 ^ (w - 1) : Nat), (2 ^ (w - 1) : Nat) - 1) else (0, (2 ^ w : Nat) - 1)

/-- `fit` (R226): the value as a pattern of `w` bits, clamped with the flag sat, or wrapped. -/
def fit (signed : Bool) (w : Nat) (sat : Bool) (x : Int) : Nat × Flags :=
  let (lo, hi) := intRange signed w
  if lo ≤ x ∧ x ≤ hi then (wrapInt w x, 0)
  else if sat then (wrapInt w (if x < lo then lo else hi), fSat)
  else (wrapInt w x, 0)

/-- A pattern of `w` bits read as a signed or unsigned value. -/
def readInt (signed : Bool) (w : Nat) (x : Nat) : Int :=
  if signed && x / 2 ^ (w - 1) % 2 == 1 then (x : Int) - (2 ^ w : Nat) else x

/-- A floating value converted to an integer (R141, R240): beyond the range the nearer end, NaN 0, both with nv; nx when
the value is no integer. -/
def numToInt (signed : Bool) (w : Nat) (mode : RMode) (x : Num) : Nat × Flags :=
  let (lo, hi) := intRange signed w
  match x with
  | .nan _ => (0, fNv)
  | .inf s => (wrapInt w (if s then lo else hi), fNv)
  | .fin s m e =>
    if (64 : Int) < (Nat.log2 m : Int) + e ∧ m ≠ 0 then (wrapInt w (if s then lo else hi), fNv)
    else
      let (n, exact) := roundNum s m e mode
      let fl := flagIf (!exact) fNx
      if n < lo then (wrapInt w lo, fl ||| fNv) else if hi < n then (wrapInt w hi, fl ||| fNv) else (wrapInt w n, fl)

/-! ### f32 at the bank (R89, R311) -/

/-- `fadd.f32` of an atomic: the sum of two f32 patterns rounded by `rne`, no flags. -/
def bankFadd (a b : Nat) : Nat :=
  let r := narrowTail .f32 (numAdd (decodeNum .f32 a 0) (decodeNum .f32 b 0)).1
  (roundFinal .f32 r.code r.tail .rne false).1

end Sys2Proof.Machine
end

