-- ==== Sys2Proof/Machine/Queues.lean ====
section
/-! DEFINITION. Queues as the host and the system control threads see them: posting completions, enabling, the watchdog's
state, and the control blocks that a system control thread reaches as local memory (24_execution_and_scheduling.md R352,
R354, R367, 26_program_watchdog_recovery.md R389-R390, 27_reliability.md R395, 28_host_peers_and_virtual_functions.md
R403-R404, 29_bringup_power_and_security.md R413). -/

namespace Sys2Proof.Machine

open Sys2Proof

/-! ### Completions (R354, R404) -/

/-- log2 of a ring's entries: a value outside 4-15 is read as 4 (R403). -/
def ringLog (x : BitVec 4) : Nat := if x.toNat < 4 then 4 else x.toNat

/-- Whether the ring has room for one more completion (R404). -/
def ringRoom (q : Queue) : Bool :=
  let n := 2 ^ ringLog q.cqsz
  decide ((q.post + 1 + n - q.cqh.toNat % n) % n ≠ n - 1)

/-- Writes one completion to the ring: it takes dseq + 1 (R354). -/
def postOne (q : Queue) (c : Completion) : Queue :=
  let d := q.dseq + 1
  { q with
    dseq := d, lhseq := c.hseq, post := (q.post + 1) % 2 ^ ringLog q.cqsz
    posted := q.posted ++ [{ c with dseq := d }], finished := q.finished ++ [c.hseq] }

/-- Posts held completions, in order, while the ring has room. -/
def postHeld (q : Queue) : List Completion → Queue
  | [] => { q with held := [] }
  | c :: cs => if ringRoom q then postHeld (postOne q c) cs else { q with held := c :: cs }

/-- Posts a completion, behind those that are held (R404). -/
def post (q : Queue) (c : Completion) : Queue := postHeld q (q.held ++ [c])

/-! ### The control block (Table 24.3) -/

/-- The function of a queue: Q = 16 * fn + queue (R352). -/
def queueFn (q : Nat) : Nat := q / 16

/-- Whether a partition exists and belongs to a function. -/
def partOfFn (s : State) (p fn : Nat) : Bool :=
  match s.parts.get (Fin.ofNat 32 p) with
  | some q => decide (q.fn = fn)
  | none => false

/-- A write of word 0 of a queue's block: changing en from 0 to 1 sets acc, dseq, the submission head and the post index
to 0 and the watchdog's count with them (Table 24.3, R367); part names only a partition of the queue's function (R406);
err is cleared by a 1. `m` has the bits that are written. -/
def writeWord0 (s : State) (n v m : Nat) : State :=
  let q := s.queue n
  let en := if fld m 0 1 = 1 then fld v 0 1 = 1 else q.en
  let prio := BitVec.ofNat 2 (fld v 1 2 &&& fld m 1 2 ||| (q.prio.toNat &&& (3 - fld m 1 2)))
  let part := fld v 3 5 &&& fld m 3 5 ||| (q.part.toNat &&& (31 - fld m 3 5))
  let part := if partOfFn s part (queueFn n) then BitVec.ofNat 5 part else q.part
  let err := q.err && !(fld m 8 1 = 1 && fld v 8 1 = 1)
  s.updQueue n (fun q =>
    let q := { q with prio := prio, part := part, err := err }
    if en && !q.en then
      { q with
        en := true, acc := 0, dseq := 0, head := 0, tail := 0, post := 0, wdcnt := 0, expired := false
        posted := [], finished := [] }
    else { q with en := en })

/-- A write of word `k` of a queue's block, by its access codes; a write of phseq posts a completion (R390). -/
def writeQueueWord (s : State) (n k v m : Nat) : State :=
  match k with
  | 0 => writeWord0 s n v m
  | 3 => s.updQueue n (fun q =>
      { q with wdlim := BitVec.ofNat 31 (fld v 0 31 &&& fld m 0 31 ||| (q.wdlim.toNat &&& (2 ^ 31 - 1 - fld m 0 31))) })
  | 5 => s.updQueue n (fun q => { q with
      pst := if fld m 0 3 = 0 then q.pst else BitVec.ofNat 3 (fld v 0 3)
      pcause := if fld m 8 8 = 0 then q.pcause else BitVec.ofNat 8 (fld v 8 8) })
  | 6 => s.updQueue n (fun q => post q ⟨w64 v, 0, q.pst, q.pcause, 0, 0⟩)
  | _ => s

/-! ### The other blocks (Tables 24.7, 27.1, 29.2) -/

/-- Bitmap of the cores that run a partition's tasks. -/
def coreMap (s : State) (p : Fin 32) : Nat :=
  ((List.finRange 32).map (fun k => if (s.cores.get k).part = some p then 2 ^ k.val else 0)).sum

/-- Word `k` of a partition's scheduling block; 0 where no partition has the number. -/
def schedWord (s : State) (p : Fin 32) (k : Nat) : W64 :=
  match s.parts.get p with
  | none => 0
  | some q =>
    match k with
    | 0 => w64 (q.floor.toNat + q.ceil.toNat * 32)
    | 1 => w64 (q.target % 2 ^ 32 + q.prog % 2 ^ 32 * 2 ^ 32)
    | 2 => w64 (coreMap s p + (q.common.map (fun c => 2 ^ c.val)).sum * 2 ^ 32)
    | _ => 0

/-- Bits of an old field and a written one, by a mask. -/
def mixBits (old v m : Nat) : Nat := (v &&& m) ||| (old ^^^ (old &&& m))

/-- A write of word `k` of a scheduling block: floor, ceil and target are RW (R8, Table 24.7). For a number that no partition has
the write is dropped and the words read 0, as the spec is silent on it (DESIGN CHOICE, notes/assumptions/32.md). -/
def writeSched (s : State) (p : Fin 32) (k v m : Nat) : State :=
  s.updPart p (fun q =>
    match k with
    | 0 =>
      { q with
        floor := BitVec.ofNat 5 (mixBits q.floor.toNat (fld v 0 5) (fld m 0 5))
        ceil := BitVec.ofNat 6 (mixBits q.ceil.toNat (fld v 5 6) (fld m 5 6)) }
    | 1 => { q with target := mixBits q.target (fld v 0 32) (fld m 0 32) }
    | _ => q)

/-- The reliability word of a die (Table 27.1). -/
def reliWord (d : Die) : W64 := w64 (b2n d.pol + d.minbin.toNat * 2)

/-- A write of the reliability word of a die (R8, Table 27.1). -/
def writeReli (s : State) (die : Fin 4) (v m : Nat) : State :=
  s.updDie die (fun d =>
    { d with
      pol := if fld m 0 1 = 1 then fld v 0 1 = 1 else d.pol
      minbin := BitVec.ofNat 3 (mixBits d.minbin.toNat (fld v 1 3) (fld m 1 3)) })

/-- Sets the checked mode of a partition; for a number that no partition has the write is dropped, as the spec is silent on it
(DESIGN CHOICE, notes/assumptions/32.md). It is in force at once for control threads at a convoy boundary, and for the
others from their next one (R395). -/
def setChecked (s : State) (p : Fin 32) (chk : Bool) : State :=
  match s.parts.get p with
  | none => s
  | some _ =>
    let s := s.updPart p (fun q => { q with chk := chk })
    (partCts s p).foldl (fun s ct => s.updCt (ctAgent ct) (fun c =>
      if c.vq.any (·.bound) then c else { c with chk := chk })) s

/-- The checked-mode word of a partition; 0 for a number that no partition has (DESIGN CHOICE, notes/assumptions/32.md). -/
def chkWord (s : State) (p : Fin 32) : W64 :=
  match s.parts.get p with
  | some q => w64 (b2n q.chk)
  | none => 0

/-- A write of a die's power and thermal register (R8, Table 29.2): capd and thold clear by 1s. -/
def writePower (s : State) (die : Fin 4) (v m : Nat) : State :=
  s.updDie die (fun d =>
    { d with
      capen := if fld m 0 1 = 1 then fld v 0 1 = 1 else d.capen
      floor := BitVec.ofNat 8 (mixBits d.floor.toNat (fld v 8 8) (fld m 8 8))
      tcap := BitVec.ofNat 8 (mixBits d.tcap.toNat (fld v 24 8) (fld m 24 8))
      ttrip := BitVec.ofNat 8 (mixBits d.ttrip.toNat (fld v 32 8) (fld m 32 8))
      capd := d.capd && !(fld m 41 1 = 1 && fld v 41 1 = 1)
      thold := d.thold && !(fld m 42 1 = 1 && fld v 42 1 = 1) })

/-- Whether the host port gives nothing but the physical function's configuration space and recovery mailbox: its die has not
performed the last step of Table 29.1, or stays in recovery (R16, R411, R415; notes/assumptions/9.md). -/
def hostShut (s : State) : Bool := !(s.dies.get 0).up

/-! ### The map of a system control thread's local addresses -/

/-- A register word of the map. -/
inductive Block where
  | queue (q k : Nat) | sched (p : Fin 32) (k : Nat) | reli | chk (p : Fin 32) | power
  deriving DecidableEq, Repr

/-- The register word at a multiple of 8: queue blocks of 56 bytes in 64-byte slots (R352), scheduling blocks of 24 bytes
in 32-byte slots (R389), the reliability words (R395) and the power word (R413). -/
def blockAt (a : Nat) : Option Block :=
  if 0x40000000 ≤ a ∧ a < 0x40000000 + 64 * 6160 then
    let o := a - 0x40000000
    if o % 64 / 8 < 7 then some (.queue (o / 64) (o % 64 / 8)) else none
  else if 0x40100000 ≤ a ∧ a < 0x40100000 + 32 * 32 then
    let o := a - 0x40100000
    if o % 32 / 8 < 3 then some (.sched (Fin.ofNat 32 (o / 32)) (o % 32 / 8)) else none
  else if a = 0x40200000 then some .reli
  else if 0x40200040 ≤ a ∧ a < 0x40200040 + 8 * 32 then some (.chk (Fin.ofNat 32 ((a - 0x40200040) / 8)))
  else if a = 0x40200200 then some .power
  else none

/-- The word a block reads as, for a system control thread of a die. -/
def blockRead (s : State) (die : Fin 4) : Block → W64
  | .queue q k => queueWord s q k
  | .sched p k => schedWord s p k
  | .reli => reliWord (s.dies.get die)
  | .chk p => chkWord s p
  | .power => powerWord (s.dies.get die)

/-- A write to a block: `m` has the bits that are written. -/
def blockWrite (s : State) (die : Fin 4) (b : Block) (v m : Nat) : State :=
  match b with
  | .queue q k => writeQueueWord s q k v m
  | .sched p k => writeSched s p k v m
  | .reli => writeReli s die v m
  | .chk p => if fld m 0 1 = 1 then setChecked s p (fld v 0 1 = 1) else s
  | .power => writePower s die v m

end Sys2Proof.Machine
end

