-- ==== Sys2Proof/Machine/ScalarMem.lean ====
section
/-! DEFINITION. Scalar loads and stores of local and common memory (11_instructions_scalar_and_control.md R201-R205), and
the order they keep with queued vector instructions (21_memory_model_one_agent_and_one_core.md R327, R329). -/

namespace Sys2Proof.Machine

open Sys2Proof

/-- Bytes of an access size. -/
def mszBytes (z : MSize) : Nat := match z with
  | .b => 1 | .h => 2 | .w => 4 | .d => 8

/-- The effective address (R201). -/
def memAddr (c : CT) (a : GReg) (n : Nat) (i : BitVec 11) : W64 := c.getG a + sext64 i * w64 n

/-- The first byte of an access that lies at or beyond a size; none when all lie below it. -/
def beyond (a n size : Nat) : Option Nat := if a + n ≤ size then none else some (max a size)

/-- The low bytes of a register. -/
def lowBytes (w : W64) (n : Nat) : List Byte := leBytes n w.toNat

/-- What a store comes to. -/
def Commit.res : Commit → Res
  | .done s => .ok s
  | .stall s => .wait s
  | .fault s => .wait s

/-- A system control thread's access to a control block: an aligned piece of one word (notes/assumptions/12.md). -/
def blockPiece (a : Nat) : Option (Block × Nat) := (blockAt (a / 8 * 8)).map (fun b => (b, a % 8))

/-- `lds` (R202); poisoned bytes are consumed (R393). -/
def execLds (d a : GReg) (sz : MSize) (sx : Bool) (i : BitVec 11) (s : State) : Out :=
  scalar s { reads := [.g a], writes := [.g d] } (fun _ s =>
    let c := s.me
    let n := mszBytes sz
    let w := memAddr c a n i
    if w.toNat % n ≠ 0 then .trap .misalign w false
    else
      match if isUser s.cur then none else blockPiece w.toNat with
      | some (b, o) =>
        let bs := ((leBytes 8 (blockRead s (dieOf s.cur) b).toNat).drop o).take n
        .ok (s.upd (fun c => c.setG d (extend bs sx)))
      | none =>
        match beyond w.toNat n c.kernel.loc with
        | some x => .trap .localBounds (w64 x) false
        | none =>
          if queueHolds c false false w.toNat (w.toNat + n) then .wait s
          else if c.locPoisoned w.toNat n then .poison (sramLoc c.pc 0 w.toNat) (.word (.loc s.cur) w.toNat n)
          else .ok ((correctOnRead s s.cur).upd (fun c => c.setG d (extend (c.locRead w.toNat n) sx))))

/-- `sts` (R202). -/
def execSts (d a : GReg) (sz : MSize) (i : BitVec 11) (s : State) : Out :=
  scalar s { reads := [.g a, .g d] } (fun _ s =>
    let c := s.me
    let n := mszBytes sz
    let w := memAddr c a n i
    if w.toNat % n ≠ 0 then .trap .misalign w false
    else
      match if isUser s.cur then none else blockPiece w.toNat with
      | some (b, o) =>
        let v := leNat (lowBytes (c.getG d) n) * 2 ^ (8 * o)
        .ok (blockWrite s (dieOf s.cur) b v ((2 ^ (8 * n) - 1) * 2 ^ (8 * o)))
      | none =>
        match beyond w.toNat n c.kernel.loc with
        | some x => .trap .localBounds (w64 x) false
        | none =>
          if queueHolds c false true w.toNat (w.toNat + n) then .wait s
          else (storeLocal s s.cur w.toNat (lowBytes (c.getG d) n)).res)

/-- Whether the scalar access of common memory that a control thread is about to make is put off (R329; notes/assumptions/5.md): at
lift depth 0, one at a time. -/
def CT.delays (c : CT) : Bool := c.delay && c.slow.isNone && c.lift.levels.isEmpty

/-- A control thread that puts an access off: its register is written when the access is performed. -/
def CT.putsOff (c : CT) (d : GReg) (a n : Nat) (k : SlowKind) : CT :=
  { c with delay := false, slow := some ⟨c.pc, d, a, n, k⟩ }

/-- `ldc` (R203); poisoned bytes are consumed (R393). No later load of its bytes has read them before it. Where the load is put off,
accesses that need not follow it may be performed before it (Table 21.5). -/
def execLdc (d a : GReg) (sz : MSize) (sx : Bool) (i : BitVec 11) (s : State) : Out :=
  scalar s { reads := [.g a], writes := [.g d] } (fun _ s =>
    let c := s.me
    let n := mszBytes sz
    let w := memAddr c a n i
    if w.toNat % n ≠ 0 then .trap .misalign w false
    else
      match beyond w.toNat n c.kernel.com with
      | some x => .trap .commonBounds (w64 x) false
      | none =>
        if queueHolds c true false w.toNat (w.toNat + n) || comStalled s s.cur w.toNat n then .wait s
        else
          match comPoisoned s s.cur w.toNat n with
          | some (b, p) => .poison (sramLoc c.pc 0 b) (.word p b 1)
          | none => if c.delays then .ok (s.upd (fun c => c.putsOff d w.toNat n (.load sx))) else .ok ((correctOnRead s s.cur).upd (fun c =>
              (c.dropEarly w.toNat n).setG d (extend (comRead s s.cur w.toNat n) sx))))

/-- `stc` (R204). -/
def execStc (d a : GReg) (sz : MSize) (i : BitVec 11) (s : State) : Out :=
  scalar s { reads := [.g a, .g d] } (fun _ s =>
    let c := s.me
    let n := mszBytes sz
    let w := memAddr c a n i
    if w.toNat % n ≠ 0 then .trap .misalign w false
    else
      match beyond w.toNat n c.kernel.com with
      | some x => .trap .commonBounds (w64 x) false
      | none =>
        if queueHolds c true true w.toNat (w.toNat + n) then .wait s
        else (storeCommon s s.cur w.toNat (lowBytes (c.getG d) n)).res)

end Sys2Proof.Machine
end

