-- ==== Sys2Proof/Machine/Sync.lean ====
section
/-! DEFINITION. Ordering instructions and atomics (20_instructions_sync_and_system.md R304-R312, 05 R95). -/

namespace Sys2Proof.Machine

open Sys2Proof

/-- The first parcel of a scalar instruction, which PRIVILEGE reports. -/
def parcelOf (i : Instr) : Nat := (encodeScalar i).getD 0

/-! ### Acquire (R306) -/

/-- An acquire of trails as what an instruction comes to. -/
def acquireRes (s : State) (ts : List CtId) : Res := match acquireTrails s s.cur ts with
  | .ok s => .ok s
  | .error s => .wait s

/-- Every trail of the agent's partition. -/
def ownTrails (s : State) : List CtId := match partNo s s.cur with
  | some k => partCts s k
  | none => []

/-- The members of a group of the agent's launch (R91). -/
def groupMembers (s : State) (ag : Agent) (n : Nat) : List CtId :=
  match (s.ct ag).launch with
  | some id =>
    match tabGet s.launches id with
    | some l => (List.finRange 128).filter (fun ct => (l.groups[n]?.getD 0).getLsbD ct.val)
    | none => []
  | none => []

/-- `rel` (R305); where its publication is left for later, later accesses and acquires may come before it (R306). -/
def execRel (s : State) : Out :=
  scalar s { commits := true, drains := true, rule := .once } (fun _ s => .ok (releaseLater s s.cur))

/-- `acq ga` (R306): a control thread outside the partition raises GROUP. -/
def execAcq (a : GReg) (s : State) : Out :=
  scalar s { reads := [.g a] } (fun _ s =>
    let t : CtId := Fin.ofNat 128 (s.me.getG a).toNat
    if (ownTrails s).contains t then acquireRes s [t] else .trap .group (w64 t.val) false)

/-- `acq g0`: every trail of the partition (R306). -/
def execAcqPartition (s : State) : Out := scalar s {} (fun _ s => acquireRes s (ownTrails s))

/-- `acq.g ga` (R306). -/
def execAcqG (a : GReg) (s : State) : Out :=
  scalar s { reads := [.g a] } (fun _ s =>
    let n := (s.me.getG a).toNat % 256
    if s.me.kernel.ngrp ≤ n then .trap .resource (w64 n) false
    else
      let ms := groupMembers s s.cur n
      if ms = [] then .trap .group (w64 n) false else acquireRes s ms)

/-! ### Fences (R308, R309) -/

/-- Marks the last instruction of a queue: later vector accesses come after it (R308). -/
def fenceLast : List Convoy → List Convoy
  | [] => []
  | [v] => [{ v with entries := match v.entries.reverse with
      | e :: es => ({ e with fenced := true } :: es).reverse
      | [] => [] }]
  | v :: vs => v :: fenceLast vs

/-- A control thread after a `fence.vv`: what is read ahead stands for the queued instructions only. -/
def CT.fencedVv (c : CT) : CT := if c.vq = [] then c.noEarly else { c with vq := fenceLast c.vq }

/-- `fence.sv` (R308): every earlier scalar access has been performed when the instruction executes; no later vector load has
been performed before it. -/
def execFenceSv (s : State) : Out := scalar s { rule := .once } (fun _ s => .ok (s.upd CT.noEarly))
/-- `fence.vs` (R308): waits for every earlier vector instruction. -/
def execFenceVs (s : State) : Out := scalar s { drains := true, rule := .once } (fun _ s => .ok s)
/-- `fence.vv` (R308): the vector queue performs accesses in its order but for loads read ahead, which do not pass the fence
(notes/assumptions/13.md). -/
def execFenceVv (s : State) : Out := scalar s { rule := .once } (fun _ s => .ok (s.upd CT.fencedVv))

/-- Whether an engine command in flight reads or writes a byte of an interval. -/
def cmdMeets (c : CT) (common : Bool) (lo hi : Nat) : Bool :=
  c.cmds.any (fun k => meets common lo hi k.reads || meets common lo hi k.writes)

/-- `fence.r` (R309): a length of 0 waits for nothing. -/
def execFenceR (common : Bool) (a b : GReg) (s : State) : Out :=
  scalar s { reads := [.g a, .g b], rule := .once } (fun _ s =>
    let c := s.me
    let lo := (c.getG a).toNat
    if cmdMeets c common lo (lo + (c.getG b).toNat) then .wait s else .ok (s.upd CT.noEarly))

/-- The queue once an `sbar` has put later operations on the units of its mask behind the queued ones on any of them. -/
def CT.barred (c : CT) (mask : BitVec 4) : CT :=
  { c with vq := c.vq.map (fun v => { v with entries := v.entries.map (fun e => match streamNo e.instr with
      | some n => if mask.getLsbD n then { e with bar := e.bar ||| mask } else e
      | none => e) }) }

/-- `sbar` (R95): a mask bit at or beyond the declared stream count raises RESOURCE. Queued stream operations are performed
and reserved in queue order, those of different units too, which is one of the orders R95 allows (notes/assumptions/13.md);
`ropen` and `rclose`, which the scalar pipe executes, wait by the mark. -/
def execSbar (mask : BitVec 4) (s : State) : Out :=
  scalar s { numbers := ((List.range 4).filter (fun k => mask.getLsbD k)).map (fun k => (k, s.me.kernel.nst))
             rule := .once } (fun _ s => .ok (s.upd (fun c => c.barred mask)))

/-! ### Atomics (R89, R90, R311, R312) -/

/-- The value an atomic operation leaves in `n` bytes. -/
def amoNew (op : AmoOp) (n old x : Nat) : Nat :=
  let w := 8 * n
  let x := x % 2 ^ w
  match op with
  | .add => (old + x) % 2 ^ w
  | .and => old &&& x
  | .or => old ||| x
  | .xor => old ^^^ x
  | .min => if readInt true w old ≤ readInt true w x then old else x
  | .max => if readInt true w old ≤ readInt true w x then x else old
  | .minn => min old x
  | .maxn => max old x
  | .swap => x
  | .fadd => bankFadd old x

/-- The value that an atomic leaves in `n` bytes that held `old`. -/
def SlowKind.leaves (k : SlowKind) (n old : Nat) : Nat := match k with
  | .load _ => old
  | .amo op x => amoNew op n old x
  | .cas e x => if old = e % 2 ^ (8 * n) then x % 2 ^ (8 * n) else old

/-- The end of the smallest publishable prefix that holds entry `j`: past the strip group that holds it (R81). -/
def prefixEnd (t : Trail) (j : Nat) : Nat := unitEnd t j + 1

/-- Whether home bytes of an agent's partition are out of its reach, on a die that has stopped (R418). -/
def outOfReach (s : State) (ag : Agent) (a n : Nat) : Bool := match partNo s ag with
  | some pn => homeStalled s pn a n
  | none => false

/-- What an atomic on bytes must wait for (R90): none, or the state in which it waits, its own covering entries
published. -/
def atomicWait (s : State) (ag : Agent) (a n : Nat) : Option State :=
  let c := s.ct ag
  let t := c.trail
  let own := (List.range t.entries.length).filter (fun j => decide (t.done ≤ j) &&
    (match t.entries[j]? with
     | some e => e.kind == EntryKind.data && decide (e.addr < a + n) && decide (a < e.addr + e.bytes.length)
     | none => false))
  match own.getLast? with
  | some j => some (s.updCt ag (fun c => { c with trail := { c.trail with pub := max c.trail.pub (prefixEnd t j) } }))
  | none => if (List.range n).any (fun k => (tabGet c.view (a + k)).isSome) || outOfReach s ag a n then some s else none

/-- Whether a queued vector instruction must come before an atomic: a `vamo` (R312), or one that touches its bytes
(R327). -/
def queueAtomic (c : CT) (lo hi : Nat) : Bool :=
  c.frozen.isNone && c.vq.any (fun v => v.entries.any (fun e => meets true lo hi e.writes || meets true lo hi e.reads ||
    (match e.instr with | .vamo _ => true | _ => false)))

/-- The body of `amo` and `cas`: the checks of R311, `.rel`, the wait of R90, and the operation at the bank, which consumes a
poisoned word (R393). What was read ahead of its bytes no longer stands, and with `.acq` nothing of it does (R312, R327). One
without `.acq` may be put off, as `kind` says of its operands, behind accesses that need not follow it (Table 21.5). -/
def atomicBody (f8 dbl rel acq : Bool) (a d : GReg) (kind : CT → SlowKind) (s : State) : Res :=
  let c := s.me
  let w := c.getG a
  let n := if dbl then 8 else 4
  if f8 then .trap .misalign w false
  else if w.toNat % n ≠ 0 then .trap .misalign w false
  else
    match beyond w.toNat n c.kernel.com, partNo s s.cur with
    | some x, _ => .trap .commonBounds (w64 x) false
    | none, none => .trap .commonBounds w false
    | none, some pn =>
      if queueAtomic c w.toNat (w.toNat + n) then .wait s
      else
        let s := if rel then release s s.cur else s
        match atomicWait s s.cur w.toNat n with
        | some s => .wait s
        | none =>
          if homePoisoned s pn w.toNat n then .poison (sramLoc c.pc 0 w.toNat) (.word (.home pn) w.toNat n)
          else if c.delays && !acq then .ok (s.upd (fun c => c.putsOff d w.toNat n (kind c)))
          else
          let old := leNat (homeRead s s.cur w.toNat n)
          let s := homeWrite (correctOnRead s s.cur) pn w.toNat (leBytes n ((kind c).leaves n old)) []
          .ok (s.upd (fun c => (if acq then c.noEarly else c.dropEarly w.toNat n).setG d (w64 old)))

/-- `amo` (R311). -/
def execAmo (op : AmoOp) (dbl rel acq : Bool) (d a b : GReg) (s : State) : Out :=
  scalar s { reads := [.g a, .g b], writes := [.g d], commits := true, drains := rel }
    (fun _ s => atomicBody (op == .fadd && dbl) dbl rel acq a d (fun c => .amo op (c.getG b).toNat) s)

/-- `cas` (R311): gd holds the expected value, then the old one. -/
def execCas (dbl rel acq : Bool) (d a b : GReg) (s : State) : Out :=
  scalar s { reads := [.g a, .g b, .g d], writes := [.g d], commits := true, drains := rel }
    (fun _ s => atomicBody false dbl rel acq a d (fun c => .cas (c.getG d).toNat (c.getG b).toNat) s)

/-! ### A scalar access that has been put off (R329) -/

/-- Performs an atomic that a control thread has put off; while it has to wait (R90) the thread waits. A poisoned word is
consumed. -/
def performAtomic (s : State) (ag : Agent) (q : Slow) (pn : Fin 32) : State :=
  match atomicWait s ag q.addr q.size with
  | some s => waitHere s ag
  | none =>
    if homePoisoned s pn q.addr q.size then
      consume (s.updCt ag (fun c => { c with slow := none })) ag (sramLoc q.pc 0 q.addr) (some (.word (.home pn) q.addr q.size))
    else
      let old := leNat (homeRead s ag q.addr q.size)
      (homeWrite (correctOnRead s ag) pn q.addr (leBytes q.size (q.kind.leaves q.size old)) []).updCt ag (fun c =>
        ({ c with slow := none }.dropEarly q.addr q.size).setG q.dest (w64 old))

/-- Performs the access that a control thread has put off, if there is one: what comes next has to follow it. A load stalls on a die
that has stopped (R418) and consumes poison (R393). -/
def settleSlow (s : State) (ag : Agent) : State :=
  match (s.ct ag).slow, partNo s ag with
  | none, _ => s
  | some _, none => s.updCt ag (fun c => { c with slow := none })
  | some q, some pn =>
    match q.kind with
    | .load _ =>
      if comStalled s ag q.addr q.size then waitHere s ag
      else
        match comPoisoned s ag q.addr q.size with
        | some (b, p) => consume (s.updCt ag (fun c => { c with slow := none })) ag (sramLoc q.pc 0 b) (some (.word p b 1))
        | none => performLoad (correctOnRead s ag) ag
    | _ => performAtomic s ag q pn

/-! ### `wfe` (R310) -/

/-- Whether a user event is pending (R106). -/
def eventPending (c : CT) : Bool :=
  (List.finRange 8).any (fun t => (c.tls.get t).arm && decide ((c.tls.get t).armv ≤ (c.tls.get t).done))

/-- Whether a record is that of the `wfe` at the program counter. -/
def Wfe.here (c : CT) (w : Wfe) : Bool := w.level = c.level && w.pc = c.pc

/-- The record of the `wfe` at the program counter, if it has begun to wait. -/
def CT.wfeHere (c : CT) : Option Wfe := c.wfe.find? (Wfe.here c)

/-- The `wfe` record of the present instruction; a fresh one when it begins. -/
def wfeNow (c : CT) (addr : Option Nat) (differs : Bool) : Wfe :=
  c.wfeHere.getD ⟨c.level, c.pc, addr, false, differs, false⟩

/-- The records of the `wfe`s that wait in the code which the present code has interrupted. -/
def CT.outerWaits (c : CT) : List Wfe := c.wfe.filter (fun w => decide (w.level < c.level))

/-- What a `wfe` comes to: it returns with the bits of Table 20.2, or waits. -/
def wfeBody (d : GReg) (s : State) (w : Wfe) : Res :=
  let bits := b2n (eventPending s.me) + b2n w.tln * 2 + b2n w.wat * 4 + b2n (w.oth || s.me.preempt) * 8
  if bits = 0 then .wait (s.upd (fun c => { c with wfe := w :: c.outerWaits }))
  else .ok (s.upd (fun c => { c.setG d (w64 bits) with wfe := c.outerWaits }))

/-- `wfe gd` (R310). -/
def execWfe (d : GReg) (s : State) : Out :=
  scalar s { writes := [.g d], rule := .once } (fun _ s => wfeBody d s (wfeNow s.me none false))

/-- The watched word as `wfe` reads it in place (R310): at home, but for bytes that the issuer's own open strip has still to
commit (R327; notes/assumptions/13.md). -/
def watchedWord (s : State) (a : Nat) : Nat :=
  leNat ((List.range 8).map (fun k =>
    ((s.me.strip.bind (fun st => stripCom st.writes (a + k)))).getD (homeByte s s.cur (a + k))))

/-- `wfe gd, c[ga], gb` (R310): the watched word is read when the instruction begins, as an atomic would, so after queued
vector accesses to it (R327) and the wait of R90. -/
def execWfeWatch (d a b : GReg) (s : State) : Out :=
  scalar s { reads := [.g a, .g b], writes := [.g d], rule := .once } (fun _ s =>
    let c := s.me
    let w := c.getG a
    if w.toNat % 8 ≠ 0 then .trap .misalign w false
    else
      match beyond w.toNat 8 c.kernel.com with
      | some x => .trap .commonBounds (w64 x) false
      | none =>
        let begun : Bool := c.wfeHere.isSome
        if !begun && queueAtomic c w.toNat (w.toNat + 8) then .wait s
        else
        match if begun then none else atomicWait s s.cur w.toNat 8 with
        | some s => .wait s
        | none =>
          let differs := decide (watchedWord s w.toNat ≠ (c.getG b).toNat)
          wfeBody d s (wfeNow c (some w.toNat) differs))

end Sys2Proof.Machine
end

