-- ==== Sys2Proof/Machine/Timelines.lean ====
section
/-! DEFINITION. Timelines, notifications and barriers (05_streams_copy_and_timelines.md R102-R106,
04_on_package_sram.md R91-R92, 17_instructions_runs_sort_and_engines.md R280, R293-R295, 22 R343). -/

namespace Sys2Proof.Machine

open Sys2Proof

/-! ### Timelines (R102) -/

/-- Advances a completed prefix over the numbers completed above it. -/
def advanceDone : (fuel : Nat) → (done : Nat) → List Nat → Nat × List Nat
  | 0, d, xs => (d, xs)
  | fuel + 1, d, xs => if xs.contains (d + 1) then advanceDone fuel (d + 1) (xs.erase (d + 1)) else (d, xs)

/-- A timeline after a number on it has completed. -/
def Timeline.finish (t : Timeline) (num : Nat) : Timeline :=
  let r := advanceDone (t.fin.length + 1) t.done (num :: t.fin)
  { t with done := r.1, fin := r.2 }

/-- A control thread after a number has completed on a timeline of its own that is changed besides; a waiting `wfe` notes
that done advanced (Table 20.2). -/
def CT.finishOn (c : CT) (tl : Fin 8) (num : Nat) (f : Timeline → Timeline) : CT :=
  let t := c.tls.get tl
  let u := (f t).finish num
  { c with
    tls := c.tls.set tl.val u tl.isLt
    wfe := if t.done < u.done then c.wfe.map (fun w => { w with tln := true }) else c.wfe }

/-- Marks a timeline with an error: cause and number of the lowest-numbered failed command are kept (Table 17.2). -/
def Timeline.fail (t : Timeline) (num : Nat) (cause : BitVec 8) : Timeline :=
  if t.err && decide (t.cnum ≤ num) then t else { t with err := true, cause := cause, cnum := num }

/-- A timeline number with its declared count (R102). -/
def timelineNumber (c : CT) (tl : Fin 8) : List (Nat × Nat) := [(tl.val, c.kernel.ntl)]

/-- The markers of the notifications that a wait for `n` observes (R343). -/
def noteMarks (t : Timeline) (n : Nat) : List Entry :=
  (t.notes.filter (fun m => decide (m.num ≤ n))).map (fun m => markEntry m.from_ m.tail m.gen)

/-- `tlwait` (R103, R293): TIMELINE_RANGE beyond done + 2^32; then it acquires the local senders of its prefix. An open strip
keeps the notifications it has observed, which a rewind puts back (R343). -/
def execTlwait (a : GReg) (tl : Fin 8) (s : State) : Out :=
  scalar s { reads := [.g a], numbers := timelineNumber s.me tl } (fun _ s =>
    let t := s.me.tls.get tl
    let n := (s.me.getG a).toNat
    if t.done + 2 ^ 32 < n then .trap .timelineRange (w64 n) false
    else if t.done < n then .wait s
    else
      match acquireMarks s s.cur (noteMarks t n) with
      | .error s => .wait s
      | .ok s => .ok (s.upd (fun c => { c with
          tls := c.tls.set tl.val { c.tls.get tl with notes := t.notes.filter (fun m => decide (n < m.num)) } tl.isLt
          strip := c.strip.map (fun st => { st with
            notes := (t.notes.filter (fun m => decide (m.num ≤ n))).map (fun m => (tl, m)) ++ st.notes }) })))

/-- `tlwait.ev` (R106, R293): arms the event and does not wait. -/
def execTlwaitEv (a : GReg) (tl : Fin 8) (s : State) : Out :=
  scalar s { reads := [.g a], numbers := timelineNumber s.me tl } (fun _ s =>
    .ok (s.upd (fun c => { c with
      tls := c.tls.set tl.val { c.tls.get tl with arm := true, armv := (c.getG a).toNat } tl.isLt })))

/-- A status word of an engine context (Table 17.2). -/
def statusWord (t : Timeline) (w : Nat) : W64 :=
  match w with
  | 0 => w64 t.done
  | 1 => t.cons
  | 2 => t.emit
  | 3 => t.miss
  | 4 => t.brk
  | _ => w64 (t.flg.toNat + b2n t.err * 2 ^ 8 + t.cause.toNat * 2 ^ 16 + t.cnum % 2 ^ 40 * 2 ^ 24)

/-- A timeline with words 1-5 and err cleared (R280). -/
def Timeline.clear (t : Timeline) : Timeline :=
  { t with cons := 0, emit := 0, miss := 0, brk := 0, flg := 0, cause := 0, cnum := 0, err := false }

/-- `tlget` (R280): word codes 6 and 7 are ILLEGAL. -/
def execTlget (d : GReg) (clr : Bool) (word : BitVec 3) (tl : Fin 8) (s : State) : Out :=
  if 6 ≤ word.toNat then illegalHere s
  else
    scalar s { writes := [.g d], numbers := timelineNumber s.me tl } (fun _ s =>
      let t := s.me.tls.get tl
      let s := if clr then s.upd (fun c => { c with tls := c.tls.set tl.val t.clear tl.isLt }) else s
      .ok (s.upd (fun c => c.setG d (statusWord t word.toNat))))

/-! ### Issuing a command (R102, R278) -/

/-- Whether a queued vector instruction has still to make an access that a command must come after (R101, R327); a handler does not
wait for a frozen queue, whose stores the command does not see (R377; notes/assumptions/13.md). -/
def queueFeeds (c : CT) (reads writes : List Interval) : Bool :=
  c.frozen.isNone && c.vq.any (fun v => v.entries.any (fun e =>
    (reads ++ writes).any (fun x => meets x.common x.lo x.hi e.writes) ||
      writes.any (fun x => meets x.common x.lo x.hi e.reads)))

/-- The runs that a command appends to. -/
def cmdAppends : CmdKind → List Nat
  | .sort o _ _ _ => [o]
  | .merge o _ _ _ => [o]
  | .join o _ _ _ _ => [o]
  | .copy b _ => if b.dsp = 2 then [b.dhdl] else []
  | .enqw h _ _ => [h]
  | .coll b => [b.out]
  | _ => []

/-- Whether a command must wait for earlier vector loads, its appends to the trail coming after them, or for acquire markers
that they hold back (R79, R334). -/
def appendsWait (c : CT) (kind : CmdKind) : Bool :=
  c.marks != [] || (c.loadsQueued && (match kind with
    | .copy b _ => b.dsp == 1
    | _ => false))

/-- Issues a command once every check has passed: TIMELINE_RANGE when issued can count no further, a wait while 64
commands are in flight (R102) or an earlier access of the queue has to come first; then the command takes the next
number, its inputs count the engine (R68), and its outputs are appended to again (R279). -/
def issueCmd (s : State) (tl : Fin 8) (kind : CmdKind) (reads writes : List Interval) : Res :=
  let c := s.me
  let t := c.tls.get tl
  if 2 ^ 64 - 1 ≤ t.issued then .trap .timelineRange (Config.freeWord s.fresh) false
  else if Config.cmdMax ≤ c.cmds.length ∨ queueFeeds c reads writes ∨ appendsWait c kind then .wait s
  else
    let fn := fnOf s s.cur
    let s := (cmdInputs kind).foldl (fun s h => updRun s (runKey fn h) (fun r => { r with streams := r.streams + 1 })) s
    let s := (cmdAppends kind).foldl (fun s h => updRun s (runKey fn h) (fun r => { r with ended := false })) s
    .ok (s.upd (fun c => { c with
      tls := c.tls.set tl.val { t with issued := t.issued + 1 } tl.isLt
      cmds := c.cmds ++ [⟨tl, t.issued + 1, kind, reads, writes, none, Progress.start (s.dies.get (dieOf s.cur)).formB, c.pc, none⟩] }))

/-! ### Notifications (R104, R294) -/

/-- Whether a target accepts a notification on a timeline: it runs a task that declares the timeline. -/
def acceptsNote (s : State) (target : CtId) (tl : Fin 8) : Bool :=
  let c := s.ct (ctAgent target)
  c.task.isSome && decide (tl.val < c.kernel.ntl)

/-- A notification accepted: issued and complete at the same instant; a local one names its sender's trail. -/
def acceptNote (s : State) (target : CtId) (tl : Fin 8) (from_ : Option (Nat × Nat × BitVec 16)) : State :=
  s.updCt (ctAgent target) (fun c =>
    let n := (c.tls.get tl).issued + 1
    c.finishOn tl n (fun t => { t with
      issued := n
      notes := match from_ with
        | some (f, tail, gen) => t.notes ++ [⟨n, f, tail, gen⟩]
        | none => t.notes }))

/-- `tlnotify` (R104, R294): other bits of ga are ILLEGAL, a local target outside the partition GROUP; an implied release,
then a command on the sender's timeline that completes at the target. -/
def execTlnotify (a : GReg) (stl tl : Fin 8) (s : State) : Out :=
  scalar s { reads := [.g a], numbers := timelineNumber s.me stl, commits := true, drains := true } (fun _ s =>
    let w := (s.me.getG a).toNat
    let target : CtId := Fin.ofNat 128 w
    let remote := fld w 23 1 = 1
    if 2 ^ 24 ≤ w ∨ fld w 7 1 = 1 ∨ (!remote ∧ fld w 8 15 ≠ 0) then .trap .illegal s.me.pc false
    else if !remote && !(ownTrails s).contains target then .trap .group (w64 target.val) false
    else
      let s := release s s.cur
      let t := s.me.trail
      issueCmd s stl (.notify target.val tl.val (if remote then some (fld w 8 15) else none) t.pub t.gen) [] [])

/-! ### Barriers (R92, R295) -/

/-- Largest pending count. -/
def pendingMax : Nat := 2 ^ 36 - 1

/-- Completes a phase where arrived equals expect and pending is 0 (R92); a barrier never initialised has no phase. -/
def Barrier.settle (b : Barrier) : Barrier :=
  if b.expect ≠ 0 ∧ b.arrived = b.expect ∧ b.pending = 0 then { b with arrived := 0, phase := b.phase + 1 } else b

/-- What a completion without error subtracts from pending (R92). -/
def Barrier.subtract (b : Barrier) (n : Nat) : Barrier :=
  (if b.pending < n then { b with pending := 0, err := true } else { b with pending := b.pending - n }).settle

/-- Changes a barrier of an agent's launch. -/
def updBar (s : State) (ag : Agent) (n : Fin 16) (f : Barrier → Barrier) : State :=
  match (s.ct ag).launch with
  | some id => s.updLaunch id (fun l => { l with bars := l.bars.set n.val (f (l.bars.get n)) n.isLt })
  | none => s

/-- Settles the fate of every `barwait` of a launch that waits on a barrier for a phase of a kind, pre-empted ones included. -/
def settleWaits (s : State) (id : Nat) (n : Fin 16) (fate : BarFate) (which : BitVec 16 → Bool) : State :=
  let go (c : CT) : CT := if c.launch = some id then
      { c with barw := c.barw.map (fun w =>
          if w.bar = n ∧ w.fate = .waiting ∧ which w.phase then { w with fate := fate } else w) }
    else c
  { s with cts := Vector.ofFn (fun k : Fin 144 => go (s.cts.get k)), images := s.images.map (fun e => (e.1, { e.2 with ctx := go e.2.ctx })) }

/-- Changes a barrier by an arrival or a completion: at that instant an error fails every waiter, and else the completion of
the phase releases every one (R92). -/
def stepBar (s : State) (ag : Agent) (n : Fin 16) (f : Barrier → Barrier) : State :=
  match (s.ct ag).launch with
  | none => s
  | some id =>
    match tabGet s.launches id with
    | none => s
    | some l =>
      let old := l.bars.get n
      let new := f old
      let s := updBar s ag n (fun _ => new)
      if new.err && !old.err then settleWaits s id n .failed (fun _ => true)
      else if new.phase ≠ old.phase then settleWaits s id n .released (fun _ => true)
      else s

/-- Initialises a barrier of an agent's launch: its phase is 0 again, which releases every waiter for another one (R295). -/
def initBar (s : State) (ag : Agent) (n : Fin 16) (e g : Nat) : State :=
  let s := updBar s ag n (fun _ => ⟨e, 0, g, 0, 0, false⟩)
  match (s.ct ag).launch with
  | some id => settleWaits s id n .released (fun ph => ph ≠ 0)
  | none => s

/-- A barrier of the current agent's launch; as it stands before `barinit` where there is no launch. -/
def barOf (s : State) (n : Fin 16) : Barrier :=
  match s.me.launch.bind (tabGet s.launches) with
  | some l => l.bars.get n
  | none => Barrier.zero

/-- Whether the current agent lies in a group of its launch. -/
def inGroup (s : State) (g : Nat) : Bool := (groupMembers s s.cur g).any (fun ct => ct.val = s.cur.val)

/-- A barrier number with its declared count. -/
def barNumber (c : CT) (n : Fin 16) : List (Nat × Nat) := [(n.val, c.kernel.nbar)]

/-- `barinit` (R295): a group number beyond the declaration is RESOURCE; then BARRIER, then GROUP. -/
def execBarinit (a b : GReg) (n : Fin 16) (s : State) : Out :=
  scalar s { reads := [.g a, .g b], numbers := barNumber s.me n } (fun _ s =>
    let c := s.me
    let e := (c.getG a).toNat
    let g := (c.getG b).toNat
    if c.kernel.ngrp ≤ g then .trap .resource (w64 g) false
    else if e < 1 ∨ 128 < e ∨ (barOf s n).arrived ≠ 0 then .trap .barrier (w64 n.val) false
    else if !inGroup s g then .trap .group (w64 g) false
    else .ok (initBar s s.cur n e g))

/-- `bararr` (R295): GROUP before the implied release, BARRIER after it; the release stays in effect. -/
def execBararr (d : GReg) (n : Fin 16) (s : State) : Out :=
  scalar s { writes := [.g d], numbers := barNumber s.me n, commits := true, drains := true } (fun _ s =>
    let b := barOf s n
    if !inGroup s b.group then .trap .group (w64 b.group) false
    else
      let s := release s s.cur
      if b.err || decide (b.expect ≤ b.arrived) then
        .after s .barrier (w64 n.val)
      else
        let s := stepBar s s.cur n (fun b => ({ b with arrived := b.arrived + 1 } : Barrier).settle)
        .ok (s.upd (fun c => c.setG d (b.phase.zeroExtend 64))))

/-- Whether a record of a wait is that of the `barwait` at the program counter. -/
def BarWait.here (c : CT) (n : Fin 16) (ph : BitVec 16) (w : BarWait) : Bool := w.pc = c.pc && w.bar = n && w.phase = ph

/-- The `barwait` at the program counter is over. -/
def CT.endWait (c : CT) (n : Fin 16) (ph : BitVec 16) : CT :=
  { c with barw := c.barw.filter (fun w => !w.here c n ph) }

/-- `barwait` (R295): waits for a phase other than g(ga)[15:0], then acquires the group's trails. Once it waits, the
completion of that phase releases it whatever the barrier shows when it goes on, and an error fails it, until the trap is taken
(R92). -/
def execBarwait (a : GReg) (n : Fin 16) (s : State) : Out :=
  scalar s { reads := [.g a], numbers := barNumber s.me n } (fun _ s =>
    let b := barOf s n
    let c := s.me
    let ph := (c.getG a).setWidth 16
    match c.barw.find? (BarWait.here c n ph) with
    | some w =>
      match w.fate with
      | .waiting => .wait s
      | .failed => .trap .barrier (w64 n.val) false
      | .released =>
        match acquireRes s (groupMembers s s.cur w.group) with
        | .ok s => .ok (s.upd (fun c => c.endWait n ph))
        | r => r
    | none =>
      if !inGroup s b.group then .trap .group (w64 b.group) false
      else if b.err then .trap .barrier (w64 n.val) false
      else if b.phase = ph then .wait (s.upd (fun c => { c with barw := c.barw ++ [⟨c.pc, n, ph, b.group, .waiting⟩] }))
      else acquireRes s (groupMembers s s.cur b.group))

/-- `baradd` (R92, R295): an addition past the largest count raises BARRIER and leaves the counter as it was. -/
def execBaradd (a : GReg) (n : Fin 16) (s : State) : Out :=
  scalar s { reads := [.g a], numbers := barNumber s.me n } (fun _ s =>
    let b := barOf s n
    let x := (s.me.getG a).toNat
    if !inGroup s b.group then .trap .group (w64 b.group) false
    else if pendingMax < b.pending + x then .trap .barrier (w64 n.val) false
    else .ok (updBar s s.cur n (fun b => { b with pending := b.pending + x })))

end Sys2Proof.Machine
end

