-- ==== Sys2Proof/Machine/VReg.lean ====
section
/-! DEFINITION. Elements and tails of vector registers, active elements, source modifiers and second sources
(06_registers.md R112-R119, 10_encoding_and_opcode_map.md R176-R178, 13_instructions_vector_arithmetic.md R222-R224). -/

namespace Sys2Proof.Machine

open Sys2Proof

/-! ### The registers of an operand as one string of lanes -/

/-- The payload and side bits of an operand's registers, one lane after another; only active lanes count (R116). -/
structure VGroup where
  pay  : Nat
  side : Nat
  deriving DecidableEq, Repr

/-- The lanes of `n` registers from `r` up, `a` of each. -/
def CT.group (c : CT) (a r : Nat) : (n : Nat) → VGroup
  | 0 => ⟨0, 0⟩
  | n + 1 =>
    let g := c.group a r n
    let x := c.getV (r + n)
    ⟨g.pay + x.payload.toNat % 2 ^ (32 * a) * 2 ^ (32 * a * n), g.side + x.side.toNat % 2 ^ (16 * a) * 2 ^ (16 * a * n)⟩

/-- A register with its first `a` lanes replaced. -/
def VReg.withLanes (x : VReg) (a pay side : Nat) : VReg :=
  ⟨BitVec.ofNat 8192 (x.payload.toNat / 2 ^ (32 * a) * 2 ^ (32 * a) + pay % 2 ^ (32 * a)),
   BitVec.ofNat 4096 (x.side.toNat / 2 ^ (16 * a) * 2 ^ (16 * a) + side % 2 ^ (16 * a))⟩

/-- Puts lanes back into `n` registers from `r` up. -/
def CT.setGroup (c : CT) (a r : Nat) (g : VGroup) : (n : Nat) → CT
  | 0 => c
  | n + 1 =>
    let c := c.setGroup a r g n
    c.setV (r + n) ((c.getV (r + n)).withLanes a (g.pay / 2 ^ (32 * a * n)) (g.side / 2 ^ (16 * a * n)))

/-- A number with a bit field replaced. -/
def putBits (x lo w v : Nat) : Nat := x + v % 2 ^ w * 2 ^ lo - fld x lo w * 2 ^ lo

/-- Sub-elements of a lane for a width. -/
def perLane (w : Nat) : Nat := if w = 0 then 1 else max 1 (32 / w)

/-- An element and its tail (R112, R114); 4-bit elements have none. -/
abbrev Elem := Nat × Nat

/-- Element `e` of width `w`, with its tail; an element wider than a lane is a record and has none, so that where it is moved its side bits
become 0, while a record of four bytes keeps the tail that its lane holds (DESIGN CHOICE, notes/assumptions/32.md). -/
def VGroup.elem (g : VGroup) (w e : Nat) : Elem :=
  (fld g.pay (w * e) w,
    if w < 8 ∨ 32 < w then 0 else fld g.side (16 * (e / perLane w) + 2 * (e % perLane w)) 2)

/-- Writes element `e` of width `w` with its tail; side bits that no sub-element of the width uses become 0 (R114), and a
record's are all 0 (R297). -/
def VGroup.put (g : VGroup) (w e : Nat) (x : Elem) : VGroup :=
  if 32 < w then ⟨putBits g.pay (w * e) w x.1, putBits g.side (w / 2 * e) (w / 2) 0⟩
  else
    let lane := e / perLane w
    let used := fld g.side (16 * lane) (if w < 8 then 0 else 2 * perLane w)
    let side := if w < 8 then used else putBits used (2 * (e % perLane w)) 2 x.2
    ⟨putBits g.pay (w * e) w x.1, putBits g.side (16 * lane) 16 side⟩

/-- Field `e` of the 6-bit layout, with its tail (R131, R178). -/
def VGroup.field6 (g : VGroup) (e : Nat) : Elem :=
  (fld g.pay (32 * (e / 5) + 6 * (e % 5)) 6, fld g.side (16 * (e / 5) + 2 * (e % 5)) 2)

/-- Writes field `e` of the 6-bit layout: lane bits 31:30 and side bits 15:10 become 0 (R131). -/
def VGroup.put6 (g : VGroup) (e : Nat) (x : Elem) : VGroup :=
  let l := e / 5
  let pay := putBits (putBits g.pay (32 * l + 6 * (e % 5)) 6 x.1) (32 * l + 30) 2 0
  ⟨pay, putBits (putBits g.side (16 * l + 2 * (e % 5)) 2 x.2) (16 * l + 10) 6 0⟩

/-- The bytes of record `e` of `z` bytes (R116). -/
def VGroup.rec_ (g : VGroup) (z e : Nat) : List Byte := leBytes z (fld g.pay (8 * z * e) (8 * z))

/-- Writes record `e`; records carry tail 00 (R297). -/
def VGroup.putRec (g : VGroup) (z e : Nat) (bs : List Byte) : VGroup :=
  ⟨putBits g.pay (8 * z * e) (8 * z) (leNat (bs.take z)), putBits g.side (4 * z * e) (4 * z) 0⟩

/-- The lanes an operand names. -/
def CT.operand (c : CT) (x : VCtx) (a : Nat) (r : BitVec 6) (w : Width) : VGroup :=
  c.group a r.toNat (spanOf x.vtype x.vl a w)
/-- Puts back the lanes an operand names. -/
def CT.setOperand (c : CT) (x : VCtx) (a : Nat) (r : BitVec 6) (w : Width) (g : VGroup) : CT :=
  c.setGroup a r.toNat g (spanOf x.vtype x.vl a w)

/-! ### Active elements (R113) -/

/-- Whether an element is active: from `vstart` to below VL, with its bit in the governing predicate. -/
def CT.isActive (c : CT) (f : VFields) (x : VCtx) (e : Nat) : Bool :=
  x.vstart ≤ e && e < x.vl && ((c.getP f.pm).getLsbD e != f.pn)

/-- The active elements, ascending. -/
def CT.actives (c : CT) (f : VFields) (x : VCtx) : List Nat := (List.range x.vl).filter (c.isActive f x)

/-- The type an instruction works on: t1, with 0000 the type of `vtype` (R212). -/
def VCtx.ty1 (x : VCtx) (f : VFields) : VTy := resolveTy x.vtype f.t1
/-- The width of the t1 element. -/
def VCtx.w1 (x : VCtx) (f : VFields) : Nat := elemBits x.vtype (x.ty1 f)
/-- The width of the t2 element. -/
def VCtx.w2 (x : VCtx) (f : VFields) : Nat := elemBits x.vtype (resolveTy x.vtype (ty2 f))
/-- The rounding mode: rnd, or `frm` as it stood at the push (R121, R138). -/
def VCtx.mode (x : VCtx) (f : VFields) : RMode := modeWith f.rnd x.frm

/-- Writes the active elements of a vector destination, every one computed from the registers as they were, and ORs the
flags into `fflags` (R224, R225). -/
def CT.mapElems (c : CT) (f : VFields) (x : VCtx) (a : Nat) (w : Width) (bits : Nat) (go : Nat → Elem × Flags) : CT :=
  let r := (c.actives f x).foldl (fun (q : VGroup × Flags) e =>
    let y := go e
    (q.1.put bits e y.1, q.2 ||| y.2)) (c.operand x a f.vd w, noFlags)
  (c.setOperand x a f.vd w r.1).raise r.2

/-- Writes the bits of the active elements of a predicate, and clears bits VL to 2,047 (R111). -/
def CT.putPred (c : CT) (f : VFields) (x : VCtx) (p : PReg) (go : Nat → Bool × Flags) : CT :=
  let r := (c.actives f x).foldl (fun (q : Nat × Flags) e =>
    let y := go e
    (putBits q.1 e 1 (b2n y.1), q.2 ||| y.2)) ((c.getP p).toNat % 2 ^ x.vl, noFlags)
  (c.setP p (BitVec.ofNat 2048 r.1)).raise r.2

/-- As `putPred`, for an element-wise instruction: where `vstart` is at or beyond VL nothing is written (R113, R238). -/
def CT.mapPred (c : CT) (f : VFields) (x : VCtx) (p : PReg) (go : Nat → Bool × Flags) : CT :=
  if x.vl ≤ x.vstart then c else c.putPred f x p go

/-- Writes the predicate that vd names. -/
def CT.mapBits (c : CT) (f : VFields) (x : VCtx) (go : Nat → Bool × Flags) : CT := c.mapPred f x (predNo f f.vd 8) go

/-- The state at the push of an instruction that computes from element 0 whatever `vstart` holds (R238). -/
def VCtx.whole (x : VCtx) : VCtx := { x with vstart := 0 }

/-! ### Sources -/

/-- The first source of an integer instruction as an exact integer, under its modifier (R178). -/
def intSrc (f : VFields) (signed : Bool) (w : Nat) (g : VGroup) (e : Nat) : Int :=
  match f.smod.toNat with
  | 1 => -(readInt signed w (g.elem w e).1)
  | 5 => readInt signed w ((g.elem (2 * w) e).1 / 2 ^ w)
  | 6 => readInt signed w ((g.elem (2 * w) e).1 % 2 ^ w)
  | _ => readInt signed w (g.elem w e).1

/-- An element of the second source by its form (R223): a vector element, the low bits of the scalar register, or the
immediate modulo 2^w. A record of more than 64 bits takes the scalar register zero-extended (DESIGN CHOICE,
notes/assumptions/32.md). -/
def src2 (f : VFields) (x : VCtx) (w : Nat) (g : VGroup) (e : Nat) : Elem :=
  match formBits f with
  | 0 => g.elem w e
  | 1 => (x.gb.toNat % 2 ^ w, 0)
  | _ => (wrapInt w f.vb.toInt, 0)

/-- The format of the 6-bit modifier. -/
def f6Fmt (f : VFields) : FFmt := if f.smod = 3 then .e2m3 else .e3m2

/-- The first source of a float instruction as its extended value, under its modifier (R178, R232). -/
def floatSrc (f : VFields) (fm : FFmt) (w : Nat) (g : VGroup) (e : Nat) : Num :=
  if isF6 f then
    let q := g.field6 e
    decodeNum (f6Fmt f) q.1 q.2
  else
    let q := g.elem w e
    let v := decodeNum fm q.1 q.2
    match f.smod.toNat with
    | 1 => v.negate
    | 2 => v.withSign false
    | _ => v

/-- The extended value of an element. -/
def ext (fm : FFmt) (q : Elem) : Num := decodeNum fm q.1 q.2

/-- A numeric result narrowed into a format: value, tail and flags (R135, R136). -/
def narrowInto (fm : FFmt) (r : NumRes) : Elem × Flags :=
  let n := narrowTail fm r.1
  ((n.code, n.tail), r.2 ||| n.flags)

end Sys2Proof.Machine
end

