-- ==== Sys2Proof/Machine/VInt.lean ====
section
/-! DEFINITION. The vector integer instructions (13_instructions_vector_arithmetic.md R226-R231), each as what it does to
the registers of a control thread. -/

namespace Sys2Proof.Machine

open Sys2Proof

/-! ### The operations of Table 13.2 on one sub-element -/

/-- Bitwise operation on patterns. -/
def bitOp (op : Nat → Nat → Nat) (w : Nat) (a b : Int) : Int := op (wrapInt w a) (wrapInt w b)

/-- The shift amount: the low bits of the second source (w is a power of two). -/
def shiftBy (w : Nat) (b : Int) : Nat := wrapInt w b % w

/-- The exact result of an integer operation. -/
abbrev IntOp := (w : Nat) → (signed : Bool) → (mode : RMode) → (a b d : Int) → Int

/-- a + b. -/
def opAdd : IntOp := fun _ _ _ a b _ => a + b
/-- a - b. -/
def opSub : IntOp := fun _ _ _ a b _ => a - b
/-- a * b. -/
def opMul : IntOp := fun _ _ _ a b _ => a * b
/-- round_int(a * b / 2^w). -/
def opMulh : IntOp := fun w _ m a b _ => roundInt (a * b) w m
/-- d + a * b. -/
def opMacc : IntOp := fun _ _ _ a b d => d + a * b
/-- round_int((a + b) / 2). -/
def opHadd : IntOp := fun _ _ m a b _ => roundInt (a + b) 1 m
/-- round_int((a - b) / 2). -/
def opHsub : IntOp := fun _ _ m a b _ => roundInt (a - b) 1 m
/-- Bitwise and. -/
def opAnd : IntOp := fun w _ _ a b _ => bitOp (· &&& ·) w a b
/-- Bitwise or. -/
def opOr : IntOp := fun w _ _ a b _ => bitOp (· ||| ·) w a b
/-- Bitwise exclusive or. -/
def opXor : IntOp := fun w _ _ a b _ => bitOp (· ^^^ ·) w a b
/-- a * 2^k. -/
def opShl : IntOp := fun w _ _ a b _ => a * 2 ^ shiftBy w b
/-- The pattern of a read unsigned, shifted right. -/
def opShr : IntOp := fun w _ _ a b _ => (wrapInt w a / 2 ^ shiftBy w b : Nat)
/-- The pattern of a read signed, shifted right. -/
def opSha : IntOp := fun w _ _ a b _ => readInt true w (wrapInt w a) / 2 ^ shiftBy w b
/-- The lesser. -/
def opMin : IntOp := fun _ _ _ a b _ => min a b
/-- The greater. -/
def opMax : IntOp := fun _ _ _ a b _ => max a b
/-- The magnitude. -/
def opAbs : IntOp := fun _ _ _ a _ _ => a.natAbs

/-- Whether an operation's result is a pattern, which fits as it stands (R226). -/
def fitOp (pattern : Bool) (signed : Bool) (w : Nat) (sat : Bool) (x : Int) : Nat × Flags :=
  if pattern then (wrapInt w x, 0) else fit signed w sat x

/-- One element: whole, or two 4-bit sub-elements with nib = 1 (R227). -/
def intElem (op : IntOp) (pattern : Bool) (f : VFields) (x : VCtx) (w : Nat) (signed : Bool) (ga gb gd : VGroup) (e : Nat) :
    Elem × Flags :=
  let mode := x.mode f
  if fnBit f 3 then
    let nibble (q : Nat) (j : Nat) : Int := readInt signed 4 (fld q (4 * j) 4)
    let a := (ga.elem w e).1
    let b := (src2 f x w gb e).1
    let second (j : Nat) : Int := if formBits f = 0 then nibble b j else readInt signed 4 (b % 16)
    let one (j : Nat) := fitOp pattern signed 4 f.sat (op 4 signed mode (nibble a j) (second j) 0)
    (((one 0).1 + 16 * (one 1).1, 0), (one 0).2 ||| (one 1).2)
  else
    let a := intSrc f signed w ga e
    let b := readInt signed w (src2 f x w gb e).1
    let d := readInt signed w (gd.elem w e).1
    let r := fitOp pattern signed w f.sat (op w signed mode a b d)
    ((r.1, 0), r.2)

/-- An integer instruction of Table 13.2 over its active elements. -/
def intOver (op : IntOp) (pattern : Bool) (f : VFields) (x : VCtx) (a : Nat) (c : CT) : CT :=
  let w := x.w1 f
  let ga := c.operand x a f.va (src1Int f f.t1)
  let gb := c.operand x a f.vb (.ty f.t1)
  let gd := c.operand x a f.vd (.ty f.t1)
  c.mapElems f x a (.ty f.t1) w (intElem op pattern f x w (isSigned f.t1) ga gb gd)

/-- What a pure vector instruction does to the registers: by its fields, the state at its push and the lane count. -/
abbrev VCore := VFields → VCtx → Nat → CT → CT

/-- `vadd` (R226). -/
def doVadd : VCore := intOver opAdd false
/-- `vsub` (R226). -/
def doVsub : VCore := intOver opSub false
/-- `vmul` (R226). -/
def doVmul : VCore := intOver opMul false
/-- `vmulh` (R226). -/
def doVmulh : VCore := intOver opMulh false
/-- `vmacc` (R226). -/
def doVmacc : VCore := intOver opMacc false
/-- `vsadd` (R226). -/
def doVsadd : VCore := intOver opHadd false
/-- `vssub` (R226). -/
def doVssub : VCore := intOver opHsub false
/-- `vand` (R226). -/
def doVand : VCore := intOver opAnd true
/-- `vor` (R226). -/
def doVor : VCore := intOver opOr true
/-- `vxor` (R226). -/
def doVxor : VCore := intOver opXor true
/-- `vshl` (R226). -/
def doVshl : VCore := intOver opShl false
/-- `vshr` (R226). -/
def doVshr : VCore := intOver opShr true
/-- `vsha` (R226). -/
def doVsha : VCore := intOver opSha true
/-- `vmin` (R226). -/
def doVmin : VCore := intOver opMin false
/-- `vmax` (R226). -/
def doVmax : VCore := intOver opMax false
/-- `vabs` (R226). -/
def doVabs : VCore := intOver opAbs false

/-! ### Widening, narrowing, comparing -/

/-- A widening instruction: sources of type t2, a destination of twice the width (R229). -/
def widenOver (op : IntOp) (f : VFields) (x : VCtx) (a : Nat) (c : CT) : CT :=
  let w := x.w1 f
  let w2 := tyWidth f.t2
  let g := isSigned f.t2
  let ga := c.operand x a f.va (.ty f.t2)
  let gb := c.operand x a f.vb (.ty f.t2)
  let gd := c.operand x a f.vd (.ty f.t1)
  c.mapElems f x a (.ty f.t1) w (fun e =>
    let r := fit (isSigned f.t1) w f.sat (op w g .rne (readInt g w2 (ga.elem w2 e).1)
      (readInt g w2 (src2 f x w2 gb e).1) (readInt (isSigned f.t1) w (gd.elem w e).1))
    ((r.1, 0), r.2))

/-- `vwmul` (R229). -/
def doVwmul : VCore := widenOver opMul
/-- `vwmacc` (R229). -/
def doVwmacc : VCore := widenOver opMacc

/-- `vnshr` (R230): the shift amount is the second source modulo twice the destination's width. -/
def doVnshr : VCore := fun f x a c =>
  let w := x.w1 f
  let w2 := tyWidth f.t2
  let ga := c.operand x a f.va (.ty f.t2)
  let gb := c.operand x a f.vb (.ty f.t1)
  c.mapElems f x a (.ty f.t1) w (fun e =>
    let k := (src2 f x w gb e).1 % (2 * w)
    let r := fit (isSigned f.t1) w f.sat (roundInt (readInt (isSigned f.t2) w2 (ga.elem w2 e).1) k (x.mode f))
    ((r.1, 0), r.2))

/-- A comparison of two patterns by its condition (Table 10.11): eq, ne, lt, ltn, ge, gen. -/
def cmpCode (cc w a b : Nat) : Bool :=
  match cc with
  | 0 => a == b
  | 1 => a != b
  | 2 => decide (readInt true w a < readInt true w b)
  | 3 => decide (a < b)
  | 4 => decide (readInt true w b ≤ readInt true w a)
  | _ => decide (b ≤ a)

/-- `vcmp` (R231): under high and low the halves are compared. -/
def doVcmp : VCore := fun f x a c =>
  let w := x.w1 f
  let ga := c.operand x a f.va (src1Int f f.t1)
  let gb := c.operand x a f.vb (.ty f.t1)
  c.mapBits f x (fun e =>
    (cmpCode (fld f.fn.toNat 0 3) w (wrapInt w (intSrc f false w ga e)) (gb.elem w e).1, 0))

end Sys2Proof.Machine
end

