-- ==== Sys2Proof/Machine/VFloat.lean ====
section
/-! DEFINITION. The vector floating instructions (13_instructions_vector_arithmetic.md R232-R236) and the special-function
unit (08_arithmetic_units_and_convoys.md R161). -/

namespace Sys2Proof.Machine

open Sys2Proof

/-- The width of the first source of a float instruction: 6-bit fields lie in one register (R178). -/
def floatA (f : VFields) : Width := if isF6 f then .one else .ty f.t1

/-- The second source of a float instruction as an extended value. -/
def floatB (f : VFields) (x : VCtx) (g : VGroup) (e : Nat) : Num := ext (fmtOf (ty2 f)) (src2 f x (x.w2 f) g e)

/-- A float instruction over its active elements: from the extended values of va, the second source and vc (R232). -/
def floatOver (op : Num → Num → Num → NumRes) (f : VFields) (x : VCtx) (a : Nat) (c : CT) : CT :=
  let w := x.w1 f
  let fm := fmtOf f.t1
  let ga := c.operand x a f.va (floatA f)
  let gb := c.operand x a f.vb (.ty (ty2 f))
  let gc := c.operand x a f.vc (.ty f.t1)
  c.mapElems f x a (.ty f.t1) w (fun e =>
    narrowInto fm (op (floatSrc f fm w ga e) (floatB f x gb e) (ext fm (gc.elem w e))))

/-- `vfadd` (R232). -/
def doVfadd : VCore := floatOver (fun a b _ => numAdd a b)
/-- `vfsub` (R232). -/
def doVfsub : VCore := floatOver (fun a b _ => numSub a b)
/-- `vfmul` (R232). -/
def doVfmul : VCore := floatOver (fun a b _ => numMul a b)
/-- `vfma` (R232): a * b + c. -/
def doVfma : VCore := floatOver (fun a b c => numFma a b c)
/-- `vfnma` (R232): c - a * b. -/
def doVfnma : VCore := floatOver (fun a b c => numFma a.negate b c)
/-- `vfdiv` (R232). -/
def doVfdiv : VCore := floatOver (fun a b _ => numDiv a b)
/-- `vfsqrt` (R232). -/
def doVfsqrt : VCore := floatOver (fun a _ _ => numSqrt a)
/-- `vfmin` (R234). -/
def doVfmin : VCore := floatOver (fun a b _ => numMinMax false a b)
/-- `vfmax` (R234). -/
def doVfmax : VCore := floatOver (fun a b _ => numMinMax true a b)

/-- `vfabs` and `vfneg` keep the encoding's magnitude and the tail; a NaN gives the canonical one (R234). -/
def signOver (flip : Bool) (f : VFields) (x : VCtx) (a : Nat) (c : CT) : CT :=
  let w := x.w1 f
  let fm := fmtOf f.t1
  let ga := c.operand x a f.va (.ty f.t1)
  c.mapElems f x a (.ty f.t1) w (fun e =>
    let q := ga.elem w e
    match ext fm q with
    | .nan sig => ((fm.nanCode, 0), flagIf sig fNv)
    | _ =>
      let mag := q.1 % fm.signBit
      ((if flip && q.1 < fm.signBit then mag + fm.signBit else mag, q.2), 0))

/-- `vfabs` (R234). -/
def doVfabs : VCore := signOver false
/-- `vfneg` (R234). -/
def doVfneg : VCore := signOver true

/-! ### Compares (R146, R147) -/

/-- The result of a comparison by its condition (eq, ne, lt, le, gt, ge); unordered operands: only ne is true. -/
def cmpNum (cc : Nat) (a b : Num) : Bool :=
  if a.isNan || b.isNan then cc == 1
  else
    match cc with
    | 0 => numEq a b
    | 1 => !numEq a b
    | 2 => numLt a b
    | 3 => !numLt b a
    | 4 => numLt b a
    | _ => !numLt a b

/-- The value an operand of `vfcmp` would store (R146); under keep, its extended value. -/
def storedValue (fm : FFmt) (q : Elem) (mode : RMode) : Num :=
  if mode = .keep then ext fm q else decodeNum fm (roundFinal fm q.1 q.2 mode false).1 0

/-- An element under neg or abs, as encoding and tail. -/
def signMod (f : VFields) (fm : FFmt) (q : Elem) : Elem :=
  let mag := q.1 % fm.signBit
  match f.smod.toNat with
  | 1 => (if q.1 < fm.signBit then mag + fm.signBit else mag, q.2)
  | 2 => (mag, q.2)
  | _ => q

/-- `vfcmp` (R146, R235). -/
def doVfcmp : VCore := fun f x a c =>
  let fa := fmtOf f.t1
  let fb := fmtOf (ty2 f)
  let ga := c.operand x a f.va (.ty f.t1)
  let gb := c.operand x a f.vb (.ty (ty2 f))
  c.mapBits f x (fun e =>
    let p := signMod f fa (ga.elem (x.w1 f) e)
    let q := gb.elem (x.w2 f) e
    (cmpNum (fld f.fn.toNat 0 3) (storedValue fa p (x.mode f)) (storedValue fb q (x.mode f)),
      flagIf ((ext fa p).isSnan || (ext fb q).isSnan) fNv))

/-- `vcmpt` (R147): extended values in order with -0 below +0; equal only with equal value and tail. -/
def doVcmpt : VCore := fun f x a c =>
  let fm := fmtOf f.t1
  let w := x.w1 f
  let ga := c.operand x a f.va (.ty f.t1)
  let gb := c.operand x a f.vb (.ty f.t1)
  c.mapBits f x (fun e =>
    let p := ga.elem w e
    let q := gb.elem w e
    let a := ext fm p
    let b := ext fm q
    let lt (a b : Num) := numLt a b || (a.isZero && b.isZero && a.neg && !b.neg)
    let r := if a.isNan || b.isNan then fld f.fn.toNat 0 3 == 1
      else match fld f.fn.toNat 0 3 with
        | 0 => p == q
        | 1 => p != q
        | 2 => lt a b
        | 3 => !lt b a
        | 4 => lt b a
        | _ => !lt a b
    (r, flagIf (a.isSnan || b.isSnan) fNv))

/-! ### The special-function unit (R161)

The spec bounds the approximant and leaves it open within the bound. The value here is the free approximant of
`Config.sfuApprox` where it keeps the bound, and otherwise the function itself, computed with `fxBits` fraction bits. -/

/-- Fraction bits of the fixed-point values below. -/
def fxBits : Nat := 512

/-- 1 in fixed point. -/
def fxOne : Int := 2 ^ fxBits

/-- A finite value in fixed point. -/
def toFx (neg : Bool) (m : Nat) (e : Int) : Int :=
  let k := e + fxBits
  let v : Int := if 0 ≤ k then (m : Int) * 2 ^ k.toNat else (m : Int) / 2 ^ (-k).toNat
  if neg then -v else v

/-- A fixed-point value times 2^k as a number. -/
def ofFx (v k : Int) : Num := .fin (decide (v < 0)) v.natAbs (k - fxBits)

/-- Sum of t + t*x/(k+1) + ...: the exponential series. -/
def expSum (x : Int) : (fuel : Nat) → (k : Nat) → (t : Int) → Int
  | 0, _, _ => 0
  | fuel + 1, k, t => t + expSum x fuel (k + 1) (t * x / fxOne / (k + 1))

/-- Sum of t - t*y/((j+1)(j+2)) + ...: the sine (j = 1) and cosine (j = 0) series. -/
def trigSum (y : Int) : (fuel : Nat) → (j : Nat) → (t : Int) → Int
  | 0, _, _ => 0
  | fuel + 1, j, t => t + trigSum y fuel (j + 2) (-(t * y / fxOne / ((j + 1) * (j + 2))))

/-- Sum of t/j + t*y/(j+2) + ...: the inverse tangent (y negative) and hyperbolic tangent series. -/
def atanSum (y : Int) : (fuel : Nat) → (j : Nat) → (t : Int) → Int
  | 0, _, _ => 0
  | fuel + 1, j, t => t / j + atanSum y fuel (j + 2) (t * y / fxOne)

/-- ln 2 = 2 atanh(1/3). -/
def fxLn2 : Int := 2 * atanSum (fxOne / 9) 180 1 (fxOne / 3)
/-- pi = 16 atan(1/5) - 4 atan(1/239). -/
def fxPi : Int :=
  16 * atanSum (-(fxOne / 25)) 130 1 (fxOne / 5) - 4 * atanSum (-(fxOne / 57121)) 40 1 (fxOne / 239)

/-- 2^x, as a fixed-point value in [1, 2) and a power of two. -/
def fxExp2 (x : Int) : Int × Int :=
  let n := x / fxOne
  (expSum ((x - n * fxOne) * fxLn2 / fxOne) 140 0 fxOne, n)

/-- e^x likewise. -/
def fxExp (x : Int) : Int × Int := fxExp2 (x * fxOne / fxLn2)

/-- log2 of a positive value. -/
def fxLog2 (m : Nat) (e : Int) : Int :=
  let k := Nat.log2 m
  let v := toFx false m (-k)
  let y := (v - fxOne) * fxOne / (v + fxOne)
  2 * atanSum (y * y / fxOne) 180 1 y * fxOne / fxLn2 + (e + k) * fxOne

/-- An angle reduced to [0, 2 pi). -/
def fxAngle (x : Int) : Int := x % (2 * fxPi)

/-- tanh x = (E - 1) / (E + 1) with E = e^(2x); beyond 512 it is 1 to every bit kept. -/
def fxTanh (x : Int) : Int :=
  if 512 * fxOne < x then fxOne
  else if x < -(512 * fxOne) then -fxOne
  else
    let a := if x < 0 then -x else x
    let q := fxExp (2 * a)
    let v := q.1 * 2 ^ q.2.toNat
    let t := (v - fxOne) * fxOne / (v + fxOne)
    if x < 0 then -t else t

/-- sigmoid x = 1 / (1 + e^-x), as a number; far below 0 it is e^x to every bit kept. -/
def fxSigmoid (x : Int) : Num :=
  if 512 * fxOne < x then ofFx fxOne 0
  else if x < -(512 * fxOne) then let q := fxExp x; ofFx q.1 q.2
  else
    let q := fxExp (if x < 0 then -x else x)
    let v := q.1 * 2 ^ q.2.toNat
    if x < 0 then divFin false 1 0 (fxOne + v).natAbs (-(fxBits : Int))
    else divFin false v.natAbs 0 (fxOne + v).natAbs 0

/-- The value of a function of Table 8.4 at a finite nonzero argument of its domain. -/
def sfuCentre (fn : Nat) (s : Bool) (m : Nat) (e : Int) : Num :=
  let x := toFx s m e
  match fn with
  | 0 => let q := fxExp2 x; ofFx q.1 q.2
  | 1 => ofFx (fxLog2 m e) 0
  | 2 => divFin s 1 0 m e
  | 3 => match sqrtFin m e with
    | .fin _ n k => divFin false 1 0 n k
    | r => r
  | 4 => ofFx (fxTanh x) 0
  | 5 => fxSigmoid x
  | 6 => let r := fxAngle x; ofFx (trigSum (r * r / fxOne) 140 1 r) 0
  | _ => let r := fxAngle x; ofFx (trigSum (r * r / fxOne) 140 0 fxOne) 0

/-- The f32 spacing at a value, as a power of two. -/
def f32Spacing (m : Nat) (e : Int) : Int := max ((Nat.log2 m : Int) + e - 23) (-149)

/-- The bound of Table 8.4 at an argument of magnitude `m * 2^e`, for the function value `y`: a power of two times
`k`. -/
def sfuBound (fn : Nat) (m : Nat) (e : Int) (ym : Nat) (ye : Int) : Nat × Int :=
  let arg := Num.fin false m e
  let one (k : Nat) := (k, f32Spacing ym ye)
  match fn with
  | 0 | 2 | 3 => one 1
  | 1 => if !numLt arg (.fin false 1 (-1)) && !numLt (.fin false 2 0) arg then (1, -22) else one 1
  | 4 | 5 => one 2
  | _ => if !numLt (.fin false 1 16) arg then one 2 else (1, -20)

/-- The free approximant where it keeps the bound, else the function's value. -/
def sfuApproximant (fn : Nat) (s : Bool) (m : Nat) (e : Int) : Num :=
  let y := sfuCentre fn s m e
  match y with
  | .fin _ ym ye =>
    let b := sfuBound fn m e ym ye
    let q := Config.sfuApprox fn s m e
    let z := Num.fin q.1 q.2.1 q.2.2
    match (numSub z y).1 with
    | .fin _ dm de => if numLt (.fin false b.1 b.2) (.fin false dm de) then y else z
    | _ => y
  | _ => y

/-- Whether a magnitude is a power of two. -/
def isPow2 (m : Nat) : Bool := m == 2 ^ Nat.log2 m

/-- Whether a finite value is an integer, and which. -/
def asInteger (s : Bool) (m : Nat) (e : Int) : Option Int :=
  let v : Option Nat := if 0 ≤ e then some (m * 2 ^ e.toNat)
    else if m % 2 ^ (-e).toNat = 0 then some (m / 2 ^ (-e).toNat) else none
  v.map (fun n => if s then -(n : Int) else n)

/-- The results of Table 8.4 at finite arguments: exact cases, special results, else the approximant. -/
def sfuFinite (fn : Nat) (s : Bool) (m : Nat) (e : Int) : NumRes :=
  let k := (Nat.log2 m : Int) + e
  match fn with
  | 0 => if m = 0 then (.fin false 1 0, 0) else match asInteger s m e with
    | some n => (.fin false 1 n, 0)
    | none => (sfuApproximant 0 s m e, 0)
  | 1 => if m = 0 then (.inf true, fDz) else if s then invalid
    else if isPow2 m then (.ofInt k, 0) else (sfuApproximant 1 s m e, 0)
  | 2 => if m = 0 then (.inf s, fDz) else if isPow2 m then (.fin s 1 (-k), 0) else (sfuApproximant 2 s m e, 0)
  | 3 => if m = 0 then (.inf s, fDz) else if s then invalid
    else if isPow2 m ∧ k % 2 = 0 then (.fin false 1 (-(k / 2)), 0) else (sfuApproximant 3 s m e, 0)
  | 4 => if m = 0 then (.zero s, 0) else (sfuApproximant 4 s m e, 0)
  | 5 => if m = 0 then (.fin false 1 (-1), 0) else (sfuApproximant 5 s m e, 0)
  | 6 => if m = 0 then (.zero s, 0) else (sfuApproximant 6 s m e, 0)
  | _ => if m = 0 then (.fin false 1 0, 0) else (sfuApproximant 7 s m e, 0)

/-- A special function of an extended value (R161). -/
def sfu (fn : Nat) : Num → NumRes
  | .nan sig => if sig then invalid else (.nan false, 0)
  | .inf s => match fn with
    | 0 => (if s then .zero false else .inf false, 0)
    | 1 => if s then invalid else (.inf false, 0)
    | 2 => (.zero s, 0)
    | 3 => if s then invalid else (.zero false, 0)
    | 4 => (.fin s 1 0, 0)
    | 5 => (if s then .zero false else .fin false 1 0, 0)
    | _ => invalid
  | .fin s m e => sfuFinite fn s m e

/-- `vsfu` (R236). -/
def doVsfu : VCore := fun f x a c =>
  let ga := c.operand x a f.va (.ty (ty2 f))
  c.mapElems f x a (.ty f.t1) (x.w1 f) (fun e =>
    narrowInto (fmtOf f.t1) (sfu (fld f.fn.toNat 0 3) (ext (fmtOf (ty2 f)) (ga.elem (x.w2 f) e))))

end Sys2Proof.Machine
end

