-- ==== Sys2Proof/Machine/VConvert.lean ====
section
/-! DEFINITION. Conversions, block quantisation, exponents and tails (14_instructions_convert_permute_reduce.md
R240-R246, 07_number_formats_and_rounding.md R130-R133, R143-R145). -/

namespace Sys2Proof.Machine

open Sys2Proof

/-! ### Block elements (R114, R130, R132) -/

/-- Lanes of one block in a register. -/
def blockLanes (t : VTy) : Nat := if t = .ds8 then 8 else 4

/-- The two scale bytes of block `b`: side bits 7:0 and 15:8 of its first lane. -/
def VGroup.scales (g : VGroup) (t : VTy) (b : Nat) : Nat × Nat :=
  (fld g.side (16 * blockLanes t * b) 8, fld g.side (16 * blockLanes t * b + 8) 8)

/-- Writes the scale bytes of block `b`; every other side bit of the block becomes 0. -/
def VGroup.putScales (g : VGroup) (t : VTy) (b : Nat) (e : Nat × Nat) : VGroup :=
  let side := putBits g.side (16 * blockLanes t * b) (16 * blockLanes t)
    (e.1 % 256 + (if t = .mx4 then 0 else e.2 % 256 * 256))
  { g with side := side }

/-- Copies block `b`, payload and side bits together. -/
def VGroup.copyBlock (g src : VGroup) (t : VTy) (b : Nat) : VGroup :=
  let l := blockLanes t
  ⟨putBits g.pay (32 * l * b) (32 * l) (fld src.pay (32 * l * b) (32 * l)),
   putBits g.side (16 * l * b) (16 * l) (fld src.side (16 * l * b) (16 * l))⟩

/-- The value of a DS element of `bits` bits: selection, sign, magnitude (Table 7.3). -/
def dsValue (bits code e0 e1 : Nat) : Num :=
  let sel := fld code (bits - 1) 1
  let s := fld code (bits - 2) 1 == 1
  let m := fld code 0 (bits - 2)
  let e := if sel = 0 then e0 else e1
  if e = 255 then .nan false else .fin s m ((e : Int) - (if bits = 4 then 128 else 132))

/-- The value of an element of a block register. -/
def blockValue (t : VTy) (code : Nat) (sc : Nat × Nat) : Num :=
  match t with
  | .ds4 => dsValue 4 code sc.1 sc.2
  | .ds8 => dsValue 8 code sc.1 sc.2
  | _ => if sc.1 = 255 then .nan false else
    match decodeNum .e2m1 code 0 with
    | .fin s m e => .fin s m (e + (sc.1 : Int) - 127)
    | v => v

/-- Element `e` of a block register. -/
def VGroup.blockElem (g : VGroup) (t : VTy) (e : Nat) : Num := blockValue t (g.elem (tyWidth t) e).1 (g.scales t (e / 32))

/-! ### `vcvt` and `vrnd` (R240-R242) -/

/-- The exact value of a source element of a conversion. -/
def cvtSource (f : VFields) (x : VCtx) (g : VGroup) (e : Nat) : Num :=
  let t := ty2 f
  if isF6 f && f.t2 = .none then
    let q := g.field6 e
    decodeNum (f6Fmt f) q.1 q.2
  else if tyIsBlock t then g.blockElem t e
  else if isInt t then .ofInt (readInt (isSigned t) (x.w2 f) (g.elem (x.w2 f) e).1)
  else ext (fmtOf t) (g.elem (x.w2 f) e)

/-- The registers of the two sides of a conversion: a 6-bit side lies in one register. -/
def cvtSideD (f : VFields) : Width := if isF6 f && f.t1 = .none then .one else .ty f.t1
/-- The source side. -/
def cvtSideA (f : VFields) : Width := if isF6 f && f.t2 = .none then .one else .ty (ty2 f)

/-- Writes the active fields of a 6-bit destination. -/
def CT.mapFields (c : CT) (f : VFields) (x : VCtx) (a : Nat) (go : Nat → Elem × Flags) : CT :=
  let r := (c.actives f x).foldl (fun (q : VGroup × Flags) e =>
    let y := go e
    (q.1.put6 e y.1, q.2 ||| y.2)) (c.operand x a f.vd .one, noFlags)
  (c.setOperand x a f.vd .one r.1).raise r.2

/-- Writes a conversion's active elements, into 6-bit fields or elements of t1. -/
def CT.mapCvt (c : CT) (f : VFields) (x : VCtx) (a : Nat) (go : FFmt → Nat → Elem × Flags) : CT :=
  if isF6 f && f.t1 = .none then c.mapFields f x a (go (f6Fmt f))
  else c.mapElems f x a (cvtSideD f) (x.w1 f) (go (fmtOf f.t1))

/-- The flag of a signalling NaN. -/
def snanFlag (v : Num) : Flags := flagIf v.isSnan fNv

/-- `vcvt` (R240, R241). -/
def doVcvt : VCore := fun f x a c =>
  let ga := c.operand x a f.va (cvtSideA f)
  c.mapCvt f x a (fun fm e =>
    if f.t1 = ty2 f && !isF6 f then (ga.elem (x.w1 f) e, 0)
    else
      let v := cvtSource f x ga e
      if isInt f.t1 then
        let w := x.w1 f
        let r := if isInt (ty2 f)
          then fit (isSigned f.t1) w f.sat (readInt (isSigned (ty2 f)) (x.w2 f) (ga.elem (x.w2 f) e).1)
          else numToInt (isSigned f.t1) w (x.mode f) v
        ((r.1, 0), r.2)
      else narrowInto fm (v, snanFlag v))

/-- `vrnd` (R242): under keep the element keeps its tail. -/
def doVrnd : VCore := fun f x a c =>
  let ga := c.operand x a f.va (cvtSideA f)
  c.mapCvt f x a (fun fm e =>
    let v := cvtSource f x ga e
    let n := narrowInto fm (v, snanFlag v)
    if x.mode f = .keep then n
    else
      let r := roundFinal fm n.1.1 n.1.2 (x.mode f) f.sat
      ((r.1, 0), n.2 ||| r.2))

/-! ### Quantisation (R133, R143-R145, R243) -/

/-- |v| / 2^g rounded to an integer under a mode: the integer and whether it is exact (R143). -/
def gridRound (neg : Bool) (m : Nat) (e g : Int) (mode : RMode) : Nat × Bool :=
  let k := e - g
  if m = 0 then (0, true)
  else if 0 ≤ k then (if 70 < k then (2 ^ 70, true) else (m * 2 ^ k.toNat, true))
  else
    let s := (-k).toNat
    let (q, tail) :=
      if Nat.log2 m + 2 < s then (0, 1)
      else
        let r := m % 2 ^ s
        let half := 2 ^ (s - 1)
        (m / 2 ^ s, if r = 0 then 0 else if r < half then 1 else if r = half then 2 else 3)
    (if away mode tail neg (q % 2 == 1) then q + 1 else q, tail == 0)

/-- The greater magnitude of a number and a magnitude `m * 2^e`; none stands for an infinity. -/
def maxMag (best : Option (Nat × Int)) (v : Num) : Option (Nat × Int) :=
  match best, v with
  | none, _ => none
  | some _, .inf _ => none
  | some (m, e), .fin _ n k => if numLt (.fin false m e) (.fin false n k) then some (n, k) else some (m, e)
  | b, _ => b

/-- What a quantised block is: scales, element codes, flags. -/
structure QBlock where
  scales : Nat × Nat
  codes  : List Nat
  flags  : Flags

/-- The distance of a candidate `m * 2^g` from a finite value. -/
def gridDist (m : Nat) (g : Int) (vm : Nat) (ve : Int) : Num :=
  ((numSub (.fin false m g) (.fin false vm ve)).1).withSign false

/-- One DS element on its two grids (R144). A magnitude that rounds past mmax on grid e1 takes mmax where no e1 was found and sat
has it clamp (R143); where an e1 was found, with sat or without, the spec states no element for it: a free value
(notes/assumptions/3.md). -/
def dsElem (k : Int) (mmax : Nat) (e0 e1 : Nat) (mode : RMode) (clamp : Bool) (v : Num) : Nat × Flags :=
  let code (sel : Nat) (s : Bool) (m : Nat) := sel * (2 * (mmax + 1)) + b2n s * (mmax + 1) + m
  match v with
  | .fin s vm ve =>
    let g0 := (e0 : Int) - k
    let g1 := (e1 : Int) - k
    let c0 := (gridRound s vm ve g0 mode).1
    let c1 := (gridRound s vm ve g1 mode).1
    let big := mmax < c1
    let m1 := if !big then c1 else if clamp then mmax else Config.quantOver mmax c1 % (mmax + 1)
    let first := c0 ≤ mmax && numLt (gridDist c0 g0 vm ve) (gridDist m1 g1 vm ve)
    let m := if first then c0 else m1
    let exact := (gridDist m (if first then g0 else g1) vm ve).isZero
    (code (if first then 0 else 1) s m, flagIf (!exact) fNx ||| flagIf (vm ≠ 0 ∧ m = 0) fUf)
  | .inf s => (code 1 s mmax, fNx)
  | .nan _ => (0, 0)

/-- The smallest e1 from 0 to 254 whose grid holds amax (R143). -/
def scaleFor (k : Int) (mmax : Nat) (mode : RMode) : Option (Nat × Int) → Option Nat
  | none => none
  | some (m, e) => (List.range 255).find? (fun (n : Nat) => (gridRound false m e ((n : Int) - k) mode).1 ≤ mmax)

/-- A DS4 or DS8 block of 32 values (R143, R144). -/
def quantDs (t : VTy) (gap : Nat) (mode : RMode) (sat : Bool) (vs : List Num) : QBlock :=
  let k : Int := if t = .ds4 then 128 else 132
  let mmax := if t = .ds4 then 3 else 63
  if vs.any Num.isNan then ⟨(255, 255), vs.map (fun _ => 0), fNv⟩
  else
    let amax := vs.foldl maxMag (some (0, 0))
    let build (e1 : Nat) (fl : Flags) (clamp : Bool) : QBlock :=
      let e0 := e1 - gap
      let qs := vs.map (dsElem k mmax e0 e1 mode clamp)
      ⟨(e0, e1), qs.map (·.1), qs.foldl (fun f q => f ||| q.2) fl⟩
    match scaleFor k mmax mode amax with
    | some e1 => build (if amax = some (0, 0) then 0 else e1) 0 false
    | none => if sat then build 254 (fOf ||| fNx) true else ⟨(255, 255), vs.map (fun _ => 0), fOf ||| fNx⟩

/-- An MXFP4 block of 32 values (R145). -/
def quantMx (mode : RMode) (sat : Bool) (vs : List Num) : QBlock :=
  let nan := vs.any Num.isNan
  let amax := (vs.filter (fun v => !v.isNan)).foldl maxMag (some (0, 0))
  let x : Nat := if nan then 255 else match amax with
    | none => 254
    | some (m, e) => if m = 0 then 0 else (min 254 (max 0 ((Nat.log2 m : Int) + e - 2 + 127))).toNat
  let qs := vs.map (fun v =>
    let v := match v with
      | .fin s m e => Num.fin s m (e + 127 - (x : Int))
      | v => v
    let n := narrowTail .e2m1 v
    let r := roundFinal .e2m1 n.code n.tail mode sat
    (r.1, n.flags ||| r.2))
  ⟨(x, 0), qs.map (·.1), qs.foldl (fun f q => f ||| q.2) (flagIf nan fNv)⟩

/-- An MXFP4 block as a DS8 block (R133). Of scale 255 the rule states the scales; that its elements become what those of the
other scales do is DEDUCED (notes/assumptions/32.md). -/
def mxToDs (x : Nat) (codes : List Nat) : QBlock :=
  let e := if x = 255 then 255 else min 254 (x + 2)
  let shift := if x = 253 then 1 else if x = 254 then 2 else 0
  let qs := codes.map (fun q =>
    let m8 := match decodeNum .e2m1 q 0 with
      | .fin _ m k => m * 2 ^ (k + 3 + shift).toNat
      | _ => 0
    let big := 63 < m8
    (q / 8 * 64 + min 63 m8, flagIf big (fOf ||| fNx)))
  ⟨(e, e), qs.map (·.1), qs.foldl (fun f q => f ||| q.2) 0⟩

/-- Writes a quantised block. -/
def VGroup.putBlock (g : VGroup) (t : VTy) (b : Nat) (q : QBlock) : VGroup :=
  let w := tyWidth t
  let pay := (q.codes.zipIdx).foldl (fun p c => putBits p (w * (32 * b + c.2)) w c.1) g.pay
  ({ g with pay := pay }).putScales t b q.scales

/-- `vbquant` (R243). -/
def doVbquant : VCore := fun f x a c =>
  let ga := c.operand x a f.va (.ty f.t2)
  let quant (b : Nat) : QBlock :=
    let es := (List.range 32).map (fun j => 32 * b + j)
    if f.t2 = .mx4 then mxToDs (ga.scales .mx4 b).1 (es.map (fun e => (ga.elem 4 e).1))
    else
      let vs := es.map (fun e => ext (fmtOf f.t2) (ga.elem (x.w2 f) e))
      if f.t1 = .mx4 then quantMx (x.mode f) f.sat vs else quantDs f.t1 (x.vtype.dsGap f.t1) (x.mode f) f.sat vs
  let r := (List.range (x.vl / 32)).foldl (fun (q : VGroup × Flags) b =>
    let y := quant b
    (q.1.putBlock f.t1 b y, q.2 ||| y.flags)) (c.operand x a f.vd (.ty f.t1), noFlags)
  (c.setOperand x a f.vd (.ty f.t1) r.1).raise r.2

/-- `vbscale.get` (R244). -/
def doVbscaleGet : VCore := fun f x a c =>
  let ga := c.operand x a f.va (.ty f.t2)
  let w := tyWidth f.t1
  let g := (List.range (x.vl / 32)).foldl (fun g b =>
    let e := ga.scales f.t2 b
    g.put w b (if f.t2 = .mx4 then e.1 else e.1 + 256 * e.2, 0)) (c.operand x a f.vd .one)
  c.setOperand x a f.vd .one g

/-- `vbscale.set` (R244). -/
def doVbscaleSet : VCore := fun f x a c =>
  let ga := c.operand x a f.va (.ty f.t1)
  let gb := c.operand x a f.vb .one
  let w := tyWidth f.t2
  let g := (List.range (x.vl / 32)).foldl (fun g b =>
    let n := (gb.elem w b).1
    (g.copyBlock ga f.t1 b).putScales f.t1 b (n % 256, n / 256)) (c.operand x a f.vd (.ty f.t1))
  c.setOperand x a f.vd (.ty f.t1) g

/-! ### Exponents and tails (R245, R246) -/

/-- `vexpn.get` (R245). -/
def doVexpnGet : VCore := fun f x a c =>
  let ga := c.operand x a f.va (.ty f.t2)
  let w := x.w1 f
  c.mapElems f x a (.ty f.t1) w (fun e =>
    let v := ext (fmtOf f.t2) (ga.elem (x.w2 f) e)
    let r : Int := match v with
      | .fin _ m k => if m = 0 then (intRange true w).1 else (Nat.log2 m : Int) + k
      | _ => (intRange true w).2
    let q := fit true w f.sat r
    ((q.1, 0), q.2 ||| snanFlag v))

/-- `vexpn.scl` (R245). -/
def doVexpnScl : VCore := fun f x a c =>
  let ga := c.operand x a f.va (.ty f.t1)
  let gb := c.operand x a f.vb (.ty f.t2)
  let fm := fmtOf f.t1
  c.mapElems f x a (.ty f.t1) (x.w1 f) (fun e =>
    let v := ext fm (ga.elem (x.w1 f) e)
    let k := readInt true (x.w2 f) (gb.elem (x.w2 f) e).1
    let y := match v with
      | .fin s m q => Num.fin s m (q + k)
      | v => v
    narrowInto fm (y, snanFlag v))

/-- `vtail.get` (R246). -/
def doVtailGet : VCore := fun f x a c =>
  let ga := c.operand x a f.va (.ty f.t2)
  c.mapElems f x a (.ty f.t1) (x.w1 f) (fun e => (((ga.elem (x.w2 f) e).2, 0), 0))

/-- `vtail.set` (R246): an infinity or NaN keeps tail 00. -/
def doVtailSet : VCore := fun f x a c =>
  let ga := c.operand x a f.va (.ty f.t1)
  let gb := c.operand x a f.vb (.ty f.t2)
  c.mapElems f x a (.ty f.t1) (x.w1 f) (fun e =>
    let q := ga.elem (x.w1 f) e
    match decodeNum (fmtOf f.t1) q.1 0 with
    | .fin _ _ _ => ((q.1, (gb.elem (x.w2 f) e).1 % 4), 0)
    | _ => ((q.1, 0), 0))

/-- `vtail.clr` (R246). -/
def doVtailClr : VCore := fun f x a c =>
  let ga := c.operand x a f.va (.ty f.t1)
  c.mapElems f x a (.ty f.t1) (x.w1 f) (fun e => (((ga.elem (x.w1 f) e).1, 0), 0))

end Sys2Proof.Machine
end

