-- ==== Sys2Proof/Machine/VPermute.lean ====
section
/-! DEFINITION. Moves, selects, permutations and predicate operations of the vector unit
(14_instructions_convert_permute_reduce.md R247-R254, R257, R258). -/

namespace Sys2Proof.Machine

open Sys2Proof

/-- Bit `e` of a predicate named by a field. -/
def CT.predBit (c : CT) (f : VFields) (r : BitVec 6) (bit e : Nat) : Bool := (c.getP (predNo f r bit)).getLsbD e

/-- A zero element. -/
def zeroElem : Elem := (0, 0)

/-- Moves elements of one type into the active elements of vd. -/
def moveOver (f : VFields) (x : VCtx) (a : Nat) (c : CT) (go : Nat → Elem) : CT :=
  c.mapElems f x a (.ty f.t1) (x.w1 f) (fun e => (go e, 0))

/-- `vmv` (R247): block types move whole blocks, from the one that holds `vstart` on, and nothing of a last one that VL cuts off, as R215 has
it for loads and stores (DESIGN CHOICE, notes/assumptions/32.md). -/
def doVmv : VCore := fun f x a c =>
  let ga := c.operand x a f.va (.ty f.t1)
  if tyIsBlock f.t1 then
    let bs := (List.range (x.vl / 32)).filter (fun b => x.vstart / 32 ≤ b)
    c.setOperand x a f.vd (.ty f.t1) (bs.foldl (fun g b => g.copyBlock ga f.t1 b) (c.operand x a f.vd (.ty f.t1)))
  else moveOver f x a c (ga.elem (x.w1 f))

/-- `vsel` (R247). -/
def doVsel : VCore := fun f x a c =>
  let w := x.w1 f
  let ga := c.operand x a f.va (.ty f.t1)
  let gb := c.operand x a f.vb (.ty f.t1)
  moveOver f x a c (fun e => if c.predBit f f.vc 5 e then ga.elem w e else src2 f x w gb e)

/-- `vbcast` (R248), by its three forms. -/
def doVbcast : VCore := fun f x a c =>
  let x := x.whole
  let w := x.w1 f
  let ga := c.operand x a f.va (.ty f.t1)
  match fld f.fn.toNat 0 2 with
  | 0 => moveOver f x a c (fun _ => (x.ga.toNat % 2 ^ w, 0))
  | 1 => moveOver f x a c (fun _ => if x.gb.toNat < x.vl then ga.elem w x.gb.toNat else zeroElem)
  | _ => moveOver f x a c (fun e => ga.elem w (e / 32))

/-- `vextr` (R249): a final rounding for a float element; an index at or beyond VL gives 0. -/
def doVextr : VCore := fun f x a c =>
  let w := x.w1 f
  let d : GReg := Fin.ofNat 32 f.vd.toNat
  if x.vl ≤ x.gb.toNat then c.setG d 0
  else
    let q := (c.operand x a f.va (.ty f.t1)).elem w x.gb.toNat
    if isFloat f.t1 then
      let r := roundFinal (fmtOf f.t1) q.1 q.2 (x.mode f) f.sat
      let fl := r.2
      (c.setG d (w64 r.1)).raise fl
    else c.setG d (BitVec.ofInt 64 (readInt (isSigned f.t1) w q.1))

/-- `vins` (R249). -/
def doVins : VCore := fun f x a c =>
  let w := x.w1 f
  if x.vl ≤ x.gb.toNat then c
  else
    c.setOperand x a f.vd (.ty f.t1)
      ((c.operand x a f.vd (.ty f.t1)).put w x.gb.toNat (x.ga.toNat % 2 ^ w, 0))

/-- `viota` (R250). -/
def doViota : VCore := fun f x a c =>
  let x := x.whole
  let w := x.w1 f
  moveOver f x a c (fun e =>
    (((List.range e).filter (fun i => c.isActive f x i && c.predBit f f.va 7 i)).length % 2 ^ w, 0))

/-- The elements that pb selects, ascending (R251). -/
def CT.selected (c : CT) (f : VFields) (x : VCtx) : List Nat := (List.range x.vl).filter (c.predBit f f.vb 6)

/-- `vcompress` (R251). -/
def doVcompress : VCore := fun f x a c =>
  let w := x.w1 f
  let ga := c.operand x a f.va (.ty f.t1)
  let g := ((c.selected f x).zipIdx).foldl (fun g q => g.put w q.2 (ga.elem w q.1)) (c.operand x a f.vd (.ty f.t1))
  c.setOperand x a f.vd (.ty f.t1) g

/-- `vexpand` (R251). -/
def doVexpand : VCore := fun f x a c =>
  let w := x.w1 f
  let ga := c.operand x a f.va (.ty f.t1)
  let g := ((c.selected f x).zipIdx).foldl (fun g q => g.put w q.1 (ga.elem w q.2)) (c.operand x a f.vd (.ty f.t1))
  c.setOperand x a f.vd (.ty f.t1) g

/-- `vperm` (R252): with fn[0], pc receives which indices lay below VL. -/
def doVperm : VCore := fun f x a c =>
  let x := x.whole
  let w := x.w1 f
  let ga := c.operand x a f.va (.ty f.t1)
  let gb := c.operand x a f.vb (.ty (ty2 f))
  let idx (e : Nat) := (gb.elem (x.w2 f) e).1
  let moved := moveOver f x a c (fun e => if idx e < x.vl then ga.elem w (idx e) else zeroElem)
  if fnBit f 0 then
    let p := predNo f f.vc 5
    moved.setP p ((c.putPred f x p (fun e => (decide (idx e < x.vl), 0))).getP p)
  else moved

/-- `vpush` (R253): with fn[0], pc receives the collisions. -/
def doVpush : VCore := fun f x a c =>
  let x := x.whole
  let w := x.w1 f
  let ga := c.operand x a f.va (.ty f.t1)
  let gb := c.operand x a f.vb (.ty (ty2 f))
  let r := (c.actives f x).foldl (fun (q : VGroup × List Nat × Nat) e =>
    let i := (gb.elem (x.w2 f) e).1
    if i < x.vl then
      (q.1.put w i (ga.elem w e), i :: q.2.1, if q.2.1.contains i then putBits q.2.2 i 1 1 else q.2.2)
    else q) (c.operand x a f.vd (.ty f.t1), [], 0)
  let c := c.setOperand x a f.vd (.ty f.t1) r.1
  if fnBit f 0 then c.setP (predNo f f.vc 5) (BitVec.ofNat 2048 r.2.2) else c

/-- The amount of a slide: the scalar register, or the 6-bit immediate read unsigned (R254). -/
def slideBy (f : VFields) (x : VCtx) : Nat := if formBits f = 1 then x.gb.toNat else f.vb.toNat

/-- `vslideup` (Table 14.4): elements below the amount are unchanged. -/
def doVslideup : VCore := fun f x a c =>
  let x := x.whole
  let w := x.w1 f
  let k := slideBy f x
  let ga := c.operand x a f.va (.ty f.t1)
  let gd := c.operand x a f.vd (.ty f.t1)
  let g := ((c.actives f x).filter (fun e => k ≤ e)).foldl (fun g e => g.put w e (ga.elem w (e - k))) gd
  c.setOperand x a f.vd (.ty f.t1) g

/-- `vslidedn` (Table 14.4). -/
def doVslidedn : VCore := fun f x a c =>
  let x := x.whole
  let w := x.w1 f
  let k := slideBy f x
  let ga := c.operand x a f.va (.ty f.t1)
  moveOver f x a c (fun e => if e + k < x.vl then ga.elem w (e + k) else zeroElem)

/-- `vrev` (Table 14.4). -/
def doVrev : VCore := fun f x a c =>
  let x := x.whole
  let ga := c.operand x a f.va (.ty f.t1)
  moveOver f x a c (fun e => ga.elem (x.w1 f) (x.vl - 1 - e))

/-- `vzip` (Table 14.4): Z(e), or Z(VL + e) in the high form. -/
def doVzip : VCore := fun f x a c =>
  let x := x.whole
  let w := x.w1 f
  let ga := c.operand x a f.va (.ty f.t1)
  let gb := c.operand x a f.vb (.ty f.t1)
  moveOver f x a c (fun e =>
    let n := if fnBit f 0 then x.vl + e else e
    if n % 2 = 0 then ga.elem w (n / 2) else gb.elem w (n / 2))

/-- `vunzip` (Table 14.4): C(2e), or C(2e + 1) in the odd form. -/
def doVunzip : VCore := fun f x a c =>
  let x := x.whole
  let w := x.w1 f
  let ga := c.operand x a f.va (.ty f.t1)
  let gb := c.operand x a f.vb (.ty f.t1)
  moveOver f x a c (fun e =>
    let n := 2 * e + b2n (fnBit f 0)
    if n < x.vl then ga.elem w n else gb.elem w (n - x.vl))

/-! ### Predicates (R257, R258) -/

/-- The active elements whose pa bit is 1. -/
def CT.marked (c : CT) (f : VFields) (x : VCtx) : List Nat := (c.actives f x).filter (c.predBit f f.va 7)

/-- `vpopc` (R257). -/
def doVpopc : VCore := fun f x _ c => c.setG (Fin.ofNat 32 f.vd.toNat) (w64 (c.marked f x.whole).length)

/-- `vfirst` (R257): all ones when there is none. -/
def doVfirst : VCore := fun f x _ c =>
  c.setG (Fin.ofNat 32 f.vd.toNat) (match (c.marked f x.whole).head? with
    | some e => w64 e
    | none => BitVec.allOnes 64)

/-- `vpand` (R258). -/
def doVpand : VCore := fun f x _ c => c.mapBits f x (fun e => (c.predBit f f.va 7 e && c.predBit f f.vb 6 e, 0))
/-- `vpor` (R258). -/
def doVpor : VCore := fun f x _ c => c.mapBits f x (fun e => (c.predBit f f.va 7 e || c.predBit f f.vb 6 e, 0))
/-- `vpxor` (R258). -/
def doVpxor : VCore := fun f x _ c => c.mapBits f x (fun e => (c.predBit f f.va 7 e != c.predBit f f.vb 6 e, 0))
/-- `vpnot` (R258). -/
def doVpnot : VCore := fun f x _ c => c.mapBits f x (fun e => (!c.predBit f f.va 7 e, 0))
/-- `vpset` (R258). -/
def doVpset : VCore := fun f x _ c => c.mapBits f x (fun e => (decide (e < x.ga.toNat), 0))

end Sys2Proof.Machine
end

