-- ==== Sys2Proof/Machine/VReduce.lean ====
section
/-! DEFINITION. Reductions (14_instructions_convert_permute_reduce.md R255, R256). -/

namespace Sys2Proof.Machine

open Sys2Proof

/-- Writes element 0 of vd where VL is at least 1 (R255). -/
def CT.putFirst (c : CT) (f : VFields) (x : VCtx) (a : Nat) (y : Elem × Flags) : CT :=
  if x.vl = 0 then c
  else (c.setOperand x a f.vd (.ty f.t1) ((c.operand x a f.vd (.ty f.t1)).put (x.w1 f) 0 y.1)).raise y.2

/-- `vredsum` (R255). -/
def doVredsum : VCore := fun f x a c =>
  let x := x.whole
  let w := x.w1 f
  let ga := c.operand x a f.va (.ty (ty2 f))
  let gb := c.operand x a f.vb (.ty f.t1)
  let total := (c.actives f x).foldl (fun n e => n + readInt (isSigned f.t1) (x.w2 f) (ga.elem (x.w2 f) e).1)
    (readInt (isSigned f.t1) w (gb.elem w 0).1)
  let r := fit (isSigned f.t1) w f.sat total
  c.putFirst f x a ((r.1, 0), r.2)

/-- The fold of `vredmin` and `vredmax` over floats (R255): NaNs are decided over all operands at once; among equal
values the earliest is kept. -/
def foldMinMax (big : Bool) (vs : List Num) : NumRes :=
  if vs.any Num.isSnan then invalid
  else
    match vs.filter (fun v => !v.isNan) with
    | [] => (.nan false, 0)
    | v :: rest => (rest.foldl (fun m v => (numMinMax big m v).1) v, 0)

/-- `vredmin` and `vredmax` (R255). -/
def redMinMax (big : Bool) (f : VFields) (x : VCtx) (a : Nat) (c : CT) : CT :=
  let x := x.whole
  let w := x.w1 f
  let ga := c.operand x a f.va (.ty f.t1)
  let gb := c.operand x a f.vb (.ty f.t1)
  let qs := gb.elem w 0 :: (c.actives f x).map (ga.elem w)
  if isFloat f.t1 then
    let fm := fmtOf f.t1
    c.putFirst f x a (narrowInto fm (foldMinMax big (qs.map (ext fm))))
  else
    let vs := qs.map (fun q => readInt (isSigned f.t1) w q.1)
    let r := vs.tail.foldl (fun m v => if big then max m v else min m v) (vs.headD 0)
    c.putFirst f x a ((wrapInt w r, 0), 0)

/-- `vredmin` (R255). -/
def doVredmin : VCore := redMinMax false
/-- `vredmax` (R255). -/
def doVredmax : VCore := redMinMax true

/-- One addition of a float sum, narrowed (R256). -/
def addStep (fm : FFmt) (s : Elem × Flags) (v : Num) : Elem × Flags :=
  let r := narrowInto fm (numAdd (ext fm s.1) v)
  (r.1, s.2 ||| r.2)

/-- A value narrowed as the first of a sum; a signalling NaN sets nv. -/
def firstStep (fm : FFmt) (v : Num) : Elem × Flags := narrowInto fm (v, snanFlag v)

/-- A sum of values in order. -/
def sumSeq (fm : FFmt) (vs : List Num) : Option (Elem × Flags) := match vs with
  | [] => none
  | v :: rest => some (rest.foldl (addStep fm) (firstStep fm v))

/-- The halving tree of the partial sums: split after the first half, rounded up (R256); `fuel` is their number. -/
def halveSum (fm : FFmt) : (fuel : Nat) → List (Elem × Flags) → Elem × Flags
  | 0, qs => qs.headD (zeroElem, 0)
  | fuel + 1, qs =>
    if qs.length ≤ 1 then qs.headD (zeroElem, 0)
    else
      let k := (qs.length + 1) / 2
      let l := halveSum fm fuel (qs.take k)
      let r := halveSum fm fuel (qs.drop k)
      let s := addStep fm l (ext fm r.1)
      (s.1, s.2 ||| r.2)

/-- `vfredsum` (R256): sequential, or by this part's chunks and halving tree. -/
def doVfredsum : VCore := fun f x a c =>
  let x := x.whole
  let fm := fmtOf f.t1
  let ga := c.operand x a f.va (.ty (ty2 f))
  let gb := c.operand x a f.vb (.ty f.t1)
  let start := ext fm (gb.elem (x.w1 f) 0)
  let val (e : Nat) : Num := ext (fmtOf (ty2 f)) (ga.elem (x.w2 f) e)
  let acts := c.actives f x
  if fnBit f 0 then
    let chunks := (List.range (x.vl / 32 + 1)).filterMap (fun j =>
      sumSeq fm ((acts.filter (fun e => e / 32 = j)).map val))
    if chunks = [] then c.putFirst f x a (firstStep fm start)
    else
      let t := halveSum fm chunks.length chunks
      c.putFirst f x a (addStep fm t start)
  else c.putFirst f x a ((acts.map val).foldl (addStep fm) (firstStep fm start))

end Sys2Proof.Machine
end

