-- ==== Sys2Proof/Machine/VAlu.lean ====
section
/-! DEFINITION. The vector instructions that only compute on registers, each with what it does to them, and the combine
programs made of them (03_sorting_and_merging.md R63, R64; 09_idioms.md R169). -/

namespace Sys2Proof.Machine

open Sys2Proof

/-- What a vector instruction of the units VA, VB, VM, SF and PS does to the registers; none for memory, matrix and sort
instructions and for every other step. -/
def coreOp : Instr → Option (VFields × VCore)
  | .vadd f => some (f, doVadd) | .vsub f => some (f, doVsub) | .vmul f => some (f, doVmul)
  | .vmulh f => some (f, doVmulh) | .vmacc f => some (f, doVmacc) | .vwmul f => some (f, doVwmul)
  | .vwmacc f => some (f, doVwmacc) | .vsadd f => some (f, doVsadd) | .vssub f => some (f, doVssub)
  | .vand f => some (f, doVand) | .vor f => some (f, doVor) | .vxor f => some (f, doVxor)
  | .vshl f => some (f, doVshl) | .vshr f => some (f, doVshr) | .vsha f => some (f, doVsha)
  | .vnshr f => some (f, doVnshr) | .vmin f => some (f, doVmin) | .vmax f => some (f, doVmax)
  | .vabs f => some (f, doVabs) | .vcmp f => some (f, doVcmp)
  | .vfadd f => some (f, doVfadd) | .vfsub f => some (f, doVfsub) | .vfmul f => some (f, doVfmul)
  | .vfma f => some (f, doVfma) | .vfnma f => some (f, doVfnma) | .vfdiv f => some (f, doVfdiv)
  | .vfmin f => some (f, doVfmin) | .vfmax f => some (f, doVfmax) | .vfabs f => some (f, doVfabs)
  | .vfneg f => some (f, doVfneg) | .vfcmp f => some (f, doVfcmp) | .vcmpt f => some (f, doVcmpt)
  | .vfsqrt f => some (f, doVfsqrt) | .vsfu f => some (f, doVsfu)
  | .vcvt f => some (f, doVcvt) | .vrnd f => some (f, doVrnd)
  | .vbscaleGet f => some (f, doVbscaleGet) | .vbscaleSet f => some (f, doVbscaleSet)
  | .vbquant f => some (f, doVbquant) | .vexpnGet f => some (f, doVexpnGet) | .vexpnScl f => some (f, doVexpnScl)
  | .vtailGet f => some (f, doVtailGet) | .vtailSet f => some (f, doVtailSet) | .vtailClr f => some (f, doVtailClr)
  | .vmv f => some (f, doVmv) | .vsel f => some (f, doVsel) | .vbcast f => some (f, doVbcast)
  | .vextr f => some (f, doVextr) | .vins f => some (f, doVins) | .viota f => some (f, doViota)
  | .vcompress f => some (f, doVcompress) | .vexpand f => some (f, doVexpand) | .vperm f => some (f, doVperm)
  | .vpush f => some (f, doVpush) | .vslideup f => some (f, doVslideup) | .vslidedn f => some (f, doVslidedn)
  | .vrev f => some (f, doVrev) | .vzip f => some (f, doVzip) | .vunzip f => some (f, doVunzip)
  | .vredsum f => some (f, doVredsum) | .vfredsum f => some (f, doVfredsum) | .vredmin f => some (f, doVredmin)
  | .vredmax f => some (f, doVredmax) | .vpopc f => some (f, doVpopc) | .vfirst f => some (f, doVfirst)
  | .vpand f => some (f, doVpand) | .vpor f => some (f, doVpor) | .vpxor f => some (f, doVpxor)
  | .vpnot f => some (f, doVpnot) | .vpset f => some (f, doVpset)
  | _ => none

/-! ### Combine programs -/

/-- Whether an instruction is one that a combine program may hold (R169): an integer instruction of Table 13.2 or a
floating one of Table 13.3, or `vfmin`, `vfmax`, `vfabs`, `vfneg`. -/
def combineKind : Instr → Bool
  | .vadd _ | .vsub _ | .vmul _ | .vmulh _ | .vmacc _ | .vsadd _ | .vssub _ | .vand _ | .vor _ | .vxor _ | .vshl _
  | .vshr _ | .vsha _ | .vmin _ | .vmax _ | .vabs _ | .vfadd _ | .vfsub _ | .vfmul _ | .vfma _ | .vfnma _ | .vfdiv _
  | .vfsqrt _ | .vfmin _ | .vfmax _ | .vfabs _ | .vfneg _ => true
  | _ => false

/-- Whether a word is an operation that a combine program may hold: its destination is a, its sources are a, b or an
immediate, with none of the forms that R169 rejects. -/
def combineWordOk (w : BitVec 64) : Bool :=
  match decodeVec w.toNat with
  | .error _ => false
  | .ok i =>
    match formOf i, fieldsOf i with
    | some m, some f =>
      let source (r : Role) (x : BitVec 6) := match r with
        | .vec _ => x.toNat ≤ 1
        | .g => false
        | _ => true
      combineKind i && bitsOk m f && f.vd = 0 && source m.va f.va && source m.vb f.vb && source m.vc f.vc &&
        f.t2 = .none && f.smod.toNat ≤ 2 && f.pm = 0 && !f.pn
    | _, _ => false

/-- Whether a combine entry is one that a launch accepts (R349). -/
def combineOk (e : Combine) : Bool := e.ops.length ≤ 16 && e.ops.all combineWordOk

/-- Bytes of a record that one pass over a register pair holds. -/
def sliceBytes : Nat := 1024

/-- The record registers of one slice: v0 is A and v1 is B. -/
def sliceCt (a b : VReg) : CT := { CT.reset with v := (CT.reset.v.set 0 a).set 1 b }

/-- The state an operation of a combine program takes: every element active, `rne` where rnd is 000 (R64). -/
def sliceCtx (f : VFields) (n : Nat) : VCtx where
  pc := 0
  vl := 8 * n / max 1 (tyWidth f.t1)
  vtype := ⟨f.t1, 0, 0, 0⟩
  frm := 1
  vstart := 0
  ga := 0
  gb := 0
  gc := 0
  first := 0
  copy := none
  tag := 0
  tags := []
  lead := false

/-- Runs a program over one slice of `n` bytes: A afterwards, and the flags. -/
def runSlice (ops : List (BitVec 64)) (n : Nat) (a b : VReg) : VReg × Flags :=
  let c := ops.foldl (fun c w =>
    match decodeVec w.toNat with
    | .ok i => match coreOp i with
      | some (f, core) => core f (sliceCtx f n) 256 c
      | none => c
    | .error _ => c) (sliceCt a b)
  (c.getV 0, c.fflags)

/-- A record in slices, with tail 00. -/
def slicesOf (bs : List Byte) : List VReg :=
  (List.range ((bs.length + sliceBytes - 1) / sliceBytes)).map (fun k =>
    ⟨BitVec.ofNat 8192 (leNat ((bs.drop (sliceBytes * k)).take sliceBytes)), 0⟩)

/-- The key bytes of a slice that begins a record, restored with tail 00 (R63). -/
def restoreKey (kw : Nat) (key : Nat) (x : VReg) : VReg :=
  ⟨BitVec.ofNat 8192 (putBits x.payload.toNat 0 (8 * kw) key), BitVec.ofNat 4096 (putBits x.side.toNat 0 (4 * kw) 0)⟩

/-- Applies a combine entry to an accumulated record and the next one (R63). -/
def combineStep (e : Combine) (kw z key : Nat) (acc : List VReg × Flags) (bs : List Byte) : List VReg × Flags :=
  let qs := ((acc.1.zip (slicesOf bs)).zipIdx).map (fun q =>
    let r := runSlice e.ops (min sliceBytes (z - sliceBytes * q.2)) q.1.1 q.1.2
    (if q.2 = 0 then restoreKey kw key r.1 else r.1, r.2))
  (qs.map (·.1), qs.foldl (fun f q => f ||| q.2) acc.2)

/-- The type whose fields the final rounding of an entry rounds: that of its last operation, where it is a float one
(notes/assumptions/17.md). -/
def roundType (e : Combine) : Option VTy :=
  (e.ops.getLast?).bind (fun w => match decodeVec w.toNat with
    | .ok i => match fieldsOf i with
      | some f => if isFloat f.t1 then some f.t1 else none
      | none => none
    | .error _ => none)

/-- The final rounding of a combined record (R64): bytes and flags. -/
def roundFields (e : Combine) (z : Nat) (acc : List VReg × Flags) : List Byte × Flags :=
  let r : List VReg × Flags := match roundType e with
    | none => acc
    | some t =>
      let fm := fmtOf t
      let w := tyWidth t
      let qs := acc.1.map (fun (v : VReg) =>
        (List.range (8192 / w)).foldl (fun (q : VGroup × Flags) k =>
          let el := q.1.elem w k
          let r := roundFinal fm el.1 el.2 (modeWith e.rnd 1) false
          (q.1.put w k (r.1, 0), q.2 ||| r.2)) ((⟨v.payload.toNat, v.side.toNat⟩ : VGroup), noFlags))
      (qs.map (fun q => (⟨BitVec.ofNat 8192 q.1.pay, BitVec.ofNat 4096 q.1.side⟩ : VReg)),
        qs.foldl (fun f q => f ||| q.2) acc.2)
  ((r.1.flatMap (fun (v : VReg) => leBytes sliceBytes v.payload.toNat)).take z, r.2)

/-! ### Keys, order, merging (R53-R57) -/

/-- The key of a record, most significant byte first (R53). -/
def keyOf (kw : Nat) (bs : List Byte) : Nat := beNat (bs.take kw)

/-- Maximal groups of consecutive records with equal keys. -/
def keyGroups (kw : Nat) : List (List Byte) → List (List (List Byte))
  | [] => []
  | r :: rs =>
    match keyGroups kw rs with
    | (q :: g) :: more => if keyOf kw r = keyOf kw q then (r :: q :: g) :: more else [r] :: (q :: g) :: more
    | _ => [[r]]

/-- One group folded by an entry (R63); a group of one record is written unchanged. -/
def foldGroup (e : Combine) (kw : Nat) : List (List Byte) → List Byte × Flags
  | [] => ([], 0)
  | [r] => (r, 0)
  | r :: rs => roundFields e r.length (rs.foldl (combineStep e kw r.length (leNat (r.take kw))) (slicesOf r, noFlags))

/-- One combining pass over the records a merge or sort emits (R63): no entry, no combining. -/
def combinePass (e : Option Combine) (kw : Nat) (rs : List (List Byte)) : List (List Byte) × Flags :=
  match e with
  | none => (rs, 0)
  | some e =>
    let qs := (keyGroups kw rs).map (foldGroup e kw)
    (qs.map (·.1), qs.foldl (fun f q => f ||| q.2) 0)

/-- Puts a record before the first record whose key is not below its own. -/
def insertRec {α : Type} (key : α → Nat) (r : α) : List α → List α
  | [] => [r]
  | q :: qs => if key r ≤ key q then r :: q :: qs else q :: insertRec key r qs

/-- Records sorted stably by key (R53, R57). -/
def sortRecs {α : Type} (key : α → Nat) : List α → List α
  | [] => []
  | r :: rs => insertRec key r (sortRecs key rs)

/-- The number of the input whose head is emitted next: the least key, the lowest number among equals (R55). -/
def leastHead {α : Type} (key : α → Nat) (ins : List (List α)) : Option (Nat × α) :=
  (ins.zipIdx).foldl (fun best q => match q.1.head?, best with
    | none, _ => best
    | some r, none => some (q.2, r)
    | some r, some (k, m) => if key r < key m then some (q.2, r) else some (k, m)) none

/-- A merge of inputs by R55; `fuel` is the number of records. -/
def mergeRecs {α : Type} (key : α → Nat) : (fuel : Nat) → List (List α) → List α
  | 0, _ => []
  | fuel + 1, ins =>
    match leastHead key ins with
    | none => []
    | some (k, r) => r :: mergeRecs key fuel (ins.modify k List.tail)

/-- A merge of inputs, all their records. -/
def mergeAll {α : Type} (key : α → Nat) (ins : List (List α)) : List α := mergeRecs key ((ins.map List.length).sum) ins

/-- Order breaks of an input: records whose key is less than their predecessor's (R56). -/
def orderBreaks (kw : Nat) (rs : List (List Byte)) : Nat :=
  ((rs.zip (rs.drop 1)).filter (fun q => keyOf kw q.2 < keyOf kw q.1)).length

end Sys2Proof.Machine
end

