-- ==== Sys2Proof/Machine/VMem.lean ====
section
/-! DEFINITION. Vector memory instructions, run streams and vector atomics
(12_instructions_vector_memory_and_streams.md R211-R221). -/

namespace Sys2Proof.Machine

open Sys2Proof

/-- What the execution of a vector instruction comes to: done; a fault at an element, whose lower elements are complete
(R377); or a wait, with the element at which it goes on. -/
inductive VRes where
  | done (s : State)
  | fault (s : State) (elem : Nat) (cause : Cause) (tval : W64) (free : Bool)
  | wait (s : State) (elem : Nat)

/-- An instruction that only computes on registers. -/
def pureRun (core : VCore) (f : VFields) (x : VCtx) (s : State) : VRes :=
  let a := lanes s s.cur
  .done (s.upd (core f x a))

/-! ### Addresses (R211, R213, R214) -/

/-- base + off: the offset is imm9 * 16, sign-extended. -/
def vBase (f : VFields) (x : VCtx) : W64 := x.ga + sext64 f.fn * 16

/-- The forms of an access. -/
inductive VForm where
  | unit | strided | indexed | segment | broadcast | fields6 | blocks | image
  deriving DecidableEq, Repr

/-- An access: its form, whether it is of common memory, and whether it stores. -/
structure VAccess where
  form   : VForm
  common : Bool := false
  store  : Bool := false
  deriving DecidableEq, Repr

/-- The access of a vector memory instruction; none for the others, for streams and for atomics. -/
def accessOf : Instr → Option VAccess
  | .vld f => some { form := if tyIsBlock f.t1 then .blocks else if isF6 f then .fields6 else .unit }
  | .vlds _ => some { form := .strided }
  | .vldx _ => some { form := .indexed }
  | .vldseg _ => some { form := .segment }
  | .vst f => some { form := if tyIsBlock f.t1 then .blocks else if isF6 f then .fields6 else .unit, store := true }
  | .vsts _ => some { form := .strided, store := true }
  | .vstx _ => some { form := .indexed, store := true }
  | .vstseg _ => some { form := .segment, store := true }
  | .vldc _ => some { form := .unit, common := true }
  | .vstc _ => some { form := .unit, common := true, store := true }
  | .vspill _ => some { form := .image, store := true }
  | .vfill _ => some { form := .image }
  | .vldb _ => some { form := .broadcast }
  | _ => none

/-- The form that a type of `vtype` turns a unit access into: t1 0000 may resolve to a block type. -/
def VForm.resolved (m : VForm) (t : VTy) : VForm := if m = .unit && tyIsBlock t then .blocks else m

/-- Bytes of a block in memory (R130, R132). -/
def blockBytes (t : VTy) : Nat := match t with
  | .ds4 => 18 | .ds8 => 34 | _ => 17

/-- Bytes of an element in memory. -/
def elemBytes (x : VCtx) (t : VTy) : Nat := elemBits x.vtype t / 8

/-- The alignment of an access (R213). -/
def accessAlign (m : VForm) (es : Nat) (t : VTy) : Nat := match m with
  | .image => 16
  | .fields6 => 4
  | .blocks => 1
  | _ => if t = .record then 4 else es

/-- Fields of a segment access. -/
def segFields (f : VFields) : Nat := f.vc.toNat + 1

/-- The address of element `e`, and of field `k` of a segment. -/
def elemAddr (m : VForm) (f : VFields) (x : VCtx) (es e k : Nat) (idx : Nat) : W64 :=
  let b := vBase f x
  match m with
  | .strided => b + w64 e * x.gb
  | .indexed => b + w64 idx
  | .segment => b + w64 ((e * segFields f + k) * es)
  | .broadcast => b
  | .fields6 => b + w64 (4 * (e / 5))
  | _ => b + w64 (e * es)

/-- What elements `vstart` to VL - 1 touch, active or not: addresses with byte counts, in element order (R213). -/
def touched (m : VForm) (f : VFields) (x : VCtx) (t : VTy) : List (W64 × Nat) :=
  let es := elemBytes x t
  let els := (List.range x.vl).filter (fun e => x.vstart ≤ e)
  match m with
  | .image => [(vBase f x, 1536)]
  | .blocks =>
    ((List.range (x.vl / 32)).filter (fun b => x.vstart / 32 ≤ b)).map (fun b =>
      (vBase f x + w64 (b * blockBytes t), blockBytes t))
  | .segment => els.flatMap (fun e => (List.range (segFields f)).map (fun k => (elemAddr m f x es e k 0, es)))
  | .fields6 => els.map (fun e => (elemAddr m f x es e 0 0, 4))
  | .indexed => []
  | _ => els.map (fun e => (elemAddr m f x es e 0 0, es))

/-- The checks of R213 at the push: MISALIGN, then the bounds. -/
def memoryFault (i : VAccess) (f : VFields) (x : VCtx) (size : Nat) : Option (Cause × W64) :=
  let t := x.ty1 f
  let m := i.form.resolved t
  let al := accessAlign m (elemBytes x t) t
  let b := vBase f x
  if m = .indexed then none
  else if b.toNat % al ≠ 0 then some (.misalign, b)
  else if m = .strided ∧ x.gb.toNat % al ≠ 0 then some (.misalign, b + x.gb)
  else
    (touched m f x t).findSome? (fun q =>
      (beyond q.1.toNat q.2 size).map (fun n => (if i.common then Cause.commonBounds else Cause.localBounds, w64 n)))

/-- The bytes an access may touch, as one bounding interval: those of the elements, or the whole window where the
addresses come from a register (R327). -/
def footprint (i : VAccess) (f : VFields) (x : VCtx) (size : Nat) : List Interval :=
  let m := i.form.resolved (x.ty1 f)
  if m = .indexed then [⟨i.common, 0, size⟩]
  else
    match touched m f x (x.ty1 f) with
    | [] => []
    | q :: qs =>
      let r := qs.foldl (fun (p : Nat × Nat) q => (min p.1 q.1.toNat, max p.2 (q.1.toNat + q.2)))
        (q.1.toNat, q.1.toNat + q.2)
      [⟨i.common, r.1, r.2⟩]

/-! ### Loads -/

/-- Bytes as an access reads them (R83, R216), ahead of earlier ones where the part has done so (Table 21.5). -/
def readBytes (s : State) (common : Bool) (a n : Nat) : List Byte :=
  if common then vecRead s s.cur a n else s.me.locRead a n

/-- Loads the active elements, one address each: values with tail 00 (R214). -/
def loadElems (common : Bool) (m : VForm) (f : VFields) (x : VCtx) (s : State) : VRes :=
  let a := lanes s s.cur
  let c := s.me
  let t := x.ty1 f
  let es := elemBytes x t
  let w := x.w1 f
  let g := (c.actives f x).foldl (fun g e =>
    g.put w e (leNat (readBytes s common (elemAddr m f x es e 0 0).toNat es), 0)) (c.operand x a f.vd (.ty f.t1))
  .done (s.upd (fun c => c.setOperand x a f.vd (.ty f.t1) g))

/-- Loads 6-bit fields, widened exactly (R214). -/
def loadFields (f : VFields) (x : VCtx) (s : State) : VRes :=
  let a := lanes s s.cur
  let c := s.me
  let g := (c.actives f x).foldl (fun g e =>
    let w := leNat (c.locRead (elemAddr .fields6 f x 4 e 0 0).toNat 4)
    let n := narrowTail (fmtOf (x.ty1 f)) (decodeNum (f6Fmt f) (fld w (6 * (e % 5)) 6) 0)
    g.put (x.w1 f) e (n.code, n.tail)) (c.operand x a f.vd (.ty f.t1))
  .done (s.upd (fun c => c.setOperand x a f.vd (.ty f.t1) g))

/-- The blocks of an access (R215). -/
def movedBlocks (x : VCtx) : List Nat := (List.range (x.vl / 32)).filter (fun b => x.vstart / 32 ≤ b)

/-- Loads whole blocks: scale bytes, then payload (R215). -/
def loadBlocks (f : VFields) (x : VCtx) (s : State) : VRes :=
  let a := lanes s s.cur
  let t := x.ty1 f
  let c := s.me
  let n := blockBytes t
  let sb := if t = .mx4 then 1 else 2
  let l := blockLanes t
  let g := (movedBlocks x).foldl (fun (g : VGroup) b =>
    let bs := c.locRead (vBase f x + w64 (b * n)).toNat n
    let sc := bs.take sb
    let g := { g with pay := putBits g.pay (32 * l * b) (32 * l) (leNat (bs.drop sb)) }
    g.putScales t b ((sc.map (·.toNat)).headD 0, ((sc.drop 1).map (·.toNat)).headD 0)) (c.operand x a f.vd (.ty f.t1))
  .done (s.upd (fun c => c.setOperand x a f.vd (.ty f.t1) g))

/-- A unit load by the form of its type. -/
def loadUnit (f : VFields) (x : VCtx) (s : State) : VRes :=
  if tyIsBlock (x.ty1 f) then loadBlocks f x s
  else if isF6 f then loadFields f x s
  else loadElems false .unit f x s

/-- An indexed element's byte offset. -/
def indexAt (c : CT) (a : Nat) (f : VFields) (x : VCtx) (e : Nat) : Nat :=
  ((c.operand x a f.vb (.ty (ty2 f))).elem (x.w2 f) e).1

/-- The checks of one element of an indexed access (R213). -/
def indexedCheck (c : CT) (x : VCtx) (f : VFields) (w : W64) : Option (Cause × W64) :=
  let es := elemBytes x (x.ty1 f)
  if w.toNat % es ≠ 0 then some (.misalign, w)
  else (beyond w.toNat es c.kernel.loc).map (fun n => (Cause.localBounds, w64 n))

/-- The first active element of an indexed access that fails its checks (R213), and how. An inactive element forms no address and
is not checked (DESIGN CHOICE, notes/assumptions/32.md: R213 says only "the same checks"). -/
def indexedFault (c : CT) (a : Nat) (f : VFields) (x : VCtx) : Option (Nat × Cause × W64) :=
  (c.actives f x).findSome? (fun e =>
    (indexedCheck c x f (elemAddr .indexed f x (elemBytes x (x.ty1 f)) e 0 (indexAt c a f x e))).map (fun q => (e, q)))

/-- The active elements below a faulting one. -/
def belowFault (acts : List Nat) (q : Option (Nat × Cause × W64)) : List Nat := match q with
  | some (e, _) => acts.filter (fun k => k < e)
  | none => acts

/-- Ends an element-by-element access. -/
def endIndexed (q : Option (Nat × Cause × W64)) (s : State) : VRes := match q with
  | some (e, cause, tval) => .fault s e cause tval false
  | none => .done s

/-- The elements of `vldx` in ascending order: each reads its index when its turn comes, as R214's loop has it, so an
index that an earlier element overwrote is read as it then stands (DEDUCED, log 26). -/
def gatherFrom (a : Nat) (f : VFields) (x : VCtx) : List Nat → CT → CT × Option (Nat × Cause × W64)
  | [], c => (c, none)
  | e :: rest, c =>
    let es := elemBytes x (x.ty1 f)
    let w := elemAddr .indexed f x es e 0 (indexAt c a f x e)
    match indexedCheck c x f w with
    | some q => (c, some (e, q))
    | none =>
      gatherFrom a f x rest (c.setOperand x a f.vd (.ty f.t1)
        ((c.operand x a f.vd (.ty f.t1)).put (x.w1 f) e (leNat (c.locRead w.toNat es), 0)))

/-- `vldx` (R213, R214). -/
def runVldx (f : VFields) (x : VCtx) (s : State) : VRes :=
  let r := gatherFrom (lanes s s.cur) f x (s.me.actives f x) s.me
  endIndexed r.2 (s.upd (fun _ => r.1))

/-- `vldseg` (R214): field `k` goes to the registers of its own group. -/
def runVldseg (f : VFields) (x : VCtx) (s : State) : VRes :=
  let a := lanes s s.cur
  let c := s.me
  let es := elemBytes x (x.ty1 f)
  let n := spanOf x.vtype x.vl a (.ty f.t1)
  let loaded := (List.range (segFields f)).foldl (fun d k =>
    let r := f.vd.toNat + k * n
    let g := (c.actives f x).foldl (fun g e =>
      g.put (x.w1 f) e (leNat (c.locRead (elemAddr .segment f x es e k 0).toNat es), 0)) (d.group a r n)
    CT.setGroup d a r g n) c
  .done (s.upd (fun _ => loaded))

/-- `vld` (R214, R215). -/
def runVld (f : VFields) (x : VCtx) (s : State) : VRes := loadUnit f x s
/-- `vlds` (R214). -/
def runVlds (f : VFields) (x : VCtx) (s : State) : VRes := loadElems false .strided f x s
/-- `vldb` (R214): one read for all elements. -/
def runVldb (f : VFields) (x : VCtx) (s : State) : VRes := loadElems false .broadcast f x s
/-- Whether a `vldc` stalls on an active element whose home lies on a stopped die (R418). -/
def loadStalled (f : VFields) (x : VCtx) (s : State) : Bool :=
  let es := elemBytes x (x.ty1 f)
  anyStopped s && (s.me.actives f x).any (fun e => vecStalled s s.cur (elemAddr .unit f x es e 0 0).toNat es)

/-- `vldc` (R216); a byte read ahead is read once. -/
def runVldc (f : VFields) (x : VCtx) (s : State) : VRes :=
  if loadStalled f x s then .wait s x.vstart
  else
    match loadElems true .unit f x s with
    | .done t => .done (t.upd (fun c => (c.actives f x).foldl (fun c e =>
        c.dropEarly (elemAddr .unit f x (elemBytes x (x.ty1 f)) e 0 0).toNat (elemBytes x (x.ty1 f))) c))
    | r => r

/-- `vfill` (R218). -/
def runVfill (f : VFields) (x : VCtx) (s : State) : VRes :=
  let a := lanes s s.cur
  let bs := s.me.locRead (vBase f x).toNat 1536
  .done (s.upd (fun c => c.setV f.vd.toNat (vFromImage a (c.getV f.vd.toNat) bs)))

/-! ### Stores -/

/-- A stored element by its register type and memory type: rounded as R214 says, with the flags of R139. -/
def storedElem (f : VFields) (x : VCtx) (q : Elem) : Nat × Flags :=
  let t := x.ty1 f
  if isFloat t then
    let fm := fmtOf t
    let n : Narrow := if f.t2 = .none then ⟨q.1, q.2, 0⟩ else narrowTail fm (ext (fmtOf f.t2) q)
    let r := roundFinal fm n.code n.tail (x.mode f) f.sat
    (r.1, n.flags ||| r.2)
  else (q.1, 0)

/-- The register type of a store. -/
def storeWidth (f : VFields) : Width := .ty (ty2 f)

/-- Joins writes that follow each other without a gap, in order. -/
def coalesce : List (Nat × List Byte) → List (Nat × List Byte)
  | [] => []
  | (a, bs) :: rest =>
    match coalesce rest with
    | (b, cs) :: more => if a + bs.length = b then (a, bs ++ cs) :: more else (a, bs) :: (b, cs) :: more
    | [] => [(a, bs)]

/-- What a vector store makes of the strip or the window. -/
def endStore (x : VCtx) (fl : Flags) : Commit → VRes
  | .done s => .done (s.upd (fun c => c.raise fl))
  | .stall s => .wait s x.vstart
  | .fault s => .wait s x.vstart

/-- Stores local writes, in ascending element order. -/
def putLocals (s : State) (ws : List (Nat × List Byte)) : Commit :=
  if ws = [] then .done s else putWrites s s.cur ((coalesce ws).map (fun q => StripWrite.loc q.1 q.2 [])).reverse

/-- Stores common bytes: one entry for each maximal run of bytes within a stripe, in ascending order (R217). -/
def putCommons (s : State) (ws : List (Nat × List Byte)) : Commit :=
  if ws = [] then .done s
  else putWrites s s.cur
    (((coalesce ws).flatMap (fun q => stripes q.1 q.2)).map (fun q => StripWrite.com q.1 q.2)).reverse

/-- The rounded elements of a store with their addresses, in ascending element order; the t2 of an indexed store names the
index type and converts nothing. -/
def storeElems (m : VForm) (f : VFields) (x : VCtx) (s : State) (els : List Nat) : List (Nat × List Byte) × Flags :=
  let a := lanes s s.cur
  let c := s.me
  let es := elemBytes x (x.ty1 f)
  let fd := if m = .indexed then { f with t2 := VTy.none } else f
  let wr := elemBits x.vtype (resolveTy x.vtype (ty2 fd))
  let g := c.operand x a f.vd (storeWidth fd)
  let qs := els.map (fun e =>
    let r := storedElem fd x (g.elem wr e)
    let idx := if m = .indexed then indexAt c a f x e else 0
    (((elemAddr m f x es e 0 idx).toNat, leBytes es r.1), r.2))
  (qs.map (·.1), qs.foldl (fun fl q => fl ||| q.2) 0)

/-- A store of elements at one address each. -/
def storeForm (m : VForm) (f : VFields) (x : VCtx) (s : State) : VRes :=
  let r := storeElems m f x s (s.me.actives f x)
  endStore x r.2 (putLocals s r.1)

/-- Stores 6-bit fields: words with an active field, other fields kept, bits 31:30 zero (R214). -/
def storeFields (f : VFields) (x : VCtx) (s : State) : VRes :=
  let a := lanes s s.cur
  let c := s.me
  let g := c.operand x a f.vd (storeWidth f)
  let fm := f6Fmt f
  let to_ := fmtOf (x.ty1 f)
  let from_ := resolveTy x.vtype (ty2 f)
  let acts := c.actives f x
  let vals := acts.map (fun e =>
    let q := g.elem (elemBits x.vtype from_) e
    let v := ext (fmtOf from_) q
    let v := if f.t2 = .none then v else let n := narrowTail to_ v; decodeNum to_ n.code n.tail
    let n := narrowTail fm v
    let r := roundFinal fm n.code n.tail (x.mode f) f.sat
    (e, r.1, n.flags ||| r.2))
  let words := (List.range (x.vl / 5 + 1)).filter (fun k => acts.any (fun e => e / 5 = k))
  let ws := words.map (fun k =>
    let at_ := (vBase f x + w64 (4 * k)).toNat
    let old := leNat (c.locRead at_ 4) % 2 ^ 30
    (at_, leBytes 4 ((vals.filter (fun q => q.1 / 5 = k)).foldl (fun w q => putBits w (6 * (q.1 % 5)) 6 q.2.1) old)))
  endStore x (vals.foldl (fun fl q => fl ||| q.2.2) 0) (putLocals s ws)

/-- Stores whole blocks as they stand (R215). -/
def storeBlocks (f : VFields) (x : VCtx) (s : State) : VRes :=
  let a := lanes s s.cur
  let t := x.ty1 f
  let g := s.me.operand x a f.vd (.ty f.t1)
  let n := blockBytes t
  let l := blockLanes t
  let ws := (movedBlocks x).map (fun b =>
    let sc := g.scales t b
    ((vBase f x + w64 (b * n)).toNat,
      leBytes (if t = .mx4 then 1 else 2) (sc.1 + 256 * sc.2) ++ leBytes (4 * l) (fld g.pay (32 * l * b) (32 * l))))
  endStore x 0 (putLocals s ws)

/-- `vst` (R214, R215). -/
def runVst (f : VFields) (x : VCtx) (s : State) : VRes :=
  if tyIsBlock (x.ty1 f) then storeBlocks f x s
  else if isF6 f then storeFields f x s
  else storeForm .unit f x s

/-- `vsts` (R214). -/
def runVsts (f : VFields) (x : VCtx) (s : State) : VRes := storeForm .strided f x s

/-- `vstx` (R213, R214). -/
def runVstx (f : VFields) (x : VCtx) (s : State) : VRes :=
  let c := s.me
  let q := indexedFault c (lanes s s.cur) f x
  let r := storeElems .indexed f x s (belowFault (c.actives f x) q)
  match putLocals s r.1 with
  | .done s => endIndexed q (s.upd (fun c => c.raise r.2))
  | .stall s => .wait s x.vstart
  | .fault s => .wait s x.vstart

/-- `vstseg` (R214). -/
def runVstseg (f : VFields) (x : VCtx) (s : State) : VRes :=
  let a := lanes s s.cur
  let c := s.me
  let es := elemBytes x (x.ty1 f)
  let wr := elemBits x.vtype (resolveTy x.vtype (ty2 f))
  let n := spanOf x.vtype x.vl a (storeWidth f)
  let gs := (List.range (segFields f)).map (fun k => c.group a (f.vd.toNat + k * n) n)
  let qs := (c.actives f x).flatMap (fun e => (gs.zipIdx).map (fun q =>
    let r := storedElem f x (q.1.elem wr e)
    (((elemAddr .segment f x es e q.2 0).toNat, leBytes es r.1), r.2)))
  endStore x (qs.foldl (fun fl q => fl ||| q.2) 0) (putLocals s (qs.map (·.1)))

/-- `vstc` (R217). -/
def runVstc (f : VFields) (x : VCtx) (s : State) : VRes :=
  let r := storeElems .unit f x s (s.me.actives f x)
  endStore x r.2 (putCommons s r.1)

/-- `vspill` (R218). -/
def runVspill (f : VFields) (x : VCtx) (s : State) : VRes :=
  endStore x 0 (putLocals s [((vBase f x).toNat, vImage (lanes s s.cur) (s.me.getV f.vd.toNat))])

/-! ### Run streams (R219, R220) -/

/-- The stream unit of `rld` and `rapp`. -/
def streamOf (f : VFields) : Fin 4 := Fin.ofNat 4 f.fn.toNat

/-- The view of a stream over a run: offset and width in bytes. -/
def viewOf (t : Stream) (r : Run) : Nat × Nat := (4 * t.voff, if t.vwid = 0 then r.recsz else 4 * t.vwid)

/-- What a read stream meets at a record. -/
inductive Deliver where
  | bytes (bs : List Byte)
  | stall
  | hold
  | range
  | fault (pg : Nat)

/-- Delivers the selected bytes of a record, or says why not (R34, R44, R46, R50, R94, R358). -/
def deliver (s : State) (t : Stream) (r : Run) (k : Nat) : Deliver :=
  let (off, w) := viewOf t r
  if r.recsz < off + w ∨ t.stop ≤ k ∨ t.ranOut then .range
  else if k < r.wmark then
    if recordHeld s r k then .hold else
    match runRecord s r k with
    | some bs => .bytes ((bs.drop off).take w)
    | none => .fault (faultPage s r k)
  else if r.state = .open_ && !r.ended then .stall
  else .range

/-- Delivers records from `k` up, as many of `n` as can be; then what stopped it. -/
def deliverFrom (s : State) (t : Stream) (r : Run) : (n k : Nat) → List Byte × Option (Nat × Deliver)
  | 0, _ => ([], none)
  | n + 1, k =>
    match deliver s t r k with
    | .bytes bs => let q := deliverFrom s t r n (k + 1); (bs ++ q.1, q.2)
    | d => ([], some (k, d))

/-- Records that an `rld` of a stream over a run reads. -/
def rldCount (f : VFields) (x : VCtx) (t : Stream) (r : Run) : Nat := x.vl * elemBytes x (x.ty1 f) / (viewOf t r).2

/-- `rld` (R219): elements are filled in ascending order, the active ones written. -/
def runRld (f : VFields) (x : VCtx) (s : State) : VRes :=
  let a := lanes s s.cur
  let n := streamOf f
  let t := s.me.streams.get n
  let k := runKey (fnOf s s.cur) t.run
  match tabGet s.runs k with
  | none => .fault s x.vstart .runRange (runFaultWord t.run x.first 0 n.val) false
  | some r =>
    let es := elemBytes x (x.ty1 f)
    let v := (viewOf t r).2
    let cnt := rldCount f x t r
    let skip := x.vstart * es / v
    let q := deliverFrom s t r (cnt - skip) (x.first + skip)
    let lo := skip * v
    let have_ := lo + q.1.length
    let c := s.me
    let g := ((c.actives f x).filter (fun e => (e + 1) * es ≤ have_ && lo ≤ e * es)).foldl (fun g e =>
      g.put (x.w1 f) e (leNat ((q.1.drop (e * es - lo)).take es), 0)) (c.operand x a f.vd (.ty f.t1))
    let fill (c : CT) : CT := c.setOperand x a f.vd (.ty f.t1) g
    let set (c : CT) (t : Stream) : CT := { c with streams := c.streams.set n.val t n.isLt }
    let first (rec_ : Nat) : Nat := (rec_ - x.first) * v / es
    match q.2 with
    | none =>
      .done (s.upd (fun c => set (fill c) { t with stall := false, ranOut := false, susp := false, next := max t.next (x.first + cnt) }))
    | some (rec_, .stall) =>
      .wait (s.upd (fun c => set (fill c) { t with stall := true, susp := false, ranOut := false })) (max x.vstart (first rec_))
    | some (rec_, .hold) =>
      .wait (s.upd (fun c => set (fill c) { t with stall := false, ranOut := false, susp := false })) (max x.vstart (first rec_))
    | some (rec_, .fault pg) =>
      let s := sendMigrations s (fnOf s s.cur) t.run r rec_ [rec_ * r.recsz / Config.pageBytes + pg]
      .fault (s.upd (fun c => set (fill c) { t with stall := false, ranOut := false, susp := true, next := rec_ }))
        (max x.vstart (first rec_)) .runFault (runFaultWord t.run rec_ pg n.val) false
    | some (rec_, _) =>
      .fault (s.upd (fun c => set (fill c) { t with stall := false, ranOut := false, susp := false, next := rec_ }))
        (max x.vstart (first rec_)) .runRange (runFaultWord t.run rec_ 0 n.val) false

/-- The rounded bytes of elements 0 to VL - 1. -/
def appendBytes (f : VFields) (x : VCtx) (s : State) : List Byte × Flags :=
  let c := s.me
  let es := elemBytes x (x.ty1 f)
  let wr := elemBits x.vtype (resolveTy x.vtype (ty2 f))
  let g := c.operand x (lanes s s.cur) f.vd (storeWidth f)
  let qs := (List.range x.vl).map (fun e => storedElem f x (g.elem wr e))
  (qs.flatMap (fun r => leBytes es r.1), qs.foldl (fun fl r => fl ||| r.2) 0)

/-- `rapp` (R220): buffered in an open strip, else reserved and filled at once; on a held die it waits (R50). -/
def runRapp (f : VFields) (x : VCtx) (s : State) : VRes :=
  let n := streamOf f
  let (bs, fl) := appendBytes f x s
  if bs = [] then .done s
  else
    match makeRoom s s.cur [.app n x.pc bs] with
    | .buffered s => .done (s.upd (fun c => c.raise fl))
    | .stall s => .wait s x.vstart
    | .fault s => .wait s x.vstart
    | .direct s =>
      match streamAppend s s.cur n bs with
      | .ok s => .done (s.upd (fun c => c.raise fl))
      | .hold => .wait s x.vstart
      | .fault s cause tval free => .fault s 0 cause tval free

/-! ### Vector atomics (R221) -/

/-- What one element of a `vamo` comes to. -/
inductive AmoStep where
  | ok (s : State)
  | fault (cause : Cause) (tval : W64)
  | wait (s : State)

/-- One element's atomic: address, the checks of R213 and R89, the wait of R90, the operation. -/
def amoElem (f : VFields) (x : VCtx) (s : State) (e : Nat) : AmoStep :=
  let a := lanes s s.cur
  let c := s.me
  let dbl := fnBit f 4
  let n := if dbl then 8 else 4
  let w := x.ga + w64 ((c.operand x a f.vb (.ty .n32)).elem 32 e).1
  match amoOf (fld f.fn.toNat 0 4), partNo s s.cur with
  | some op, some pn =>
    if w.toNat % n ≠ 0 ∨ (op = .fadd ∧ dbl) then .fault .misalign w
    else
      match beyond w.toNat n c.kernel.com with
      | some b => .fault .commonBounds (w64 b)
      | none =>
        match atomicWait s s.cur w.toNat n with
        | some s => .wait s
        | none =>
          let gc := c.operand x a f.vc (.ty f.t1)
          let v := if dbl then (gc.elem 32 e).1 + (gc.elem 32 (e + 1)).1 * 2 ^ 32 else (gc.elem 32 e).1
          let old := leNat (homeRead s s.cur w.toNat n)
          let s := homeWrite s pn w.toNat (leBytes n (amoNew op n old v)) []
          let g := (c.operand x a f.vd (.ty f.t1)).put 32 e (old % 2 ^ 32, 0)
          let g := if dbl then g.put 32 (e + 1) (old / 2 ^ 32, 0) else g
          .ok (s.upd (fun c => (c.dropEarly w.toNat n).setOperand x a f.vd (.ty f.t1) g))
  | _, _ => .fault .commonBounds w

/-- The elements of a `vamo` in ascending order. -/
def amoLoop (f : VFields) (x : VCtx) : List Nat → State → VRes
  | [], s => .done s
  | e :: es, s =>
    match amoElem f x s e with
    | .ok s => amoLoop f x es s
    | .fault cause tval => .fault s e cause tval false
    | .wait s => .wait s e

/-- `vamo` (R221): in the 8-byte form the address and the active bit come from the even element; with `.acq` nothing read ahead
stands when it has performed. -/
def runVamo (f : VFields) (x : VCtx) (s : State) : VRes :=
  let els := (s.me.actives f x).filter (fun e => !fnBit f 4 || e % 2 = 0)
  match amoLoop f x els (if fnBit f 5 then release s s.cur else s) with
  | .done t => .done (if fnBit f 6 then t.upd CT.noEarly else t)
  | r => r

end Sys2Proof.Machine
end

