-- ==== Sys2Proof/Machine/VSort.lean ====
section
/-! DEFINITION. The vector sort and merge group (17_instructions_runs_sort_and_engines.md R297). -/

namespace Sys2Proof.Machine

open Sys2Proof

/-- The key width in bytes: fn[0]. -/
def keyWidth (f : VFields) : Nat := if fnBit f 0 then 16 else 8

/-- The operand of records. -/
abbrev recW : Width := .ty .record

/-- The VL records of an operand. -/
def CT.records (c : CT) (x : VCtx) (a : Nat) (r : BitVec 6) : List (List Byte) :=
  let g := c.operand x a r recW
  (List.range x.vl).map (g.rec_ x.vtype.recBytes)

/-- Writes records from record 0 of vd up. -/
def CT.putRecords (c : CT) (f : VFields) (x : VCtx) (a : Nat) (rs : List (List Byte)) : CT :=
  c.setOperand x a f.vd recW
    ((rs.zipIdx).foldl (fun g q => g.putRec x.vtype.recBytes q.2 q.1) (c.operand x a f.vd recW))

/-- Writes n32 elements from element 0 of an operand of positions. -/
def CT.putPositions (c : CT) (x : VCtx) (a : Nat) (r : BitVec 6) (ns : List (Nat × Nat)) : CT :=
  c.setOperand x a r .pos (ns.foldl (fun g q => g.put 32 q.1 (q.2 % 2 ^ 32, 0)) (c.operand x a r .pos))

/-- The records of va in stable key order, each with its source position. -/
def sortedRecs (f : VFields) (x : VCtx) (a : Nat) (c : CT) : List (List Byte × Nat) :=
  sortRecs (fun q => keyOf (keyWidth f) q.1) ((c.records x a f.va).zipIdx)

/-- `vsort`. -/
def doVsort : VCore := fun f x a c => c.putRecords f x a ((sortedRecs f x a c).map (·.1))

/-- `vsortk`: vc receives the source positions. -/
def doVsortk : VCore := fun f x a c =>
  let rs := sortedRecs f x a c
  (c.putRecords f x a (rs.map (·.1))).putPositions x a f.vc ((rs.zipIdx).map (fun q => (q.2, q.1.2)))

/-- `vmrg`: records 0 to k - 1 and k to VL - 1 as inputs 0 and 1. -/
def doVmrg : VCore := fun f x a c =>
  let rs := c.records x a f.va
  let k := min x.gb.toNat x.vl
  c.putRecords f x a (mergeAll (keyOf (keyWidth f)) [rs.take k, rs.drop k])

/-- The combine entry of a kernel with this index; none for entry 0 and for an unused one. -/
def entryOf (k : Kernel) (cb : Nat) : Option Combine :=
  if cb = 0 then none else (k.cmb[cb]?).bind (fun e => if e.ops = [] then none else some e)

/-- `vsegred`: the folded records, their count, and the combine's flags in `fflags`. -/
def doVsegred : VCore := fun f x a c =>
  let r := combinePass (entryOf c.kernel (fld f.fn.toNat 1 3)) (keyWidth f) (c.records x a f.va)
  let fl : Flags := r.2
  ((c.putRecords f x a r.1).setG (Fin.ofNat 32 f.vc.toNat) (w64 r.1.length)).raise fl

/-- `vuniq`: the first record of each group. -/
def doVuniq : VCore := fun f x a c =>
  let rs := (keyGroups (keyWidth f) (c.records x a f.va)).filterMap List.head?
  (c.putRecords f x a rs).setG (Fin.ofNat 32 f.vc.toNat) (w64 rs.length)

/-- Writes the active records of vd. -/
def CT.mapRecs (c : CT) (f : VFields) (x : VCtx) (a : Nat) (go : Nat → List Byte) : CT :=
  c.setOperand x a f.vd recW
    ((c.actives f x).foldl (fun g e => g.putRec x.vtype.recBytes e (go e)) (c.operand x a f.vd recW))

/-- The 64 bits of a tag key: zero-extended, or sign-extended with bit 63 inverted. -/
def tagKey (t : VTy) (w n : Nat) : Nat :=
  if isSigned t then wrapInt 64 (readInt true w n + 2 ^ 63) else n

/-- `vtag`: key and position, most significant byte first, then zeros. -/
def doVtag : VCore := fun f x a c =>
  let w := x.w1 f
  let ga := c.operand x a f.va (.ty f.t1)
  let z := x.vtype.recBytes
  c.mapRecs f x a (fun e =>
    beBytes 8 (tagKey f.t1 w (ga.elem w e).1) ++ beBytes 8 ((x.gb.toNat + e) % 2 ^ 64) ++ List.replicate (z - 16) 0)

/-- `vsplit`: each record rotated left by a multiple of 4 bytes. -/
def doVsplit : VCore := fun f x a c =>
  let z := x.vtype.recBytes
  let k := x.gb.toNat % z / 4 * 4
  let ga := c.operand x a f.va recW
  c.mapRecs f x a (fun e =>
    let bs := ga.rec_ z e
    bs.drop k ++ bs.take k)

/-- `vsrch`: how many records of va have a key below that of vb(e). -/
def doVsrch : VCore := fun f x a c =>
  let kw := keyWidth f
  let keys := (c.records x a f.va).map (keyOf kw)
  let gb := c.operand x a f.vb recW
  c.putPositions x a f.vd ((c.actives f x).map (fun e =>
    let k := keyOf kw (gb.rec_ x.vtype.recBytes e)
    (e, (keys.filter (fun q => q < k)).length)))

/-- The faults of R297 at the push: the register type, the key width, the position and count vectors, the combine
entry. -/
def sortOk (i : Instr) (k : Kernel) (x : VCtx) (a : Nat) : Bool :=
  let z := x.vtype.recBytes
  let clear (r : BitVec 6) (rs : List (BitVec 6)) : Bool :=
    !refsMeet x.vtype x.vl a [.v r.toNat .pos] (rs.map (fun q => .v q.toNat recW))
  let base (f : VFields) := x.vtype.ty = .record && decide (keyWidth f ≤ z)
  match i with
  | .vsort f | .vmrg f | .vuniq f | .vsplit f => base f
  | .vsortk f => base f && clear f.vc [f.vd, f.va]
  | .vsegred f => base f && (entryOf k (fld f.fn.toNat 1 3)).isSome
  | .vsrch f => base f && clear f.vd [f.va, f.vb]
  | .vtag f => base f && 16 ≤ z
  | _ => true

/-- What an instruction of the group does to the registers. -/
def sortOp : Instr → Option (VFields × VCore)
  | .vsort f => some (f, doVsort) | .vsortk f => some (f, doVsortk) | .vmrg f => some (f, doVmrg)
  | .vsegred f => some (f, doVsegred) | .vuniq f => some (f, doVuniq) | .vtag f => some (f, doVtag)
  | .vsplit f => some (f, doVsplit) | .vsrch f => some (f, doVsrch)
  | _ => none

end Sys2Proof.Machine
end

