-- ==== Sys2Proof/Machine/Engines.lean ====
section
/-! DEFINITION. The engine instructions: their checks at issue, in the order of R278, and their issue
(17_instructions_runs_sort_and_engines.md R277-R292, R296, 05_streams_copy_and_timelines.md R96-R107). -/

namespace Sys2Proof.Machine

open Sys2Proof

/-! ### Operands -/

/-- The runs that words name, in order; the first word that names none. -/
def findRuns (s : State) : List W64 → Except W64 (List (Nat × Run))
  | [] => .ok []
  | w :: ws =>
    match findRun s (fnOf s s.cur) w with
    | none => .error w
    | some q => match findRuns s ws with
      | .ok qs => .ok (q :: qs)
      | .error x => .error x

/-- The fault word of a run that a check at issue names: its length for an output (R371). -/
def outWord (k : Nat) (r : Run) : W64 := runFaultWord (k % 2 ^ 20) r.length 0 0
/-- The fault word of an input run: record 0. -/
def inWord (k : Nat) : W64 := runFaultWord (k % 2 ^ 20) 0 0 0

/-- The checks of handles and of the output's state (R278 steps 4 and 5). -/
def formRuns (s : State) (out : W64) (ins : List W64) (go : Nat × Run → List (Nat × Run) → Res) : Res :=
  match findRuns s (out :: ins) with
  | .error w => .trap .runHandle w false
  | .ok [] => .trap .runHandle out false
  | .ok (o :: is) =>
    if is.any (fun q => q.1 = o.1) then .trap .runHandle out false
    else if o.2.state ≠ .open_ then .trap .runSealed (outWord o.1 o.2) false
    else go o is

/-- A block in local scratch (R278 step 2): MISALIGN, then LOCAL_BOUNDS; then it is read once the vector instructions
queued before it have stored (R101). -/
def readBlock (s : State) (w : W64) (align n : Nat) (go : List Byte → Res) : Res :=
  if w.toNat % align ≠ 0 then .trap .misalign w false
  else
    match beyond w.toNat n s.me.kernel.loc with
    | some x => .trap .localBounds (w64 x) false
    | none =>
      if queueHolds s.me false false w.toNat (w.toNat + n) then .wait s else go (s.me.locRead w.toNat n)

/-- A field of a block: `n` bytes at an offset, little-endian. -/
def blockField (bs : List Byte) (off n : Nat) : Nat := leNat ((bs.drop off).take n)

/-- A strided field: a signed 32-bit word. -/
def blockInt (bs : List Byte) (off : Nat) : Int := (BitVec.ofNat 32 (blockField bs off 4)).toInt

/-- Whether a cb names an entry of the kernel's combine table, or none at all (R278 step 6). -/
def cbOk (c : CT) (cb : Nat) : Bool := cb = 0 || (entryOf c.kernel cb).isSome

/-- A key width in bytes. -/
def kwBytes (kw : Bool) : Nat := if kw then 16 else 8

/-- The shape of an engine instruction: it commits an open strip first (R208). -/
def engineShape (s : State) (tl : Fin 8) (reads : List RegRef) : Shape :=
  { reads := reads, numbers := timelineNumber s.me tl, commits := true }

/-! ### `sortr`, `mrgr`, `joinr` (R284-R286) -/

/-- `sortr` (R284): one record size for input and output, not below the key width nor above the formation buffer. -/
def execSortr (d a : GReg) (cb : BitVec 3) (kw : Bool) (tl : Fin 8) (s : State) : Out :=
  scalar s (engineShape s tl [.g d, .g a]) (fun _ s =>
    let c := s.me
    formRuns s (c.getG d) [c.getG a] (fun o is =>
      let i := is.headD o
      if !cbOk c cb.toNat then .trap .illegal c.pc false
      else if o.2.recsz ≠ i.2.recsz ∨ o.2.recsz < kwBytes kw then .trap .runRange (outWord o.1 o.2) false
      else if (s.dies.get (dieOf s.cur)).formB < i.2.recsz then .trap .runRange (inWord i.1) false
      else issueCmd s tl (.sort (o.1 % 2 ^ 20) (i.1 % 2 ^ 20) kw cb.toNat) [] []))

/-- The inputs of `mrgr`: run g(gb), or the list at g(ga) when gb is g0 (R285). -/
def mergeInputs (s : State) (a b : GReg) (go : List W64 → Res) : Res :=
  let c := s.me
  if b ≠ 0 then go [c.getG a, c.getG b]
  else
    let w := c.getG a
    readBlock s w 4 4 (fun bs =>
      let k := leNat bs
      if k < 2 ∨ 16 < k then .trap .resource (w64 k) false
      else
        readBlock s w 4 (4 + 4 * k) (fun bs =>
          go ((List.range k).map (fun j => w64 (blockField bs (4 + 4 * j) 4)))))

/-- `mrgr` (R285). -/
def execMrgr (d a b : GReg) (cb : BitVec 3) (kw : Bool) (tl : Fin 8) (s : State) : Out :=
  scalar s (engineShape s tl [.g d, .g a, .g b]) (fun _ s =>
    let c := s.me
    mergeInputs s a b (fun ws =>
      formRuns s (c.getG d) ws (fun o is =>
        if !cbOk c cb.toNat then .trap .illegal c.pc false
        else if is.any (fun q => q.2.recsz ≠ o.2.recsz) || decide (o.2.recsz < kwBytes kw) then
          .trap .runRange (outWord o.1 o.2) false
        else issueCmd s tl (.merge (o.1 % 2 ^ 20) (is.map (fun q => q.1 % 2 ^ 20)) kw cb.toNat) [] [])))

/-- The record size that a join's output must have, plus the key width (R286). -/
def joinSize (mode l r kw : Nat) : Nat := if mode = 2 then l + kw else l + r + 4

/-- `joinr` (R286): mode 11 is ILLEGAL. -/
def execJoinr (d a b : GReg) (mode : BitVec 2) (kw : Bool) (tl : Fin 8) (s : State) : Out :=
  scalar s (engineShape s tl [.g d, .g a, .g b]) (fun _ s =>
    let c := s.me
    let k := kwBytes kw
    formRuns s (c.getG d) [c.getG a, c.getG b] (fun o is =>
      let l := is.headD o
      let r := (is.drop 1).headD o
      if mode = 3 then .trap .illegal c.pc false
      else if o.2.recsz + k ≠ joinSize mode.toNat l.2.recsz r.2.recsz k ∨ o.2.recsz < k then
        .trap .runRange (outWord o.1 o.2) false
      else if l.2.recsz < k then .trap .runRange (inWord l.1) false
      else if r.2.recsz < k then .trap .runRange (inWord r.1) false
      else issueCmd s tl (.join (o.1 % 2 ^ 20) (l.1 % 2 ^ 20) (r.1 % 2 ^ 20) mode.toNat kw) [] []))

/-! ### `cpy` (R96-R98, R288, R289) -/

/-- The index tuples of a nest, i0 fastest. -/
def nestIdx : List Nat → List (List Nat)
  | [] => [[]]
  | c :: cs => (nestIdx cs).flatMap (fun t => (List.range c).map (fun i => i :: t))

/-- An element's address on one side of a nest: base, strides, and where asked the XOR swizzle of bits 6:4 (R97). -/
def nestAddr (base : Nat) (st : List Int) (xsw : Bool) (ix : List Nat) : Int :=
  let d : Int := (base : Int) + ((st.zip ix).map (fun q => q.1 * (q.2 : Int))).sum
  if xsw then d - d % 128 + (((d % 128).toNat ^^^ ((ix[1]?).getD 0 % 8 * 16) : Nat) : Int) else d

/-- Elements of a nest. -/
def CopyBlock.count (b : CopyBlock) : Nat := b.cnt.foldl (· * ·) 1

/-- The source addresses of a nest, in order. -/
def CopyBlock.sources (b : CopyBlock) : List Int := (nestIdx b.cnt).map (nestAddr b.sbase b.ss false)
/-- The destination addresses of a nest, in order. -/
def CopyBlock.dests (b : CopyBlock) : List Int := (nestIdx b.cnt).map (nestAddr b.dbase b.ds b.xsw)

/-- The parameter block of `cpy` as its bytes give it (Table 17.4). -/
def copyBlockOf (bs : List Byte) : CopyBlock :=
  let w := blockField bs 0 8
  let dims := fld w 0 3
  let n := min dims 6
  let ssp := fld w 8 2
  let dsp := fld w 10 2
  { dims := dims, esz := 2 ^ fld w 4 3, ssp := ssp, dsp := dsp, xsw := fld w 12 1 = 1, bar := fld w 13 5
    sbase := blockField bs 8 8, dbase := blockField bs 16 8
    shdl := if ssp = 2 then blockField bs 24 4 else 0
    dhdl := if dsp = 2 then blockField bs 28 4 else 0
    cnt := (List.range n).map (fun k => blockField bs (32 + 4 * k) 4)
    ss := (List.range n).map (fun k => blockInt bs (56 + 4 * k))
    ds := (List.range n).map (fun k => blockInt bs (80 + 4 * k)) }

/-- Whether the block's first word is one that `cpy` accepts (R98, R288): else ILLEGAL. -/
def copyWordOk (w : Nat) (b : CopyBlock) : Bool :=
  b.ssp ≠ 3 && b.dsp ≠ 3 && b.bar ≤ 16 && fld w 3 1 = 0 && fld w 7 1 = 0 && fld w 18 46 = 0 &&
    !(b.xsw && b.esz ≠ 16)

/-- The number for which a block raises RESOURCE (R98, R288): dims, a count, the total, a barrier. -/
def copyOver (c : CT) (b : CopyBlock) : Option Nat :=
  if b.dims < 1 ∨ 6 < b.dims then some b.dims
  else
    match b.cnt.find? (fun n => 65536 < n) with
    | some n => some n
    | none =>
      if pendingMax < b.count * b.esz then some (b.count * b.esz)
      else if b.bar ≠ 0 ∧ c.kernel.nbar ≤ b.bar - 1 then some (b.bar - 1)
      else none

/-- The declared size of a space (R98). -/
def spaceSize (c : CT) (sp : Nat) : Nat := if sp = 0 then c.kernel.loc else c.kernel.com

/-- The first byte beyond the bounds of a side, if an element lies beyond them. -/
def sideBeyond (size esz : Nat) (as : List Int) : Option W64 :=
  (as.find? (fun a => a < 0 || (size : Int) < a + esz)).map (fun a =>
    if a < 0 then BitVec.ofInt 64 a else w64 (max a.toNat size))

/-- The bounding interval of a side (R100). -/
def sideInterval (sp esz : Nat) (as : List Int) : List Interval :=
  match as with
  | [] => []
  | a :: rest =>
    [⟨sp = 1, (rest.foldl min a).toNat, (rest.foldl max a).toNat + esz⟩]

/-- The checks of a copy's elements and its issue (R98, R278 step 7): a nest with a count of 0 has none, and completes at
once. -/
def issueCopy (s : State) (tl : Fin 8) (b : CopyBlock) : Res :=
  let c := s.me
  let srcs := if b.ssp = 2 then [] else b.sources
  let dsts := if b.dsp = 2 then [] else b.dests
  let off (a : Int) : Bool := a % (b.esz : Int) ≠ 0
  match (srcs ++ dsts).find? off with
  | some a => .trap .misalign (BitVec.ofInt 64 a) false
  | none =>
    match sideBeyond (spaceSize c b.ssp) b.esz srcs, sideBeyond (spaceSize c b.dsp) b.esz dsts with
    | some x, _ => .trap (if b.ssp = 0 then .localBounds else .commonBounds) x false
    | none, some x => .trap (if b.dsp = 0 then .localBounds else .commonBounds) x false
    | none, none =>
      let total := b.count * b.esz
      if total = 0 then
        match issueCmd s tl (.stage 0 0) [] [] with
        | .ok s => .ok (s.upd (fun c =>
            let c := { c with cmds := c.cmds.dropLast }
            c.finishOn tl (c.tls.get tl).issued id))
        | r => r
      else issueCmd s tl (.copy b total) (sideInterval b.ssp b.esz srcs) (sideInterval b.dsp b.esz dsts)

/-- The checks of a copy's run sides (R278 steps 4 to 6, R289). -/
def copyRuns (s : State) (b : CopyBlock) (go : Res) : Res :=
  let ws := (if b.ssp = 2 then [w64 b.shdl] else []) ++ (if b.dsp = 2 then [w64 b.dhdl] else [])
  let total := b.count * b.esz
  match findRuns s ws with
  | .error w => .trap .runHandle w false
  | .ok rs =>
    let src := if b.ssp = 2 then rs.head? else none
    let dst := if b.dsp = 2 then rs.getLast? else none
    if b.ssp = 2 ∧ b.dsp = 2 ∧ b.shdl = b.dhdl then .trap .runHandle (w64 b.dhdl) false
    else
      match dst.filter (fun q => q.2.state != .open_), src.filter (fun q => total % q.2.recsz ≠ 0),
          dst.filter (fun q => total % q.2.recsz ≠ 0) with
      | some q, _, _ => .trap .runSealed (outWord q.1 q.2) false
      | none, some _, _ => .trap .runRange (runFaultWord b.shdl b.sbase 0 0) false
      | none, none, some q => .trap .runRange (outWord q.1 q.2) false
      | none, none, none => go

/-- `cpy` (R96, R98, R288). -/
def execCpy (a : GReg) (tl : Fin 8) (s : State) : Out :=
  scalar s (engineShape s tl [.g a]) (fun _ s =>
    let c := s.me
    readBlock s (c.getG a) 8 104 (fun bs =>
      let b := copyBlockOf bs
      if !copyWordOk (blockField bs 0 8) b then .trap .illegal c.pc false
      else
        match copyOver c b with
        | some n => .trap .resource (w64 n) false
        | none => copyRuns s b (issueCopy s tl b)))

/-! ### `enqw`, `rmig`, `stage` (R107, R290-R292) -/

/-- `enqw` (R107, R290). -/
def execEnqw (d a b : GReg) (tl : Fin 8) (s : State) : Out :=
  scalar s (engineShape s tl [.g d, .g a, .g b]) (fun _ s =>
    let c := s.me
    let src := (c.getG a).toNat
    let n := (c.getG b).toNat
    formRuns s (c.getG d) [] (fun o _ =>
      let z := o.2.recsz
      if n = 0 ∨ n % z ≠ 0 ∨ 65536 < n ∨ 16 * z < n then .trap .runRange (outWord o.1 o.2) false
      else
        match beyond src n c.kernel.loc with
        | some x => .trap .localBounds (w64 x) false
        | none => issueCmd s tl (.enqw (o.1 % 2 ^ 20) src n) [⟨false, src, src + n⟩] []))

/-- `rmig` (R291): supervisor only; a page number beyond the run raises RUN_RANGE at its first record. -/
def execRmig (d a b : GReg) (tier : BitVec 2) (tl : Fin 8) (s : State) : Out :=
  scalar s { engineShape s tl [.g d, .g a, .g b] with priv := true, parcel := parcelOf (.rmig d a b tier tl) } (fun _ s =>
    let c := s.me
    withRun s (c.getG d) (fun k r =>
      let q := (c.getG a).toNat
      if r.leaves.length ≤ q then
        .trap .runRange (runFaultWord (k % 2 ^ 20) (q * Config.pageBytes / r.recsz) 0 0) false
      else issueCmd s tl (.migrate (k % 2 ^ 20) q (c.getG b).toNat tier.toNat) [] []))

/-- `stage` (R292): the pages below the watermark at issue. -/
def execStage (a : GReg) (tl : Fin 8) (s : State) : Out :=
  scalar s (engineShape s tl [.g a]) (fun _ s =>
    withRun s (s.me.getG a) (fun k r =>
      issueCmd s tl
        (.stage (k % 2 ^ 20) ((r.wmark * r.recsz + Config.pageBytes - 1) / Config.pageBytes)) [] []))

/-! ### `coll` (R296) -/

/-- The parameter block of `coll` as its bytes give it. -/
def collBlockOf (bs : List Byte) : CollBlock :=
  let w := blockField bs 0 8
  { mode := fld w 0 2, kw := fld w 2 1 = 1, cb := fld w 3 3, m := fld w 6 5, rank := fld w 11 4, root := fld w 15 4
    inp := blockField bs 8 4, out := blockField bs 12 4
    devs := (List.range 16).map (fun k => blockField bs (16 + 4 * k) 4) }

/-- `coll` (R296): mode 11 and nonzero reserved bits are ILLEGAL, a member count outside 2-16 RESOURCE. -/
def execColl (a : GReg) (tl : Fin 8) (s : State) : Out :=
  scalar s (engineShape s tl [.g a]) (fun _ s =>
    let c := s.me
    readBlock s (c.getG a) 8 80 (fun bs =>
      let b := collBlockOf bs
      if b.mode = 3 ∨ fld (blockField bs 0 8) 19 45 ≠ 0 then .trap .illegal c.pc false
      else if b.m < 2 ∨ 16 < b.m then .trap .resource (w64 b.m) false
      else
        formRuns s (w64 b.out) [w64 b.inp] (fun o is =>
          let i := is.headD o
          if !cbOk c b.cb then .trap .illegal c.pc false
          else if o.2.recsz ≠ i.2.recsz ∨ o.2.recsz < kwBytes b.kw then .trap .runRange (outWord o.1 o.2) false
          else issueCmd s tl (.coll b) [] [])))

end Sys2Proof.Machine
end

