-- ==== Sys2Proof/Machine/Links.lean ====
section
/-! DEFINITION. The Lumen links of the package as data: sending, resending and stopping flits, and the routes
(01_the_part.md R16, 28_host_peers_and_virtual_functions.md R409-R410; notes/assumptions/25.md). -/

namespace Sys2Proof.Machine

open Sys2Proof

/-- The die that a Lumen port belongs to (R16). -/
def portDie (port : Fin 16) : Fin 4 := Fin.ofNat 4 (port.val / 4)

/-- The PCIe controller of a die of the ZXI-3208P (R16): die 0's is the host port, die 3's the fabric port, the other two are
not bonded out and read as absent. -/
inductive Controller where
  | hostPort | fabricPort | absent
  deriving DecidableEq, Repr

/-- See `Controller`. -/
def controllerOf (die : Fin 4) : Controller :=
  if die = 0 then .hostPort else if die = 3 then .fabricPort else .absent

/-- Flit buffers of a channel at a hop (R409). -/
def flitBuffers : Nat := 16

/-- The virtual channel of link management (R409). -/
def manageVc : BitVec 2 := 3

/-- A link after a flit for its peer: it goes out under the next sequence number and is kept until it is acknowledged; where
the peer has stopped its channel it waits (R409). -/
def Link.send (l : Link) (f : Flit) : Link :=
  if l.stopped.getLsbD f.vc.toNat then { l with wait := l.wait ++ [f] }
  else
    let f := { f with seq := l.txSeq, crcOk := true }
    { l with txSeq := l.txSeq + 1, sent := l.sent ++ [f], wire := l.wire ++ [f] }

/-- A link after the link's own business has gone out: on channel 3, in the sequence as every flit (R409). -/
def Link.manage (l : Link) (m : LumenMsg) : Link := l.send ⟨manageVc, 0, true, 0, m⟩

/-- A link after its peer has acknowledged the flits up to a sequence number. -/
def Link.acked (l : Link) (n : BitVec 12) : Link := match l.sent.dropWhile (fun f => f.seq ≠ n) with
  | _ :: fs => { l with sent := fs }
  | [] => l

/-- A link after its peer has asked for replay: the flits from that number on go out again. -/
def Link.resend (l : Link) (n : BitVec 12) : Link := { l with wire := l.wire ++ l.sent.dropWhile (fun f => f.seq ≠ n) }

/-- A link after its peer has let a channel go on: what waited for it goes out. -/
def Link.resume (l : Link) (vc : BitVec 2) : Link :=
  let m := { l with stopped := l.stopped &&& ~~~(1#4 <<< vc.toNat), wait := l.wait.filter (fun f => f.vc ≠ vc) }
  (l.wait.filter (fun f => f.vc = vc)).foldl Link.send m

/-- The flits of a channel that a link's buffers hold, oldest first. -/
def Link.onChannel (l : Link) (vc : BitVec 2) : List Flit := l.bufs.filter (fun f => f.vc = vc)

/-- A link after the oldest flit of a channel has left its buffers: where that frees the first buffer of a channel that has
been stopped, the peer may go on (R409). -/
def Link.pop (l : Link) (vc : BitVec 2) : Link := match l.onChannel vc with
  | f :: _ =>
    let l := { l with bufs := l.bufs.erase f }
    if l.halted.getLsbD vc.toNat then { l.manage (.go vc) with halted := l.halted &&& ~~~(1#4 <<< vc.toNat) } else l
  | [] => l

/-- A link without the messages that `p` names (R410): one that has still to go out is gone; one on the wire, whose number its
peer has still to see, carries nothing when it is sent again. -/
def Link.forget (l : Link) (p : Flit → Bool) : Link :=
  { l with wait := l.wait.filter (fun f => !p f), sent := l.sent.map (fun f => if p f then { f with msg := .dropped } else f) }

/-- Changes one link. -/
def updLink (s : State) (port : Fin 16) (f : Link → Link) : State :=
  { s with links := s.links.set port.val (f (s.links.get port)) port.isLt }

/-- The port that leads to a device: that of its route, while its link is up (R410). -/
def routeTo (s : State) (dev : Nat) : Option (Fin 16) :=
  (tabGet s.routes dev).bind (fun p =>
    let port : Fin 16 := Fin.ofNat 16 p
    if (s.links.get port).down then none else some port)

/-- Whether a device can be reached. -/
def reachable (s : State) (dev : Nat) : Bool := (routeTo s dev).isSome

/-- Sends a message to a device on a channel, where it can be reached. -/
def sendFlit (s : State) (dev : Nat) (vc : BitVec 2) (m : LumenMsg) : Option State :=
  (routeTo s dev).map (fun port => updLink s port (·.send ⟨vc, 0, true, BitVec.ofNat 15 dev, m⟩))

end Sys2Proof.Machine
end

