-- ==== Sys2Proof/Machine/EngineRun.lean ====
section
/-! DEFINITION. What engine commands do: each command in flight runs and completes as one event
(03_sorting_and_merging.md R55-R70, 05_streams_copy_and_timelines.md R97-R108,
17_instructions_runs_sort_and_engines.md R279-R296; notes/assumptions/16.md). -/

namespace Sys2Proof.Machine

open Sys2Proof

/-- What a completing command adds to the status words (Table 17.2). -/
structure Stats where
  cons : Nat := 0
  emit : Nat := 0
  miss : Nat := 0
  brk  : Nat := 0
  flg  : Flags := 0

/-- What running a command comes to, with the progress it has made: done; an error; suspended at a page (handle, record,
page), as R46 and R41 have it; or more to do later. -/
inductive CmdRes where
  | done (s : State) (st : Stats)
  | fail (s : State) (cause : Nat)
  | susp (s : State) (h rec_ page : Nat)
  | wait (s : State)

/-- Changes a command in flight. -/
def State.updCmd (s : State) (ag : Agent) (m : Cmd) (f : Cmd → Cmd) : State :=
  s.updCt ag (fun c => { c with cmds := c.cmds.map (fun e => if e.tl = m.tl && e.num = m.num then f e else e) })

/-- Keeps the progress of a command in flight. -/
def State.setProg (s : State) (ag : Agent) (m : Cmd) (p : Progress) : State := s.updCmd ag m (fun e => { e with prog := p })

/-! ### Reading inputs (R68, R70, R279) -/

/-- Whether a run has an open append stream, or a command in flight that appends to it, of any control thread. -/
def appendOpen (s : State) (k : Nat) : Bool :=
  let opens (fn : Nat) (c : CT) : Bool :=
    c.streams.toList.any (fun t => t.mode == .append && runKey fn t.run == k) ||
      c.cmds.any (fun m => (cmdAppends m.kind).any (fun h => runKey fn h == k))
  (List.finRange 144).any (fun ag => opens (fnOf s ag) (s.ct ag)) ||
    s.images.any (fun e => opens (fnOf s (agentOf e.1)) e.2.ctx)

/-- What stops a command's reading of an input before its end: an error; a page in tier 2 or 3; nothing more to read yet. -/
inductive InStop where
  | fail (cause : Nat)
  | page (h rec_ page : Nat)
  | wait

/-- Takes up to `n` more records of an input, in order, as a stream delivers them (R68): up to the first that touches a page in
tier 2 or 3 (R46) or a held stack (R50), or that is poisoned, which the engine consumes as it compares or combines records
(R393, R396). -/
def takeRecs (s : State) (h : Nat) (r : Run) : (n : Nat) → List (List Byte) → List (List Byte) × Option InStop
  | 0, rs => (rs, none)
  | n + 1, rs =>
    let k := rs.length
    if recordHeld s r k then (rs, some .wait)
    else
      match runRecord s r k with
      | none => (rs, some (.page h k (k * r.recsz / Config.pageBytes + faultPage s r k)))
      | some bs =>
        if (recsPoisoned s r k 1).isSome then (rs, some (.fail Cause.uncorrectable.code))
        else takeRecs s h r n (rs ++ [bs])

/-- Reads an input on from what has been taken of it, to its end or so many records: the end of a sealed run is its length,
that of an open one its watermark, once it is reached while nothing appends to it, and it stays; the watermark of a truncated
run is an error (R279). -/
def readInput (s : State) (fn h : Nat) (limit : Option Nat) (t : Taken) : Taken × Option InStop :=
  if t.ended then (t, none)
  else
    match tabGet s.runs (runKey fn h) with
    | none => (t, some (.fail Cause.runHandle.code))
    | some r =>
      let left := r.wmark - t.recs.length
      match takeRecs s h r (match limit with | some n => min n left | none => left) t.recs with
      | (rs, some x) => ({ t with recs := rs }, some x)
      | (rs, none) =>
        if rs.length < r.wmark then ({ t with recs := rs }, some .wait)
        else if r.state = .truncated then ({ t with recs := rs }, some (.fail Cause.runRange.code))
        else if r.state = .open_ && appendOpen s (runKey fn h) then ({ t with recs := rs }, some .wait)
        else (⟨rs, true⟩, none)

/-- Reads inputs in operand order, each on from what has been taken of it; of several that are not at their end, the first
decides what becomes of the command (notes/assumptions/32.md). -/
def readInputs (s : State) (fn : Nat) (limit : Option Nat) : List Nat → List Taken → List Taken × Option InStop
  | [], _ => ([], none)
  | h :: hs, ts =>
    let a := readInput s fn h limit (ts.headD ⟨[], false⟩)
    let b := readInputs s fn limit hs ts.tail
    (a.1 :: b.1, if a.2.isSome then a.2 else b.2)

/-- Runs a command on the records of its inputs, once it has come to the end of each; what it has taken stays taken. -/
def onInputs (s : State) (ag : Agent) (m : Cmd) (hs : List Nat) (limit : Option Nat)
    (go : State → Progress → List (List (List Byte)) → CmdRes) : CmdRes :=
  let q := readInputs s (fnOf s ag) limit hs m.prog.ins
  let p := { m.prog with ins := q.1 }
  let s := s.setProg ag m p
  match q.2 with
  | none => go s p (q.1.map (·.recs))
  | some (.fail cause) => .fail s cause
  | some (.page h k q) => .susp s h k q
  | some .wait => .wait s

/-! ### Appending (R68) -/

/-- The appender that a command is. -/
def Cmd.appender (m : Cmd) (ag : Agent) : Appender := .engine ag.val m.tl m.num

/-- What a reservation of a command comes to. -/
inductive Reserve where
  | ok (s : State)
  | fail (cause : Nat)
  | hold
  | page (rec_ q : Nat)

/-- Reserves a range of a command's output run and writes its records, with their poison marks (R68, R393): they stay unpublished until it completes. A
page fault is that of the first record on the faulting page (R108). An output counts no stream, so that `rdrop` may drop its run while
the command appends: it then errs with RUN_HANDLE, or appends to the run that has the handle by then (DESIGN CHOICE,
notes/assumptions/32.md). -/
def reserveRange (s : State) (ag : Agent) (m : Cmd) (h : Nat) (bs : List Byte) (bad : Marks) : Reserve :=
  let k := runKey (fnOf s ag) h
  match tabGet s.runs k with
  | none => .fail Cause.runHandle.code
  | some r =>
    match appendRun s k (m.appender ag) (bs.length / r.recsz) bs bad with
    | .ok s _ => .ok (noteAppend s ag k)
    | .sealed => .fail Cause.runSealed.code
    | .range _ => .fail Cause.runRange.code
    | .hold => .hold
    | .fault q _ => .page (faultAt r r.length q).1 q

/-- Publishes what a command has appended to its output run, at the moment it completes (R68). -/
def publishCmd (s : State) (ag : Agent) (m : Cmd) (h : Nat) : State :=
  updRun s (runKey (fnOf s ag) h) (fun r => if r.state = .open_ then publishRun r (fun a => a = m.appender ag) else r)

/-- Writes the records of a command's output, all of them and then the command completes, or so many more as one further
range (R68, R70); `bad` marks poisoned bytes of the first range. -/
def emitRun (s : State) (ag : Agent) (m : Cmd) (p : Progress) (h : Nat) (bs : List Byte) (bad : Marks) (st : Stats)
    (limit : Option Nat) : CmdRes :=
  let p := { p with flg := st.flg }
  let s := s.setProg ag m p
  let z := match tabGet s.runs (runKey (fnOf s ag) h) with
    | some r => r.recsz
    | none => 1
  let left := bs.drop (p.pos * z)
  let now := match limit with
    | some n => left.take (n * z)
    | none => left
  match reserveRange s ag m h now bad with
  | .fail cause => .fail s cause
  | .hold => .wait s
  | .page k q => .susp s h k q
  | .ok s =>
    match limit with
    | some _ => .wait (s.setProg ag m { p with pos := p.pos + now.length / z })
    | none => .done (publishCmd s ag m h) st

/-! ### Sort, merge, join (R55-R67) -/

/-- Cuts a list into pieces of `n`; `fuel` bounds their number. -/
def piecesOf {α : Type} (n : Nat) : (fuel : Nat) → List α → List (List α)
  | 0, _ => []
  | fuel + 1, xs => if xs = [] then [] else xs.take n :: piecesOf n fuel (xs.drop n)

/-- One merge pass of a sort: groups of up to 16 runs, each merged and combined (R57, R65). -/
def mergePass (e : Option Combine) (kw : Nat) (runs : List (List (List Byte))) : List (List (List Byte)) × Flags :=
  let qs := (piecesOf 16 runs.length runs).map (fun g => combinePass e kw (mergeAll (keyOf kw) g))
  (qs.map (·.1), qs.foldl (fun f q => f ||| q.2) noFlags)

/-- The runs that a sort's next pass makes, with its combine flags: the first forms runs by chunks of `c` records, each later
one merges those that the pass before it has left (R57, R65). -/
def nextPass (e : Option Combine) (kw c : Nat) (rs : List (List Byte)) (p : Progress) : List (List (List Byte)) × Flags :=
  if p.pass ≠ 0 then mergePass e kw p.runs
  else
    let qs := (piecesOf c rs.length rs).map (fun g => combinePass e kw (sortRecs (keyOf kw) g))
    (qs.map (·.1), qs.foldl (fun f q => f ||| q.2) noFlags)

/-- Frames that runs of a pass take, each on pages of its own (R69; notes/assumptions/16.md). -/
def framesFor (runs : List (List (List Byte))) : Nat :=
  (runs.map (fun rs => (rs.flatten.length + Config.pageBytes - 1) / Config.pageBytes)).sum

/-- What the passes of a sort come to: its last pass can write the output; the free list was empty; or a stack of the die,
whose frames hold the intermediate runs, is held (R50). -/
inductive Passes where
  | ready | noFrame | held
  deriving DecidableEq, Repr

/-- Makes the passes of a sort until one remains whose single run is the output (R57, R69): a pass's runs take frames from
the free list of the engine's die and are kept, and the frames of the runs it consumed return when it ends. A pass that finds
the free list empty begins again from its start. -/
def sortPasses (s : State) (ag : Agent) (e : Option Combine) (kw c : Nat) (rs : List (List Byte)) :
    (fuel : Nat) → Progress → State × Progress × Passes
  | 0, p => (s, p, .ready)
  | fuel + 1, p =>
    let q := nextPass e kw c rs p
    if q.1.length ≤ 1 ∧ p.pass = 0 then (s, p, .ready)
    else if dieHeld s (dieOf ag).val then (s, p, .held)
    else if q.1.length ≤ 1 then (s, p, .ready)
    else
      match takeFrames s (dieOf ag).val (framesFor q.1) with
      | none => (s, p, .noFrame)
      | some (fs, s2) =>
        sortPasses (p.frames.foldl dropFrame s2) ag e kw c rs fuel
          { p with pass := p.pass + 1, frames := fs, runs := q.1, flg := p.flg ||| q.2 }

/-- `sortr` on its records: the passes, then the output; the last intermediate frames return when the pass that consumes
them ends (R69). -/
def runSort (s : State) (ag : Agent) (m : Cmd) (p : Progress) (o kw : Nat) (e : Option Combine) (rs : List (List Byte))
    (limit : Option Nat) : CmdRes :=
  let c := p.form / max 1 (rs.headD []).length
  match sortPasses s ag e kw c rs (rs.length + 1) p with
  | (s, p, .noFrame) => .susp (s.setProg ag m p) 0 0 (dieOf ag).val
  | (s, p, .held) => .wait (s.setProg ag m p)
  | (s, p, .ready) =>
    let q := nextPass e kw c rs p
    let out := q.1.headD []
    match emitRun s ag m p o out.flatten [] { cons := rs.length, emit := out.length, flg := p.flg ||| q.2 } limit with
    | .done s st => .done (p.frames.foldl dropFrame s) st
    | r => r

/-- The payload of a record. -/
def payOf (kw : Nat) (bs : List Byte) : List Byte := bs.drop kw

/-- What one left record of a join emits, with the right records from the first whose key is not below its own (R66):
records and misses. -/
def joinOne (mode kw zr : Nat) (l : List Byte) (rest : List (List Byte)) : List (List Byte) × Nat :=
  let k := l.take kw
  let ms := rest.takeWhile (fun r => keyOf kw r = keyOf kw l)
  let row (flag : Nat) (p : List Byte) := k ++ leBytes 4 flag ++ payOf kw l ++ p
  match ms with
  | [] => if mode = 1 then ([row 1 (List.replicate (zr - kw) 0)], 1) else if mode = 2 then ([l], 0) else ([], 0)
  | ms => if mode = 2 then ([], 0) else (ms.map (fun r => row 0 (payOf kw r)), 0)

/-- The join of R66: for each left record the right position moves on to the first key not below its own. -/
def joinRecs (mode kw zr : Nat) : List (List Byte) → List (List Byte) → List (List Byte) × Nat
  | [], _ => ([], 0)
  | l :: ls, rs =>
    let rest := rs.dropWhile (fun r => keyOf kw r < keyOf kw l)
    let a := joinOne mode kw zr l rest
    let b := joinRecs mode kw zr ls rest
    (a.1 ++ b.1, a.2 + b.2)

/-! ### Copies (R97-R99) -/

/-- A common byte that a copy has written itself, and whether it is poisoned. -/
def copyOwn (com : List (Nat × List Byte × Marks)) (a : Nat) : Option (Byte × Bool) :=
  com.findSome? (fun q => if q.1 ≤ a then (q.2.1[a - q.1]?).map (fun b => (b, marked q.2.2 a 1)) else none)

/-- A common byte as a copy sees it, and whether it is poisoned: what it has written itself, else what its issuer would read
at this moment (R97, R99, R393). -/
def copyByte (s : State) (ag : Agent) (com : List (Nat × List Byte × Marks)) (a : Nat) : Byte × Bool :=
  (copyOwn com a).getD (comByte s ag a, (comBad s ag a).isSome)

/-- What the source of an element comes to: its bytes, with the poison marks on them. -/
inductive Source where
  | bytes (bs : List Byte) (bad : Marks)
  | stop (r : CmdRes)

/-- Records from `k` up that a copy's element needs: it stalls at the watermark of an open run and while a die is held,
suspends at a page in tier 2 or 3, and errs at the end of any other run (R34, R50, R97, R358). -/
def sourceRecs (s : State) (h : Nat) (r : Run) : (n k : Nat) → Source
  | 0, _ => .bytes [] []
  | n + 1, k =>
    if k < r.wmark then
      if recordHeld s r k then .stop (.wait s)
      else
        match runRecord s r k with
        | none => .stop (.susp s h k (k * r.recsz / Config.pageBytes + faultPage s r k))
        | some bs =>
          match sourceRecs s h r n (k + 1) with
          | .bytes more _ => .bytes (bs ++ more) []
          | q => q
    else if r.state = .open_ && !r.ended then .stop (.wait s)
    else .stop (.fail s Cause.runRange.code)

/-- The source bytes of element number `i` of a copy, at index tuple `ix`: local ones as its issuer reads them, what its open strip has
buffered among them (R101, R328). -/
def elemSource (s : State) (ag : Agent) (b : CopyBlock) (com : List (Nat × List Byte × Marks)) (i : Nat) (ix : List Nat) : Source :=
  let a := (nestAddr b.sbase b.ss false ix).toNat
  match b.ssp with
  | 0 => .bytes ((s.ct ag).locRead a b.esz) ((s.ct ag).locMarks a b.esz 0)
  | 1 =>
    if (List.range b.esz).any (fun j => (copyOwn com (a + j)).isNone && comStalled s ag (a + j) 1) then .stop (.wait s)
    else
    let bs := (List.range b.esz).map (fun j => copyByte s ag com (a + j))
    .bytes (bs.map (·.1)) ((bs.zipIdx).filterMap (fun q => if q.1.2 then some (q.2, 1) else none))
  | _ =>
    match tabGet s.runs (runKey (fnOf s ag) b.shdl) with
    | none => .stop (.fail s Cause.runHandle.code)
    | some r =>
      let lo := b.sbase + i * b.esz / r.recsz
      let hi := b.sbase + (i * b.esz + b.esz - 1) / r.recsz
      match sourceRecs s b.shdl r (hi + 1 - lo) lo with
      | .bytes bs _ => .bytes ((bs.drop (i * b.esz % r.recsz)).take b.esz) (runBad s r (b.sbase * r.recsz + i * b.esz) b.esz)
      | q => q

/-- Writes an element: a local one in place, a common one among those to append at completion, a run's among the bytes of
its output (R99, R340). Its poison marks go with it (R393). -/
def elemWrite (s : State) (ag : Agent) (b : CopyBlock) (p : Progress) (ix : List Nat) (bs : List Byte) (bad : Marks) :
    State × Progress :=
  let d := (nestAddr b.dbase b.ds b.xsw ix).toNat
  let p := { p with pos := p.pos + 1 }
  match b.dsp with
  | 0 => (s.updCt ag (fun c => c.writeLoc d bs (marksIn bad 0 bs.length d)), p)
  | 1 => (s, { p with com := (d, bs, marksIn bad 0 bs.length d) :: p.com })
  | _ => (s, { p with out := p.out ++ bs, outBad := p.outBad ++ marksIn bad 0 bs.length p.out.length })

/-- Copies elements in index order up to the first whose source is not there (R97). -/
def copyElems (s : State) (ag : Agent) (b : CopyBlock) (p : Progress) : List (List Nat) → State × Progress × Option CmdRes
  | [] => (s, p, none)
  | ix :: rest =>
    match elemSource s ag b p.com p.pos ix with
    | .stop r => (s, p, some r)
    | .bytes bs bad =>
      let q := elemWrite s ag b p ix bs bad
      copyElems q.1 ag b q.2 rest

/-- Puts a command's present state in place of the one that an outcome was computed in. -/
def CmdRes.inState (s : State) : CmdRes → CmdRes
  | .done _ st => .done s st
  | .fail _ cause => .fail s cause
  | .susp _ h k q => .susp s h k q
  | .wait _ => .wait s

/-- The common writes of a copy as entries of no strip group, in nest order, one for each stripe an element touches (R78,
R99). -/
def copyEntries (p : Progress) : List Entry :=
  p.com.reverse.flatMap (fun q => (stripes q.1 q.2.1).map (fun e => dataEntry e.1 e.2 (marksIn q.2.2 e.1 e.2.length e.1)))

/-- Reserves the whole records that a copy has gathered for its output run. -/
def copyOut (s : State) (ag : Agent) (m : Cmd) (b : CopyBlock) (p : Progress) : Reserve × Progress :=
  match tabGet s.runs (runKey (fnOf s ag) b.dhdl) with
  | none => (.fail Cause.runHandle.code, p)
  | some r =>
    let n := p.out.length / r.recsz * r.recsz
    (reserveRange s ag m b.dhdl (p.out.take n) (marksIn p.outBad 0 n 0),
      { p with out := p.out.drop n, outBad := marksIn p.outBad n (p.out.length - n) 0 })

/-- Ends the delivery of what a copy has read of its source run (R408). -/
def copyDelivered (s : State) (ag : Agent) (b : CopyBlock) (lo hi : Nat) : State :=
  if b.ssp ≠ 2 then s
  else
    match tabGet s.runs (runKey (fnOf s ag) b.shdl) with
    | some r => delivered s r (b.sbase + lo * b.esz / r.recsz) ((hi * b.esz + r.recsz - 1) / r.recsz - lo * b.esz / r.recsz)
    | none => s

/-- A copy: its remaining elements, or so many of them, each read and written at this moment (R340); it completes with the
append of its common writes and the publication of its records. -/
def runCopy (s : State) (ag : Agent) (m : Cmd) (b : CopyBlock) (limit : Option Nat) : CmdRes :=
  let left := (nestIdx b.cnt).drop m.prog.pos
  let (s, p, stop) := copyElems s ag b m.prog (match limit with | some n => left.take n | none => left)
  let s := copyDelivered s ag b m.prog.pos p.pos
  let after (s : State) (p : Progress) : CmdRes :=
    let s := s.setProg ag m p
    match stop, limit with
    | some r, _ => r.inState s
    | none, some _ => .wait s
    | none, none => .done (publishCmd (appendEach s ag (copyEntries p)) ag m b.dhdl) {}
  if b.dsp ≠ 2 then after s p
  else
    match copyOut s ag m b p with
    | (.ok s, p) => after s p
    | (.hold, _) => .wait (s.setProg ag m p)
    | (.fail cause, _) => .fail (s.setProg ag m p) cause
    | (.page k q, _) => .susp (s.setProg ag m p) b.dhdl k q

/-! ### Migration and staging (R48, R49, R291, R292) -/

/-- A page moved in its leaf entry; the tier-0 frame it leaves loses a count (R48). -/
def moveLeaf (s : State) (k q : Nat) (l new : Leaf) : State :=
  let s := updRun s k (fun r => { r with leaves := r.leaves.set q new })
  if l.tier = 0 then dropFrame s l.frame else s

/-- Whether a pool frame holds a page of some run other than page `q` of run `k`. -/
def poolTaken (s : State) (k q target : Nat) : Bool :=
  s.runs.any (fun e => (e.2.leaves.zipIdx).any (fun l =>
    l.1.tier = 1 && l.1.frame = target && !(e.1 = k && l.2 = q)))

/-- A named tier-0 frame once one more page lies there: a frame in use gains a count of 1, and every leaf entry that names it is
marked cow, so that no append of one run lands on bytes of another (R28; notes/assumptions/32.md). -/
def joinFrame (s : State) (target : Nat) : State × Bool :=
  match (tabGet s.frames target).filter (fun fr => fr.count ≠ 0) with
  | some fr =>
    ({ s with
      frames := tabSet s.frames target { fr with count := fr.count + 1 }
      runs := s.runs.map (fun e => (e.1, { e.2 with leaves := e.2.leaves.map (fun l =>
        if l.tier = 0 ∧ l.frame = target then { l with cow := true } else l) })) }, true)
  | none =>
    let fr := (tabGet s.frames target).getD ⟨0, [], []⟩
    ({ s with frames := tabSet s.frames target { fr with count := 1 } }, false)

/-- Moves a page to a tier (R291): an error cause, or none beside it when the free list is empty. The entry it writes has
cow 0 but where a named frame was in use; a pool frame that holds a page of another run is refused, since no migration changes
an appended byte (R28; notes/assumptions/32.md). Poison marks move with the bytes (R393). -/
def migratePage (s : State) (k q target tier : Nat) : Except (Option Nat) State :=
  match tabGet s.runs k with
  | none => .error (some Cause.runHandle.code)
  | some r =>
    let l := leafAt r q
    let bytes := pageMem s l
    let bad := pageBad s l
    let read (s : State) : State :=
      if l.tier = 1 then { s with poison := s.poison.filter (fun a => a ≠ poolAddress s l.frame 0) } else s
    match tier with
    | 0 =>
      if target ≠ 0 then
        if 2 ^ 23 ≤ target then .error (some Cause.runFault.code)
        else
          let j := joinFrame s target
          .ok (moveLeaf j.1 k q l ⟨target, 0, j.2, l.skew⟩)
      else
        match bytes with
        | none => .error (some Cause.runFault.code)
        | some m =>
          match takeFrame s (if l.tier = 0 then l.frame / Config.framesPerDie else r.die) m bad with
          | none => .error none
          | some (f, s) => .ok (read (moveLeaf s k q l ⟨f, 0, false, l.skew⟩))
    | 1 =>
      match bytes with
      | none => .error (some Cause.runFault.code)
      | some m =>
        if s.poolSize ≤ target * Config.pageBytes ∨ poolTaken s k q target then .error (some Cause.runFault.code)
        else
          let a := poolAddress s target 0
          let s := { read s with
            pool := memPaste s.pool a Config.pageBytes m
            poolBad := remark s.poolBad [] a Config.pageBytes (marksIn bad 0 Config.pageBytes a) }
          .ok (moveLeaf s k q l ⟨target, 1, false, l.skew⟩)
    | 2 => .ok (moveLeaf s k q l ⟨target % 2 ^ 32, 2, false, l.skew⟩)
    | _ => .ok (moveLeaf s k q l ⟨0, 3, false, l.skew⟩)

/-- Takes a page's notice off the command processor once the page can be read again. What is suspended there replays when it
is next tried (R46). -/
def dropNotice (s : State) (fn h q : Nat) : State :=
  { s with notices := s.notices.filter (fun n => match n with
      | .migration fn2 h2 _ q2 => !(fn2 == fn && h2 == h && q2 == q)
      | _ => true) }

/-- Stages the pages of a run below a limit: a tier-1 page is copied in by the part, one in tier 2 or 3 waits for the driver,
and a held die holds what would be read or written there (R49, R50, R292). -/
def stagePages (s : State) (ag : Agent) (h limit : Nat) : (fuel : Nat) → CmdRes
  | 0 => .done s {}
  | fuel + 1 =>
    let k := runKey (fnOf s ag) h
    match tabGet s.runs k with
    | none => .done s {}
    | some r =>
      match (List.range limit).find? (fun q => (leafAt r q).tier ≠ 0) with
      | none => .done s {}
      | some q =>
        let stop := CmdRes.susp s h (q * Config.pageBytes / r.recsz) q
        if (leafAt r q).tier ≠ 1 then stop
        else if dieHeld s r.die then .wait s
        else
          match migratePage s k q 0 0 with
          | .ok s => stagePages s ag h limit fuel
          | .error _ => stop

/-! ### Collectives (R296) -/

/-- The members' inputs by rank, this device's own put in at its rank; none when the peers' answer does not fit the
block. -/
def collInputs (b : CollBlock) (z : Nat) (own : List (List Byte)) (peers : List (List (List Byte))) :
    Option (List (List (List Byte))) :=
  if peers.length + 1 = b.m ∧ peers.all (fun rs => rs.all (fun r => decide (r.length = z))) then
    some (peers.take b.rank ++ own :: peers.drop b.rank)
  else none

/-- The records every member's output receives: a merge of the inputs in rank order, combined for reduce; the root's
input for broadcast. -/
def collRecs (k : Kernel) (b : CollBlock) (ins : List (List (List Byte))) : List (List Byte) × Flags :=
  let kw := kwBytes b.kw
  match b.mode with
  | 0 => combinePass (entryOf k b.cb) kw (mergeAll (keyOf kw) ins)
  | 1 => (mergeAll (keyOf kw) ins, noFlags)
  | _ => ((ins[b.root]?).getD [], noFlags)

/-- A collective whose peers have answered; their records are kept while it is held up (R46). -/
def runColl (s : State) (ag : Agent) (m : Cmd) (b : CollBlock) (peers : List (List (List Byte))) : CmdRes :=
  let kw := kwBytes b.kw
  let m := { m with prog := { m.prog with pass := 1, runs := peers } }
  onInputs s ag m (if b.mode = 2 ∧ b.rank ≠ b.root then [] else [b.inp]) none (fun s p own =>
    let z := match tabGet s.runs (runKey (fnOf s ag) b.out) with
      | some r => r.recsz
      | none => 0
    match collInputs b z (own.headD []) peers with
    | none => .fail s 0x40
    | some ins =>
      let q := collRecs (s.ct ag).kernel b ins
      let used := if b.mode = 2 then [(ins[b.root]?).getD []] else ins
      emitRun s ag m p b.out q.1.flatten []
        { cons := (used.map List.length).sum, emit := q.1.length, brk := (used.map (orderBreaks kw)).sum, flg := q.2 } none)

/-! ### Running a command -/

/-- Whether every other device that a command has messages for can be reached. -/
def cmdRouted (s : State) : CmdKind → Bool
  | .notify _ _ (some dev) _ _ => reachable s dev
  | .coll b => ((List.range b.m).filter (fun k => k ≠ b.rank)).all (fun k => reachable s ((b.devs[k]?).getD 0))
  | _ => true

/-- Whether an earlier command of the same control thread holds a command back: the range checker (R100), and between
notifications to one timeline the order in which they were sent (R104). -/
def heldBack (c : CT) (m : Cmd) : Bool :=
  let clash (e : Cmd) : Bool :=
    m.writes.any (fun x => meets x.common x.lo x.hi (e.reads ++ e.writes)) ||
      m.reads.any (fun x => meets x.common x.lo x.hi e.writes) ||
      (match m.kind, e.kind with
       | .notify t l r _ _, .notify t2 l2 r2 _ _ => t == t2 && l == l2 && r == r2
       | _, _ => false)
  (c.cmds.takeWhile (fun e => !(e.tl = m.tl && e.num = m.num))).any clash

/-- The messages of a collective: they go out while every device they are for can be reached, and `peer` is what comes back
(R410). -/
def askPeer (s : State) (kind : CmdKind) (peer : PeerAnswer) (go : List (List (List Byte)) → CmdRes) : CmdRes :=
  if !cmdRouted s kind then .fail s 0x40
  else
    match peer with
    | .none => .wait s
    | .unreachable => .fail s 0x40
    | .accepted peers => go peers

/-- Runs a command in flight: to its end, or so many elements or records of it; `peer` answers for other devices. -/
def runCmd (s : State) (ag : Agent) (m : Cmd) (peer : PeerAnswer) (limit : Option Nat) : CmdRes :=
  let fn := fnOf s ag
  let k := (s.ct ag).kernel
  let whole (r : CmdRes) : CmdRes := if limit.isSome then .wait s else r
  match m.kind with
  | .sort o i kw cb =>
    onInputs s ag m [i] limit (fun s p ins => runSort s ag m p o (kwBytes kw) (entryOf k cb) (ins.headD []) limit)
  | .merge o is kw cb =>
    onInputs s ag m is limit (fun s p ins =>
      let w := kwBytes kw
      let q := combinePass (entryOf k cb) w (mergeAll (keyOf w) ins)
      emitRun s ag m p o q.1.flatten []
        { cons := (ins.map List.length).sum, emit := q.1.length, brk := (ins.map (orderBreaks w)).sum, flg := q.2 } limit)
  | .join o l r mode kw =>
    onInputs s ag m [l, r] limit (fun s p ins =>
      let w := kwBytes kw
      let ls := ins.headD []
      let rs := (ins.drop 1).headD []
      let zr := match tabGet s.runs (runKey fn r) with
        | some x => x.recsz
        | none => 0
      let q := joinRecs mode w zr ls rs
      emitRun s ag m p o q.1.flatten []
        { cons := ls.length + rs.length, emit := q.1.length, miss := q.2, brk := orderBreaks w ls + orderBreaks w rs } limit)
  | .copy b _ => runCopy s ag m b limit
  | .enqw h src len => whole (
    emitRun s ag m m.prog h ((s.ct ag).locRead src len) ((s.ct ag).locMarks src len 0) {} none)
  | .migrate h q target tier => whole (
    match tabGet s.runs (runKey fn h) with
    | none => .fail s Cause.runHandle.code
    | some r =>
      if (tier ≤ 1 ∧ pageHeld s (leafAt r q)) ∨
          (tier = 0 ∧ dieHeld s (if target = 0 then r.die else target / Config.framesPerDie)) then .wait s
      else
        match migratePage s (runKey fn h) q target tier with
        | .ok s => .done (if tier ≤ 1 then dropNotice s fn h q else s) {}
        | .error (some cause) => .fail s cause
        | .error none => .susp s h (q * Config.pageBytes / r.recsz) q)
  | .stage h limit2 => whole (stagePages s ag h limit2 limit2)
  | .notify target tl remote tail gen => whole (
    match remote with
    | none =>
      let t : CtId := Fin.ofNat 128 target
      if (s.dies.get (dieOf (ctAgent t))).stopped then .wait s
      else if acceptsNote s t (Fin.ofNat 8 tl) then
        .done (acceptNote s t (Fin.ofNat 8 tl) (some (ag.val, tail, gen))) {}
      else .fail s 0x40
    | some dev =>
      if m.prog.pos ≠ 0 then .wait s
      else
        match sendFlit s dev 1 (.notify (BitVec.ofNat 15 s.device) ag m.tl m.num (Fin.ofNat 128 target) (Fin.ofNat 8 tl)) with
        | none => .fail s 0x40
        | some s => .wait (s.setProg ag m { m.prog with pos := 1 }))
  | .coll b => whole (if m.prog.pass = 1 then runColl s ag m b m.prog.runs else askPeer s m.kind peer (runColl s ag m b))

/-! ### Completion (R102, R280, R289) -/

/-- Takes a command out of flight, lets its inputs go and finishes its number. -/
def closeCmd (s : State) (ag : Agent) (m : Cmd) (f : Timeline → Timeline) : State :=
  let fn := fnOf s ag
  let s := (cmdInputs m.kind).foldl (fun s h => unstream s (runKey fn h)) s
  s.updCt ag (fun c =>
    { c with cmds := c.cmds.filter (fun e => !(e.tl = m.tl && e.num = m.num)) }.finishOn m.tl m.num f)

/-- The barrier that a copy names. -/
def cmdBarrier : CmdKind → Option (Fin 16 × Nat)
  | .copy b total => if b.bar = 0 then none else some (Fin.ofNat 16 (b.bar - 1), total)
  | _ => none

/-- A timeline with the counts of a completing command (R280). -/
def Timeline.count (t : Timeline) (st : Stats) : Timeline :=
  { t with
    cons := t.cons + w64 st.cons, emit := t.emit + w64 st.emit, miss := t.miss + w64 st.miss
    brk := t.brk + w64 st.brk, flg := t.flg ||| st.flg }

/-- Completes a command without error: its barrier first (R289), then its timeline; a single-symbol error that it met on the
way has been corrected (R392). -/
def succeedCmd (s : State) (ag : Agent) (m : Cmd) (st : Stats) : State :=
  let s := correctEngine s ag
  let s := match cmdBarrier m.kind with
    | some (n, total) => stepBar s ag n (·.subtract total)
    | none => s
  closeCmd s ag m (·.count st)

/-- What a command in error has to count (R102, R280): the input records it has taken and their order breaks, the output
records it has written, the misses among them and the combine flags so far (notes/assumptions/16.md). -/
def failStats (m : Cmd) : Stats :=
  let ins := m.prog.ins.map (·.recs)
  let cons := (ins.map List.length).sum
  let brk (kw : Bool) := (ins.map (orderBreaks (kwBytes kw))).sum
  match m.kind with
  | .sort _ _ _ _ => { cons := cons, emit := m.prog.pos, flg := m.prog.flg }
  | .merge _ _ kw _ => { cons := cons, emit := m.prog.pos, brk := brk kw, flg := m.prog.flg }
  | .join _ _ _ mode kw =>
    let w := kwBytes kw
    let rows := (joinRecs mode w w (ins.headD []) ((ins.drop 1).headD [])).1.take m.prog.pos
    let miss := if mode = 1 then (rows.filter (fun r => leNat ((r.drop w).take 4) = 1)).length else 0
    { cons := cons, emit := m.prog.pos, miss := miss, brk := brk kw }
  | .coll b => { cons := cons, emit := m.prog.pos, brk := brk b.kw, flg := m.prog.flg }
  | _ => {}

/-- The inputs of a command whose next record to take is poisoned, with its number and the poison's place (R396). -/
def cmdPoison (s : State) (ag : Agent) (m : Cmd) : List (Run × Nat × Place × Nat) :=
  ((cmdInputs m.kind).zipIdx).filterMap (fun h => (tabGet s.runs (runKey (fnOf s ag) h.1)).bind (fun r =>
    let k := ((m.prog.ins[h.2]?).map (·.recs.length)).getD 0
    if k < r.wmark then (recsPoisoned s r k 1).map (fun l => (r, k, l)) else none))

/-- Poison consumed by a command: reported with the frame it lies in, counted, and delivered (R396, R408). -/
def reportPoison (s : State) (ag : Agent) (m : Cmd) : State :=
  match (cmdPoison s ag m).head? with
  | some (r, k, l) => delivered (reportConsumed s ag ⟨5, 0, 0, 0, m.pc, pageLocation l⟩ false (pageWord l)) r k 1
  | none => reportConsumed s ag ⟨5, 0, 0, 0, m.pc, 0⟩ false none

/-- Completes a command in error: it publishes nothing, its output is truncated, the frames of its intermediate runs return,
its barrier takes err, and it counts what it has done (R69, R92, R102, R280, R289). What a copy had written before stays: its local elements stand, and its common
ones are appended (R34; notes/assumptions/16.md). -/
def failCmd (s : State) (ag : Agent) (m : Cmd) (cause : Nat) : State :=
  let fn := fnOf s ag
  let s := appendEach s ag (copyEntries m.prog)
  let s := m.prog.frames.foldl dropFrame s
  let s := (cmdOutputs m.kind).foldl (fun s h => updRun s (runKey fn h) (fun r =>
    if r.state = .open_ then { r with state := .truncated, ranges := [] } else r)) s
  let s := match cmdBarrier m.kind with
    | some (n, _) => stepBar s ag n (fun b => { b with err := true })
    | none => s
  closeCmd s ag m (fun t => (t.count (failStats m)).fail m.num (BitVec.ofNat 8 cause))

/-- Pages from `q` to the end of its window of 256, in which an engine command translates (R379). -/
def windowFrom (q : Nat) : List Nat := (List.range (256 - q % 256)).map (fun k => q + k)

/-- The notices of a suspension: one for each page in tier 2 or 3 of the window from the page that stopped the command; for
a page that is not ready for another reason, its own; for the runs of a sort, that the free list is empty (R46, R69, R278). -/
def suspendNotices (s : State) (fn h rec_ q : Nat) : State :=
  match tabGet s.runs (runKey fn h) with
  | some r => if pageAway r q then sendMigrations s fn h r rec_ (windowFrom q) else sendMigration s fn h rec_ q
  | none => if s.notices.contains (.freeList fn q) then s else { s with notices := s.notices ++ [.freeList fn q] }

/-- Suspends a command at a page (R46, R278). -/
def suspendCmd (s : State) (ag : Agent) (m : Cmd) (at_ : Nat × Nat × Nat) : State :=
  if m.susp = some at_ then s
  else
    let s := suspendNotices s (fnOf s ag) at_.1 at_.2.1 at_.2.2
    s.updCmd ag m (fun e => { e with susp := some at_ })

/-- A command of an agent by timeline and number. -/
def findCmd (s : State) (ag : Agent) (tl : Fin 8) (num : Nat) : Option Cmd :=
  (s.ct ag).cmds.find? (fun m => m.tl = tl && m.num = num)

/-- Whether a partition is drained around an agent: a suspended command then stays suspended (R325). -/
def agentDrained (s : State) (ag : Agent) : Bool := match partOf s ag with
  | some q => q.drained
  | none => false

/-- Whether a command of an agent is held back: on a stopped die nothing runs (R418); by an earlier command; suspended in a
drained partition (R325). -/
def cmdStopped (s : State) (ag : Agent) (m : Cmd) : Bool :=
  (s.dies.get (dieOf ag)).stopped || heldBack (s.ct ag) m || (m.susp.isSome && agentDrained s ag)

/-- Fails a command for what does not come from its own running: at once, but while it stays suspended in a drained partition only
once that goes on (R325, R388). -/
def failWhen (s : State) (ag : Agent) (m : Cmd) (cause : Nat) : State :=
  if m.susp.isSome && agentDrained s ag then s.updCmd ag m (fun e => { e with doom := some cause }) else failCmd s ag m cause

/-- The command as the state has it now. -/
def cmdNow (s : State) (ag : Agent) (m : Cmd) : Cmd := (findCmd s ag m.tl m.num).getD m

/-- Lets a command run where nothing holds it back, to its end or so far. One that was suspended and goes on is suspended no
longer (R105); one whose error is settled completes with it (R382, R388). -/
def advanceCmd (s : State) (ag : Agent) (m : Cmd) (peer : PeerAnswer) (limit : Option Nat) : State :=
  if cmdStopped s ag m then s
  else
    match m.doom with
    | some cause => failCmd s ag m cause
    | none =>
    match runCmd s ag m peer limit with
    | .done s st => succeedCmd s ag (cmdNow s ag m) st
    | .fail s cause =>
      let m := cmdNow s ag m
      failCmd (if cause = Cause.uncorrectable.code then reportPoison s ag m else s) ag m cause
    | .susp s h r q => suspendCmd s ag m (h, r, q)
    | .wait s => s.updCmd ag m (fun e => { e with susp := none })

/-- Lets a command run to its end. -/
def completeCmd (s : State) (ag : Agent) (m : Cmd) (peer : PeerAnswer) : State := advanceCmd s ag m peer none

/-- Lets a command of an agent do so many elements or records (R68, R340). -/
def workCmd (s : State) (ag : Agent) (tl : Fin 8) (num amount : Nat) : State :=
  match findCmd s ag tl num with
  | some m => advanceCmd s ag m .none (some amount)
  | none => s

/-- Whether a command is a notification to another device that has not gone out yet (R104). -/
def unsent (m : Cmd) : Bool := match m.kind with
  | .notify _ _ (some _) _ _ => m.prog.pos == 0
  | _ => false

/-- Whether a command of an agent can come to an end or to a suspension on its own, or send its notification; one that is
suspended replays once what it lacked is there (R46). -/
def cmdReady (s : State) (ag : Agent) (m : Cmd) : Bool :=
  !cmdStopped s ag m && (m.doom.isSome || match runCmd s ag m .none none with
    | .wait _ => unsent m || m.susp.isSome
    | .susp _ h r q => m.susp != some (h, r, q)
    | _ => true)

end Sys2Proof.Machine
end

