-- ==== Sys2Proof/Machine/Tasks.lean ====
section
/-! DEFINITION. Dealing, stealing and starting tasks (24_execution_and_scheduling.md R351, R359-R362, 06_registers.md
R110). -/

namespace Sys2Proof.Machine

open Sys2Proof

/-- The task ids left in a bound control thread's block: the first, and the one after the last. -/
def Launch.block (l : Launch) (n : Nat) : Nat × Nat := (tabGet l.blocks n).getD (0, 0)

/-- How many ids are left in a control thread's block. -/
def Launch.idsLeft (l : Launch) (n : Nat) : Nat := (l.block n).2 - (l.block n).1

/-- The bound control thread with the most ids left, the lowest `ct_id` among equals (R360). -/
def Launch.richest (l : Launch) : Option Nat :=
  l.bound.foldl (fun best n =>
    match best with
    | none => some n
    | some m => if l.idsLeft m < l.idsLeft n then some n else some m) none

/-- Takes a control thread's next task id: from the bottom of its own block, or by stealing the top half of the fullest
block (R360). Of the block of a thread that is `gone`, its context being lost, the last id can be stolen too, since that thread
never takes it (notes/assumptions/20.md). -/
def Launch.takeId (l : Launch) (gone : Nat → Bool) (n : Nat) : Option (Nat × Launch) :=
  let own := l.block n
  if own.1 < own.2 then some (own.1, { l with blocks := tabSet l.blocks n (own.1 + 1, own.2) })
  else
    match l.richest with
    | none => none
    | some v =>
      let b := l.block v
      let r := b.2 - b.1
      let k := if r = 1 ∧ gone v then 1 else r / 2
      if k = 0 then none
      else some (b.2 - k, { l with blocks := tabSet (tabSet l.blocks v (b.1, b.2 - k)) n (b.2 - k + 1, b.2) })

/-- Whether some published entry not yet applied covers a byte of an area of a partition's common memory. -/
def areaPending (s : State) (pn : Fin 32) (a n : Nat) : Bool :=
  (partCts s pn).any (fun ct =>
    let t := (s.ct (ctAgent ct)).trail
    ((t.entries.take t.pub).drop t.done).any (fun e =>
      e.kind == EntryKind.data && decide (e.addr < a + n) && decide (a < e.addr + e.bytes.length)))

/-- Whether the start of a task leaves a register as it is (R110): vector registers, the supervisor bank, `vlcap`, `ctweight` and the
trap registers. -/
def BadReg.kept : BadReg → Bool
  | .v _ _ | .super _ => true
  | .csr n => decide (0x100 ≤ n)
  | _ => false

/-- The state of a control thread as a task of a launch starts (R110, R281, R351). -/
def taskStart (c : CT) (ag : Agent) (l : Launch) (task : Nat) : CT :=
  let c := { c with
    g := Vector.replicate 32 0, gtag := Vector.replicate 32 0, p := Vector.replicate 128 0
    ptag := Vector.replicate 128 0, vtag := Vector.replicate 48 0, uBank := Vector.replicate 8 (0, 0)
    back := [], faulting := false, late := false, passed := 0
    early := [], acqd := [], delay := false, slow := none, putOff := false, owed := 0
    pc := w64 l.kernel.entry, sup := false, inUev := false, inTrap := false, status := .running, wasRun := .running
    vl := 0, vtype := VType.reset, vstart := 0, frm := 1, fflags := 0
    spset := 0, uevec := 0, uecause := 0, bankwave := 0, kparm := w64 (16 * l.lrec.pbase)
    loops := [], lift := Lift.empty, strip := none, again := [], held := []
    streams := Vector.replicate 4 Stream.closed, tls := Vector.replicate 8 Timeline.zero, cmds := []
    children := [], vq := [], frozen := none, deficit := 0, marks := [], barw := []
    front := Plane.zero, shadow := Plane.zero, planesValid := false, planesSaved := false
    pushFront := .none, pushShadow := .none, xfer := 0, regBad := c.regBad.filter BadReg.kept
    kernel := l.kernel, task := some task, col0 := 0, row0 := 0, band := 0, wfe := [], ranOut := [] }
  (c.setG 2 (w64 l.kernel.loc)).setG 3 (w64 (task * 2 ^ 32 + ag.val))

/-- Writes a launch's parameter area to home before its first task: the bytes below the declared common size (R351). -/
def placeParams (s : State) (id : Nat) (l : Launch) : State :=
  if l.dealt then s
  else
    let s := homeWrite s l.part (16 * l.lrec.pbase) (l.params.take (l.kernel.com - 16 * l.lrec.pbase)) []
    s.updLaunch id (fun l => { l with dealt := true })

/-- Copies a launch's local image into a control thread's window before its first task of the launch (R351); none while
a page of the image is not resident, or lies on a stack that is held (R50). -/
def placeImage (s : State) (ag : Agent) (l : Launch) : Option State :=
  if (s.ct ag).imageIn ∨ l.lrec.limg = 0 then some (s.updCt ag (fun c => { c with imageIn := true }))
  else
    match tabGet s.runs (runKey l.fn l.lrec.limg) with
    | none => some (s.updCt ag (fun c => { c with imageIn := true }))
    | some r =>
      if (List.range r.wmark).any (recordHeld s r) then none
      else
      (runBytes s r 0 (r.wmark * r.recsz)).map (fun bs =>
        (delivered s r 0 r.wmark).updCt ag (fun c =>
          { c.writeLoc 0 bs (runBad s r 0 (r.wmark * r.recsz)) with imageIn := true }))

/-- Whether a control thread has left a launch for good: it is not bound to it, and no saved context of it is (R386). -/
def goneFrom (s : State) (id n : Nat) : Bool :=
  (s.ct (agentOf n)).launch != some id && (match tabGet s.images n with
    | some i => i.ctx.launch != some id
    | none => true)

/-- Whether every engine command of a launch has completed, those suspended in saved contexts included (Table 24.6, R383). -/
def launchIdle (s : State) (id : Nat) (l : Launch) : Bool :=
  l.bound.all (fun n => ((s.ct (agentOf n)).launch != some id || (s.ct (agentOf n)).cmds.isEmpty) &&
    (match tabGet s.images n with
     | some i => i.ctx.launch != some id || i.ctx.cmds.isEmpty
     | none => true))

/-- A bound control thread becomes idle once its trail has been published to its tail (R358, Table 24.6). -/
def becomeIdle (s : State) (ag : Agent) : State :=
  let s := publishTrail (flushOut (s.updCt ag CT.withMarks) ag) ag
  if (s.ct ag).out = [] then s.updCt ag (fun c => { c with status := .idle, launch := none }) else s

/-- What a bound control thread does: it takes or steals a task id and starts it, once the commands of its previous task
have completed (R281) and its local image can be placed (R351); with no id left in the launch, and the launch's commands
complete, it becomes idle (Table 24.6).
While dispatch is stopped it does neither (R325). -/
def nextTask (s : State) (ag : Agent) : State :=
  let c := s.ct ag
  match c.launch, partNo s ag with
  | some id, some pn =>
    match tabGet s.launches id, s.parts.get pn with
    | some l, some q =>
      if q.stopDispatch || c.cmds ≠ [] then s
      else if l.bound.all (fun n => l.idsLeft n = 0) then
        if launchIdle s id l then becomeIdle s ag else s
      else if !l.dealt && (areaPending s pn (16 * l.lrec.pbase) l.params.length ||
          homeStalled s pn (16 * l.lrec.pbase) l.params.length) then s
      else
        match l.takeId (goneFrom s id) ag.val, placeImage s ag l with
        | some (task, l2), some s =>
          let s := s.updLaunch id (fun _ => l2)
          (placeParams s id l2).updCt ag (fun c => taskStart c ag l task)
        | _, _ => s
    | _, _ => s.updCt ag (fun c => { c with status := .idle, launch := none })
  | _, _ => s.updCt ag (fun c => { c with status := .idle, launch := none })

end Sys2Proof.Machine
end

