-- ==== Sys2Proof/Machine/Upsets.lean ====
section
/-! DEFINITION. Errors of the hardware that come about of themselves: bytes and registers that become poisoned, symbols that a
read will correct, lanes that go wrong (27_reliability.md R392-R394, R398, R400; notes/assumptions/21.md). -/

namespace Sys2Proof.Machine

open Sys2Proof

/-- The entry of a trail with the bytes of an address range marked as poisoned. -/
def Entry.poisoned (e : Entry) (a n : Nat) : Entry :=
  if e.kind = EntryKind.data then { e with bad := marksIn [(a, n)] e.addr e.bytes.length e.addr ++ e.bad } else e

/-- Marks `n` bytes of a memory as poisoned (R393); of a trail, those of the entries that the compactor has still to apply. -/
def poisonBytes (s : State) (p : Place) (a n : Nat) : State := match p with
  | .loc ag => s.updCt ag (fun c => { c with locBad := (a, n) :: c.locBad })
  | .trail ag => s.updCt ag (fun c => { c with trail := { c.trail with
      entries := c.trail.entries.take c.trail.done ++ (c.trail.entries.drop c.trail.done).map (fun e => e.poisoned a n) } })
  | .view ag => s.updCt ag (fun c => { c with view := c.view.map (fun v =>
      if a ≤ v.1 ∧ v.1 < a + n then (v.1, { v.2 with bad := true }) else v) })
  | .home k => s.updPart k (fun q => { q with homeBad := (a, n) :: q.homeBad })
  | .frame f => { s with frames := tabUpd s.frames f (fun fr => { fr with bad := (a, n) :: fr.bad }) }
  | .pool f => { s with poolBad := (poolAddress s f a, n) :: s.poolBad }
  | .image ag => { s with images := tabUpd s.images ag.val (fun i => { i with bad := true }) }

/-- The places in a trail's ring of the bytes from common address `a` up that its entries hold: 16 past the beginning of each
entry that covers some of them (R77). -/
def ringMarks (size : Nat) (a n : Nat) : (off : Nat) → List Entry → Marks
  | _, [] => []
  | off, e :: es =>
    (if e.kind = EntryKind.data then marksIn [(a, n)] e.addr e.bytes.length ((off + 16) % size) else [])
      ++ ringMarks size a n (off + entryBytes e) es

/-- Notes a lasting fault of home bytes of a partition, each in the slice of the core that is its home (R76): whichever partition
has the core later. -/
def stickHome (s : State) (k : Fin 32) (a n : Nat) : State := match s.parts.get k with
  | none => s
  | some q => (List.range n).foldl (fun s j =>
      let p := homePlace q.common (a + j)
      { s with homeStuck := tabSet s.homeStuck p.1 ((p.2, 1) :: (tabGet s.homeStuck p.1).getD []) }) s

/-- Notes a lasting fault of `n` bytes of a memory: they are poisoned, and stay so at each write (R398); of a trail, the places
in its ring where the bytes lie. An image has no place that the spec fixes: of it only the present bytes are poisoned. -/
def stickBytes (s : State) (p : Place) (a n : Nat) : State :=
  let s := poisonBytes s p a n
  match p with
  | .loc ag => s.updCt ag (fun c => { c with locStuck := (a, n) :: c.locStuck })
  | .home k => stickHome s k a n
  | .frame f => { s with stuck := tabSet s.stuck f ((a, n) :: (tabGet s.stuck f).getD []) }
  | .trail ag => s.updCt ag (fun c => { c with trailStuck := ringMarks (trailSize s ag) a n 0 c.trail.entries ++ c.trailStuck })
  | .view ag => s.updCt ag (fun c => { c with viewStuck := (a, n) :: c.viewStuck })
  | _ => s

/-- The count at which an activation counter saturates (R51). -/
def rowMax : Nat := 16383

/-- Whether a row's counter is at threshold: it has reached it, or saturated, or it fails its parity check (R51). -/
def rowDue (d : Die) (row : Nat) : Bool :=
  let n := ((tabGet d.rowCnt row).getD 0).toNat
  decide (d.rowThr ≤ n) || n == rowMax || d.rowBad.contains row

/-- An error, or an activation of a row, comes about. Errors that no consumption reaches count at the physical function only (R400). -/
def upsetState (s : State) : Upset → State
  | .bytes p a n => poisonBytes s p a n
  | .reg ag r => s.updCt ag (fun c => { c with regBad := r :: c.regBad })
  | .symbol ag loc word => { s with flips := tabSet s.flips (if loc.src = 5 then 144 + ag.val else ag.val) (loc, word) }
  | .unit core u => s.updCore core (fun k => { k with upset := some u })
  | .activation die row => s.updDie die (fun d => { d with
      rowCnt := tabSet d.rowCnt row (BitVec.ofNat 14 (min rowMax (((tabGet d.rowCnt row).getD 0).toNat + 1))) })
  | .rowParity die row => s.updDie die (fun d => { d with rowBad := row :: d.rowBad })
  | .shared die corrected =>
    if corrected then
      updCounters (addReport s die ⟨0, false, 0, 0, 0, 0, BitVec.allOnes 64, ⟨7, 0, 0, 0, 0, 0⟩⟩) 0
        (fun c => { c with corr := c.corr + 1 })
    else updCounters s 0 (fun c => { c with uncorr := c.uncorr + 1 })

end Sys2Proof.Machine
end

