-- ==== Sys2Proof/Machine/Boundary.lean ====
section
/-! DEFINITION. What a step does around the instruction it runs: which agent or event moves next
(notes/assumptions/5.md), the events taken at an instruction boundary (25_faults_preemption_and_translation.md R374),
fetch, and the placing of a word for the next fetch. -/

namespace Sys2Proof.Machine

open Sys2Proof

/-- Whether a step of the part is an event of its own, not an instruction a scalar pipe or vector unit executes. -/
def isEvent : Instr → Bool
  | .convoyBind _ | .vectorRetire _ | .stripCommit _ | .engineCompletion _ _ _ _ | .streamResume _ _ | .hwPublish _ _
  | .trailAppendResume _ | .compaction _ | .notificationArrival _ _ _ | .userEvent _ | .vectorAsync _
  | .uncorrectableConsumed _ _ | .selfTestComplete _ _ _ _ | .preemption _ | .contextRestore _ _ | .sqDoorbell _ _
  | .recordAccept _ _ _ | .cqHeadWrite _ _ | .queueEnable _ _ | .phseq _ _ | .launchHead _ | .stagingComplete _
  | .launchBind _ | .launchComplete _ | .childBind _ | .meridianPeriod | .coreMove _ | .watchdog _
  | .thermalSelfRefresh _ | .thermalHold _ | .selfRefreshExit _ | .rowActivationThreshold _ _
  | .powerCapPeriod _ _ _ | .afterglowDump _ _ | .coldReset _ | .warmReset _ _ | .attestationRequest _ _
  | .functionLevelReset _ | .partitionCreate _ _ _ _ | .apertureWrite _ _ _ | .runTableHostWrite _ _
  | .poolTimeout _ | .lumenFlit _ _ _ _ | .lumenTimeout _ _ _ | .checkedModeWrite _ _ | .registerWrite _ _
  | .wfeWake _ | .migrationRefused _ _ _ | .lumenLinkDown _ | .fusedMinimumRaise _ | .measurementExtend _ _ => true
  | _ => false

/-- The timeline whose armed user event is due: the lowest whose done has reached armv (R106). -/
def dueEvent (c : CT) : Option (Fin 8) :=
  (List.finRange 8).find? (fun t => (c.tls.get t).arm && decide ((c.tls.get t).armv ≤ (c.tls.get t).done))

/-- Whether a control thread takes user events: in user mode, outside a handler, at lift depth 0 (R106, R374). -/
def takesUser (c : CT) : Bool := !c.sup && !c.inUev && !c.inTrap && c.lift.levels.isEmpty

/-- Whether a control thread waits at a `vsaveq`, which keeps in its frame a fault that the draining queue raises (R324). -/
def savingQueue (s : State) (ag : Agent) : Bool :=
  (s.ct ag).status == .waiting && (match fetchAt s ag (s.ct ag).pc with
    | .instr (.vsaveq _ _) _ => true
    | _ => false)

/-- Whether a vector fault of a control thread is to be taken at its boundary (R374). -/
def faultDue (s : State) (ag : Agent) : Bool := match (s.ct ag).frozen with
  | some f => !f.told && !savingQueue s ag
  | none => false

/-- The event of the first kind (R374): a vector fault that has not yet been taken. -/
def firstEvent (s : State) : Option Instr :=
  if h : s.cur.val < 128 then
    if faultDue s s.cur then some (.vectorAsync ⟨s.cur.val, h⟩) else none
  else none

/-- The queue whose WATCHDOG trap waits for system control thread 0 of a die (R368). -/
def waitingDog (s : State) (ag : Agent) : Option Nat :=
  (s.queues.find? (fun e => e.2.wdtrap &&
    (match s.parts.get (Fin.ofNat 32 e.2.part.toNat) with
     | some q => system0 ((q.common.head?.getD 0).val / 8) = ag
     | none => false))).map (·.1)

/-- The events that come after the precise fault of the next instruction (R374): pre-emption, a watchdog expiry on a
system control thread, a user event. -/
def laterEvent (s : State) : Option Instr :=
  let c := s.me
  if h : s.cur.val < 128 then
    if c.preempt then some (.preemption ⟨s.cur.val, h⟩)
    else if takesUser c && (dueEvent c).isSome then some (.userEvent ⟨s.cur.val, h⟩)
    else none
  else if c.inTrap then none
  else (waitingDog s s.cur).map (fun q => .watchdog q)

/-- Whether a `wfe` at the program counter has begun to wait. -/
def inWfe (c : CT) : Bool := c.wfeHere.isSome

/-- Whether an instruction takes a pending pre-emption itself: `yield` does (R323). -/
def yieldTakes (i e : Instr) : Bool := match i, e with
  | .yield _, .preemption _ => true
  | _, _ => false

/-- Whether an instruction of the agent ended, or waits for earlier vector instructions to end, in a precise fault, or in the
consumption of an error: what comes behind these in R374's order stays pending. -/
def faulted (s2 : State) : Bool := s2.me.faulting

/-- The first trail of an agent's partition whose next unit can be compacted. -/
def nextCompaction (s : State) (ag : Agent) : Option CtId :=
  match partNo s ag with
  | some pn => (partCts s pn).find? (fun ct => canCompact s ct)
  | none => none

/-- The oldest engine command of an agent that can make progress. -/
def nextCommand (s : State) (ag : Agent) : Option Instr :=
  ((s.ct ag).cmds.find? (cmdReady s ag)).map (fun c => .engineCompletion ag c.tl c.num .none)

/-- What retires next of a convoy that has begun and does not stall. -/
def nextRetire (s : State) (ct : CtId) : Option Instr :=
  match (s.ct (ctAgent ct)).vq, (s.ct (ctAgent ct)).frozen with
  | v :: _, none => if v.bound && !v.stalled then some (.vectorRetire ct) else none
  | _, _ => none

/-- What the part does of its own accord while an agent waits: its oldest engine command that can make
progress does, else a trail of its partition is compacted; while a system control thread waits, a convoy that has begun on
its die retires, or one of those happens for a user control thread of the die (notes/assumptions/5.md). -/
def internalEvent (s : State) (ag : Agent) : Option Instr :=
  match nextCommand s ag with
  | some i => some i
  | none =>
    if isUser ag then (nextCompaction s ag).map (fun t => .compaction t)
    else
      let cts := (List.finRange 128).filter (fun ct => dieOf (ctAgent ct) = dieOf ag)
      match cts.findSome? (nextRetire s) with
      | some i => some i
      | none =>
        match cts.findSome? (fun ct => nextCommand s (ctAgent ct)) with
        | some i => some i
        | none => (cts.find? (canCompact s)).map (fun t => .compaction t)

/-- The choice of how many elements the `vamo` at the head of a queue performs next (R326; notes/assumptions/5.md). -/
def amoPart (s : State) (ct : CtId) (n : Nat) : State :=
  s.updCt (ctAgent ct) (fun c => { c with vq := (match c.vq with
    | v :: vs => { v with entries := (match v.entries with
        | e :: es => { e with quota := some n } :: es
        | [] => []) } :: vs
    | [] => []) })

/-- The event that moves before the agent's scalar pipe when nothing is scheduled: the head of its vector queue binds or
retires, unless it stalls, when it is tried again while the scalar pipe waits too; an agent that waits lets the part work;
a bound one lets its launch's commands complete. What a `rel` has still to publish is published first. -/
def autoEvent (s : State) : Option Instr :=
  let c := s.me
  if h : s.cur.val < 128 then
    if c.status = .halted then none
    else if c.owed ≠ 0 then some (.hwPublish ⟨s.cur.val, h⟩ c.owed)
    else
      let inner := if c.status = .waiting || (c.status = .bound && c.cmds ≠ []) then internalEvent s s.cur else none
      match c.vq, c.frozen with
      | v :: _, none =>
        if !v.bound then some (.convoyBind (coreOf s.cur))
        else if !v.stalled then some (.vectorRetire ⟨s.cur.val, h⟩)
        else if c.status = .waiting then some (inner.getD (.vectorRetire ⟨s.cur.val, h⟩))
        else none
      | _, _ => inner
  else if c.status = .waiting then internalEvent s s.cur else none

/-- The agent that an event of the later kinds of R374 interrupts. -/
def interrupts (s : State) : Instr → Option Agent
  | .preemption ct | .userEvent ct => some (ctAgent ct)
  | .watchdog q => (s.parts.get (Fin.ofNat 32 (s.queue q).part.toNat)).map (fun p =>
      system0 ((p.common.head?.getD 0).val / 8))
  | _ => none

/-- Whether the next instruction of an agent that runs ends in a precise fault. -/
def faultNext (exec : Instr → State → Out) (s : State) (ag : Agent) : Bool :=
  let c := s.ct ag
  if c.status != .running && c.status != .waiting then false
  else
    let s := { s with cur := ag }.upd CT.atBoundary
    match fetchAt s ag s.me.pc with
    | .trap _ _ => true
    | .held => false
    | .instr i _ =>
      match exec i s with
      | .next s2 => faulted s2
      | _ => false

/-- The die on which an event of a control thread, of a core or of an engine takes place. -/
def eventDie : Instr → Option (Fin 4)
  | .vectorRetire ct | .stripCommit ct | .hwPublish ct _ | .trailAppendResume ct | .compaction ct | .userEvent ct
  | .vectorAsync ct | .preemption ct | .contextRestore ct _ | .streamResume ct _ => some (dieOf (ctAgent ct))
  | .engineCompletion ag _ _ _ | .wfeWake ag => some (dieOf ag)
  | .convoyBind core | .selfTestComplete core _ _ _ | .coreMove core => some (Fin.ofNat 4 (core.val / 8))
  | _ => none

/-- Whether an event would take place on a die that has stopped: every control thread and engine of it stands (R418). -/
def eventStopped (s : State) (i : Instr) : Bool := match eventDie i with
  | some die => (s.dies.get die).stopped
  | none => false

/-! ### A scalar access that has been put off (R329; notes/assumptions/5.md) -/

/-- The scalar registers of an instruction that makes no access, waits for nothing and transfers control by its own fields alone. -/
def plainRegs : Instr → Option (List GReg)
  | .add d a b | .sub d a b | .mul d a b | .mulh d a b | .mulhn d a b | .div d a b | .divn d a b | .rem d a b | .remn d a b
  | .and d a b | .or d a b | .xor d a b | .andn d a b | .shl d a b | .shr d a b | .sha d a b | .min d a b | .max d a b
  | .minn d a b | .maxn d a b => some [d, a, b]
  | .clz d a | .ctz d a | .popc d a | .addi d a _ | .andi d a _ | .ori d a _ | .xori d a _ | .shli d a _ | .shri d a _
  | .shai d a _ => some [d, a]
  | .lui d _ | .li d _ | .liLong d _ | .luiLong d _ | .addiLong d _ => some [d]
  | .cmp _ _ a b => some [a, b]
  | .cmpi _ _ a _ => some [a]
  | .pand _ _ _ | .por _ _ _ | .pxor _ _ _ | .pnot _ _ | .pmov _ _ | .pall _ _ | .pany _ _ | .br _ | .bp _ _ _ | .nop => some []
  | _ => none

/-- Whether an access that is put off is an atomic. -/
def Slow.atomic (q : Slow) : Bool := match q.kind with
  | .load _ => false
  | _ => true

/-- Whether `n` common bytes from `a` up meet those of an access that is put off. -/
def Slow.meets (q : Slow) (a n : Nat) : Bool := decide (a < q.addr + q.size) && decide (q.addr < a + n)

/-- Whether a vector instruction may be pushed before an access that is put off is performed: it names not its register, and is no
atomic. -/
def vecPasses (q : Slow) (w : BitVec 64) : Bool := match decodeVec w.toNat with
  | .ok (.vamo _) => false
  | .ok i => match formOf i, fieldsOf i with
    | some m, some f => !(vecReads m f ++ vecWrites m f).contains (.g q.dest)
    | _, _ => false
  | .error _ => false

/-- Whether an instruction may execute before an access that is put off is performed (Table 21.5): another scalar load or a store only
before an atomic, an atomic without `.rel` only before a load and outside a strip, whose commit would come first; on other bytes,
and without its register. -/
def passes (c : CT) (q : Slow) (i : Instr) : Bool :=
  !c.loops.any (fun l => l.idx = q.dest) && (match i with
    | .stc d a sz o => q.atomic && !([d, a].contains q.dest) && !q.meets (memAddr c a (mszBytes sz) o).toNat (mszBytes sz)
    | .ldc d a sz _ o => q.atomic && !([d, a].contains q.dest) && !q.meets (memAddr c a (mszBytes sz) o).toNat (mszBytes sz)
    | .amo _ dbl rel _ d a b | .cas dbl rel _ d a b =>
      !q.atomic && !rel && c.strip.isNone && !([d, a, b].contains q.dest) && !q.meets (c.getG a).toNat (if dbl then 8 else 4)
    | .convoyHeader _ ws => ws.all (vecPasses q)
    | i => match plainRegs i with
      | some rs => !rs.contains q.dest
      | none => false)

/-- Whether the instruction that a queue retires next may be performed before an access that is put off (Table 21.5): one that loads, or
makes no access to common memory; before an atomic, one that stores other bytes too. -/
def retirePasses (q : Slow) (e : VEntry) : Bool := match e.instr with
  | .vamo _ | .rapp _ => false
  | _ => if q.atomic then !Machine.meets true q.addr (q.addr + q.size) (e.reads ++ e.writes) else !e.writes.any (·.common)

/-- The control thread whose put-off access comes before an event of its own. -/
def slowFor : Instr → Option Agent
  | .userEvent ct | .vectorAsync ct | .preemption ct | .stripCommit ct | .vectorRetire ct => some (ctAgent ct)
  | .uncorrectableConsumed ag _ => some ag
  | _ => none

/-- Whether an event may take place before an access that a control thread has put off is performed: the retirement of an instruction
that may come before it, where no error that it consumes sends the thread elsewhere. -/
def eventPasses (s : State) (ag : Agent) (q : Slow) (i : Instr) (r : Out) : Bool :=
  match i, (s.ct ag).vq.head?.bind (fun v => v.entries.head?), r with
  | .vectorRetire _, some e, .next t =>
    let c := s.ct ag
    let d := t.ct ag
    retirePasses q e && d.pc == c.pc && d.inTrap == c.inTrap && d.strip.isSome == c.strip.isSome && d.task == c.task
  | _, _, _ => false

/-- An event, behind the access that its control thread has put off where it has to follow that; while the access waits, so does the
event. -/
def afterSlow (exec : Instr → State → Out) (i : Instr) (s : State) : Out :=
  match slowFor i with
  | none => exec i s
  | some ag =>
    match (s.ct ag).slow with
    | none => exec i s
    | some q =>
      if eventPasses s ag q i (exec i s) then exec i s
      else
        let t := settleSlow s ag
        if (t.ct ag).slow.isSome then .next t else exec i t

/-- An event from the schedule: one that would take place on a stopped die does not (R418); one that the precise fault of the agent's next instruction comes before stays pending, a
pre-emption as a request, an expired watchdog's trap as one that waits (R374, R368). -/
def runEvent (exec : Instr → State → Out) (i : Instr) (s : State) : Out :=
  if eventStopped s i then .next s
  else
  match interrupts s i with
  | none => afterSlow exec i s
  | some ag =>
    if (s.ct ag).slow.isSome then .next (settleSlow s ag)
    else if faultNext exec s ag then
      match i with
      | .preemption _ => .next (s.updCt ag (fun c => { c with preempt := true }))
      | .watchdog q =>
        match exec i s with
        | .next t =>
          if (t.ct ag).inTrap && !(s.ct ag).inTrap then
            .next ({ t with cts := s.cts }.updQueue q (fun b => { b with wdtrap := true }))
          else .next t
        | o => o
      | _ => .next s
    else exec i s

/-- Runs the instruction at an agent's program counter (R170, R374): a fault of fetch or of the instruction comes before
a pending pre-emption, watchdog or user event, which a held fetch does not keep waiting. A fault of fetch leaves complete the copies
before the one at which the instruction was to resume, and reports that one (R375). A `wfe` that waits returns with its bit and
the event follows it (Table 20.2). -/
def runInstr (exec : Instr → State → Out) (s : State) : Out :=
  let s := s.upd CT.atBoundary
  match fetchAt s s.cur s.me.pc with
  | .trap cause tval => .next (preciseTrap s s.cur cause tval false s.me.lift.resume s.me.pc)
  | .held => match laterEvent s with
    | none => .next (waitHere s s.cur)
    | some e => exec e s
  | .instr i _ =>
    match laterEvent s with
    | none => exec i s
    | some e =>
      match exec i s with
      | .next s2 => if faulted s2 || inWfe s.me || yieldTakes i e then .next s2 else exec e s
      | r => r

/-- Runs the instruction at the program counter of an agent that has put an access off, if the instruction may come before it; if not,
or where it faults or an event is pending, the access is performed. -/
def runPast (exec : Instr → State → Out) (s : State) (q : Slow) : Out :=
  let s1 := s.upd CT.atBoundary
  match fetchAt s1 s.cur s1.me.pc with
  | .instr i _ =>
    if passes s1.me q i && (laterEvent s1).isNone then
      match exec i s1 with
      | .next s2 => if faulted s2 || s2.me.slow != some q then .next (settleSlow s s.cur) else .next s2
      | r => r
    else .next (settleSlow s s.cur)
  | _ => .next (settleSlow s s.cur)

/-- Runs an agent's scalar pipe for one step. A stopped die's agents do nothing more (R418); a control thread with
nothing to run stands still; one that is bound takes its next task; entries that wait for room in the trail, and ranges held
from a failed strip commit, come before the next instruction (R79, R220). -/
def runAgent (exec : Instr → State → Out) (s : State) : Out :=
  let c := s.me
  if (s.dies.get (dieOf s.cur)).stopped then .fault (.dieStopped (dieOf s.cur).val)
  else
    match c.status with
    | .idle => .next s
    | .halted => .next s
    | .bound => .next (match settleTrail s s.cur with
      | (s, true) => nextTask s s.cur
      | (s, false) => s)
    | _ =>
      match firstEvent s with
      | some e => afterSlow exec e s
      | none =>
        match settleTrail s s.cur with
        | (s, true) =>
          match s.me.slow with
          | some q => runPast exec s q
          | none => runInstr exec s
        | (s, false) => .next (waitHere s s.cur)

/-- What moves where nothing is scheduled: the end of a dump that is being written, else an access that the current agent has put
off, else what moves of its own accord, else the agent's scalar pipe. -/
def stepFree (exec : Instr → State → Out) (s : State) : Out :=
  match dumpingDie s with
  | some die => .next (finishDump s die)
  | none =>
    let stopped := (s.dies.get (dieOf s.cur)).stopped
    if !stopped && s.me.slow.isSome && (settleSlow s s.cur).me.slow.isNone then .next (settleSlow s s.cur)
    else
      match autoEvent s with
      | some e => if stopped then .fault (.dieStopped (dieOf s.cur).val) else afterSlow exec e s
      | none => runAgent exec s

/-- One step: the head of the schedule, else what moves of itself. -/
def stepWith (exec : Instr → State → Out) (s : State) : Out :=
  match s.sched with
  | .event i :: rest =>
    if isEvent i then runEvent exec i { s with sched := rest } else .next { s with sched := rest }
  | .run ag :: rest => runAgent exec { s with sched := rest, cur := ag }
  | .work ag tl num n :: rest => .next (workCmd { s with sched := rest } ag tl num n)
  | .upset u :: rest => .next (upsetState { s with sched := rest } u)
  | .look ag a n :: rest => .next (lookAhead { s with sched := rest } ag a n)
  | .putOff ag :: rest => .next ({ s with sched := rest }.updCt ag (fun c => { c with putOff := true }))
  | .delay ag :: rest => .next ({ s with sched := rest }.updCt ag (fun c => { c with delay := true }))
  | .amoPart ct n :: rest => .next (amoPart { s with sched := rest } ct n)
  | .dumped die :: rest => .next (finishDump { s with sched := rest } die)
  | [] => stepFree exec s

/-- The bytes of an instruction word laid out as the hardware stores it: the longest unit, 13 parcels, zeros above. -/
def wordBytes (nbits w : Nat) : List Byte := leBytes 52 (w % 2 ^ nbits)

/-- Stores an instruction where the current agent fetches next, and lets that agent run. A system control thread's code
is its die's supervisor code run; a user control thread's is the page of its code run (notes/assumptions/9.md). -/
def placeWord (s : State) (nbits w : Nat) : State :=
  let bs := wordBytes nbits w
  let a := s.me.pc.toNat
  let s := s.upd (fun c => { c with status := .running })
  if s.me.sup then
    s.updDie (dieOf s.cur) (fun d =>
      { d with supCode := memWrite d.supCode a bs, supLen := max d.supLen (a + bs.length) })
  else putRun s (runKey (fnOf s s.cur) s.me.kernel.code) a bs

end Sys2Proof.Machine
end

