-- ==== Sys2Proof/Machine/Matrix.lean ====
section
/-! DEFINITION. The matrix array: ownership of its planes, plane loads, rows and status
(08_arithmetic_units_and_convoys.md R157-R160, 16_instructions_matrix_and_lift.md R262-R267). -/

namespace Sys2Proof.Machine

open Sys2Proof

/-! ### Planes (R157, R159) -/

/-- K of a format: rows of a plane, and elements of a K-row (Table 8.2). -/
def kOf (t : VTy) : Nat := match t with
  | .ds4 => 512 | .bf16 => 128 | _ => 256

/-- The value of element `i` of a plane; a zero plane's elements are +0. -/
def Plane.elem (q : Plane) (i : Nat) : Num :=
  let pay := q.payload.toNat
  let sc (bits : Nat) := dsValue bits (fld pay (bits * i) bits) (fld q.scales.toNat (16 * (i / 32)) 8)
    (fld q.scales.toNat (16 * (i / 32) + 8) 8)
  match q.fmt with
  | .ds4 => sc 4
  | .ds8 => sc 8
  | .bf16 => decodeNum .bf16 (fld pay (16 * i) 16) 0
  | .e4m3 => decodeNum .e4m3 (fld pay (8 * i) 8) 0
  | .e5m2 => decodeNum .e5m2 (fld pay (8 * i) 8) 0
  | _ => .zero false

/-- A plane's bytes: payload, then the scale area (Table 8.3). -/
def Plane.bytes (q : Plane) : List Byte := leBytes 65536 q.payload.toNat ++ leBytes 8192 q.scales.toNat

/-- A plane from raw bytes, with a format. -/
def planeOf (t : VTy) (bs : List Byte) : Plane :=
  ⟨BitVec.ofNat 524288 (leNat (bs.take 65536)), BitVec.ofNat 65536 (leNat ((bs.drop 65536).take 8192)), t⟩

/-! ### Ownership (R160) -/

/-- The index of a control thread within its core. -/
def ctIndex (ag : Agent) : Fin 4 := Fin.ofNat 4 ag.val

/-- Whether a control thread owns its core's array. -/
def ownsArray (s : State) (ag : Agent) : Bool := (s.cores.get (coreOf ag)).owner = some (ctIndex ag)

/-- Writes a control thread's planes to its save area (Table 8.3). -/
def savePlanes (c : CT) : CT :=
  { c.writeLoc 0 (c.front.bytes ++ c.shadow.bytes) [] with planesSaved := true }

/-- Gives a control thread its planes: its saved image, formats kept, else zero planes; one more transfer is counted. -/
def takePlanes (c : CT) : CT :=
  let c := { c with xfer := c.xfer + 1 }
  if c.planesSaved then
    let bs := memRead c.loc 0 Config.planeSaveBytes
    { c with front := planeOf c.front.fmt (bs.take 73728), shadow := planeOf c.shadow.fmt (bs.drop 73728) }
  else { c with front := Plane.zero, shadow := Plane.zero }

/-- Transfers ownership of the array to a control thread (R160); the owner itself changes nothing. -/
def takeArray (s : State) (ag : Agent) : State :=
  if ownsArray s ag then s
  else
    let core := coreOf ag
    let s := match (s.cores.get core).owner with
      | some k =>
        let old := agentOf (4 * core.val + k.val)
        if (s.ct old).planesValid then s.updCt old savePlanes else s
      | none => s
    (s.updCt ag takePlanes).updCore core (fun k => { k with owner := some (ctIndex ag) })

/-! ### `mld` (R264) -/

/-- Bytes of an `mld`'s source (Table 16.2). -/
def mldBytes (f : VFields) : Nat := match f.t2 with
  | .mx4 => 34816
  | .e4m3 | .e5m2 => 33792
  | _ => if tyIsBlock f.t1 then 73728 else 65536

/-- A plane from its image: a ds8 plane keeps the first 4,096 scale bytes, a plane without scales none. -/
def planeImage (t : VTy) (bs : List Byte) : Plane :=
  let q := planeOf t bs
  { q with scales := if t = .ds4 then q.scales else if t = .ds8 then BitVec.ofNat 65536 (q.scales.toNat % 2 ^ 32768) else 0 }

/-- The first MX block whose scale has no exact conversion. -/
def badScale (f : VFields) (bs : List Byte) : Option Nat :=
  let step := if f.t2 = .mx4 then 17 else 33
  (List.range (bs.length / step)).find? (fun j =>
    let x := ((bs[step * j]?).getD 0).toNat
    match f.t2 with
    | .mx4 => x = 253 || x = 254
    | .e4m3 => x ≠ 255 && (x < 3 || 246 < x)
    | _ => x ≠ 255 && (x < 10 || 239 < x))

/-- A ds8 plane from 2,048 MXFP4 blocks (R133). -/
def planeOfMx4 (bs : List Byte) : Plane :=
  let blocks := (List.range 2048).map (fun j =>
    let b := (bs.drop (17 * j)).take 17
    let x := leNat (b.take 1)
    let pay := leNat (b.drop 1)
    mxToDs x ((List.range 32).map (fun i => fld pay (4 * i) 4)))
  let pay := blocks.flatMap (fun q => q.codes.map (fun n => BitVec.ofNat 8 n))
  let sc := blocks.flatMap (fun q => [BitVec.ofNat 8 q.scales.1, BitVec.ofNat 8 q.scales.2])
  ⟨BitVec.ofNat 524288 (leNat pay), BitVec.ofNat 65536 (leNat sc), .ds8⟩

/-- A bf16 plane from 1,024 MXFP8 blocks: scale times element, exactly; a NaN is 0x7FC0. -/
def planeOfMx8 (t : VTy) (bs : List Byte) : Plane :=
  let vals := (List.range 1024).flatMap (fun j =>
    let b := (bs.drop (33 * j)).take 33
    let x := leNat (b.take 1)
    (b.drop 1).map (fun v =>
      let n := match decodeNum (fmtOf t) v.toNat 0 with
        | .fin s m e => if x = 255 then Num.nan false else .fin s m (e + (x : Int) - 127)
        | v => if x = 255 then Num.nan false else v
      (narrowTail .bf16 n).code))
  ⟨BitVec.ofNat 524288 (leNat (vals.flatMap (leBytes 2))), 0, .bf16⟩

/-- The plane an `mld` makes of its source. -/
def mldPlane (f : VFields) (bs : List Byte) : Plane := match f.t2 with
  | .mx4 => planeOfMx4 bs
  | .e4m3 | .e5m2 => planeOfMx8 f.t2 bs
  | _ => planeImage f.t1 bs

/-- `mld` (R264): the shadow plane is filled, or left a zero plane where a scale does not convert. -/
def runMld (f : VFields) (x : VCtx) (s : State) : VRes :=
  let s := takeArray s s.cur
  let bs := s.me.locRead (vBase f x).toNat (mldBytes f)
  let valid (q : Plane) (s : State) : State := s.upd (fun c => { c with shadow := q, planesValid := true })
  match if f.t2 = .none then none else badScale f bs with
  | some j => .fault (valid Plane.zero s) 0 .planeFormat (w64 j) false
  | none => .done (valid (mldPlane f bs) s)

/-- `mswap` (R265). -/
def runMswap (_ : VFields) (_ : VCtx) (s : State) : VRes :=
  .done ((takeArray s s.cur).upd (fun c => { c with front := c.shadow, shadow := c.front }))

/-! ### Rows (R158, R266) -/

/-- Element `k` of the K-row that the quarter field names. -/
def rowElem (f : VFields) (g : VGroup) (k : Nat) : Num :=
  let e := fld f.fn.toNat 0 2 * kOf f.t1 + k
  if tyIsBlock f.t1 then g.blockElem f.t1 e else ext (fmtOf f.t1) (g.elem (tyWidth f.t1) e)

/-- The products of a row with column `n`, with the flags of those that are invalid. -/
def rowProducts (f : VFields) (g : VGroup) (q : Plane) (n : Nat) : List NumRes :=
  let k := kOf f.t1
  (List.range k).map (fun j => numMul (rowElem f g j) (q.elem (n * k + j)))

/-- One addition of a row's sum, narrowed to f32. -/
def rowAdd (s : Elem × Flags) (p : NumRes) : Elem × Flags :=
  let r := addStep .f32 s p.1
  (r.1, r.2 ||| p.2)

/-- A group's sum: its first product narrowed, then the others in order. -/
def groupSum (ps : List NumRes) : Elem × Flags := match ps with
  | [] => (zeroElem, 0)
  | p :: rest =>
    let n := narrowTail .f32 p.1
    rest.foldl rowAdd ((n.code, n.tail), p.2)

/-- The pair tree over group sums (R158); `fuel` bounds its depth. -/
def pairTree : (fuel : Nat) → List (Elem × Flags) → Elem × Flags
  | 0, qs => qs.headD (zeroElem, 0)
  | fuel + 1, qs =>
    if qs.length ≤ 1 then qs.headD (zeroElem, 0)
    else
      let l := pairTree fuel (qs.take (qs.length / 2))
      let r := pairTree fuel (qs.drop (qs.length / 2))
      let s := addStep .f32 l (ext .f32 r.1)
      (s.1, s.2 ||| r.2)

/-- The result of column `n`: sequential, or by groups of 32 and this part's tree (R158). -/
def rowResult (tree : Bool) (ps : List NumRes) (acc : Elem) : Elem × Flags :=
  if tree then
    let gs := (List.range (ps.length / 32)).map (fun j => groupSum ((ps.drop (32 * j)).take 32))
    addStep .f32 (pairTree 5 gs) (ext .f32 acc)
  else ps.foldl rowAdd (acc, 0)

/-- `mxr` (R266): every column whose predicate bit is 1, whatever VL and `vstart` hold; only nv is set. -/
def doMxr (tree : Bool) : VCore := fun f x a c =>
  let x := { x with vl := 256, vstart := 0 }
  let ga := c.operand x a f.va .one
  let gd := c.operand x a f.vd .one
  c.mapElems f x a .one 32 (fun n =>
    let r := rowResult tree (rowProducts f ga c.front n) (if fnBit f 2 then zeroElem else gd.elem 32 n)
    (r.1, r.2 &&& fNv))

/-- `mxr.o` (R266). -/
def runMxrO (f : VFields) (x : VCtx) (s : State) : VRes := pureRun (doMxr false) f x (takeArray s s.cur)
/-- `mxr.f` (R266). -/
def runMxrF (f : VFields) (x : VCtx) (s : State) : VRes := pureRun (doMxr true) f x (takeArray s s.cur)

/-! ### `mstat` (R267) -/

/-- The word of Table 16.3. -/
def mstatWord (s : State) (ag : Agent) : W64 :=
  let c := s.ct ag
  let owner := ((s.cores.get (coreOf ag)).owner.map (·.val)).getD 0
  w64 (owner + b2n (ownsArray s ag) * 4 + b2n c.planesValid * 8 + c.front.fmt.code * 16 + c.shadow.fmt.code * 2 ^ 8
    + b2n c.chk * 2 ^ 12 + b2n (lanes s ag = 256) * 2 ^ 13 + c.xfer.toNat * 2 ^ 32)

/-- `mstat` (R267): no transfer of ownership. -/
def runMstat (f : VFields) (_ : VCtx) (s : State) : VRes :=
  .done (s.upd (fun c => c.setG (Fin.ofNat 32 f.vd.toNat) (mstatWord s s.cur)))

/-! ### Checks at the push (R262-R264) -/

/-- Whether an activation type fits the format of the front plane (Table 16.2). -/
def rowFits (t front : VTy) : Bool := match t with
  | .bf16 => front = .bf16
  | .ds4 => front = .ds4
  | _ => front = .e4m3 || front = .e5m2 || front = .ds8

/-- Whether an instruction is a matrix instruction other than `mstat`. -/
def usesArray : Instr → Bool
  | .mld _ | .mswap _ | .mxrO _ | .mxrF _ => true
  | _ => false

/-- The planes and local size a matrix instruction needs (R262 steps 2 and 3; a failed array counts as too few lanes,
R398). Step 3 exempts `mstat` as step 2 does (DESIGN CHOICE, notes/assumptions/32.md). -/
def arrayFault (s : State) (i : Instr) : Option (Cause × W64) :=
  let a := lanes s s.cur
  if !usesArray i then none
  else if a < 256 ∨ (s.cores.get (coreOf s.cur)).arrayFailed then some (.resource, w64 a)
  else if s.me.kernel.loc < Config.planeSaveBytes then some (.localBounds, w64 s.me.kernel.loc)
  else none

/-- The faults of an `mld`'s source and of an `mxr`'s format at the push, under the tracked front format (R263, R264). -/
def planeFault (s : State) (i : Instr) (x : VCtx) (front : VTy) : Option (Cause × W64) := match i with
  | .mld f =>
    let b := vBase f x
    if b.toNat % 16 ≠ 0 then some (.misalign, b)
    else (beyond b.toNat (mldBytes f) s.me.kernel.loc).map (fun n => (.localBounds, w64 n))
  | .mxrO f | .mxrF f => if rowFits f.t1 front then none else some (.planeFormat, 0)
  | _ => none

/-- The formats of front and shadow plane that a pushed instruction will leave (R263). -/
def trackPlanes (i : Instr) (q : VTy × VTy) : VTy × VTy := match i with
  | .mld f => (q.1, f.t1)
  | .mswap _ => (q.2, q.1)
  | _ => q

end Sys2Proof.Machine
end

