-- ==== Sys2Proof/Machine/Children.lean ====
section
/-! DEFINITION. The status a child launch leaves its parent, and where it goes (20_instructions_sync_and_system.md R315 and
Table 20.5; notes/assumptions/22.md). -/

namespace Sys2Proof.Machine

open Sys2Proof

/-- The status of a child (Table 20.5). -/
def childStatus (cause : Nat) (flt kil : Bool) (ok : Nat) : W64 :=
  w64 (cause + b2n flt * 2 ^ 8 + b2n kil * 2 ^ 9 + ok % 2 ^ 32 * 2 ^ 32)

/-- A control thread with the status of a completed child. -/
def CT.childDone (c : CT) (slot id : Nat) (status : W64) : CT :=
  match tabGet c.children slot with
  | some q => if q.launch = id then { c with children := tabSet c.children slot { q with status := some status } } else c
  | none => c

/-- Gives a child's status to its parent, wherever the parent's context is. -/
def tellParent (s : State) (ag slot id : Nat) (status : W64) : State :=
  { s.updCt (agentOf ag) (fun c => c.childDone slot id status) with
    images := tabUpd s.images ag (fun i => { i with ctx := i.ctx.childDone slot id status }) }

end Sys2Proof.Machine
end

