-- ==== Sys2Proof/Machine/System.lean ====
section
/-! DEFINITION. Control and status registers, the queue frame, and the partition instructions
(20_instructions_sync_and_system.md R322, R324, R325, 06_registers.md R122-R125,
25_faults_preemption_and_translation.md R378, 26_program_watchdog_recovery.md R388). -/

namespace Sys2Proof.Machine

open Sys2Proof

/-! ### Control and status registers (R122, R322) -/

/-- Time passes before a counter is read: `cycle` and `dclk` advance by clocks that the spec leaves open (R6). -/
def tick (s : State) (n : Nat) : State :=
  let k := w64 (Config.clocks s.fresh)
  let s := { s with fresh := s.fresh + 1 }
  if n = 0x020 then
    if isUser s.cur then s.updCore (coreOf s.cur) (fun c => { c with cycle := c.cycle + k })
    else s.updDie (dieOf s.cur) (fun d => { d with cycle := d.cycle + k })
  else if n = 0x021 then s.updDie (dieOf s.cur) (fun d => { d with dclk := d.dclk + k })
  else s

/-- Sets the fields of a control register to a word, by the access codes and limits of R8 and R123-R125; read-only
registers keep their value. -/
def setCsr (c : CT) (n : Nat) (w : W64) : CT :=
  let x := w.toNat
  match n with
  | 0x000 => if x % 8 = 0 ∨ x % 8 = 7 then c else { c with frm := BitVec.ofNat 3 x }
  | 0x001 => { c with fflags := BitVec.ofNat 6 x }
  | 0x00B => { c with vstart := BitVec.ofNat 11 x }
  | 0x00C => { c with spset := BitVec.ofNat 32 x }
  | 0x010 => { c with uevec := w64 (x / 4 * 4) }
  | 0x026 => { c with bankwave := w }
  | 0x100 => if 1 ≤ x % 16 ∧ x % 16 ≤ 8 then { c with vlcap := BitVec.ofNat 4 x } else c
  | 0x101 => if x % 16 = 0 then c else { c with ctweight := BitVec.ofNat 4 x }
  | 0x102 => { c with tcause := w &&& 0xFFF7FFFF }
  | 0x103 => { c with tval := w }
  | 0x104 => { c with tpc := w }
  | _ => c

/-- The three ways a control register is written. -/
inductive CsrOp where
  | write | set | clear
  deriving DecidableEq, Repr

/-- The word a write leaves of an old one. -/
def csrNew (op : CsrOp) (old x : W64) : W64 := match op with
  | .write => x
  | .set => old ||| x
  | .clear => old &&& ~~~x

/-- Writes a control register of the current agent; the W1C bits of `conflict` clear by the 1s of `csrw` and `csrs`. -/
def writeCsr (s : State) (op : CsrOp) (n : Nat) (old x : W64) : State :=
  if n = 0x030 then
    match op, partNo s s.cur with
    | .clear, _ => s
    | _, none => s
    | _, some k => s.updPart k (fun q => { q with conflict := { q.conflict with
        valid := q.conflict.valid && !x.getLsbD 0, more := q.conflict.more && !x.getLsbD 1 } })
  else s.upd (fun c => setCsr c n (csrNew op old x))

/-- Whether a CSR instruction waits for earlier vector instructions. -/
def csrDrains (n : Nat) : Bool := [0x001, 0x008, 0x00B, 0x030].contains n

/-- The checks of R122, before anything else of a CSR instruction: PRIVILEGE for a supervisor register in user mode, then
ILLEGAL for a number that is not listed. -/
def csrChecked (s : State) (csr : BitVec 12) (parcel : Nat) (go : Nat → Out) : Out :=
  let n := csr.toNat
  if 0x100 ≤ n ∧ n < 0x200 ∧ !s.me.sup then finish s {} (.trap .privilege (w64 parcel) false)
  else if csrNumbers.contains n then go n
  else illegalHere s

/-- `csrr` (R322); of `bankwave`, once every earlier convoy has issued (R153). -/
def execCsrr (d : GReg) (csr : BitVec 12) (s : State) : Out :=
  csrChecked s csr (parcelOf (.csrr d csr)) (fun n =>
    scalar s { writes := [.g d], parity := [.csr n], drains := csrDrains n } (fun _ s =>
      if n = 0x026 ∧ s.me.vq.any (fun v => !v.bound) then .wait s else
      let s := tick s n
      .ok (s.upd (fun c => c.setG d ((csrValue s s.cur n).getD 0)))))

/-- A writing CSR instruction: gd takes the old value, then the new one is applied. -/
def csrWriting (s : State) (op : CsrOp) (d a : GReg) (n : Nat) : Out :=
  scalar s { reads := [.g a], writes := [.g d], parity := [.csr n], drains := csrDrains n, rule := .unbatched } (fun _ s =>
    let s := tick s n
    let x := s.me.getG a
    let old := (csrValue s s.cur n).getD 0
    .ok (writeCsr (s.upd (fun c => c.setG d old)) op n old x))

/-- `csrw` (R322). -/
def execCsrw (d a : GReg) (csr : BitVec 12) (s : State) : Out :=
  csrChecked s csr (parcelOf (.csrw d a csr)) (csrWriting s .write d a)
/-- `csrs` (R322). -/
def execCsrs (d a : GReg) (csr : BitVec 12) (s : State) : Out :=
  csrChecked s csr (parcelOf (.csrs d a csr)) (csrWriting s .set d a)
/-- `csrc` (R322). -/
def execCsrc (d a : GReg) (csr : BitVec 12) (s : State) : Out :=
  csrChecked s csr (parcelOf (.csrc d a csr)) (csrWriting s .clear d a)

/-! ### The queue frame (R324, R378) -/

/-- Whether a control thread's vector queue stands at a convoy boundary: no convoy has begun, or the queue is frozen. -/
def CT.atConvoy (c : CT) : Bool := match c.vq with
  | v :: _ => !v.bound || c.frozen.isSome
  | [] => true

/-- Whether a control thread can be halted or pre-empted: a stall counts as a boundary (R325, R374). -/
def CT.canStop (c : CT) : Bool := c.atConvoy || (match c.vq with
  | v :: _ => v.stalled
  | [] => false)

/-- The header of a frame but for its check word (Table 25.4), 24 bytes, by the frame's length. -/
def frameHead (c : CT) (len : Nat) : List Byte :=
  let (fadr, fel, fcs) := match c.frozen with
    | some f => (f.pc.toNat, f.elem, f.cause.code)
    | none => (2 ^ 64 - 1, 0, 0)
  leBytes 4 len ++ leBytes 4 Config.stepping.toNat ++ leBytes 8 fadr ++ leBytes 8 (fel % 2 ^ 11 + fcs * 2 ^ 16)

/-- The whole frame: header, check word, opaque body of whole 16-byte units. -/
def queueFrame (s : State) (c : CT) : List Byte :=
  let raw := Config.frameBody s.fresh
  let body := raw.take (min (raw.length / 16 * 16) 16352)
  let head := frameHead c (32 + body.length)
  head ++ leBytes 8 (Config.frameCheck (head ++ leBytes 8 0 ++ body)).toNat ++ body

/-- Whether a frame passes its own check word and names the part's stepping. -/
def frameOk (bs : List Byte) : Bool :=
  leNat ((bs.drop 4).take 4) = Config.stepping.toNat &&
    leNat ((bs.drop 24).take 8) = (Config.frameCheck (bs.take 24 ++ leBytes 8 0 ++ bs.drop 32)).toNat

/-- The address checks of the two frame instructions. -/
def frameAddr (s : State) (w : W64) (go : Res) : Res :=
  if w.toNat % 16 ≠ 0 then .trap .misalign w false
  else
    match beyond w.toNat 16384 s.me.kernel.loc with
    | some x => .trap .localBounds (w64 x) false
    | none => go

/-- `vsaveq` (R324): the frame stands for the queue and its freeze; what an open strip has buffered commits first
(R208; notes/assumptions/14.md). -/
def execVsaveq (d a : GReg) (s : State) : Out :=
  scalar s { reads := [.g a], writes := [.g d], priv := true, parcel := parcelOf (.vsaveq d a) } (fun _ s =>
    let w := s.me.getG a
    frameAddr s w (
      if !s.me.atConvoy then .wait s
      else
        match commitStrip s s.cur with
        | .stall s => .wait s
        | .fault s => .wait s
        | .done s =>
          let bs := queueFrame s s.me
          let s := { s with fresh := s.fresh + 1, saved := ⟨bs, s.me.vq, s.me.frozen⟩ :: s.saved }
          let s := s.upd (fun c => { c.writeLoc w.toNat bs [] with vq := [], frozen := none, early := [] })
          .ok (s.upd (fun c => c.setG d (w64 bs.length)))))

/-- `vrestq` (R324): ILLEGAL on a queue that is not empty, once the instructions in it have completed (R369); a frame that
fails its checks, that no `vsaveq` wrote, or that reads back with an uncorrectable error, restores nothing and answers 0x19; such an
error is reported as consumed (R396, R400) and has no other fate, since R324 gives it this answer (DEDUCED, notes/assumptions/21.md). -/
def execVrestq (d a : GReg) (s : State) : Out :=
  scalar s { reads := [.g a], writes := [.g d], priv := true, parcel := parcelOf (.vrestq d a) } (fun _ s =>
    let w := s.me.getG a
    if s.me.vq ≠ [] ∧ s.me.frozen.isNone then .wait (s.upd (fun c => { c with late := true }))
    else if s.me.vq ≠ [] ∨ s.me.late then .trap .illegal s.me.pc false
    else frameAddr s w (
      let len := leNat (s.me.locRead w.toNat 4)
      let bs := s.me.locRead w.toNat len
      let bad := (List.range (max 4 (min len 16384))).find? (fun k => s.me.locBadAt (w.toNat + k))
      let s := match bad with
        | some k => reportConsumed s s.cur (sramLoc s.me.pc 0 (w.toNat + k)) false (some (.word (.loc s.cur) (w.toNat + k) 1))
        | none => s
      let found := if 32 ≤ len ∧ len ≤ 16384 ∧ frameOk bs ∧ bad.isNone then s.saved.find? (fun q => q.bytes = bs) else none
      match found with
      | some q => .ok (s.upd (fun c => { c.setG d 0 with vq := q.vq, frozen := q.frozen }))
      | none => .ok (s.upd (fun c => c.setG d 0x19))))

/-! ### Draining and resetting a partition (R325, R388) -/

/-- The partition a register names, if it exists on the die of the current agent. -/
def drainTarget (s : State) (w : W64) : Option (Fin 32) :=
  let p := Fin.ofNat 32 w.toNat
  if partOnDie s p (dieOf s.cur) then some p else none

/-- Halts a control thread at its boundary: bound, running or waiting, with its vector queue at a convoy boundary. -/
def CT.halt (c : CT) : CT :=
  if (c.status == .running || c.status == .waiting || c.status == .bound) && c.canStop then
    { c with wasRun := c.status, status := .halted }
  else c

/-- Changes every control thread of a partition. -/
def updPartCts (s : State) (p : Fin 32) (f : CT → CT) : State :=
  (partCts s p).foldl (fun s ct => s.updCt (ctAgent ct) f) s

/-- Stops dispatch and halts what can be halted. -/
def drainStep (s : State) (p : Fin 32) : State :=
  updPartCts (s.updPart p (fun q => { q with stopDispatch := true })) p CT.halt

/-- Whether every control thread of a partition stands and every engine command has completed or is suspended. -/
def allStand (s : State) (p : Fin 32) : Bool :=
  (partCts s p).all (fun ct =>
    let c := s.ct (ctAgent ct)
    (c.status == .halted || c.status == .idle) && c.cmds.all (fun k => k.susp.isSome))

/-- Whether the compactor has applied every published entry of a partition (R325). -/
def allApplied (s : State) (p : Fin 32) : Bool := (partCts s p).all (fun ct => drainedTrail (s.ct (ctAgent ct)).trail)

/-- How many control threads of a partition are halted. -/
def haltedCount (s : State) (p : Fin 32) : Nat :=
  ((partCts s p).filter (fun ct => (s.ct (ctAgent ct)).status == .halted)).length

/-- Whether a partition is drained. -/
def isDrained (s : State) (p : Fin 32) : Bool := match s.parts.get p with
  | some q => q.drained
  | none => false

/-- The frame of the partition instructions: they run on system control threads only. -/
def partitionInstr (s : State) (m : Shape) (a : GReg) (body : Fin 32 → State → Res) : Out :=
  if isUser s.cur then finish s {} (.trap .privilege (w64 m.parcel) false)
  else
    scalar s { m with priv := true } (fun _ s =>
      match drainTarget s (s.me.getG a) with
      | none => .trap .group (w64 ((s.me.getG a).toNat % 32)) false
      | some p => body p s)

/-- `pdrain` (R325): the threads are halted, then it waits for the partition's engine commands; gd counts them. -/
def execPdrain (d a : GReg) (s : State) : Out :=
  partitionInstr s { reads := [.g a], writes := [.g d], parcel := parcelOf (.pdrain d a) } a (fun p s =>
    if isDrained s p then .ok (s.upd (fun c => c.setG d 0))
    else
      let s := drainStep s p
      if allStand s p then
        .ok ((s.updPart p (fun q => { q with drained := true })).upd (fun c => c.setG d (w64 (haltedCount s p))))
      else .wait s)

/-- `pdrain.go` (R325, R388): releases the halted threads and counts them in gd. -/
def execPdrainGo (d a : GReg) (s : State) : Out :=
  partitionInstr s { reads := [.g a], writes := [.g d], parcel := parcelOf (.pdrainGo d a) } a (fun p s =>
    let n := haltedCount s p
    let s := updPartCts s p (fun c => if c.status == .halted then { c with status := c.wasRun } else c)
    let s := s.updPart p (fun q => { q with drained := false, stopDispatch := false })
    .ok (s.upd (fun c => c.setG d (w64 n))))

/-- Whether `preset` ends a launch of its partition: one that has dispatched a task, and a child of an expired queue (R325,
R363). -/
def presetEnds (s : State) (p : Fin 32) (l : Launch) : Bool :=
  l.part == p && ((l.state == .running && l.dealt) || (decide (2 ≤ l.depth) && (s.queue l.q).expired))

/-- Ends the launches of a partition at `preset`, unposted; one that is bound but has dispatched no task stands in its queue
again, in the order of acceptance, and waits to bind (R325, R368; notes/assumptions/22.md). -/
def endLaunches (s : State) (p : Fin 32) : State :=
  let gone := (s.launches.filter (fun e => presetEnds s p e.2)).map (·.1)
  let back := s.launches.filter (fun e => e.2.part == p && e.2.state == .running && !gone.contains e.1)
  let keep := (s.launches.filter (fun e => !gone.contains e.1)).map (fun e =>
    if e.2.part = p then
      (e.1, { e.2 with
        state := if e.2.state = .running then .binding else e.2.state
        bound := [], blocks := [], groups := [], bars := Vector.replicate 16 Barrier.zero })
    else e)
  { s with
    launches := keep
    queues := s.queues.map (fun e => (e.1, { e.2 with
      pend := (back.filter (fun x => x.2.q = e.1 && x.2.depth < 2)).map (·.1) ++
        e.2.pend.filter (fun id => !gone.contains id) })) }

/-- Tells the parents, wherever their contexts are, of the children that `preset` ends: killed, with cause 0x14 (R316,
R363). -/
def tellParents (s : State) (p : Fin 32) : State :=
  (s.launches.filter (fun e => presetEnds s p e.2)).foldl (fun s e => match e.2.parent with
    | some (ag, slot) => tellParent s ag slot e.1 (childStatus 0x14 e.2.flt true e.2.ok)
    | none => s) s

/-- Ends the task whose context has been saved, as `ctkill` does (R325). -/
def endImage (s : State) (ag : Agent) (how : TaskEnd) : State :=
  match tabGet s.images ag.val with
  | none => s
  | some im =>
    let c := s.ct ag
    let s := { s with images := tabDrop s.images ag.val }
    (endTask (s.setCt ag { im.ctx with loc := c.loc, trail := c.trail }) ag how).setCt ag c

/-- A control thread at `preset`: idle, with a reset trail and no view. -/
def CT.presetIdle (c : CT) : CT :=
  { c with
    status := .idle, wasRun := .idle, launch := none, task := none, imageIn := false
    trail := resetTrail c.trail, view := [], rp := [], cmds := [], vq := [], frozen := none, held := [], out := [], marks := [], barw := []
    strip := none, again := [], wfe := [], ranOut := [], preempt := false
    early := [], acqd := [], delay := false, slow := none, putOff := false, owed := 0 }

/-- What `preset` does once the partition is drained and compacted: tasks end, those of saved contexts too, suspended commands
are cancelled with their outputs; the queue watchdogs start again, and dispatch stays stopped (R325, R388). -/
def resetPartition (s : State) (p : Fin 32) : State :=
  let s := tellParents s p
  let s := (partCts s p).foldl (fun s ct =>
    let s := endTask s (ctAgent ct) (.kill 0x14)
    let s := (s.ct (ctAgent ct)).cmds.foldl (fun s m => cancelCmd s (ctAgent ct) m) s
    endImage s (ctAgent ct) (.kill 0x14)) s
  let s := endLaunches s p
  let s := updPartCts s p CT.presetIdle
  let s := s.updPart p (fun q => { q with conflict := Conflict.zero, drained := false, stopDispatch := true })
  let fn := match s.parts.get p with
    | some q => q.fn
    | none => 0
  { s with queues := s.queues.map (fun e =>
      if e.2.part.toNat = p.val ∧ queueFn e.1 = fn then (e.1, { e.2 with wdcnt := 0, expired := false }) else e) }

/-- `preset` (R325): drains the partition, waits for its compactor to apply every published entry, those that a `rel` has still to publish
among them (R80), and resets it; dispatch stays stopped. -/
def execPreset (a : GReg) (s : State) : Out :=
  partitionInstr s { reads := [.g a], parcel := parcelOf (.preset a) } a (fun p s =>
    let s := if isDrained s p then s else drainStep s p
    if !allStand s p then .wait s
    else
      let s := updPartCts (s.updPart p (fun q => { q with drained := true })) p CT.publishOwed
      if allApplied s p then .ok (resetPartition s p) else .wait s)

end Sys2Proof.Machine
end

