-- ==== Sys2Proof/Machine/Preempt.lean ====
section
/-! DEFINITION. Pre-emption, the context image and its restore (25_faults_preemption_and_translation.md R383-R386,
20 R323; notes/assumptions/20.md). -/

namespace Sys2Proof.Machine

open Sys2Proof

/-! ### Pre-emption (R383) -/

/-- A vector register that an image restores: lanes at or above the active count stay as they are (R115). -/
def VReg.refilled (a : Nat) (old image : VReg) : VReg := vFromImage a old (vImage a image)

/-- A control thread as its image holds it: local scratch, the trail and the view are not part of it (R384). A `wfe` in which it
waits wakes, since pre-emption was requested (Table 20.2). -/
def imageCt (a : Nat) (c : CT) : CT :=
  { c with wfe := c.wfe.map (fun w => { w with oth := true }), early := [], putOff := false, delay := false, loc := [], locBad := [], locStuck := [], trail := Trail.empty, view := [], preempt := false, v := c.v.map (VReg.lower a) }

/-- Whether the error of a register lies in what an image holds of it: lanes at or above the active count are not part of it (R115). -/
def BadReg.imaged (a : Nat) : BadReg → Bool
  | .v _ l => decide (l < a)
  | _ => true

/-- The image of a control thread (R384): its size counts 2,048 bytes of control state, the declared registers, and the
frame of its vector queue. What is wrong with a register goes with it into the image (R393). -/
def imageOf (s : State) (ag : Agent) (c : CT) : Image :=
  let k := c.kernel
  let size := 2048 + 8 * k.gregs + 256 * k.pregs + 1536 * k.vregs + (queueFrame s c).length
  ⟨imageCt (lanes s ag) c, Config.imageAddress ag.val, size, Config.imageCheck s.fresh, c.regBad.any (BadReg.imaged (lanes s ag))⟩

/-- A control thread whose context has left it: idle, with nothing of the task in flight. -/
def CT.vacant (c : CT) : CT :=
  { c with
    status := .idle, wasRun := .idle, launch := none, task := none, cmds := [], vq := [], frozen := none
    streams := Vector.replicate 4 Stream.closed, children := [], strip := none, again := [], held := [], out := [], marks := [], barw := []
    sup := false, inTrap := false, inUev := false, wfe := [], ranOut := [], preempt := false, planesValid := false, early := [], acqd := [], delay := false, slow := none
    planesSaved := false, loops := [], lift := Lift.empty }

/-- Takes a pre-emption: the queue is at a convoy boundary, the strip commits, the thread releases, every engine command has
completed or is suspended, the planes are saved, and the image is written with a last change to it (R383). None: a step
of it has still to wait. -/
def takePreemption (s : State) (ag : Agent) (last : CT → CT) : State × Bool :=
  let (s, free) := settleTrail s ag
  if !free ∨ !(s.ct ag).canStop then (waitHere s ag, false)
  else
    match commitStrip s ag with
    | .stall s => (waitHere s ag, false)
    | .fault s => (waitHere s ag, false)
    | .done s =>
      let s := release s ag
      if (s.ct ag).cmds.any (fun m => m.susp.isNone) then (waitHere s ag, false)
      else
        let s := if ownsArray s ag then
            let s := if (s.ct ag).planesValid then s.updCt ag savePlanes else s
            s.updCore (coreOf ag) (fun k => { k with owner := none })
          else s
        let s := { s with images := tabSet s.images ag.val (imageOf s ag (last (s.ct ag))), fresh := s.fresh + 1 }
        (s.updCt ag CT.vacant, true)

/-- A pre-emption request is taken at the boundary where the control thread stands (R374, R383); until it can be, and behind
a vector fault that is to be taken, it stays pending. -/
def execPreemption (ct : CtId) (s : State) : Out :=
  let ag := ctAgent ct
  let c := s.ct ag
  if c.task.isNone || c.status == .halted || c.status == .idle then .next s
  else if faultDue s ag then .next (s.updCt ag (fun c => { c with preempt := true }))
  else .next (takePreemption (s.updCt ag (fun c => { c with preempt := true })) ag id).1

/-- `yield` (R323): a pending pre-emption is taken with gd to be 1 after the restore; otherwise gd is 0 and the deficit
falls to its least value. -/
def execYield (d : GReg) (s : State) : Out :=
  scalar s { writes := [.g d], commits := true, rule := .once } (fun _ s =>
    if s.me.preempt then
      .halt (takePreemption s s.cur (fun c => advance ((c.setG d 1).setGTag d 0) 1)).1
    else .ok (s.upd (fun c => { c.setG d 0 with deficit := -65536 })))

/-! ### Restore (R385, R386) -/

/-- Whether a control thread's trail has been compacted to its tail, and its view with it. -/
def restoreReady (s : State) (ag : Agent) : Bool :=
  let c := s.ct ag
  c.task.isNone && c.launch.isNone && c.status == .idle && c.trail.done == c.trail.entries.length && c.view.isEmpty

/-- The control thread that an image restores: trail reset, view empty, replay points from the image, suspended commands
reissued. -/
def CT.restored (a : Nat) (c image : CT) : CT :=
  { image with
    loc := c.loc, locBad := c.locBad, locStuck := c.locStuck, regBad := c.regBad.filter (fun b => !b.imaged a), trail := resetTrail c.trail, view := []
    trailStuck := c.trailStuck, viewStuck := c.viewStuck
    v := Vector.ofFn (fun k : Fin 48 => (c.v.get k).refilled a (image.v.get k))
    cmds := image.cmds.map (fun m => { m with susp := none }) }

/-- An image that cannot be read back: the task ends with CONTEXT_LOST, its streams are closed and its commands
cancelled; the control thread loads nothing and stays idle (R386). The ids left in its block are for the other threads of its
launch to steal (notes/assumptions/20.md). -/
def loseContext (s : State) (ag : Agent) (im : Image) : State :=
  let fn := fnOf s ag
  let s := endImage s ag (.fault 0x19)
  let s := addReport s (dieOf ag)
    ⟨8, false, 0x19, reportCore ag, ctNumber ag, fn, BitVec.allOnes 64, ⟨4, 0, 0, 0, im.ctx.pc, im.addr⟩⟩
  countConsumed s fn false

/-- The active lanes with which an image is restored. -/
def restoredLanes (s : State) (ag : Agent) (im : Image) : Nat :=
  32 * min (s.cores.get (coreOf ag)).healthy im.ctx.vlcap.toNat

/-- Whether dispatch is stopped around an agent, as while its partition is drained: no thread goes to work there (R325, R388). -/
def dispatchStopped (s : State) (ag : Agent) : Bool := match partOf s ag with
  | some q => q.stopDispatch || q.drained
  | none => false

/-- A saved context is restored onto its control thread (R385): refused while the core has too few healthy groups, and while
the partition is drained, so that its commands stay suspended (R325, R388); one that holds poisoned data does not read back
(R386). -/
def execContextRestore (ct : CtId) (readsBack : Bool) (s : State) : Out :=
  let ag := ctAgent ct
  match tabGet s.images ag.val with
  | none => .next s
  | some im =>
    if !restoreReady s ag || dispatchStopped s ag || decide ((s.cores.get (coreOf ag)).healthy < im.ctx.vlcap.toNat) then .next s
    else if readsBack && !im.bad then
      .next { s with
        images := tabDrop s.images ag.val
        cts := s.cts.set ag.val ((s.ct ag).restored (restoredLanes s ag im) im.ctx) ag.isLt }
    else .next (loseContext s ag im)

end Sys2Proof.Machine
end

