-- ==== Sys2Proof/Machine/Touch.lean ====
section
/-! DEFINITION. The elements that a vector instruction reads, writes and computes, and the lanes in which they lie
(06_registers.md R112-R116, 14_instructions_convert_permute_reduce.md R238, R247-R255, 27_reliability.md R393, R394). -/

namespace Sys2Proof.Machine

open Sys2Proof

/-! ### Elements of an operand and their lanes (R112, R131) -/

/-- Elements of an operand: its first register, the bits of an element, whether it is laid out five to a lane (R131), and which
elements. -/
structure Touch where
  reg  : Nat
  bits : Nat
  five : Bool
  els  : List Nat
  deriving DecidableEq, Repr

/-- The lanes of the operand's registers, one string of them, in which an element lies. -/
def Touch.lanes (t : Touch) (e : Nat) : List Nat :=
  if t.five then [e / 5]
  else
    let lo := t.bits * e / 32
    (List.range ((t.bits * (e + 1) + 31) / 32 - lo)).map (fun k => lo + k)

/-- The place of lane `l` of register `reg` in the operand's string of lanes, with `a` lanes to a register. -/
def Touch.place (a : Nat) (t : Touch) (reg l : Nat) : Option Nat :=
  if reg < t.reg ∨ a ≤ l then none else some ((reg - t.reg) * a + l)

/-- The first of the elements that lies in lane `l` of register `reg`. -/
def Touch.elemAt (a : Nat) (t : Touch) (reg l : Nat) : Option Nat :=
  (t.place a reg l).bind (fun m => t.els.find? (fun e => (t.lanes e).contains m))

/-- Whether every element that has a place in lane `l` of register `reg` is among the elements. -/
def Touch.fills (a : Nat) (t : Touch) (reg l : Nat) : Bool := match t.place a reg l with
  | none => false
  | some m =>
    if t.five then (List.range 5).all (fun j => t.els.contains (5 * m + j))
    else if t.bits = 0 then false
    else if 32 < t.bits then t.els.contains (32 * m / t.bits)
    else (List.range (32 / t.bits)).all (fun j => t.els.contains (32 / t.bits * m + j))

/-- Elements with those that hold the scales of their blocks (R114). -/
def withScales (t : VTy) (els : List Nat) : List Nat := if tyIsBlock t then els ++ els.map (fun e => e / 32 * 32) else els

/-- Elements of an operand that a field names, by its width; an operand of one register has `bits` bits to an element. -/
def operandTouch (f : VFields) (x : VCtx) (a bits : Nat) (role : Role) (r : BitVec 6) (els : List Nat) : List Touch :=
  match role with
  | .vec (.ty t) => [⟨r.toNat, elemBits x.vtype (resolveTy x.vtype t), false, withScales (resolveTy x.vtype t) els⟩]
  | .vec (.dbl t) => [⟨r.toNat, 2 * elemBits x.vtype (resolveTy x.vtype t), false, els⟩]
  | .vec (.seg t nf) => (List.range nf).map (fun k =>
      ⟨r.toNat + k * spanOf x.vtype x.vl a (.ty t), elemBits x.vtype (resolveTy x.vtype t), false, els⟩)
  | .vec .pos => [⟨r.toNat, 32, false, els⟩]
  | .vec .one => [⟨r.toNat, bits, isF6 f, els⟩]
  | _ => []

/-! ### What is read (R224, R393) -/

/-- The elements of the blocks that an instruction moves whole (R215). -/
def blockElems (x : VCtx) : List Nat := (movedBlocks x).flatMap (fun b => (List.range 32).map (fun k => 32 * b + k))

/-- The columns of the array that an `mxr` computes (R266). -/
def mxrColumns (c : CT) (f : VFields) (x : VCtx) : List Nat := c.actives f { x with vl := 256, vstart := 0 }

/-- The elements of the activation row that an `mxr` takes (R266). -/
def rowElems (f : VFields) : List Nat := (List.range (kOf f.t1)).map (fun k => fld f.fn.toNat 0 2 * kOf f.t1 + k)

/-- The index that element `e` of vb holds (R252, R253). -/
def indexOf (c : CT) (a : Nat) (f : VFields) (x : VCtx) (e : Nat) : Nat :=
  ((c.operand x a f.vb (.ty (ty2 f))).elem (x.w2 f) e).1

/-- The place in Z of an element of `vzip`, and in C of one of `vunzip` (Table 14.4). -/
def zipPlace (f : VFields) (x : VCtx) (e : Nat) : Nat := if fnBit f 0 then x.vl + e else e
/-- See `zipPlace`. -/
def unzipPlace (f : VFields) (e : Nat) : Nat := 2 * e + b2n (fnBit f 0)

/-- Both elements of each pair whose even one is active, in the 8-byte form of `vamo` (R221). -/
def amoElems (f : VFields) (els : List Nat) : List Nat :=
  if fnBit f 4 then (els.filter (fun e => e % 2 = 0)).flatMap (fun e => [e, e + 1]) else els

/-- The elements of va that an instruction needs. -/
def vaReads (i : Instr) (f : VFields) (x : VCtx) (a : Nat) (c : CT) : List Nat :=
  let some_ := c.actives f x
  let whole := c.actives f x.whole
  let all := List.range x.vl
  match i with
  | .vmv _ => if tyIsBlock f.t1 then blockElems x else some_
  | .vsel _ => some_.filter (c.predBit f f.vc 5)
  | .vbcast _ => if fld f.fn.toNat 0 2 = 1 then all.filter (fun e => e = x.gb.toNat) else (whole.map (fun e => e / 32)).eraseDups
  | .vextr _ => all.filter (fun e => e = x.gb.toNat)
  | .vcompress _ => c.selected f x
  | .vexpand _ => List.range (c.selected f x).length
  | .vperm _ => (whole.map (indexOf c a f x)).filter (fun e => decide (e < x.vl))
  | .vpush _ => whole.filter (fun e => decide (indexOf c a f x e < x.vl))
  | .vslideup _ => (whole.filter (fun e => decide (slideBy f x ≤ e))).map (fun e => e - slideBy f x)
  | .vslidedn _ => (whole.map (fun e => e + slideBy f x)).filter (fun e => decide (e < x.vl))
  | .vrev _ => whole.map (fun e => x.vl - 1 - e)
  | .vzip _ => ((whole.map (zipPlace f x)).filter (fun n => n % 2 = 0)).map (fun n => n / 2)
  | .vunzip _ => (whole.map (unzipPlace f)).filter (fun n => decide (n < x.vl))
  | .vredsum _ | .vfredsum _ | .vredmin _ | .vredmax _ => whole
  | .vbquant _ | .vbscaleGet _ | .vbscaleSet _ => all
  | .vsort _ | .vsortk _ | .vmrg _ | .vsegred _ | .vuniq _ | .vsrch _ => all
  | .mxrO _ | .mxrF _ => rowElems f
  | _ => some_

/-- The elements of vb that an instruction needs. -/
def vbReads (i : Instr) (f : VFields) (x : VCtx) (c : CT) : List Nat :=
  let some_ := c.actives f x
  let whole := c.actives f x.whole
  match i with
  | .vsel _ => some_.filter (fun e => !c.predBit f f.vc 5 e)
  | .vperm _ | .vpush _ => whole
  | .vzip _ => ((whole.map (zipPlace f x)).filter (fun n => n % 2 = 1)).map (fun n => n / 2)
  | .vunzip _ => ((whole.map (unzipPlace f)).filter (fun n => decide (x.vl ≤ n))).map (fun n => n - x.vl)
  | .vredsum _ | .vfredsum _ | .vredmin _ | .vredmax _ => (List.range x.vl).take 1
  | .vbscaleSet _ => List.range (x.vl / 32)
  | .vamo _ => some_.filter (fun e => !fnBit f 4 || e % 2 = 0)
  | _ => some_

/-- The elements of vd that an instruction reads of it, as a source or an accumulator. -/
def vdReads (i : Instr) (f : VFields) (x : VCtx) (a : Nat) (c : CT) : List Nat := match i with
  | .vspill _ => List.range a
  | .vst _ => if tyIsBlock (x.ty1 f) then blockElems x else c.actives f x
  | .rapp _ => List.range x.vl
  | .mxrO _ | .mxrF _ => mxrColumns c f x
  | _ => c.actives f x

/-- Bits of an element of an operand that lies in one register: an activation of an `mxr`, a scale of `vbscale` (R244); else a
lane. -/
def oneElemBits (i : Instr) (f : VFields) (va : Bool) : Nat := match i with
  | .mxrO _ | .mxrF _ => if va then tyWidth f.t1 else 32
  | .vbscaleGet _ => tyWidth f.t1
  | .vbscaleSet _ => tyWidth f.t2
  | _ => 32

/-- The scales of the blocks of a row that an `mxr` takes, with its elements (R266). -/
def rowTouch (i : Instr) (f : VFields) (ts : List Touch) : List Touch := match i with
  | .mxrO _ | .mxrF _ => ts.map (fun t => { t with els := withScales f.t1 t.els })
  | _ => ts

/-- What a vector instruction reads of vector registers. -/
def readTouches (i : Instr) (m : Form) (f : VFields) (x : VCtx) (a : Nat) (c : CT) : List Touch :=
  (if m.store || m.acc then operandTouch f x a (oneElemBits i f false) m.vd f.vd (vdReads i f x a c) else []) ++
    rowTouch i f (operandTouch f x a (oneElemBits i f true) m.va f.va (vaReads i f x a c)) ++
    operandTouch f x a (oneElemBits i f false) m.vb f.vb (vbReads i f x c) ++
    (if m.vcOut then [] else operandTouch f x a 32 m.vc f.vc (match i with
      | .vamo _ => amoElems f (c.actives f x)
      | _ => c.actives f x))

/-! ### What is written (R113) -/

/-- The elements of a vector vd that an instruction writes. -/
def vdWrites (i : Instr) (f : VFields) (x : VCtx) (a : Nat) (c : CT) : List Nat :=
  let some_ := c.actives f x
  let whole := c.actives f x.whole
  let all := List.range x.vl
  match i with
  | .vld _ => if tyIsBlock (x.ty1 f) then blockElems x else some_
  | .vfill _ => List.range a
  | .vamo _ => amoElems f some_
  | .vmv _ => if tyIsBlock f.t1 then blockElems x else some_
  | .vins _ => all.filter (fun e => e = x.gb.toNat)
  | .vcompress _ => List.range (c.selected f x).length
  | .vexpand _ => c.selected f x
  | .vpush _ => ((whole.map (indexOf c a f x)).filter (fun e => decide (e < x.vl))).eraseDups
  | .vslideup _ => whole.filter (fun e => decide (slideBy f x ≤ e))
  | .vredsum _ | .vfredsum _ | .vredmin _ | .vredmax _ => all.take 1
  | .vbcast _ | .viota _ | .vperm _ | .vslidedn _ | .vrev _ | .vzip _ | .vunzip _ => whole
  | .vbquant _ | .vbscaleSet _ | .vsort _ | .vsortk _ | .vmrg _ => all
  | .vbscaleGet _ => List.range (x.vl / 32)
  | .vsegred _ | .vuniq _ => List.range (keyGroups (keyWidth f) (c.records x a f.va)).length
  | .mxrO _ | .mxrF _ => mxrColumns c f x
  | _ => some_

/-- What a vector instruction writes: elements of vector registers, predicates whole, scalar registers. -/
structure Written where
  touches : List Touch
  refs    : List RegRef
  deriving DecidableEq, Repr

/-- What a vector instruction writes up to a restart element, or all of it. A predicate is written whole under p0 from element 0 on
(R111); a predicate or scalar result comes only with the completion. -/
def writtenBy (i : Instr) (m : Form) (f : VFields) (x : VCtx) (a : Nat) (c : CT) (upTo : Option Nat) : Written :=
  let below (els : List Nat) : List Nat := match upTo with
    | some n => els.filter (fun e => decide (e < n))
    | none => els
  let firstOn : Bool := f.pm = 0 && !f.pn && (m.cls == .ps || (x.vstart = 0 && decide (0 < x.vl)))
  ⟨(if m.store then [] else operandTouch f x a (oneElemBits i f false) m.vd f.vd (below (vdWrites i f x a c))) ++
      (if m.vcOut then operandTouch f x a 32 m.vc f.vc (below (List.range x.vl)) else []),
    if upTo.isSome then [] else (vecWrites m f).filter (fun r => match r with
      | .g _ => true
      | .p _ => firstOn
      | .v _ _ => false)⟩

/-- The lane of a register's image (Table 6.2) in which its byte `k` lies. -/
def imageLane (k : Nat) : Nat := if k < 1024 then k / 4 else (k - 1024) / 2

/-- Whether the error of a register is gone once a vector instruction has written (R393): that of a lane all of whose elements it has
written, of a predicate all of whose bits, of a scalar register. -/
def Written.clears (w : Written) (a : Nat) : BadReg → Bool
  | .v r l => w.touches.any (fun t => t.fills a r l)
  | .p r => w.refs.contains (.p r)
  | .g r => w.refs.contains (.g r)
  | _ => false

/-- Whether the poison of byte `k` of a register's image is gone. -/
def Written.clearsByte (w : Written) (a : Nat) (x : RegRef) (k : Nat) : Bool := match x with
  | .v r _ => w.touches.any (fun t => t.fills a r (imageLane k))
  | x => w.refs.contains x

/-! ### What is computed (R224, R238, R394) -/

/-- The elements of an instruction that are computed, as elements of registers: of what it writes or stores, of the operands of a
reduction and its result, else the active elements under t1. -/
def computedTouches (i : Instr) (m : Form) (f : VFields) (x : VCtx) (a : Nat) (c : CT) : List Touch :=
  let plain (els : List Nat) : List Touch := [⟨0, elemBits x.vtype (x.ty1 f), false, els⟩]
  match i with
  | .vredsum _ | .vfredsum _ | .vredmin _ | .vredmax _ =>
    operandTouch f x a 32 m.va f.va (c.actives f x.whole) ++ operandTouch f x a 32 m.vd f.vd ((List.range x.vl).take 1)
  | .vextr _ => plain ((List.range x.vl).filter (fun e => e = x.gb.toNat))
  | .vpopc _ | .vfirst _ => plain (c.actives f x.whole)
  | .vsegred _ | .vuniq _ => plain (List.range x.vl)
  | _ =>
    if m.store then operandTouch f x a (oneElemBits i f false) m.vd f.vd (vdReads i f x a c)
    else match m.vd with
      | .vec _ => operandTouch f x a (oneElemBits i f false) m.vd f.vd (vdWrites i f x a c)
      | _ => plain (c.actives f x)

/-! ### The operands of a lift copy (R270) -/

/-- Before a copy runs: every batched source holds this copy's value (a scalar one was taken at the push), every
destination the value its slot holds; the first copy lays the old values out under the result tag. -/
def beforeCopy (a : Nat) (writes : List RegRef) (x : VCtx) (b : Nat) (c : CT) : CT :=
  let old (r : RegRef) : Tag := ((x.tags.find? (fun q => q.1 = r)).map (·.2)).getD 0
  let c := if x.lead then
      writes.foldl (fun c r =>
        let was := c.refTag r
        ((c.setRefTag r (old r)).spread a r x.tag).setRefTag r was) c
    else c
  x.tags.foldl (fun c q =>
    if writes.contains q.1 then c.loadRef a q.1 (c.copyBytes q.1 x.tag b)
    else
      match q.1 with
      | .g _ => c
      | r => if q.2 = 0 then c else c.loadRef a r (c.copyBytes r q.2 b)) c

/-- A control thread as an entry finds its registers: a copy's own values in those that are batched. -/
def entryCt (a : Nat) (m : Form) (f : VFields) (x : VCtx) (c : CT) : CT := match x.copy with
  | some b => beforeCopy a (singles x.vtype x.vl a (vecWrites m f)) x b c
  | none => c

/-- Whether a copy takes a register's value from the lift frame. -/
def VCtx.batched (x : VCtx) (r : RegRef) : Bool := x.copy.isSome && x.tags.any (fun q => q.1 = r && q.2 ≠ 0)

end Sys2Proof.Machine
end

