-- ==== Sys2Proof/Machine/Reliability.lean ====
section
/-! DEFINITION. Consumed errors, the shadow pass, self-test and the retirement of lane groups (27_reliability.md R392-R398,
06_registers.md R118; notes/assumptions/21.md). -/

namespace Sys2Proof.Machine

open Sys2Proof

/-! ### What a vector instruction consumes (R393, R394, R396) -/

/-- The bytes that a vector instruction reads into registers: common or local, element, address, count. Inactive elements
read nothing; a store of 6-bit fields reads the words it changes. -/
def loadSpans (s : State) (ag : Agent) (e : VEntry) : List (Bool × Nat × Nat × Nat) :=
  let c := s.ct ag
  let x := e.ctx
  match e.instr, accessOf e.instr, fieldsOf e.instr with
  | .mld f, _, _ => [(false, 0, (vBase f x).toNat, mldBytes f)]
  | .vamo f, _, _ =>
    let n := if fnBit f 4 then 8 else 4
    ((c.actives f x).filter (fun el => !fnBit f 4 || el % 2 = 0)).map (fun el =>
      (true, el, (x.ga + w64 ((c.operand x (lanes s ag) f.vb (.ty .n32)).elem 32 el).1).toNat, n))
  | _, some q, some f =>
    let m := q.form.resolved (x.ty1 f)
    let es := elemBytes x (x.ty1 f)
    if q.store then
      if m = .fields6 then (c.actives f x).map (fun el => (false, el, (elemAddr m f x es el 0 0).toNat, 4)) else []
    else
      match m with
      | .image => [(false, 0, (vBase f x).toNat, 1536)]
      | .blocks => (movedBlocks x).map (fun b =>
          (false, 32 * b, (vBase f x + w64 (b * blockBytes (x.ty1 f))).toNat, blockBytes (x.ty1 f)))
      | .segment => (c.actives f x).flatMap (fun el => (List.range (segFields f)).map (fun k =>
          (false, el, (elemAddr m f x es el k 0).toNat, es)))
      | .indexed => (c.actives f x).map (fun el =>
          (false, el, (elemAddr m f x es el 0 (indexAt c (lanes s ag) f x el)).toNat, es))
      | _ => (c.actives f x).map (fun el => (q.common, el, (elemAddr m f x es el 0 0).toNat, if m = .fields6 then 4 else es))
  | _, _, _ => []

/-- The first poisoned byte of what a vector instruction loads, as a report names it, with the memory word it lies in. -/
def loadPoison (s : State) (ag : Agent) (e : VEntry) : Option (ErrLoc × Option TestUnit) :=
  (loadSpans s ag e).findSome? (fun q =>
    let (common, el, a, n) := q
    if !common then
      if (s.ct ag).locPoisoned a n then some (sramLoc e.ctx.pc el a, some (.word (.loc ag) a n)) else none
    else
      match e.instr, partNo s ag with
      | .vamo _, some p => if homePoisoned s p a n then some (sramLoc e.ctx.pc el a, some (.word (.home p) a n)) else none
      | _, _ => (vecPoisoned s ag a n).map (fun b => (sramLoc e.ctx.pc el b.1, some (.word b.2 b.1 1))))

/-- The physical lane on which the first execution computes logical lane `l` of a group: the spare, number 32, in the place
of a lane for which it is steered in (R398). -/
def firstLane (k : Core) (grp l : Nat) : Nat := if k.spare.get (Fin.ofNat 8 grp) = some l then 32 else l

/-- The physical lane on which the second execution computes it: the next lane of the group, the spare after the last; with
the spare steered in the shift wraps round within the 32 working lanes (R394). -/
def secondLane (k : Core) (grp l : Nat) : Nat :=
  match k.spare.get (Fin.ofNat 8 grp) with
  | none => l + 1
  | some _ => firstLane k grp ((l + 1) % 32)

/-- The place of an element in error in the register slice of a logical lane: the physical group, and the lane or the spare (R112,
Table 27.3). -/
def sliceLoc (k : Core) (pc : W64) (l elem : Nat) : ErrLoc :=
  let grp := k.groupAt (l / 32)
  ⟨0, grp, firstLane k grp (l % 32), elem, pc, 0⟩

/-- The first register with an error that a vector instruction reads: a lane of a vector register in which an element lies that it needs,
or a predicate. Of a batched register a copy reads the lift frame. -/
def registerPoison (s : State) (ag : Agent) (e : VEntry) : Option (ErrLoc × Option TestUnit) :=
  let c := s.ct ag
  if c.regBad = [] then none
  else
    match formOf e.instr, fieldsOf e.instr with
    | some m, some f =>
      let a := lanes s ag
      let ts := readTouches e.instr m f e.ctx a (entryCt a m f e.ctx c)
      c.regBad.findSome? (fun b => match b with
        | .v r l => if e.ctx.batched (.v r .one) then none
            else (ts.findSome? (fun t => t.elemAt a r l)).map (fun el => (sliceLoc (s.cores.get (coreOf ag)) e.ctx.pc l el, none))
        | .p r => if (vecReads m f).contains (.p r) && !e.ctx.batched (.p r) then some (⟨6, 0, 0, e.ctx.vstart, e.ctx.pc, 0⟩, none)
            else none
        | _ => none)
    | _, _ => none

/-- The poisoned lift-frame copy that a copy of a vector instruction reads (R269, R270): of a batched predicate, or of an element that it
needs of a batched vector register. -/
def copyPoison (s : State) (ag : Agent) (e : VEntry) : Option (ErrLoc × Option TestUnit) :=
  let c := s.ct ag
  match e.ctx.copy, formOf e.instr, fieldsOf e.instr with
  | some b, some m, some f =>
    if !c.maybePoisoned then none
    else
      let a := lanes s ag
      let ts := readTouches e.instr m f e.ctx a (entryCt a m f e.ctx c)
      let found (el w : Nat) := (sramLoc e.ctx.pc el w, some (TestUnit.word (.loc ag) w 1))
      e.ctx.tags.findSome? (fun q =>
        if q.2 = 0 then none
        else
          let at_ := c.copyAddr q.1 q.2 b
          (c.copyMarks q.1 q.2 b).findSome? (fun k => match q.1 with
            | .v r _ => (ts.findSome? (fun t => t.elemAt a r (imageLane k.1))).map (fun el => found el (at_ + k.1))
            | .p r => if (vecReads m f).contains (.p r) then some (found e.ctx.vstart (at_ + k.1)) else none
            | .g _ => none))
  | _, _, _ => none

/-- The poisoned saved plane that a matrix instruction would take with the ownership of the array (R160, R393). -/
def planePoison (s : State) (ag : Agent) (e : VEntry) : Option (ErrLoc × Option TestUnit) :=
  let takes : Bool := match e.instr with
    | .mld _ | .mswap _ | .mxrO _ | .mxrF _ => true
    | _ => false
  if takes && !ownsArray s ag && (s.ct ag).planesSaved && (s.ct ag).locPoisoned 0 Config.planeSaveBytes then
    some (sramLoc e.ctx.pc e.ctx.vstart 0, some (.word (.loc ag) 0 Config.planeSaveBytes))
  else none

/-- The first poisoned byte that an `rld` reads into a register, named by its frame, with the active element it lies in: of the bytes that
the stream's view selects of each record (R94). -/
def streamPoison (s : State) (ag : Agent) (e : VEntry) : Option (ErrLoc × Option TestUnit) := match e.instr with
  | .rld f =>
    let c := s.ct ag
    let t := c.streams.get (streamOf f)
    (tabGet s.runs (runKey (fnOf s ag) t.run)).bind (fun r =>
      let q := viewOf t r
      let es := elemBytes e.ctx (e.ctx.ty1 f)
      (List.range (rldCount f e.ctx t r)).findSome? (fun j =>
        let b := (e.ctx.first + j) * r.recsz + q.1
        ((runBad s r b q.2).flatMap (fun k => (List.range k.2).map (fun i => k.1 + i))).findSome? (fun k =>
          let el := (j * q.2 + k) / es
          if c.isActive f e.ctx el then
            let p := bytePlace r (b + k)
            some (⟨4, 0, 0, el, e.ctx.pc, pageLocation p⟩, pageWord p)
          else none)))
  | _ => none

/-- Takes the marks of unanswered requests off what an `rld` has read: it has been delivered (R408). -/
def streamDelivered (s : State) (ag : Agent) (e : VEntry) : State := match e.instr with
  | .rld f =>
    let t := (s.ct ag).streams.get (streamOf f)
    match tabGet s.runs (runKey (fnOf s ag) t.run) with
    | some r => delivered s r e.ctx.first (rldCount f e.ctx t r)
    | none => s
  | _ => s

/-- The physical column of the array on which the first execution computes column `n`: the spare, number 256, in the place of one for which
it is steered in (R398). -/
def firstColumn (k : Core) (n : Nat) : Nat := if k.colSpare = some n then 256 else n

/-- The column on which the second execution computes it: the next one, the spare after the last; with the spare steered in the shift
wraps round (R394). -/
def secondColumn (k : Core) (n : Nat) : Nat := match k.colSpare with
  | none => n + 1
  | some _ => firstColumn k ((n + 1) % 256)

/-- The first element of an instruction that is computed on a unit in either execution, with the place a report names: that
of the first execution (Table 27.4), and the unit of the second execution. Inactive elements are not computed (R224), columns of
the array whose predicate bit is 0 neither (R266). The lane group is the physical one (R112). -/
def usesUnit (s : State) (ag : Agent) (e : VEntry) (u : TestUnit) : Option (ErrLoc × Option TestUnit) :=
  let k := s.cores.get (coreOf ag)
  let a := lanes s ag
  match u, formOf e.instr, fieldsOf e.instr with
  | .lane grp lane, some m, some f =>
    if m.cls == .mx || a = 0 then none
    else
      (computedTouches e.instr m f e.ctx a (entryCt a m f e.ctx (s.ct ag))).findSome? (fun t => t.els.findSome? (fun el =>
        (t.lanes el).findSome? (fun n =>
          let l := n % a
          if k.groupAt (l / 32) = grp ∧ (firstLane k grp (l % 32) = lane ∨ secondLane k grp (l % 32) = lane) then
            some (⟨1, grp, firstLane k grp (l % 32), el, e.ctx.pc, 0⟩, some (.lane grp (secondLane k grp (l % 32))))
          else none)))
  | .column col, some m, some f => match e.instr with
    | .mxrO _ | .mxrF _ => (mxrColumns (entryCt a m f e.ctx (s.ct ag)) f e.ctx).findSome? (fun n =>
        if firstColumn k n = col ∨ secondColumn k n = col then
          some (⟨2, 0, firstColumn k n, n, e.ctx.pc, 0⟩, some (.column (secondColumn k n)))
        else none)
    | _ => none
  | _, _, _ => none

/-- The mismatch that the comparison of the two executions finds (R394): none out of checked mode, where the instruction
executes once. Both units that computed the element are tested, since the comparison does not tell which went wrong (R397). -/
def mismatch (s : State) (ag : Agent) (e : VEntry) : Option (ErrLoc × Option TestUnit) :=
  if (s.ct ag).chk then (s.cores.get (coreOf ag)).upset.bind (usesUnit s ag e) else none

/-- The operation that went wrong has been executed. -/
def upsetOver (s : State) (ag : Agent) (e : VEntry) : State :=
  match (s.cores.get (coreOf ag)).upset.bind (usesUnit s ag e) with
  | some _ => s.updCore (coreOf ag) (fun k => { k with upset := none })
  | none => s

/-- What a vector instruction consumes as it retires: a register, the copy of one, planes, bytes of SRAM, records. -/
def vectorPoison (s : State) (ag : Agent) (e : VEntry) : Option (ErrLoc × Option TestUnit) :=
  (registerPoison s ag e).or ((copyPoison s ag e).or ((planePoison s ag e).or ((loadPoison s ag e).or (streamPoison s ag e))))

/-- An error that the vector instruction at the head of a queue consumes. Where it is taken as UNCORRECTABLE, the queue
stands from there on until the handler ends the task or returns (notes/assumptions/21.md). -/
def vectorConsume (s : State) (ag : Agent) (e : VEntry) (loc : ErrLoc) (word : Option TestUnit) : State :=
  let index := (s.dies.get (dieOf ag)).reports
  let t := consume s ag loc word
  if (s.ct ag).strip.isSome then t
  else t.updCt ag (fun c => { c with
    early := [], frozen := some ⟨.uncorrectable, w64 (index % 2 ^ 32), false, e.ctx.pc, e.ctx.vstart, true⟩ })

/-- What a vector instruction writes up to a restart element, or all of it, by the registers as it finds them. -/
def entryWrites (s : State) (ag : Agent) (e : VEntry) (upTo : Option Nat) : Written :=
  match formOf e.instr, fieldsOf e.instr with
  | some m, some f =>
    let a := lanes s ag
    writtenBy e.instr m f e.ctx a (entryCt a m f e.ctx (s.ct ag)) upTo
  | _, _ => ⟨[], []⟩

/-- What was wrong with lanes and registers that a vector instruction has written with new data is gone (R393); `was` is the state
before it ran. -/
def vectorClean (was s : State) (ag : Agent) (e : VEntry) (upTo : Option Nat) : State :=
  if (s.ct ag).regBad = [] then s
  else
    let w := entryWrites was ag e upTo
    s.updCt ag (fun c => { c with regBad := c.regBad.filter (fun b => !w.clears (lanes was ag) b) })

/-! ### UNCORRECTABLE_CONSUMED -/

/-- Whether a command compares or combines the records it reads (R393). -/
def comparesRecs : CmdKind → Bool
  | .sort _ _ _ _ | .merge _ _ _ _ | .join _ _ _ _ _ | .coll _ => true
  | _ => false

/-- The vector instruction of a control thread that retires next. -/
def retiring (c : CT) : Option VEntry := match c.vq, c.frozen with
  | v :: _, none => if v.bound then v.entries.head? else none
  | _, _ => none

/-! ### Self-test and lasting faults (R397, R398) -/

/-- A report of kinds 3 to 7, which counts at the physical function only (R400). -/
def unitReport (s : State) (core : Fin 32) (kind : Nat) (loc : ErrLoc) : State :=
  let s := addReport s (Fin.ofNat 4 (core.val / 8)) ⟨kind, false, 0, core.val, 0, 0, BitVec.allOnes 64, loc⟩
  updCounters s 0 (fun c => if Config.countsUncorrectable kind then { c with uncorr := c.uncorr + 1 }
    else { c with corr := c.corr + 1 })

/-- The agents of a core. -/
def coreAgents (core : Fin 32) : List Agent := (List.finRange 4).map (fun k => agentOf (4 * core.val + k.val))

/-- A control thread when a lane group of its core has retired (R118): an open strip rewinds, or ends the task when it
has overflowed; without one, VL falls to the new VLMAX. A convoy that was queued outside any strip keeps the VL of its push, and
its elements then lie in the lanes that are left (DESIGN CHOICE, notes/assumptions/32.md). -/
def laneEvent (s : State) (ag : Agent) : State :=
  match (s.ct ag).strip with
  | some st => if st.overflow then endTask s ag (.fault 0x15) else rewindStrip s ag
  | none => s.updCt ag (fun c => { c with vl := min c.vl (vlmax s ag) })

/-- Retires a lane group of a core: the logical groups are mapped onto those that are left (R112, R118). -/
def retireGroup (s : State) (core : Fin 32) (loc : ErrLoc) : State :=
  let s := s.updCore core (fun k => { k with well := k.well.filter (fun g => g ≠ loc.grp) })
  unitReport ((coreAgents core).foldl laneEvent s) core 5 loc

/-- Sparing: the group's spare lane is steered in; a second lasting fault in the group retires it. -/
def spareLane (s : State) (core : Fin 32) (grp lane : Nat) (loc : ErrLoc) : State :=
  let g : Fin 8 := Fin.ofNat 8 grp
  if ((s.cores.get core).spare.get g).isSome then retireGroup s core loc
  else unitReport (s.updCore core (fun k => { k with spare := k.spare.set g.val (some lane) g.isLt })) core 4 loc

/-- A lasting fault of a lane, or of its register slice, which moves with the lane: binning first where the die's policy has
it and the core is not at its lowest bin, and the unit is tested again; else sparing (R398). -/
def lastingLane (s : State) (core : Fin 32) (unit : TestUnit) (loc : ErrLoc) (retest : Bool) : State :=
  let d := s.dies.get (Fin.ofNat 4 (core.val / 8))
  let k := s.cores.get core
  let s := unitReport s core 3 loc
  if d.pol && !retest && decide (k.bin < min 3 d.minbin.toNat) then
    unitReport (s.updCore core (fun k => { k with bin := k.bin + 1, tests := k.tests ++ [(unit, true)] })) core 6 loc
  else spareLane s core loc.grp loc.lane loc

/-- The place of a memory word as a report names it (Table 27.3). -/
def placeLoc (p : Place) (a : Nat) : ErrLoc := match p with
  | .frame f | .pool f => ⟨4, 0, 0, 0, 0, w64 (f * Config.pageBytes + a)⟩
  | _ => ⟨3, 0, 0, 0, 0, w64 a⟩

/-- A lasting fault of a unit (R398). -/
def lastingFault (s : State) (core : Fin 32) (unit : TestUnit) (retest : Bool) : State :=
  let k := s.cores.get core
  match unit with
  | .lane grp lane => lastingLane s core unit ⟨1, grp, lane, 0, 0, 0⟩ retest
  | .slice grp lane => lastingLane s core unit ⟨0, grp, lane, 0, 0, 0⟩ retest
  | .column col =>
    let loc : ErrLoc := ⟨2, 0, col, 0, 0, 0⟩
    let s := unitReport s core 3 loc
    if k.colSpare.isSome then unitReport (s.updCore core (fun k => { k with arrayFailed := true })) core 7 loc
    else unitReport (s.updCore core (fun k => { k with colSpare := some col })) core 4 loc
  | .word p a n => unitReport (stickBytes s p a n) core 3 (placeLoc p a)

/-- SELF_TEST_COMPLETE: the self-test of a unit that is in progress ends (R397): one that passes finds a transient error or
readmits the unit; one that fails finds a lasting fault, which is dealt with at a convoy boundary of every control thread of
the core. -/
def execSelfTestComplete (core : Fin 32) (unit : TestUnit) (passed retest : Bool) (s : State) : Out :=
  if !(s.cores.get core).tests.contains (unit, retest) then .next s
  else
    let ended := s.updCore core (fun k => { k with tests := k.tests.filter (fun q => q ≠ (unit, retest)) })
    if passed then .next ended
    else if (coreAgents core).all (fun ag => (s.ct ag).canStop) then .next (lastingFault ended core unit retest)
    else .next s

end Sys2Proof.Machine
end

