-- ==== Sys2Proof/Machine/Convoy.lean ====
section
/-! DEFINITION. Convoys: the checks before a convoy enters the vector issue queue (10_encoding_and_opcode_map.md R175,
R180, R419), its push (06_registers.md R121, 16_instructions_matrix_and_lift.md R270), binding
(08_arithmetic_units_and_convoys.md R152-R156) and retirement (R154, R162, R377). -/

namespace Sys2Proof.Machine

open Sys2Proof

/-- A convoy with its scalar pipe's answer to a check. -/
abbrev Check := Except (Cause × W64)

/-- One instruction of a convoy: what it is, its form and fields, and the address of its first parcel. -/
structure VInstr where
  instr : Instr
  form  : Form
  f     : VFields
  pc    : W64

/-! ### Steps 2 and 3 of R419 -/

/-- The vector instructions of a convoy whose bits are legal; the first that is not raises ILLEGAL. -/
def convoyInstrs (pc : W64) : List (BitVec 64) → Check (List VInstr)
  | [] => .ok []
  | w :: ws =>
    match decodeVec w.toNat with
    | .error _ => .error (.illegal, pc)
    | .ok i =>
      match formOf i, fieldsOf i with
      | some m, some f =>
        if bitsOk m f then
          match convoyInstrs (pc + 8) ws with
          | .ok vs => .ok (⟨i, m, f, pc⟩ :: vs)
          | .error e => .error e
        else .error (.illegal, pc)
      | _, _ => .error (.illegal, pc)

/-- The class of a unit code (Table 8.1). -/
def unitClass (u : BitVec 3) : Option UnitClass := match u.toNat with
  | 0 | 1 => some .va
  | 2 => some .vm
  | 3 => some .vl
  | 4 => some .mx
  | 5 => some .sf
  | 6 => some .ps
  | _ => none

/-- The unit fields of a header. -/
def hdrUnits (h : ConvoyHdr) : List (BitVec 3) := [h.u1, h.u2, h.u3, h.u4, h.u5, h.u6]

/-- The vector and predicate registers among references, by R119. -/
def vecRegs (vt : VType) (vl a : Nat) (xs : List RegRef) : List (Nat × Nat) :=
  (xs.flatMap (refRegs vt vl a)).filter (fun q => q.1 ≠ 0)

/-- Whether an instruction depends on an earlier one of its convoy in a way that cannot chain (R151). -/
def cannotChain (vt : VType) (vl a : Nat) (p c : VInstr) : Bool :=
  let made := vecRegs vt vl a (vecWrites p.form p.f)
  let meets (xs : List RegRef) : Bool := (vecRegs vt vl a xs).any made.contains
  meets (vecReads c.form c.f) &&
    (p.form.cls == .ps || c.form.cls == .ps ||
      (c.form.cls == .mx && p.form.cls != .vl && meets (roleRef c.f c.form.va c.f.va)))

/-- Whether some dependence of a convoy cannot chain. -/
def badChain (vt : VType) (vl a : Nat) : List VInstr → Bool
  | [] => false
  | p :: cs => cs.any (cannotChain vt vl a p) || badChain vt vl a cs

/-! ### Steps 4 and 5 of R419 -/

/-- The registers and streams of an instruction, each with its declared count (R110, R93). -/
def instrNumbers (c : CT) (a : Nat) (v : VInstr) : List (Nat × Nat) :=
  let refs := ((vecReads v.form v.f ++ vecWrites v.form v.f).flatMap (refRegs c.vtype c.vl a)).filterMap (fun q =>
    match q.1 with
    | 0 => if c.sup && 24 ≤ q.2 then none else some (q.2, c.kernel.gregs)
    | 1 => some (q.2, c.kernel.pregs)
    | _ => if q.2 < 48 then some (q.2, c.kernel.vregs) else none)
  refs ++ (match v.instr with
    | .rld f | .rapp f => [((streamOf f).val, c.kernel.nst)]
    | _ => [])

/-- The vector operands of an instruction. -/
def vecOperands (m : Form) (f : VFields) : List (Nat × Width) :=
  (roleRef f m.vd f.vd ++ roleRef f m.va f.va ++ roleRef f m.vb f.vb ++ roleRef f m.vc f.vc).filterMap (fun x =>
    match x with
    | .v r w => some (r, w)
    | _ => none)

/-- Whether a t1 of 0000 resolves to a type the instruction accepts; a block type moves under p0 only. -/
def resolvesOk (vt : VType) (m : Form) (f : VFields) : Bool :=
  !(f.t1 = .none && m.orNone) ||
    (m.acc1 vt.ty f.t2 && (!tyIsBlock vt.ty || (f.pm = 0 && !f.pn)))

/-- Whether VL meets the conditions of an instruction's description: whole blocks (R239), 6-bit operands (R241), pairs
(R221). -/
def lengthOk (i : Instr) (f : VFields) (vl : Nat) : Bool := match i with
  | .vbquant _ | .vbscaleGet _ | .vbscaleSet _ => vl % 32 = 0
  | .vamo _ => !fnBit f 4 || vl % 2 = 0
  | .vld _ | .vst _ => true
  | _ => !isF6 f || vl ≤ 1280

/-- The state every instruction of a convoy takes at its push, before its scalar operands. -/
def CT.pushCtx (c : CT) (pc : W64) : VCtx where
  pc := pc
  vl := c.vl
  vtype := c.vtype
  frm := c.frm
  vstart := c.vstart.toNat
  ga := 0
  gb := 0
  gc := 0
  first := 0
  copy := none
  tag := 0
  tags := []
  lead := false

/-- The fates of step 5: false is ILLEGAL. -/
def vtypeOk (c : CT) (a : Nat) (v : VInstr) : Bool :=
  (vecOperands v.form v.f).all (fun q => widthOk c.vtype c.vl a q.2 q.1) && resolvesOk c.vtype v.form v.f &&
    lengthOk v.instr v.f c.vl && sortOk v.instr c.kernel (c.pushCtx v.pc) a

/-- Steps 2 to 5 of R419 for a convoy (step 1 is made at the fetch). -/
def checkConvoy (s : State) (h : ConvoyHdr) (words : List (BitVec 64)) : Check (List VInstr) :=
  let c := s.me
  let a := lanes s s.cur
  let parcel := w64 (encHeader h)
  match convoyInstrs (c.pc + 4) words with
  | .error e => .error e
  | .ok vs =>
    if (vs.zip (hdrUnits h)).any (fun q => unitClass q.2 ≠ some q.1.form.cls) then .error (.illegalConvoy, parcel)
    else if h.chain && badChain c.vtype c.vl a vs then .error (.illegalConvoy, parcel)
    else
      match vs.findSome? (fun v => overNumber (instrNumbers c a v)) with
      | some n => .error (.resource, w64 n)
      | none =>
        match vs.find? (fun v => !vtypeOk c a v) with
        | some v => .error (.illegal, v.pc)
        | none => .ok vs

/-! ### The push (R121, R270) -/

/-- The value of a scalar operand for a copy: a batched register's own copy. -/
def CT.scalarFor (c : CT) (a : Nat) (copy : Option Nat) (r : BitVec 6) : W64 :=
  let g : GReg := Fin.ofNat 32 r.toNat
  match copy with
  | some b => w64 (leNat (c.valueBytes a (.g g) b))
  | none => c.getG g

/-- What instructions of a convoy come to at its push; `notices` holds the handle, first record and count of each `rld`,
whose pages are translated there (R46). -/
structure Pushed where
  ct      : CT
  entries : List VEntry
  notices : List (Nat × Nat × Nat)

/-- The first fault of `rld` or `rapp` at the push (R219, R220). RUN_HANDLE comes before RUN_RANGE where both apply, and its `tval`,
where no register names the handle, is the run number that the stream holds (DESIGN CHOICE, notes/assumptions/32.md). -/
def streamFault (s : State) (c : CT) (i : Instr) (x : VCtx) : Option (Cause × W64) :=
  let go (f : VFields) (mode : StMode) (block : Bool) : Option (Cause × W64) :=
    let n := streamOf f
    let t := c.streams.get n
    let bytes := x.vl * elemBytes x (x.ty1 f)
    let run := tabGet s.runs (runKey (fnOf s s.cur) t.run)
    let v := match run with
      | some r => if block then (viewOf t r).2 else r.recsz
      | none => 0
    if t.mode ≠ mode then some (.runHandle, w64 t.run)
    else
      let rec_ := match run with
        | some r => if block then t.next else r.length
        | none => t.next
      let closed : Bool := match run with
        | some r => !block && r.state != .open_
        | none => !block
      if v = 0 ∨ bytes % v ≠ 0 then some (.runRange, runFaultWord t.run rec_ 0 n.val)
      else if closed then some (.runSealed, runFaultWord t.run rec_ 0 n.val)
      else none
  match i with
  | .rld f => go f .read true
  | .rapp f => go f .append false
  | _ => none

/-- The push-time faults of one copy, in the order its description gives. -/
def pushFault (s : State) (c : CT) (v : VInstr) (x : VCtx) : Option (Cause × W64) :=
  let mem := match accessOf v.instr with
    | some i => memoryFault i v.f x (if i.common then c.kernel.com else c.kernel.loc)
    | none => none
  match mem with
  | some e => some e
  | none =>
    match streamFault s c v.instr x with
    | some e => some e
    | none => planeFault s v.instr x c.pushFront

/-- The byte intervals that the accesses of an instruction's own cover (R327): an `mld` reads its source as a vector load does. -/
def ownFootprint (c : CT) (v : VInstr) (x : VCtx) : List Interval × List Interval :=
  match v.instr with
  | .mld f => ([⟨false, (vBase f x).toNat, (vBase f x).toNat + mldBytes f⟩], [])
  | .vamo _ => ([⟨true, 0, c.kernel.com⟩], [⟨true, 0, c.kernel.com⟩])
  | i =>
    match accessOf i with
    | some q =>
      let is := footprint q v.f x (if q.common then c.kernel.com else c.kernel.loc)
      if q.store then ([], is) else (is, [])
    | none => ([], [])

/-- The byte intervals a pushed instruction covers (R327): its own, and of a lift copy the lift frame, whose slots it reads and, where it has
results, writes as local accesses of the part (R269). -/
def pushFootprint (c : CT) (v : VInstr) (x : VCtx) : List Interval × List Interval :=
  let q := ownFootprint c v x
  if x.copy.isNone ∨ c.kernel.lift = 0 then q
  else
    let frame : Interval := ⟨false, c.kernel.loc - c.kernel.lift, c.kernel.loc⟩
    let writes := (vecWrites v.form v.f).filter (fun r => !r.ignored)
    let reads := writes ++ (vecReads v.form v.f).filter (fun r => match r with
      | .g _ => false
      | r => c.refTag r ≠ 0)
    (if reads = [] then q.1 else q.1 ++ [frame], if writes = [] then q.2 else q.2 ++ [frame])

/-- What a push leaves beside its entry: the stream's next (R219) and the tracked plane formats (R263). -/
def pushEffects (s : State) (c : CT) (v : VInstr) (x : VCtx) : CT :=
  let p := trackPlanes v.instr (c.pushFront, c.pushShadow)
  let c := { c with pushFront := p.1, pushShadow := p.2 }
  match v.instr with
  | .rld f =>
    let n := streamOf f
    let t := c.streams.get n
    match tabGet s.runs (runKey (fnOf s s.cur) t.run) with
    | some r =>
      let k := x.vl * elemBytes x (x.ty1 f) / (viewOf t r).2
      { c with streams := c.streams.set n.val { t with next := x.first + k } n.isLt }
    | none => c
  | _ => c

/-- The records that an `rld` will touch: the run's handle, the first record, their count. -/
def touchedRecs (s : State) (c : CT) (v : VInstr) (x : VCtx) : List (Nat × Nat × Nat) := match v.instr with
  | .rld f =>
    let t := c.streams.get (streamOf f)
    match tabGet s.runs (runKey (fnOf s s.cur) t.run) with
    | some r => [(t.run, x.first, rldCount f x t r)]
    | none => []
  | _ => []

/-- The record after those that the queued reads of a stream have still to deliver, if there are any. -/
def queuedEnd (s : State) (c : CT) (n : Fin 4) : Option Nat :=
  let t := c.streams.get n
  match tabGet s.runs (runKey (fnOf s s.cur) t.run) with
  | none => none
  | some r => ((c.vq.flatMap (·.entries)).filterMap (fun e => match e.instr with
      | .rld f => if streamOf f = n then some (e.ctx.first + rldCount f e.ctx t r) else none
      | _ => none)).getLast?

/-- The first record an `rld` takes: the stream's next before the push; where a fault has set next back to a record that an
earlier `rld` has still to deliver, the record after those of the queue, since records are delivered in ascending order (R94). -/
def firstOf (s : State) (c : CT) : Instr → Nat
  | .rld f =>
    let next := (c.streams.get (streamOf f)).next
    match queuedEnd s c (streamOf f) with
    | some k => max next k
    | none => next
  | _ => 0

/-- A failed check at the push: the lift copy and the instruction of the convoy that it belongs to, and what was pushed
before it (R270). -/
structure PushFault where
  cause : Cause
  tval  : W64
  copy  : Option Nat
  item  : Nat
  done  : Pushed

/-- What a push comes to. -/
abbrev PushRes (α : Type) := Except PushFault α

/-- Pushes the copies of one instruction, in ascending order. A scalar operand has the value that its register holds at the push,
also where an earlier instruction of the same convoy will write that register (R121; DEDUCED, notes/assumptions/30.md). -/
def pushCopies (s : State) (v : VInstr) (x : VCtx) (orig : CT) (a item : Nat) :
    List (Option Nat) → Bool → Pushed → PushRes Pushed
  | [], _, p => .ok p
  | b :: bs, lead, p =>
    let c := p.ct
    let x := { x with
      ga := orig.scalarFor a b v.f.va
      gb := orig.scalarFor a b v.f.vb
      gc := orig.scalarFor a b v.f.vc
      first := firstOf s c v.instr, copy := b, lead := lead }
    match pushFault s c v x with
    | some (cause, tval) => .error ⟨cause, tval, b, item, p⟩
    | none =>
      let fp := pushFootprint c v x
      pushCopies s v x orig a item bs false
        ⟨pushEffects s c v x, p.entries ++ [⟨v.instr, x, fp.1, fp.2, none, 0, false, none⟩], p.notices ++ touchedRecs s c v x⟩

/-- Whether a write leaves elements of its destination as they were, in the sense of R270. Where `vins`, `vcompress`, `vexpand`, `vpush`,
`vslideup` or a reduction under p0 leaves elements of a batched vd unchanged (R237), which R270 does not count among these writes, they
are those of the old copy at the highest index of each old axis that the new tag lacks above its deepest one, and at index 0 of each deeper
one; under a new tag of 000, what the register itself holds (DESIGN CHOICE, notes/assumptions/32.md). -/
def partialWrite (c : CT) (f : VFields) : Bool := c.mask ≠ 0 || f.pm ≠ 0 || f.pn || c.vstart ≠ 0

/-- The tag on whose axes an instruction is copied (R270). -/
def vectorTag (c : CT) (v : VInstr) (reads writes : List RegRef) : Tag :=
  let t := reads.foldl (fun t x => t ||| c.refTag x) c.mask
  if partialWrite c v.f then writes.foldl (fun t x => t ||| c.refTag x) t else t

/-- The registers whose tags form the copies of an instruction: those it reads, and for an `mxr` that zeroes its
accumulator vd too (Table 16.5). -/
def tagReads (v : VInstr) : List RegRef :=
  vecReads v.form v.f ++ (match v.instr with
    | .mxrO _ | .mxrF _ => roleRef v.f v.form.vd v.f.vd
    | _ => [])

/-- The tag for which a matrix instruction raises PLANE_BATCHED (Table 16.5). -/
def planeTag (c : CT) (v : VInstr) : Tag := match v.instr with
  | .mld f => c.mask ||| c.getGTag (Fin.ofNat 32 f.va.toNat)
  | .mswap _ => c.mask
  | _ => 0

/-- The lift's own faults of the matrix instructions (Table 16.5), after the checks of R262. -/
def planeBatched (c : CT) (v : VInstr) : Option (Cause × W64) :=
  if planeTag c v ≠ 0 then some (.planeBatched, (planeTag c v).zeroExtend 64) else none

/-- Pushes one instruction, number `item` of its convoy: its lift tag, its copies from the one at which it resumes, the tags
of its results. PLANE_BATCHED is raised at the first copy (Table 23.8). -/
def pushOne (s : State) (v : VInstr) (item : Nat) (resume : Option Nat) (p : Pushed) : PushRes Pushed :=
  let c := p.ct
  let a := lanes s s.cur
  let reads := singles c.vtype c.vl a (tagReads v)
  let writes := singles c.vtype c.vl a (vecWrites v.form v.f)
  match arrayFault s v.instr, planeBatched c v with
  | some (cause, tval), _ => .error ⟨cause, tval, none, item, p⟩
  | none, some (cause, tval) => .error ⟨cause, tval, (projections c.extents (planeTag c v) c.lift.active).head?, item, p⟩
  | none, none =>
    let t := vectorTag c v reads writes
    let x := { c.pushCtx v.pc with tag := t, tags := (reads ++ writes).map (fun r => (r, c.refTag r)) }
    let all := if t = 0 then [none] else (projections c.extents t c.lift.active).map some
    let copies := match resume with
      | some b => if t = 0 then all else all.dropWhile (fun q => q ≠ some b)
      | none => all
    match pushCopies s v x c a item copies (decide (copies.length = all.length)) p with
    | .error e => .error e
    | .ok p => .ok { p with ct := writes.foldl (fun c r => c.setRefTag r t) p.ct }

/-- Pushes instructions of a convoy in listed order, the first of them number `item`. -/
def pushFrom (s : State) : List VInstr → Nat → Pushed → PushRes Pushed
  | [], _, p => .ok p
  | v :: vs, item, p =>
    match pushOne s v item (if item = s.me.lift.item then s.me.lift.resume else none) p with
    | .error e => .error e
    | .ok p => pushFrom s vs (item + 1) p

/-- Pushes a convoy, from the instruction at which it resumes (R375; notes/assumptions/30.md). -/
def pushAll (s : State) (vs : List VInstr) (p : Pushed) : PushRes Pushed :=
  if s.me.lift.resume.isSome then pushFrom s (vs.drop s.me.lift.item) s.me.lift.item p else pushFrom s vs 0 p

/-- The scalar operands of the instructions of a convoy. -/
def scalarReads (vs : List VInstr) : List RegRef :=
  (vs.flatMap (fun v => vecReads v.form v.f)).filter (fun x => match x with | .g _ => true | _ => false)

/-- Whether a scalar operand is still to be written by a queued vector instruction (R121), or one that is batched is read from the lift
frame, to which such an instruction has still to write (R269, R327). -/
def operandPends (c : CT) (vs : List VInstr) : Bool :=
  queueMeets c (scalarReads vs) [] ||
    ((scalarReads vs).any (fun x => c.refTag x ≠ 0) && queueHolds c false false (c.kernel.loc - c.kernel.lift) c.kernel.loc)

/-- Whether a convoy holds a `vamo`, which commits an open strip (R208). -/
def holdsAmo (vs : List VInstr) : Bool := vs.any (fun v => match v.instr with | .vamo _ => true | _ => false)

/-- The control thread with what a push left of it, its entries at the end of the queue. -/
def Pushed.queued (p : Pushed) (chain bound : Bool) : CT := { p.ct with vq := p.ct.vq ++ [⟨p.entries, chain, bound, 0, false⟩] }

/-- Sends the migration notices of what a push touches: one for each page in tier 2 or 3 (R46). -/
def State.pushNotices (s : State) (xs : List (Nat × Nat × Nat)) : State :=
  xs.foldl (fun s q => match tabGet s.runs (runKey (fnOf s s.cur) q.1) with
    | some r => sendMigrations s (fnOf s s.cur) q.1 r q.2.1 (pagesOf r q.2.1 q.2.2)
    | none => s) s

/-- The push itself, once nothing holds it back: every fault the descriptions name, then the queue entry. A fault at a lift
copy leaves the copies before it complete: they are pushed, and the convoy is attempted again from that copy (R270). -/
def pushConvoy (s : State) (chain : Bool) (size : Nat) (vs : List VInstr) : Out :=
  match pushAll s vs ⟨s.me, [], []⟩ with
  | .error e =>
    if e.copy.isSome ∧ e.done.entries ≠ [] then
      .next (waitHere ((s.pushNotices e.done.notices).upd (fun _ =>
        { e.done.queued chain false with lift := { e.done.ct.lift with resume := e.copy, item := e.item } })) s.cur)
    else .next (preciseTrap s s.cur e.cause e.tval false e.copy s.me.pc)
  | .ok p =>
    let s2 := (s.pushNotices p.notices).upd (fun _ => { p.queued chain false with vstart := 0 })
    finish s2 { size := size } (.ok s2)

/-- Where a convoy takes at its push a scalar register or one of VL, `vtype`, `frm` and `vstart` with an error (R121, R392), or
a poisoned copy of a batched scalar operand (R393). -/
def badScalar (c : CT) (ag : Agent) (vs : List VInstr) : Option (ErrLoc × Option TestUnit) :=
  let gs := scalarReads vs
  if c.regBad != [] && (gs.any (fun x => match x with | .g r => c.regBad.contains (.g r) | _ => false) ||
      [BadReg.csr 0x000, .csr 0x008, .csr 0x00A, .csr 0x00B].any c.regBad.contains) then some (scalarLoc c, none)
  else if !c.maybePoisoned then none
  else (gs.findSome? (fun x => if c.refTag x = 0 then none else
    c.lift.active.findSome? (fun b => c.copyPoisoned x (c.refTag x) b))).map (fun w =>
      (sramLoc c.pc 0 w, some (.word (.loc ag) w 1)))

/-- A convoy header and its instructions: every check, the commit of a strip before a `vamo`, the wait for room in the
queue and for scalar operands, the push. A convoy also waits for acquire markers that earlier loads hold back, so that its appends follow them (R79, R334). A system
control thread's core is scalar only (R17; notes/assumptions/6.md). -/
def execConvoyHeader (h : ConvoyHdr) (words : List (BitVec 64)) (s : State) : Out :=
  if !headerOk h ∨ words.length ≠ h.n.toNat then
    finish s {} (.trap .illegalConvoy (w64 (encHeader h)) false)
  else if !isUser s.cur then finish s {} (.trap .illegal s.me.pc false)
  else
    match checkConvoy s h words with
    | .error (cause, tval) => finish s {} (.trap cause tval false)
    | .ok vs =>
      let amo := holdsAmo vs && s.me.strip.isSome
      if operandPends s.me vs ∨ s.me.marks ≠ [] ∨ Config.vqDepth ≤ s.me.vq.length ∨ (amo ∧ s.me.vq ≠ []) then .next (waitHere s s.cur)
      else
      match badScalar s.me s.cur vs with
      | some (loc, word) => .next (consume s s.cur loc word)
      | none =>
      if amo then
        match commitStrip s s.cur with
        | .done s => pushConvoy s h.chain (1 + 2 * words.length) vs
        | .stall s => .next (waitHere s s.cur)
        | .fault s => .next (waitHere s s.cur)
      else pushConvoy s h.chain (1 + 2 * words.length) vs

/-! ### Execution of one entry (R154, R270, R377) -/

/-- What a vector instruction does, by the state at its push. -/
def runOf (i : Instr) (x : VCtx) (s : State) : VRes := match i with
  | .vld f => runVld f x s | .vlds f => runVlds f x s | .vldx f => runVldx f x s | .vldseg f => runVldseg f x s
  | .vst f => runVst f x s | .vsts f => runVsts f x s | .vstx f => runVstx f x s | .vstseg f => runVstseg f x s
  | .vldc f => runVldc f x s | .vstc f => runVstc f x s | .vspill f => runVspill f x s | .vfill f => runVfill f x s
  | .rld f => runRld f x s | .rapp f => runRapp f x s | .vamo f => runVamo f x s | .vldb f => runVldb f x s
  | .mld f => runMld f x s | .mswap f => runMswap f x s | .mxrO f => runMxrO f x s | .mxrF f => runMxrF f x s
  | .mstat f => runMstat f x s
  | i =>
    match coreOp i with
    | some (f, core) => pureRun core f x s
    | none =>
      match sortOp i with
      | some (f, core) => pureRun core f x s
      | none => .done s

/-- The poison marks that the copy of a register keeps once a copy of an instruction has run: those of the lanes that it has not
written (R393). -/
def keptMarks (a : Nat) (w : Written) (c : CT) (r : RegRef) (t : Tag) (b : Nat) : Marks :=
  (c.copyMarks r t b).filter (fun k => !w.clearsByte a r k.1)

/-- Runs an entry; a copy's results become copies of its result tag. -/
def runEntry (s : State) (e : VEntry) : VRes :=
  let a := lanes s s.cur
  match e.ctx.copy, formOf e.instr, fieldsOf e.instr with
  | some b, some m, some f =>
    let x := e.ctx
    let writes := singles x.vtype x.vl a (vecWrites m f)
    let s1 := s.upd (beforeCopy a writes x b)
    let after (upTo : Option Nat) (s : State) : State :=
      let w := writtenBy e.instr m f x a s1.me upTo
      settleFrame (s.upd (fun c =>
        writes.foldl (fun c r => c.writeCopy r x.tag b (c.refBytes a r) (keptMarks a w s1.me r x.tag b)) c)) s.cur
    match runOf e.instr x s1 with
    | .done s => .done (after none s)
    | .fault s el cause tval free => .fault (after (some el) s) el cause tval free
    | .wait s el => .wait (after (some el) s) el
  | _, _, _ => runOf e.instr e.ctx s

/-- Changes the head entry of the current control thread's queue. -/
def CT.updHead (c : CT) (f : VEntry → VEntry) (stalled : Bool) : CT := match c.vq with
  | v :: vs => match v.entries with
    | e :: es => { c with vq := { v with entries := f e :: es, stalled := stalled } :: vs }
    | [] => c
  | [] => c

/-- Takes the head entry off the queue, with its convoy when it was the last one; an iteration number that waited for it is
written (R198); what was read ahead does not pass a `fence.vv` behind it (R308), nor the end of the queue. -/
def CT.popEntry (c : CT) : CT := match c.vq with
  | v :: vs =>
    let c := match v.entries.head?.bind (·.late) with
      | some (r, w) => c.setG r w
      | none => c
    let c := if (v.entries.head?.map (·.fenced)) = some true then c.noEarly else c
    if v.entries.length ≤ 1 then (if vs = [] then { c.noEarly with vq := vs } else { c with vq := vs })
    else { c with vq := { v with entries := v.entries.drop 1, stalled := false } :: vs }
  | [] => c

/-- The flags that an execution of an entry by the current control thread raises (R162). -/
def flagsOf (s : State) (e : VEntry) : Flags := match runEntry s e with
  | .done q => q.me.fflags
  | .fault q _ _ _ _ => q.me.fflags
  | .wait q _ => q.me.fflags

/-- Records the element at which an entry goes on; the first copy's values need no second laying out. -/
def restartAt (el : Nat) (e : VEntry) : VEntry := { e with ctx := { e.ctx with vstart := el, lead := false }, quota := none }

/-- The element up to which a `vamo` is performed next, where that is not all of it: each of its elements is an access of its own
(R326); in the 8-byte form the elements of a pair are one. -/
def cutOf (e : VEntry) : Option Nat := match e.instr, e.quota with
  | .vamo f, some n =>
    let cut := if fnBit f 4 then (e.ctx.vstart + n) / 2 * 2 else e.ctx.vstart + n
    if e.ctx.vstart < cut ∧ cut < e.ctx.vl then some cut else none
  | _, _ => none

/-- The part of an entry that is performed next. -/
def VEntry.upTo (e : VEntry) : Option Nat → VEntry
  | some cut => { e with ctx := { e.ctx with vl := cut } }
  | none => e

/-- Counts a row of the plane owner (R156). -/
def countRow (s : State) (i : Instr) : State := match i with
  | .mxrO _ | .mxrF _ => s.updCore (coreOf s.cur) (fun k => { k with rows := k.rows + 1 })
  | _ => s

/-- The next instruction of a convoy that has begun retires (R154), once nothing of what came before waits to enter the
trail or a run, until when it stalls: in checked mode it executes twice and the two are compared; a difference is consumed, with the
flags of the first execution set (R140, R394); an error that it meets is consumed (R396), else it runs, a single-symbol error corrected on the way (R392); a fault freezes the queue with the restart element
recorded (R377); a stall leaves it where it is. -/
def execVectorRetire (ct : CtId) (s : State) : Out :=
  let ag := ctAgent ct
  let c := s.ct ag
  match c.vq, c.frozen with
  | v :: _, none =>
    match v.bound, v.entries with
    | true, e :: _ =>
      let (s, free) := settleTrail s ag
      if !free then .next (s.updCt ag (fun c => c.updHead id true))
      else
      let back (q : State) : State := { q with cur := s.cur }
      match mismatch s ag e with
      | some (loc, unit) =>
        let s := upsetOver s ag e
        .next (vectorConsume (s.updCt ag (fun c => c.raise (flagsOf { s with cur := ag } e))) ag e loc unit)
      | none =>
      match vectorPoison s ag e with
      | some (loc, word) => .next (vectorConsume (streamDelivered (upsetOver s ag e) ag e) ag e loc word)
      | none =>
      match runEntry { s with cur := ag } (e.upTo (cutOf e)) with
      | .done q =>
        match cutOf e with
        | some cut => .next (back ((vectorClean s q ag e (some cut)).updCt ag (fun c => c.updHead (restartAt cut) false)))
        | none =>
        let q := upsetOver (vectorClean s (correctOnRead q ag) ag e none) ag e
        .next (back ((countRow q e.instr).updCt ag CT.popEntry))
      | .fault q el cause tval free => .next (back ((vectorClean s q ag e (some el)).updCt ag (fun c =>
          { c.updHead (restartAt el) false with early := [], frozen := some ⟨cause, tval, free, e.ctx.pc, el, false⟩ })))
      | .wait q el => .next (back ((vectorClean s q ag e (some el)).updCt ag (fun c =>
          let c := c.updHead (restartAt el) true
          { c with status := if c.status = .waiting then .running else c.status })))
    | true, [] => .next (s.updCt ag CT.popEntry)
    | false, _ => .next s
  | _, _ => .next s

/-- Whether an instruction reads common memory. -/
def readsCommon : Instr → Bool
  | .ldc _ _ _ _ _ | .amo _ _ _ _ _ _ _ | .cas _ _ _ _ _ _ | .wfeWatch _ _ _ => true
  | .vamo _ => true
  | i => match accessOf i with
    | some q => q.common
    | none => false

/-- The word of SRAM, in home memory or in the local window of a control thread, in which the place of an error lies (R397). -/
def sramWord (s : State) (ag : Agent) (common : Bool) (loc : ErrLoc) : TestUnit :=
  match common, partNo s ag with
  | true, some p => .word (.home p) loc.loc.toNat 1
  | _, _ => .word (.loc ag) loc.loc.toNat 1

/-- UNCORRECTABLE_CONSUMED: an error that cannot be corrected is met and consumed at once (R396): by the agent's oldest engine
command in flight that the instruction at `loc.iadr` issued, which compares records and completes in error with cause 0x15; by the vector
instruction that retires next, a mismatch of the shadow pass only in checked mode; with none of these, by the scalar
instruction at the program counter. A mismatch leaves the flags of the first execution set, as where the comparison finds it itself
(R140, R225); a command that is suspended in a drained partition completes once that goes on (R325, R388). -/
def execUncorrectableConsumed (ag : Agent) (loc : ErrLoc) (s : State) : Out :=
  let c := s.ct ag
  if (s.dies.get (dieOf ag)).stopped then .next s
  else if loc.src = 5 then
    match c.cmds.find? (fun m => m.pc = loc.iadr && comparesRecs m.kind) with
    | some m => .next (failWhen (reportConsumed s ag loc false none) ag m 0x15)
    | none => .next s
  else if isUser ag && c.task.isNone then .next s
  else
    match retiring c with
    | some e =>
      let word := if loc.src = 3 then some (sramWord s ag (readsCommon e.instr) loc) else none
      if loc.src ≠ 1 ∧ loc.src ≠ 2 then .next (vectorConsume s ag e { loc with iadr := e.ctx.pc } word)
      else if c.chk then
        .next (vectorConsume (s.updCt ag (fun c => c.raise (flagsOf { s with cur := ag } e))) ag e { loc with iadr := e.ctx.pc } none)
      else .next s
    | none =>
      if loc.src = 1 ∨ loc.src = 2 then .next s
      else
        let common : Bool := match fetchAt s ag c.pc with
          | .instr i _ => readsCommon i
          | _ => false
        .next (consume s ag { loc with iadr := c.pc } (if loc.src = 3 then some (sramWord s ag common loc) else none))

/-! ### Binding (R152, R153, R155, R156) -/

/-- Bits of an element of an operand that lies in one register: a 6-bit field (R131), a scale of `vbscale` (R244), else a
lane: 32, also for `vspill` and `vfill`, whose image has no element type (DESIGN CHOICE, notes/assumptions/32.md). -/
def oneBits (i : Instr) (f : VFields) : Nat :=
  if isF6 f then 6
  else
    match i with
    | .vbscaleGet _ => tyWidth f.t1
    | .vbscaleSet _ => tyWidth f.t2
    | _ => 32

/-- Bits of an element in the predicate operands of an instruction: one for each (R111). -/
def predBits (m : Form) (f : VFields) : List Nat :=
  (roleRef f m.vd f.vd ++ roleRef f m.va f.va ++ roleRef f m.vb f.vb ++ roleRef f m.vc f.vc).filterMap (fun x => match x with
    | .p _ => some 1
    | _ => none)

/-- Bits of the widest vector operand of a convoy (R152), its predicates among them. -/
def convoyWidth (v : Convoy) : Nat :=
  (v.entries.flatMap (fun e => match formOf e.instr, fieldsOf e.instr with
    | some m, some f => predBits m f ++ (vecOperands m f).map (fun q => match q.2 with
      | .ty t => elemBits e.ctx.vtype (resolveTy e.ctx.vtype t)
      | .dbl t => 2 * elemBits e.ctx.vtype (resolveTy e.ctx.vtype t)
      | .seg t _ => elemBits e.ctx.vtype (resolveTy e.ctx.vtype t)
      | .one => oneBits e.instr f
      | .pos => 32)
    | _, _ => [])).foldl max 0

/-- VL of a convoy: the same for all its instructions. -/
def convoyVl (v : Convoy) : Nat := ((v.entries.head?).map (·.ctx.vl)).getD 0

/-- Lane groups n and element steps s of a convoy on a core with this many healthy groups (R152). One without any vector or predicate
operand has w = 0, and so n = 0 and s = 0 (DESIGN CHOICE, notes/assumptions/32.md). -/
def convoyShape (healthy : Nat) (v : Convoy) : Nat × Nat :=
  let l := (convoyVl v * convoyWidth v + 31) / 32
  let n := min ((l + 31) / 32) healthy
  (n, if n = 0 then 0 else (l + 32 * n - 1) / (32 * n))

/-- The registers an entry reads from the file at element step `k` (R153), each source operand once. -/
def stepReads (a wide n k : Nat) (made : List (Nat × Nat)) (e : VEntry) : List Nat :=
  match formOf e.instr, fieldsOf e.instr with
  | some m, some f =>
    let x := e.ctx
    let srcs := (if m.store || m.acc then roleRef f m.vd f.vd else []) ++ roleRef f m.va f.va ++ roleRef f m.vb f.vb ++
      (if m.vcOut then [] else roleRef f m.vc f.vc)
    let at_ (w : Nat) : Nat := if wide = 0 ∨ a = 0 then 0 else 32 * n * k * w / wide / a
    let regs := srcs.flatMap (fun r => match r with
      | .v r w => match w with
        | .ty t => [r + at_ (elemBits x.vtype (resolveTy x.vtype t))]
        | .dbl t => [r + at_ (2 * elemBits x.vtype (resolveTy x.vtype t))]
        | .seg t nf =>
          let b := elemBits x.vtype (resolveTy x.vtype t)
          (List.range nf).map (fun j => r + j * groupRegs x.vtype b + at_ b)
        | _ => [r]
      | _ => [])
    regs.filter (fun r => !made.contains (2, r))
  | _, _ => []

/-- The registers that earlier entries of a convoy write, for each entry. -/
def madeBefore (a : Nat) (es : List VEntry) (j : Nat) : List (Nat × Nat) :=
  (es.take j).flatMap (fun e => match formOf e.instr, fieldsOf e.instr with
    | some m, some f => vecRegs e.ctx.vtype e.ctx.vl a (vecWrites m f)
    | _, _ => [])

/-- One entry for each instruction of a convoy: its lift copies run one after the other on one unit (R149, R270), so in an element
step one of them reads. -/
def onePerInstr (es : List VEntry) : List VEntry :=
  es.foldl (fun xs e => if xs.any (fun y => y.ctx.pc = e.ctx.pc) then xs else xs ++ [e]) []

/-- Whether some element step of a convoy needs more reads of one bank than its three ports give (R153). -/
def needsWaves (a healthy : Nat) (v : Convoy) : Bool :=
  let (n, s) := convoyShape healthy v
  let es := onePerInstr v.entries
  (List.range s).any (fun k =>
    let rs := (es.zipIdx).flatMap (fun q =>
      stepReads a (convoyWidth v) n k (if v.chain then madeBefore a es q.2 else []) q.1)
    (List.range 4).any (fun b => 3 < (rs.filter (fun r => r % 4 = b)).length))

/-- Whether a convoy holds an MX instruction. -/
def convoyMx (v : Convoy) : Bool :=
  v.entries.any (fun e => match formOf e.instr with
    | some m => m.cls == .mx
    | none => false)

/-- The control threads of a core. -/
def coreCts (core : Fin 32) : List Agent := (List.finRange 4).map (fun k => agentOf (4 * core.val + k.val))

/-- The head convoy of a control thread that is ready to bind (R154): not begun, its queue not frozen. -/
def readyHead (s : State) (ag : Agent) : Option Convoy :=
  let c := s.ct ag
  match c.vq, c.frozen with
  | v :: _, none => if v.bound || c.status = .halted then none else some v
  | _, _ => none

/-- Lane groups held, and whether the array is held, by the convoys a core has bound. -/
def heldBy (s : State) (core : Fin 32) : Nat × Bool :=
  (coreCts core).foldl (fun q ag => match (s.ct ag).vq with
    | v :: _ => if v.bound then (q.1 + v.groups, q.2 || convoyMx v) else q
    | [] => q) (0, false)

/-- Rows of the array that a convoy makes. -/
def convoyRows (v : Convoy) : Nat := (v.entries.filter (fun e => match e.instr with
  | .mxrO _ | .mxrF _ => true
  | _ => false)).length

/-- Whether a ready head has been passed over for as many convoys of other threads as the promise of R156 lets it be, four
short of 4,096, so that three other such heads of the core may still bind before it (notes/assumptions/31.md). -/
def overdue (s : State) (ag : Agent) : Bool := (readyHead s ag).isSome && decide (Config.issuePromise - 4 ≤ (s.ct ag).passed)

/-- The ready heads in the order in which they are offered: descending deficit, ties in ascending index. A matrix convoy
of another thread waits while the plane owner has one ready, for at most 256 rows; while a head is overdue, only overdue
heads are offered (R156). -/
def offers (s : State) (core : Fin 32) : List (Agent × Convoy) :=
  let heads := (coreCts core).filterMap (fun ag => (readyHead s ag).map (fun v => (ag, v)))
  let late := heads.filter (fun q => overdue s q.1)
  let owned := heads.any (fun q => convoyMx q.2 && ownsArray s q.1 &&
    decide ((s.cores.get core).rows + convoyRows q.2 ≤ 256))
  let fair := if late ≠ [] then late else heads.filter (fun q => !(owned && convoyMx q.2 && !ownsArray s q.1))
  sortRecs (fun q => (65535 - (s.ct q.1).deficit).toNat) fair

/-- Deficits stay within their range (R155). -/
def clampDeficit (d : Int) : Int := max (-65536) (min 65535 d)

/-- Counts a convoy that a thread has issued against every other ready head of the core (R156). -/
def countPassed (s : State) (core : Fin 32) (ag : Agent) : State :=
  (coreCts core).foldl (fun s k => s.updCt k (fun c =>
    { c with passed := if k = ag then 0 else if (readyHead s k).isSome then c.passed + 1 else c.passed })) s

/-- Lane groups of a core that are withheld from binding while a lane or a register slice of theirs is tested (R397). -/
def groupsInTest (k : Core) : Nat :=
  (k.well.filter (fun g => k.tests.any (fun q => match q.1 with
    | .lane g2 _ | .slice g2 _ => g2 % 8 = g
    | _ => false))).length

/-- Whether the matrix array is withheld while a column of it is tested (R397). -/
def arrayInTest (k : Core) : Bool := k.tests.any (fun q => match q.1 with
  | .column _ => true
  | _ => false)

/-- Binds one head if it fits: its deficit falls by n * s, `bankwave` rises when it needs extra waves, and its thread
runs in the partition's checked mode from here on (R395). An MX convoy of another thread than the owner, an `mstat` that moves no
ownership among them, begins the count of consecutive rows again (DESIGN CHOICE, notes/assumptions/31.md). -/
def bindHead (s : State) (core : Fin 32) (q : Agent × Convoy) : State :=
  let k := s.cores.get core
  let (n, st) := convoyShape k.healthy q.2
  let held := heldBy s core
  if k.healthy < held.1 + n + groupsInTest k ∨ (convoyMx q.2 ∧ (held.2 ∨ arrayInTest k)) then s
  else
    let waves := needsWaves (lanes s q.1) k.healthy q.2
    let chk := match partOf s q.1 with
      | some p => p.chk
      | none => false
    let s := if convoyMx q.2 ∧ !ownsArray s q.1 then s.updCore core (fun k => { k with rows := 0 }) else s
    let s := countPassed s core q.1
    s.updCt q.1 (fun c => { c with
      vq := (match c.vq with
        | v :: vs => { v with bound := true, groups := n } :: vs
        | [] => [])
      deficit := clampDeficit (c.deficit - n * st)
      bankwave := if waves then c.bankwave + 1 else c.bankwave
      chk := chk })

/-- One clock of a core's arbiter (R155). -/
def execConvoyBind (core : Fin 32) (s : State) : Out :=
  let ready := (coreCts core).filter (fun ag => (readyHead s ag).isSome)
  let s2 := (offers s core).foldl (fun s q => bindHead s core q) s
  let left := ready.any (fun ag => (readyHead s2 ag).isSome)
  .next (if left then
    ready.foldl (fun s ag => s.updCt ag (fun c =>
      { c with deficit := clampDeficit (c.deficit + c.ctweight.toNat) })) s2
  else s2)

/-! ### A vector instruction by itself -/

/-- Retires so many instructions of the current control thread's queue. -/
def retireNow (s : State) (n : Nat) : Out :=
  (List.range n).foldl (fun (o : Out) _ => match o with
    | .next s => if h : s.cur.val < 128 then execVectorRetire ⟨s.cur.val, h⟩ s else .next s
    | o => o) (.next s)

/-- The push of a vector instruction alone, and its execution at once; the copies before a faulting one are executed. -/
def issueNow (v : VInstr) (s : State) : Out :=
  match pushAll s [v] ⟨s.me, [], []⟩ with
  | .error e =>
    if e.done.entries = [] then .next (preciseTrap s s.cur e.cause e.tval false e.copy v.pc)
    else
    match retireNow ((s.pushNotices e.done.notices).upd (fun _ => e.done.queued false true)) e.done.entries.length with
    | .next s => .next (preciseTrap s s.cur e.cause e.tval false e.copy v.pc)
    | o => o
  | .ok p => retireNow ((s.pushNotices p.notices).upd (fun _ => { p.queued false true with vstart := 0 })) p.entries.length

/-- A vector instruction issued alone: the checks and the push of a convoy that holds it, and then its execution, the
program counter left to the convoy (R175). -/
def issue (i : Instr) (s : State) : Out :=
  let pc := s.me.pc
  match formOf i, fieldsOf i with
  | some m, some f =>
    let v : VInstr := ⟨i, m, f, pc⟩
    let c := s.me
    let a := lanes s s.cur
    if !bitsOk m f ∨ !isUser s.cur then finish s {} (.trap .illegal pc false)
    else
      match overNumber (instrNumbers c a v) with
      | some n => finish s {} (.trap .resource (w64 n) false)
      | none =>
        if !vtypeOk c a v then finish s {} (.trap .illegal pc false)
        else if c.vq ≠ [] then .next (waitHere s s.cur)
        else
        match badScalar c s.cur [v] with
        | some (loc, word) => .next (consume s s.cur loc word)
        | none =>
        if holdsAmo [v] && c.strip.isSome then
          match commitStrip s s.cur with
          | .done s => issueNow v s
          | .stall s => .next (waitHere s s.cur)
          | .fault s => .next (waitHere s s.cur)
        else issueNow v s
  | _, _ => .next s

end Sys2Proof.Machine
end

