-- ==== Sys2Proof/Machine/EngineEvents.lean ====
section
/-! DEFINITION. The events of engine commands, notifications and streams (05_streams_copy_and_timelines.md R102, R104,
02_runs_in_main_memory.md R34, 25 R382, 28_host_peers_and_virtual_functions.md R410). -/

namespace Sys2Proof.Machine

open Sys2Proof

/-- An engine command makes the progress it can: it completes, completes in error, or suspends (R102, R278). -/
def execEngineCompletion (ag : Agent) (tl : Fin 8) (num : Nat) (peer : PeerAnswer) (s : State) : Out :=
  match findCmd s ag tl num with
  | some m => .next (completeCmd s ag m peer)
  | none => .next s

/-! ### What the links bring (R104, R409, R410) -/

/-- The answer of another device to a notification of this one: the command completes, or in error with cause 0x40 (R294). -/
def takeAnswer (s : State) (ag : Agent) (stl : Fin 8) (num : Nat) (accepted : Bool) : State :=
  match findCmd s ag stl num with
  | some m =>
    match m.kind with
    | .notify _ _ (some _) _ _ =>
      if m.prog.pos = 0 then s else if accepted then succeedCmd s ag m {} else failCmd s ag m 0x40
    | _ => s
  | none => s

/-- What becomes of the oldest flit of a channel in a port's buffers: one for another device goes out at the port of its
route, or waits while that channel is stopped, or is dropped where no route is left (R410); of those for this device, a
notification waits for its arrival, an answer settles its command, and what a collective sends is taken by it. None: it
stays. -/
def serveFlit (s : State) (port : Fin 16) (vc : BitVec 2) : Option State :=
  match ((s.links.get port).onChannel vc).head? with
  | none => none
  | some f =>
    let gone := updLink s port (·.pop vc)
    if f.dest.toNat ≠ s.device then
      match routeTo s f.dest.toNat with
      | none => some gone
      | some out => if (s.links.get out).stopped.getLsbD vc.toNat then none else some (updLink gone out (·.send f))
    else
      match f.msg with
      | .notify _ _ _ _ _ _ => none
      | .answer ag stl num ok =>
        if (s.dies.get (dieOf ag)).stopped then none else some (takeAnswer gone ag stl num ok)
      | _ => some gone

/-- Serves a channel of a port as far as it goes; `fuel` bounds the flits. -/
def serveChannel (s : State) (port : Fin 16) (vc : BitVec 2) : (fuel : Nat) → State
  | 0 => s
  | fuel + 1 => match serveFlit s port vc with
    | some s => serveChannel s port vc fuel
    | none => s

/-- Serves a channel of every port. -/
def serveAll (s : State) (vc : BitVec 2) : State :=
  (List.finRange 16).foldl (fun s port => serveChannel s port vc flitBuffers) s

/-- The port at whose channel 1 a notification from another device to a timeline stands first, with its sender. -/
def arrived (s : State) (ct : CtId) (tl : Fin 8) : Option (Fin 16 × BitVec 15 × Agent × Fin 8 × Nat) :=
  (List.finRange 16).findSome? (fun port =>
    match ((s.links.get port).onChannel 1).head? with
    | some f => match f.msg with
      | .notify dev ag stl num target l => if f.dest.toNat = s.device ∧ target = ct ∧ l = tl then some (port, dev, ag, stl, num) else none
      | _ => none
    | none => none)

/-- A notification from another device leaves its buffer: the target accepts it or not, by the terms of R294, the answer goes
back, and the flits behind it move on. To a target on a stopped die it stalls (R418). -/
def takeRemote (s : State) (ct : CtId) (tl : Fin 8) : State :=
  match if (s.dies.get (dieOf (ctAgent ct))).stopped then none else arrived s ct tl with
  | none => s
  | some (port, dev, ag, stl, num) =>
    let s := updLink s port (·.pop 1)
    let ok := acceptsNote s ct tl
    let s := if ok then acceptNote s ct tl none else s
    let s := (sendFlit s dev.toNat 1 (.answer ag stl num ok)).getD s
    serveChannel s port 1 flitBuffers

/-- A notification arrives (R104, R294): from a control thread, the oldest it has under way to that timeline; from another
device, the one that stands first in a port's buffers, which orders no memory. -/
def execNotificationArrival (ct : CtId) (tl : Fin 8) (src : NotifySrc) (s : State) : Out :=
  match src with
  | .remote => .next (takeRemote s ct tl)
  | .fromCt from_ =>
    let ag := ctAgent from_
    match (s.ct ag).cmds.find? (fun m => match m.kind with
      | .notify t l none _ _ => t == ct.val && l == tl.val
      | _ => false) with
    | some m => .next (completeCmd s ag m .none)
    | none => .next s

/-- The driver refuses a migration: the command suspended at the page completes in error with RUN_FAULT (R382), in a drained
partition and on a stopped die only once its engine runs again (R325, R388, R418). -/
def execMigrationRefused (ag : Agent) (tl : Fin 8) (num : Nat) (s : State) : Out :=
  match findCmd s ag tl num with
  | some m =>
    if m.susp.isNone then .next s
    else
      let s := s.updCmd ag m (fun e => { e with doom := some Cause.runFault.code })
      .next (advanceCmd s ag (cmdNow s ag m) .none none)
  | none => .next s

/-- The record that the `rld` at the head of a queue needs next: the one that holds its restart element (R34, R377). -/
def neededRecord (s : State) (ag : Agent) (n : Fin 4) : Nat :=
  let c := s.ct ag
  let t := c.streams.get n
  match (c.vq.head?).bind (fun v => v.entries.head?), tabGet s.runs (runKey (fnOf s ag) t.run) with
  | some e, some r =>
    match e.instr with
    | .rld f => if streamOf f = n then e.ctx.first + e.ctx.vstart * elemBytes e.ctx (e.ctx.ty1 f) / (viewOf t r).2 else t.next
    | _ => t.next
  | _, _ => t.next

/-- A stream stalled at the watermark resumes once the record it needs lies below it, or the run can grow no further or has ended
meanwhile (R34, R358): its vector instruction goes on. -/
def execStreamResume (ct : CtId) (n : Fin 4) (s : State) : Out :=
  let ag := ctAgent ct
  let t := (s.ct ag).streams.get n
  let ends := match tabGet s.runs (runKey (fnOf s ag) t.run) with
    | some r => decide (neededRecord s ag n < r.wmark) || r.state != .open_ || r.ended || t.ranOut
    | none => true
  if t.stall && ends then
    .next (s.updCt ag (fun c => { c with
      streams := c.streams.set n.val { t with stall := false } n.isLt
      vq := (match c.vq with
        | v :: vs => { v with stalled := false } :: vs
        | [] => []) }))
  else .next s

end Sys2Proof.Machine
end

