-- ==== Sys2Proof/Machine/TaskOps.lean ====
section
/-! DEFINITION. The task instructions (20_instructions_sync_and_system.md R313-R319) and the launch record as bytes
(24_execution_and_scheduling.md Table 24.2). -/

namespace Sys2Proof.Machine

open Sys2Proof

/-! ### Launch records (R350) -/

/-- The launch record that 64 bytes hold (Table 24.2). -/
def recordOf (bs : List Byte) : LaunchRec :=
  let w := leNat bs
  let at_ (lo n : Nat) := fld w lo n
  { hseq := w64 (at_ 0 64), kern := at_ 64 20, npar := at_ 84 8, tasks := at_ 96 32, width := at_ 128 8
    cond := at_ 136 1 = 1, sense := at_ 137 1 = 1, npred := at_ 138 2, limg := at_ 140 20, caddr := at_ 160 32
    rows := at_ 192 20, cols := at_ 212 20, pbase := at_ 232 24
    preds := [w64 (at_ 256 64), w64 (at_ 320 64), w64 (at_ 384 64)], gaddr := at_ 448 32, stride := at_ 480 32
    zeroOk := at_ 92 4 = 0 }

/-- A launch as it is accepted: nothing of it has run. -/
def Launch.fresh (r : LaunchRec) (params : List Byte) (fn : Nat) (part : Fin 32) (q depth : Nat)
    (parent : Option (Nat × Nat)) : Launch where
  lrec := r
  params := params
  fn := fn
  part := part
  q := q
  parent := parent
  depth := depth
  state := .accepted
  kernel := Kernel.none
  pval := 0
  bound := []
  blocks := []
  groups := []
  bars := Vector.replicate 16 Barrier.zero
  dealt := false
  ended := 0
  ok := 0
  cause := 0
  flt := false
  kil := false
  firstKill := false
  runs := []

/-! ### `panel` (R314) -/

/-- The panel of an agent's launch: rows and columns; none where the launch names none (R361). -/
def panelSize (s : State) (ag : Agent) : Nat × Nat :=
  match (s.ct ag).launch with
  | some id => match tabGet s.launches id with
    | some l => (l.lrec.rows, l.lrec.cols)
    | none => (0, 0)
  | none => (0, 0)

/-- Grants the next chunk of a panel: the word of Table 20.4 and the cursor after it. -/
def panelGrant (c : CT) (rows cols wantCols wantRows : Nat) : W64 × CT :=
  let wc := min 2048 (max 1 wantCols)
  let wr := min 256 (max 1 wantRows)
  if rows ≤ c.row0 then (0, c)
  else
    let band := if c.col0 = 0 then min wr (rows - c.row0) else c.band
    let n := min wc (cols - c.col0)
    let w := w64 (c.col0 + c.row0 * 2 ^ 20 + n * 2 ^ 40 + band * 2 ^ 52)
    let col := c.col0 + n
    if col = cols then (w, { c with col0 := 0, row0 := c.row0 + band, band := band })
    else (w, { c with col0 := col, band := band })

/-- `panel` (R314). -/
def execPanel (d a b : GReg) (s : State) : Out :=
  scalar s { reads := [.g a, .g b], writes := [.g d] } (fun _ s =>
    let c := s.me
    let q := panelSize s s.cur
    let r := panelGrant c q.1 q.2 (c.getG a).toNat (c.getG b).toNat
    .ok (s.upd (fun _ => r.2.setG d r.1)))

/-! ### `spawn` and `join` (R315, R316, R351, R363) -/

/-- A free child slot, from an order of the part's own choosing: one never used, or whose child has been joined. -/
def freeSlot (c : CT) (start : Nat) : Option Nat :=
  ((List.range 16).map (fun k => (start + k) % 16)).find? (fun n => match tabGet c.children n with
    | some q => q.joined
    | none => true)

/-- The launch of an agent, with its number. -/
def launchOf (s : State) (ag : Agent) : Option (Nat × Launch) :=
  (s.ct ag).launch.bind (fun id => (tabGet s.launches id).map (fun l => (id, l)))

/-- Submits a child: one that is refused or has no task completes at once (R315, R363), the others await their turn. -/
def submitChild (s : State) (part : Fin 32) (parent : Launch) (slot : Nat) (r : LaunchRec) (params : List Byte) : State :=
  let id := s.nextLaunch
  let set (s : State) (status : Option W64) : State :=
    s.upd (fun c => { c with children := tabSet c.children slot ⟨id, status, false⟩ })
  let s := { s with nextLaunch := id + 1, fresh := s.fresh + 1 }
  if 2 ^ 24 ≤ r.tasks then set s (some (childStatus 0x1A false false 0))
  else if 9 ≤ parent.depth + 1 then set s (some (childStatus 0x04 false false 0))
  else if r.tasks = 0 then set s (some (childStatus 0 false false 0))
  else
    let l := Launch.fresh r params parent.fn part parent.q (parent.depth + 1) (some (s.cur.val, slot))
    set { s with launches := tabSet s.launches id l } none

/-- `spawn` (R315): the checks, then the release, then the submission. A thread outside every partition raises GROUP
(notes/assumptions/6.md). -/
def execSpawn (d a : GReg) (s : State) : Out :=
  scalar s { reads := [.g a], writes := [.g d], commits := true, drains := true } (fun _ s =>
    let c := s.me
    let w := c.getG a
    if w.toNat % 8 ≠ 0 then .trap .misalign w false
    else
      match beyond w.toNat 64 c.kernel.loc with
      | some x => .trap .localBounds (w64 x) false
      | none =>
        let r := recordOf (c.locRead w.toNat 64)
        match beyond w.toNat (64 + 64 * r.npar) c.kernel.loc with
        | some x => .trap .localBounds (w64 x) false
        | none =>
          match freeSlot c (Config.pickSlot s.fresh), partNo s s.cur, launchOf s s.cur with
          | none, _, _ => .trap .resource 16 false
          | some slot, some part, some (_, l) =>
            let s := release s s.cur
            let s := submitChild s part l slot r (c.locRead (w.toNat + 64) (64 * r.npar))
            .ok (s.upd (fun c => c.setG d (w64 slot)))
          | some _, _, _ => .trap .group 0 false)

/-- `join` (R316): waits for the child, acquires the partition, answers the status. -/
def execJoin (d a : GReg) (s : State) : Out :=
  scalar s { reads := [.g a], writes := [.g d] } (fun _ s =>
    let slot := (s.me.getG a).toNat % 16
    match tabGet s.me.children slot with
    | none => .trap .resource (w64 slot) false
    | some q =>
      match q.status with
      | none => .wait s
      | some w =>
        match acquireRes s (ownTrails s) with
        | .ok s => .ok (s.upd (fun c =>
            { c.setG d w with children := tabSet c.children slot { q with joined := true } }))
        | r => r)

/-! ### `tdone` (R317) -/

/-- `tdone` (R317): streams close, the trail and every reservation are published, the task ends. A thread that runs no
task goes on (notes/assumptions/6.md). -/
def execTdone (s : State) : Out :=
  scalar s { commits := true, drains := true, rule := .once } (fun _ s =>
    if closeWaits s (List.finRange 4) then .wait s else
    let s := release (closeStreams s s.cur) s.cur
    if s.me.task.isNone then .ok s else .halt (endTask s s.cur .done))

/-! ### Watermarks (R318) -/

/-- `wmset` (R318). -/
def execWmset (n : BitVec 2) (s : State) : Out :=
  scalar s { numbers := streamNumber s.me n, commits := true } (fun _ s =>
    let i := Fin.ofNat 4 n.toNat
    let t := s.me.streams.get i
    if t.mode ≠ .append then .trap .runHandle (w64 t.run) false
    else if streamQueued s.me i then .wait s
    else
      .ok (updRun s (runKey (fnOf s s.cur) t.run) (fun r =>
        if r.state = .open_ then publishRun r (oneStream s.cur i) else r)))

/-- `wmwait` (R318): RUN_RANGE where the watermark can rise no further, and where the run has ended while it waited, also if it has
come to take appends again since (R358). -/
def execWmwait (d a b : GReg) (s : State) : Out :=
  scalar s { reads := [.g a, .g b], writes := [.g d] } (fun _ s =>
    let c := s.me
    withRun s (c.getG a) (fun _ r =>
      if c.ranOut.contains (c.level, c.pc) then .trap .runRange (runFaultWord (c.getG a).toNat r.wmark 0 0) false
      else if (c.getG b).toNat ≤ r.wmark then .ok (s.upd (fun c => c.setG d (w64 r.wmark)))
      else if r.state = .open_ && !r.ended then .wait s
      else .trap .runRange (runFaultWord (c.getG a).toNat r.wmark 0 0) false))

/-! ### `ctkill` (R319) -/

/-- Whether a thread runs a task of the kernel that the issuer runs. -/
def sameKernel (s : State) (ag other : Agent) : Bool :=
  match launchOf s ag, launchOf s other with
  | some (_, l), some (_, m) => (s.ct other).task.isSome && l.fn == m.fn && l.lrec.kern == m.lrec.kern
  | _, _ => false

/-- Whether a thread lies in a partition of a die. -/
def onDie (s : State) (other : Agent) (die : Fin 4) : Bool := match partNo s other with
  | some p => partOnDie s p die
  | none => false

/-- `ctkill` (R319): in user mode only within the issuer's kernel, in supervisor mode only within the die's partitions;
the issuer releases first; a self-kill writes no register, and in the handler of a frozen queue it waits for nothing of the
queue, which it discards (R369: the disposition that ends the task). -/
def execCtkill (d a : GReg) (s : State) : Out :=
  let ends := s.me.frozen.isSome && decide ((s.me.getG a).toNat % 128 = s.cur.val)
  scalar s { reads := [.g a], writes := [.g d], commits := !ends, drains := !ends } (fun _ s =>
    let c := s.me
    let w := (c.getG a).toNat
    let target := agentOf (w % 128)
    if !c.sup && !sameKernel s s.cur target then .trap .privilege (w64 (parcelOf (.ctkill d a))) false
    else if c.sup && !onDie s target (dieOf s.cur) then .trap .group (w64 (w % 128)) false
    else
      let s := release s s.cur
      let ran := (s.ct target).task.isSome
      let s := endTask s target (.kill (BitVec.ofNat 8 (w / 256)))
      if target = s.cur then .halt s else .ok (s.upd (fun c => c.setG d (w64 (b2n ran)))))

end Sys2Proof.Machine
end

