-- ==== Sys2Proof/Machine/Launches.lean ====
section
/-! DEFINITION. Queues and launches: acceptance, the head, staging, the condition, binding with its checks, children, and
completion (24_execution_and_scheduling.md R348-R363, 28_host_peers_and_virtual_functions.md R403-R404;
notes/assumptions/22.md). -/

namespace Sys2Proof.Machine

open Sys2Proof

/-! ### The kernel header (R348, R349) -/

/-- A number of bytes of a header, by offset and length. -/
def headField (bs : List Byte) (off n : Nat) : Nat := leNat ((bs.drop off).take n)

/-- Combine entry `k` of a header, from 1 to 7: 144 bytes. -/
def entryBytesOf (bs : List Byte) (k : Nat) : List Byte := (bs.drop (80 + 144 * (k - 1))).take 144

/-- A combine entry from its bytes; an unused one has no words. -/
def combineOf (bs : List Byte) : Combine :=
  let n := headField bs 0 1
  ⟨(List.range n).map (fun j => BitVec.ofNat 64 (headField bs (16 + 8 * j) 8)), BitVec.ofNat 3 (headField bs 1 1)⟩

/-- A kernel's declarations from its header (Table 24.1). -/
def kernelOf (bs : List Byte) : Kernel :=
  let w := leNat (bs.take 32)
  { code := fld w 0 20, entry := fld w 32 32, vregs := fld w 64 6, gregs := fld w 70 6, pregs := fld w 76 8
    nbar := fld w 84 5, ngrp := fld w 89 9, nst := fld w 98 3, ntl := fld w 101 4, loc := fld w 128 32
    com := fld w 160 32, lift := fld w 192 32, trail := fld w 224 32
    ws := (List.range 16).map (fun k => headField bs (64 + k) 1)
    cmb := ⟨[], 0⟩ :: (List.range 7).map (fun k => combineOf (entryBytesOf bs (k + 1))) }

/-- Whether the declarations lie in their ranges and the reserved bits of a header are zero (Table 24.1). -/
def headerFields (bs : List Byte) (k : Kernel) : Bool :=
  let w := leNat (bs.take 64)
  fld w 20 12 = 0 && fld w 105 23 = 0 && fld w 256 256 = 0 && k.entry % 4 = 0 && k.lift % 16 = 0 &&
    1 ≤ k.vregs && k.vregs ≤ 48 && 1 ≤ k.gregs && k.gregs ≤ 32 && 1 ≤ k.pregs && k.pregs ≤ 128 && k.nbar ≤ 16 &&
    k.ngrp ≤ 256 && k.nst ≤ 4 && k.ntl ≤ 8 && k.lift ≤ k.loc &&
    (List.range 7).all (fun j =>
      let e := entryBytesOf bs (j + 1)
      let n := headField e 0 1
      16 < n || n = 0 || (headField e 1 1 ≤ 6 && headField e 2 14 = 0 &&
        (e.drop (16 + 8 * n)).all (· = 0)))

/-- Whether every combine entry of a header is one that a launch accepts (R349). -/
def entriesOk (bs : List Byte) : Bool :=
  (List.range 7).all (fun j =>
    let e := entryBytesOf bs (j + 1)
    let n := headField e 0 1
    if n = 0 then e.all (· = 0) else combineOk (combineOf e))

/-- The bytes of a sealed run. -/
def sealedBytes (s : State) (fn h : Nat) : Option (Run × Option (List Byte)) :=
  match findRun s fn (w64 h) with
  | some (_, r) => if r.state = .sealed then some (r, runBytes s r 0 (r.wmark * r.recsz)) else none
  | none => none

/-- What the header of a launch comes to: its bytes; a refusal; or a page that is not resident or is held. -/
inductive Header where
  | ok (bs : List Byte)
  | refuse
  | absent

/-- Reads a launch's header: the first 1,088 bytes of the run that kern names (R348). -/
def headerOf (s : State) (l : Launch) : Header :=
  match sealedBytes s l.fn l.lrec.kern with
  | none => .refuse
  | some (r, bs) =>
    if r.wmark * r.recsz < 1088 then .refuse
    else if (List.range ((1088 + r.recsz - 1) / r.recsz)).any (recordHeld s r) then .absent
    else match bs with
      | some bs => .ok (bs.take 1088)
      | none => .absent

/-! ### Completion (R354, R358, R316) -/

/-- Whether a launch is a child. -/
def isChild (l : Launch) : Bool := 2 ≤ l.depth

/-- Completes a launch: the completion of a host launch and of an orphaned child is posted, whose hseq the spec leaves open
(R315); a child's status goes to its parent. -/
def completeLaunch (s : State) (id : Nat) (l : Launch) (status cause : Nat) : State :=
  let s := { s with launches := tabDrop s.launches id }
  let s := s.updQueue l.q (fun q => { q with pend := q.pend.filter (· ≠ id) })
  match l.parent with
  | some (ag, slot) => tellParent s ag slot id (childStatus cause l.flt l.kil l.ok)
  | none =>
    let hseq := if isChild l then Config.freeWord s.fresh else l.lrec.hseq
    let s := if isChild l then { s with fresh := s.fresh + 1 } else s
    s.updQueue l.q (fun q => post q ⟨hseq, 0, BitVec.ofNat 3 status, BitVec.ofNat 8 cause, BitVec.ofNat 32 l.ok, l.pval⟩)

/-- A refused launch: REFUSED with its cause; nothing of it runs. -/
def refuseLaunch (s : State) (id : Nat) (l : Launch) (cause : Cause) : State := completeLaunch s id l 5 cause.code

/-- The run and the record count for which the `wmwait` waits at which a control thread stands, if it stands at one. -/
def waitedRun (s : State) (ag : Agent) : Option (Nat × Nat) :=
  let c := s.ct ag
  let waits := c.status = .waiting || (c.status = .halted && c.wasRun = .waiting)
  match waits, fetchAt s ag c.pc with
  | true, .instr (.wmwait d a b) _ =>
    if queueMeets c [.g a, .g b] [.g d] || c.acqQueued then none
    else (findRun s (fnOf s ag) (c.getG a)).map (fun q => (q.1, (c.getG b).toNat))
  | _, _ => none

/-- A control thread each stream and `wmwait` of which that is stalled at the watermark of a run is released with RUN_RANGE (R358). -/
def overAt (s : State) (ag : Agent) (k wmark : Nat) : CT :=
  let c := s.ct ag
  let late (n : Fin 4) (t : Stream) : Bool := t.stall && t.mode == .read &&
    runKey (fnOf s ag) t.run == k && decide (wmark ≤ neededRecord s ag n)
  { c with
    streams := Vector.ofFn (fun n => if late n (c.streams.get n) then { c.streams.get n with ranOut := true } else c.streams.get n)
    ranOut := match waitedRun s ag with
      | some (k2, n) => if k2 = k ∧ wmark < n then (c.level, c.pc) :: c.ranOut else c.ranOut
      | none => c.ranOut }

/-- Marks a run ended, and what is stalled at its watermark, in saved contexts too (R358). -/
def endRun (s : State) (k : Nat) (r : Run) : State :=
  { updRun s k (fun r => { r with ended := true }) with
    cts := Vector.ofFn (fun ag => overAt s ag k r.wmark)
    images := s.images.map (fun e =>
      (e.1, { e.2 with ctx := overAt (s.setCt (agentOf e.1) e.2.ctx) (agentOf e.1) k r.wmark })) }

/-- Marks ended the open runs that a launch appended to and that nothing appends to any more (R358). -/
def endRuns (s : State) (l : Launch) : State :=
  l.runs.foldl (fun s k => match tabGet s.runs k with
    | some r => if r.state = .open_ && !appendOpen s k then endRun s k r else s
    | none => s) s

/-- Whether every task of a launch has ended; where no thread is left that could take the ids of a thread whose context was lost,
those end with it (R386, notes/assumptions/20.md). -/
def tasksEnded (s : State) (id : Nat) (l : Launch) : Bool :=
  l.ended == l.lrec.tasks ||
    (l.bound.all (goneFrom s id) && l.ended + (l.bound.map l.idsLeft).sum == l.lrec.tasks)

/-- Whether a running launch completes: every task has ended, its threads have no command in flight and their trails are
published to their tails, those of threads that have become idle too (R358), and its partition is not drained (R388). -/
def launchDone (s : State) (id : Nat) (l : Launch) : Bool :=
  l.state == .running && tasksEnded s id l && launchIdle s id l &&
    (match s.parts.get l.part with
     | some q => !q.drained && !q.stopDispatch
     | none => false) &&
    l.bound.all (fun n =>
      let c := s.ct (agentOf n)
      (c.launch.isSome && c.launch != some id) || (c.trail.pub == c.trail.entries.length && c.out.isEmpty))

/-- LAUNCH_COMPLETE: a launch whose work has ended completes with the status of its first failed task (Table 24.5), and
its threads become idle. -/
def execLaunchComplete (id : Nat) (s : State) : Out :=
  match tabGet s.launches id with
  | none => .next s
  | some l =>
    if !launchDone s id l then .next s
    else
      let s := l.bound.foldl (fun s n => s.updCt (agentOf n) (fun c =>
        if c.launch = some id then { c with status := .idle, launch := none } else c)) s
      let status := if !l.flt && !l.kil then 0 else if l.firstKill then 3 else 1
      .next (completeLaunch (endRuns s l) id l status l.cause.toNat)

/-! ### Acceptance (R353, R403) -/

/-- Entries of the submission ring that are available. -/
def available (q : Queue) : Nat :=
  let n := 2 ^ ringLog q.sqsz
  (q.tail + n - q.head % n) % n

/-- SQ_DOORBELL: a new submission tail; ignored while the queue is not enabled (R403). -/
def execSqDoorbell (q : Nat) (tail : BitVec 16) (s : State) : Out :=
  .next (if hostShut s then s else s.updQueue q (fun b => if b.en then { b with tail := tail.toNat % 2 ^ ringLog b.sqsz } else b))

/-- A launch accepted into a queue. -/
def admitLaunch (s : State) (q : Nat) (r : LaunchRec) (cont : List Byte) : State :=
  let id := s.nextLaunch
  let part := Fin.ofNat 32 (s.queue q).part.toNat
  let s := { s with nextLaunch := id + 1, launches := tabSet s.launches id (Launch.fresh r cont (queueFn q) part q 1 none) }
  s.updQueue q (fun b => { b with pend := b.pend ++ [id] })

/-- RECORD_ACCEPT: the part reads the next record with its continuation entries once the doorbell covers them (R351): it is
accepted when its hseq is acc + 1, completes REFUSED at once with 2^24 tasks or more, and otherwise sets err (R353). No
queue accepts a record before every die has performed the last step of Table 29.1, so while one stays in recovery (R411, R415). -/
def execRecordAccept (q : Nat) (r : LaunchRec) (cont : List Byte) (s : State) : Out :=
  let b := s.queue q
  if !b.en || b.err || !s.dies.toList.all (·.up) || cont.length ≠ 64 * r.npar || available b < 1 + r.npar then
    .next s
  else
    let s := s.updQueue q (fun b => { b with head := (b.head + 1 + r.npar) % 2 ^ ringLog b.sqsz })
    if r.hseq ≠ b.acc + 1 then .next (s.updQueue q (fun b => { b with err := true }))
    else
      let s := s.updQueue q (fun b => { b with acc := r.hseq })
      if 2 ^ 24 ≤ r.tasks then .next (s.updQueue q (fun b => post b ⟨r.hseq, 0, 5, 0x1A, 0, 0⟩))
      else .next (admitLaunch s q r cont)

/-- CQ_HEAD_WRITE: the host has consumed completions; held ones are written while there is room (R404). -/
def execCqHeadWrite (q : Nat) (head : BitVec 16) (s : State) : Out :=
  .next (if hostShut s then s else s.updQueue q (fun b => postHeld { b with cqh := head } b.held))

/-- QUEUE_ENABLE: a write of word 0 of a control block (R352); only after the last step of Table 29.1 (R411, R415). -/
def execQueueEnable (q : Nat) (word : W64) (s : State) : Out :=
  .next (if hostShut s then s else writeWord0 s q word.toNat (2 ^ 64 - 1))

/-- PHSEQ: a write of phseq posts a completion with the held status and cause (R390). -/
def execPhseq (q : Nat) (hseq : W64) (s : State) : Out := .next (writeQueueWord s q 6 hseq.toNat (2 ^ 64 - 1))

/-! ### The head (R355, R357) -/

/-- The head launch of a queue. -/
def headLaunch (s : State) (q : Nat) : Option (Nat × Launch) :=
  (s.queue q).pend.head?.bind (fun id => (tabGet s.launches id).map (fun l => (id, l)))

/-- The predecessors that a record names. -/
def predecessors (r : LaunchRec) : List W64 := r.preds.take r.npred

/-- Whether a predecessor has completed: it has posted, or lies more than 1,024 below. -/
def predDone (q : Queue) (hseq p : W64) : Bool :=
  decide (p.toNat + 1024 < hseq.toNat) || q.finished.contains p

/-- Whether dispatch in a partition is stopped (R325). -/
def partStopped (s : State) (p : Fin 32) : Bool := match s.parts.get p with
  | some q => q.stopDispatch || q.drained
  | none => false

/-- LAUNCH_HEAD: what becomes of an accepted launch at the head of a queue: a launch of no task completes; one whose queue is
enabled and names no partition of its function, or that names a predecessor not below itself, is refused; one whose
predecessors have completed enters staging (R353, R355, R357). That a queue is disabled stops only the reading and acceptance of
records. In a drained partition of its function nothing happens to it
(R388). -/
def execLaunchHead (q : Nat) (s : State) : Out :=
  let b := s.queue q
  match headLaunch s q with
  | none => .next s
  | some (id, l) =>
    let part := Fin.ofNat 32 b.part.toNat
    let own := partOfFn s part.val (queueFn q)
    if l.state ≠ .accepted || (own && partStopped s part) then .next s
    else if l.lrec.tasks = 0 then .next (completeLaunch s id l 0 0)
    else if !own then .next (if b.en then refuseLaunch s id l .resource else s)
    else if (predecessors l.lrec).any (fun p => decide (l.lrec.hseq.toNat ≤ p.toNat)) then
      .next (refuseLaunch s id l .resource)
    else if (predecessors l.lrec).all (predDone b l.lrec.hseq) then
      .next (s.updLaunch id (fun l => { l with state := .staging, part := part }))
    else .next s

/-! ### Staging and the condition (R356, R357) -/

/-- The runs of a working set; none when a word names no run. -/
def workingSet (s : State) (l : Launch) (k : Kernel) : Option (List Nat) :=
  (k.ws.filter (· ≠ 0xFF)).mapM (fun i =>
    let h := headField l.params (8 * i) 8 % 2 ^ 20
    (findRun s l.fn (w64 h)).map (·.1))

/-- Stages the pages of runs below their watermarks (R49): the part copies tier-1 pages in; the pages that wait, for the
driver or for the end of a hold (R50), by run and number. -/
def stageRuns (s : State) : List Nat → State × List (Nat × Nat)
  | [] => (s, [])
  | k :: ks =>
    match tabGet s.runs k with
    | none => stageRuns s ks
    | some r =>
      let n := (r.wmark * r.recsz + Config.pageBytes - 1) / Config.pageBytes
      let step (q : State × List (Nat × Nat)) (p : Nat) : State × List (Nat × Nat) :=
        let l := match tabGet q.1.runs k with
          | some r => leafAt r p
          | none => ⟨0, 0, false, 0⟩
        let wait := (q.1, q.2 ++ [(k, p)])
        if l.tier = 0 then q
        else if l.tier = 1 then
          if dieHeld s r.die then wait else
          match migratePage q.1 k p 0 0 with
          | .ok s => (s, q.2)
          | .error _ => wait
        else wait
      let q := (List.range n).foldl step (s, [])
      let more := stageRuns q.1 ks
      (more.1, q.2 ++ more.2)

/-- Whether every trail of a partition has been compacted to its published tail (R357). -/
def allCompacted (s : State) (p : Fin 32) : Bool :=
  (partCts s p).all (fun ct => drainedTrail (s.ct (ctAgent ct)).trail)

/-- A word of a partition's home memory. -/
def homeWord (s : State) (p : Fin 32) (a n : Nat) : Nat := match s.parts.get p with
  | some q => leNat (memRead q.home a n)
  | none => 0

/-- Decides a launch's condition (R357): it binds when there is none or the predicate passes; else it completes SKIPPED.
A caddr that is no multiple of 8 refuses it. -/
def decide_ (s : State) (id : Nat) (l : Launch) : State :=
  if !l.lrec.cond then s.updLaunch id (fun l => { l with state := .binding })
  else if l.lrec.caddr % 8 ≠ 0 then refuseLaunch s id l .resource
  else if !allCompacted s l.part || homeStalled s l.part l.lrec.caddr 8 then
    s.updLaunch id (fun l => { l with state := .deciding })
  else
    let w := homeWord s l.part l.lrec.caddr 8
    let l2 := { l with pval := w64 w, state := LState.binding }
    if (w ≠ 0) ≠ (l.lrec.sense = true) then s.updLaunch id (fun _ => l2)
    else if partStopped s l.part then s.updLaunch id (fun l => { l with state := .deciding })
    else completeLaunch s id l2 4 0

/-- Staging of a launch and, once it is complete, its decision. -/
def stageLaunch (s : State) (id : Nat) (l : Launch) : State :=
  match headerOf s l with
  | .refuse => decide_ s id l
  | .absent => s
  | .ok bs =>
    match workingSet s l (kernelOf bs) with
    | none => refuseLaunch s id l .runHandle
    | some ks =>
      let q := stageRuns s ks
      if q.2 = [] then decide_ q.1 id l
      else
        q.2.foldl (fun s w => match tabGet s.runs w.1 with
          | some r => sendMigrations s (w.1 / 2 ^ 20) (w.1 % 2 ^ 20) r 0 [w.2]
          | none => s) q.1

/-! ### Binding (R349, R351, R359, R360) -/

/-- Whether a control thread is idle and can be bound. -/
def idleCt (s : State) (ct : CtId) : Bool :=
  let c := s.ct (ctAgent ct)
  c.status == .idle && c.launch.isNone && c.task.isNone && !(s.dies.get (dieOf (ctAgent ct))).stopped

/-- How many control threads a launch binds (Table 24.2). -/
def launchWidth (s : State) (l : Launch) : Nat :=
  if l.lrec.width = 0 then min l.lrec.tasks (partCts s l.part).length else l.lrec.width

/-- The groups of a launch, with the bits of unbound threads cleared (R359). -/
def launchGroups (s : State) (l : Launch) (k : Kernel) (bound : List CtId) : List (BitVec 128) :=
  let all := BitVec.ofNat 128 ((bound.map (fun ct => 2 ^ ct.val)).sum)
  (List.range k.ngrp).map (fun g =>
    if l.lrec.gaddr = 0 then all else BitVec.ofNat 128 (homeWord s l.part (l.lrec.gaddr + 16 * g) 16) &&& all)

/-- Whether a thread lies in more than four groups (R91). -/
def fifthGroup (gs : List (BitVec 128)) (bound : List CtId) : Bool :=
  bound.any (fun ct => 4 < (gs.filter (fun g => g.getLsbD ct.val)).length)

/-- Fields of a launch record that lie outside their ranges (R349, R361). -/
def recordBad (r : LaunchRec) : Bool :=
  !r.zeroOk || 128 < r.width || r.caddr % 8 ≠ 0 || ((r.rows = 0) ≠ (r.cols = 0))

/-- The cause for which a launch is refused when it binds (R349, R351). -/
def refusal (s : State) (l : Launch) (bs : List Byte) : Option Cause :=
  let k := kernelOf bs
  match s.parts.get l.part with
  | none => some .resource
  | some q =>
    let code := sealedBytes s l.fn k.code
    let past := match code with
      | some (r, _) => decide (r.wmark * r.recsz ≤ k.entry)
      | none => false
    let img := if l.lrec.limg = 0 then none else some (sealedBytes s l.fn l.lrec.limg)
    let spill := (l.params.drop (k.com - 16 * l.lrec.pbase)).any (· ≠ 0)
    if recordBad l.lrec || !headerFields bs k || past || decide (65536 * 2 ^ q.trsz < k.trail) ||
        decide ((partCts s l.part).length < l.lrec.width) then some .resource
    else if q.locw * 65536 < k.loc then some .localBounds
    else if q.common.length * q.coms * 65536 < k.com then some .commonBounds
    else if code.isNone then some .runHandle
    else if !entriesOk bs then some .illegal
    else if spill then some .commonBounds
    else
      match img with
      | none => none
      | some none => some .runHandle
      | some (some (r, _)) =>
        if r.recsz ≠ 4 then some .runHandle else if k.loc < r.wmark * 4 then some .localBounds else none

/-- Group entries that a partition's running launches hold. -/
def groupsHeld (s : State) (p : Fin 32) : Nat :=
  ((s.launches.filter (fun e => e.2.part = p && e.2.state == .running)).map (fun e => e.2.groups.length)).sum

/-- Binds a launch to control threads: their trails are reset, task ids are dealt in blocks, groups and barriers are new
(R80, R359, R360). -/
def bindTo (s : State) (id : Nat) (l : Launch) (k : Kernel) (bound : List CtId) (gs : List (BitVec 128)) : State :=
  let w := bound.length
  let t := l.lrec.tasks
  let s := (bound.zipIdx).foldl (fun s q => s.updCt (ctAgent q.1) (fun c => { c with
    launch := some id, task := none, status := .bound, wasRun := .bound, imageIn := false
    trail := resetTrail c.trail, out := [], marks := [] })) s
  s.updLaunch id (fun l => { l with
    state := .running, kernel := k, bound := bound.map (·.val), groups := gs
    blocks := (bound.zipIdx).map (fun q => (q.1.val, (q.2 * t / w, (q.2 + 1) * t / w)))
    bars := Vector.replicate 16 Barrier.zero })

/-- What binding a launch comes to: it waits; it is refused; or it is bound. -/
inductive Bind where
  | wait
  | refuse (cause : Cause)
  | bound (s : State)

/-- Binds a launch in its partition: the checks of R349, then W idle threads with compacted trails and the group entries
(R359); the group bitmaps are read once the partition is compacted. -/
def bindLaunch (s : State) (id : Nat) (l : Launch) : Bind :=
  match headerOf s l with
  | .refuse => .refuse .runHandle
  | .absent => .wait
  | .ok bs =>
    let k := kernelOf bs
    match refusal s l bs with
    | some cause => .refuse cause
    | none =>
      let idle := (partCts s l.part).filter (idleCt s)
      let w := launchWidth s l
      let bound := idle.take w
      if w = 0 ∨ idle.length < w ∨ 256 < groupsHeld s l.part + k.ngrp then .wait
      else if l.lrec.gaddr ≠ 0 ∧ k.ngrp ≠ 0 ∧
          (!allCompacted s l.part || homeStalled s l.part l.lrec.gaddr (16 * k.ngrp)) then .wait
      else if bound.any (fun ct => !drainedTrail (s.ct (ctAgent ct)).trail) then .wait
      else
        let gs := launchGroups s l k bound
        if fifthGroup gs bound then .refuse .group else .bound (bindTo s id l k bound gs)

/-- The queues of a partition whose head waits to bind. -/
def bindingQueues (s : State) (p : Fin 32) : List Nat :=
  (s.queues.map (·.1)).filter (fun q => match headLaunch s q with
    | some (_, l) => l.state == .binding && l.part == p
    | none => false)

/-- The first of some queues in the turn after the one served last at a priority: ascending (R353). -/
def nextInTurn (s : State) (p : Fin 32) (prio : Nat) (qs : List Nat) : Option Nat :=
  let last := ((s.parts.get p).bind (fun q => tabGet q.lastQ prio)).getD 0
  match qs.find? (fun q => last < q) with
  | some q => some q
  | none => qs.head?

/-- The queues of a priority whose head waits to bind. -/
def bindingAt (s : State) (p : Fin 32) (prio : Nat) : List Nat :=
  (bindingQueues s p).filter (fun q => (s.queue q).prio.toNat = prio)

/-- The queue of a priority with which the turn stays, while its head waits to bind. -/
def keptTurn (s : State) (p : Fin 32) (prio : Nat) : Option Nat :=
  ((s.parts.get p).bind (fun q => tabGet q.turns prio)).filter (bindingAt s p prio).contains

/-- Whether the head of a queue is in state binding and cannot bind now. -/
def headStuck (s : State) (q : Nat) : Bool := match headLaunch s q with
  | some (id, l) => match bindLaunch s id l with
    | .wait => true
    | _ => false
  | none => false

/-- The queue whose turn it is in a partition (R353): the highest priority; among equals, the one with which the turn stays,
else ascending after the queue served last. -/
def turn (s : State) (p : Fin 32) : Option Nat :=
  let top := ((bindingQueues s p).map (fun q => (s.queue q).prio.toNat)).foldl max 0
  match keptTurn s p top with
  | some q => some q
  | none => nextInTurn s p top (bindingAt s p top)

/-- Gives the turn of each priority of a partition to a head that is in state binding and cannot bind: it stays with that queue
until the head binds (R353). -/
def holdTurns (s : State) (p : Fin 32) : State :=
  [0, 1, 2, 3].foldl (fun s prio =>
    match keptTurn s p prio, nextInTurn s p prio ((bindingAt s p prio).filter (headStuck s)) with
    | none, some q => s.updPart p (fun x => { x with turns := tabSet x.turns prio q })
    | _, _ => s) s

/-- Whether a child of a priority at or above a queue's waits to bind in the partition (R363). -/
def childWaits (s : State) (p : Fin 32) (q : Nat) : Bool :=
  s.launches.any (fun e => isChild e.2 && e.2.part = p && e.2.state != .running &&
    decide ((s.queue q).prio.toNat ≤ (s.queue e.2.q).prio.toNat))

/-- STAGING_COMPLETE: a launch in staging whose working set is in tier 0 decides its condition; one that waits to decide
does so once the partition is compacted. No launch of a drained partition completes, so there both wait (R388). -/
def execStagingComplete (q : Nat) (s : State) : Out :=
  match headLaunch s q with
  | none => .next s
  | some (id, l) =>
    if partStopped s l.part then .next s
    else
    match l.state with
    | .staging => .next (holdTurns (stageLaunch s id l) l.part)
    | .deciding => .next (holdTurns (decide_ s id l) l.part)
    | _ => .next s

/-- LAUNCH_BIND: the head of a queue binds or is refused, when it is that queue's turn (R353, R359). -/
def execLaunchBind (q : Nat) (s : State) : Out :=
  match headLaunch s q with
  | none => .next s
  | some (id, l) =>
    let s := holdTurns s l.part
    if l.state ≠ .binding ∨ partStopped s l.part ∨ turn s l.part ≠ some q ∨ childWaits s l.part q then .next s
    else
      let prio := (s.queue q).prio.toNat
      match bindLaunch s id l with
      | .wait => .next s
      | .refuse cause => .next ((refuseLaunch s id l cause).updPart l.part (fun p => { p with turns := tabDrop p.turns prio }))
      | .bound s =>
        let s := s.updQueue q (fun b => { b with pend := b.pend.filter (· ≠ id) })
        .next (holdTurns (s.updPart l.part (fun p =>
          { p with lastQ := tabSet p.lastQ prio q, turns := tabDrop p.turns prio })) l.part)

/-- Whether a launch of a higher priority can bind now, ahead of a child: the head whose turn it is, that no child holds back, or another
child (R353, R363). -/
def outranked (s : State) (id : Nat) (l : Launch) : Bool :=
  let prio := (s.queue l.q).prio.toNat
  let free (i : Nat) (x : Launch) : Bool := match bindLaunch s i x with
    | .wait => false
    | _ => true
  (match turn s l.part with
    | some q => decide (prio < (s.queue q).prio.toNat) && !childWaits s l.part q && (match headLaunch s q with
      | some (i, x) => free i x
      | none => false)
    | none => false) ||
  s.launches.any (fun e => e.1 != id && isChild e.2 && e.2.part == l.part && e.2.state == .binding &&
    decide (prio < (s.queue e.2.q).prio.toNat) && free e.1 e.2)

/-- CHILD_BIND: a child enters staging, is staged, decides, and binds in the parent's partition at the priority of the parent's
queue, past every head that cannot (R363); its predecessors are launches of the parent's queue. -/
def execChildBind (id : Nat) (s : State) : Out :=
  match tabGet s.launches id with
  | none => .next s
  | some l =>
    if !isChild l || partStopped s l.part then .next s
    else
      match l.state with
      | .accepted =>
        if (predecessors l.lrec).all (fun p => (s.queue l.q).finished.contains p) then
          .next (s.updLaunch id (fun l => { l with state := .staging }))
        else .next s
      | .staging => .next (stageLaunch s id l)
      | .deciding => .next (decide_ s id l)
      | .binding =>
        if outranked s id l then .next s
        else
          match bindLaunch s id l with
          | .wait => .next s
          | .refuse cause => .next (refuseLaunch s id l cause)
          | .bound s => .next (holdTurns s l.part)
      | _ => .next s

/-! ### Watchdogs (R367, R368) -/

/-- Raises a queue's WATCHDOG trap on system control thread 0 of the die of its partition's lowest core; while that thread
is in a trap handler the trap waits. -/
def dogTrap (s : State) (q : Nat) : State :=
  let die := match s.parts.get (Fin.ofNat 32 (s.queue q).part.toNat) with
    | some p => (p.common.head?.getD 0).val / 8
    | none => 0
  let ag := system0 die
  if (s.dies.get (dieOf ag)).stopped then s
  else if (s.ct ag).inTrap then s.updQueue q (fun b => { b with wdtrap := true })
  else
    let s := s.updQueue q (fun b => { b with wdtrap := false })
    enterTrap s ag Cause.watchdog.code 0 false none (w64 q) (s.ct ag).pc

/-- WATCHDOG: one unit of a counting watchdog passes; at its limit it expires and traps (R367). A trap that waits is taken
once the thread has left its handler (R368). -/
def execWatchdog (q : Nat) (s : State) : Out :=
  let b := s.queue q
  if b.wdtrap then .next (dogTrap s q)
  else if watchState s q ≠ 2 then .next s
  else
    let n := b.wdcnt.toNat + 1
    let s := s.updQueue q (fun b => { b with wdcnt := BitVec.ofNat 31 n })
    if n < b.wdlim.toNat then .next s else .next (dogTrap (s.updQueue q (fun b => { b with expired := true })) q)

end Sys2Proof.Machine
end

