-- ==== Sys2Proof/Machine/HostIf.lean ====
section
/-! DEFINITION. What the host writes: the frame aperture, a run table, checked mode, and registers with no row of their own
(00_scope.md R8, 02_runs_in_main_memory.md R30, 27_reliability.md R395, 28_host_peers_and_virtual_functions.md R402-R410;
notes/assumptions/25.md). -/

namespace Sys2Proof.Machine

open Sys2Proof

/-- Whether a run references a frame below its watermark, or holds a page of its page list there. -/
def frameRead (r : Run) (f : Nat) : Bool :=
  r.root == f || r.dirs.contains f ||
    (List.range r.leaves.length).any (fun q =>
      let l := leafAt r q
      l.tier == 0 && l.frame == f && decide (q * Config.pageBytes < r.wmark * r.recsz))

/-- Whether bytes of a frame hold something that a run has already been appended with (R28). -/
def frameAppended (r : Run) (f off n : Nat) : Bool :=
  decide (0 < n) && (List.range r.leaves.length).any (fun q =>
    let l := leafAt r q
    l.tier == 0 && l.frame == f && decide (q * Config.pageBytes + off < r.length * r.recsz))

/-- Windows of the frame aperture (R407). -/
def windowCount : Nat := 1024

/-- APERTURE_WRITE: a host write through a window of the frame aperture to the frame that its select word names (R407); one to
a frame that some run references below its watermark is dropped and logged as an isolation event; one that would change
appended bytes that are not yet published is dropped (R28; notes/assumptions/25.md). -/
def execApertureWrite (window off : Nat) (bytes : List Byte) (s : State) : Out :=
  let frame := (tabGet s.windows window).getD 0
  if hostShut s ∨ windowCount ≤ window ∨ 2 ^ 23 ≤ frame ∨ Config.pageBytes < off + bytes.length then .next s
  else if s.runs.any (fun e => frameRead e.2 frame) then .next { s with notices := s.notices ++ [Notice.isolation 0] }
  else if s.runs.any (fun e => frameAppended e.2 frame off bytes.length) then .next s
  else
    let f := (tabGet s.frames frame).getD ⟨0, [], []⟩
    let stuck := (tabGet s.stuck frame).getD []
    .next { s with frames := tabSet s.frames frame { f with
      data := memWrite f.data off bytes, bad := remark f.bad stuck off bytes.length [] } }

/-- Whether an address space is active: the physical function's, and one with a partition or a run. -/
def activeSpace (s : State) (fn : Nat) : Bool :=
  fn == 0 || s.parts.toList.any (fun q => match q with
    | some (q : Partition) => q.fn == fn
    | none => false) || s.runs.any (fun e => e.1 / 2 ^ 20 == fn)

/-- RUN_TABLE_HOST_WRITE: a host write to the run table of an active address space is dropped and logged (R30). -/
def execRunTableHostWrite (fn handle : Nat) (s : State) : Out :=
  if !hostShut s ∧ activeSpace s fn ∧ handle < Config.handles then .next { s with notices := s.notices ++ [Notice.isolation fn] } else .next s

/-- POOL_TIMEOUT: a request for a pool frame is unanswered for 2 ms; its next read is delivered poisoned (R408). -/
def execPoolTimeout (frame : Nat) (s : State) : Out :=
  let a := poolAddress s frame 0
  if s.poison.contains a then .next s else .next { s with poison := a :: s.poison }

/-- CHECKED_MODE_WRITE (R395). -/
def execCheckedModeWrite (part : Fin 32) (chk : Bool) (s : State) : Out :=
  .next (if hostShut s then s else setChecked s part chk)

/-! ### Registers with no row of their own -/

/-- A write of word `k` of a host queue block (Table 28.1): the ring registers ignore writes while the queue is enabled; the
doorbell, bits 15:0, and cqh, bits 47:32, share word 3. -/
def writeHostBlock (s : State) (n k : Nat) (v : W64) : State :=
  let q := s.queue n
  match k with
  | 0 => if q.en then s else s.updQueue n (fun q => { q with sqb := v })
  | 1 => if q.en then s else s.updQueue n (fun q => { q with cqb := v })
  | 2 => if q.en then s else s.updQueue n (fun q =>
      { q with sqsz := BitVec.ofNat 4 (fld v.toNat 0 4), cqsz := BitVec.ofNat 4 (fld v.toNat 4 4) })
  | 3 =>
    let s := s.updQueue n (fun b => if b.en then { b with tail := fld v.toNat 0 16 % 2 ^ ringLog b.sqsz } else b)
    s.updQueue n (fun b => postHeld { b with cqh := BitVec.ofNat 16 (fld v.toNat 32 16) } b.held)
  | _ => s

/-- Word `k` of a host queue block as it reads (Table 28.1): the doorbell is write-only and reads 0 (R8). -/
def hostBlockWord (s : State) (n k : Nat) : W64 :=
  let q := s.queue n
  match k with
  | 0 => q.sqb
  | 1 => q.cqb
  | 2 => w64 (q.sqsz.toNat + q.cqsz.toNat * 2 ^ 4)
  | 3 => w64 (q.cqh.toNat * 2 ^ 32)
  | 4 => q.acc
  | 5 => q.dseq
  | 6 => q.lhseq
  | _ => 0

/-- A 64-bit word of a function's BAR0 as it reads: its three error counters (R400) and its host queue blocks (R402). -/
def barWord (s : State) (fn o : Nat) : W64 :=
  let c := (tabGet s.counters fn).getD ⟨0, 0, 0⟩
  if o = 0x100 then c.corr
  else if o = 0x108 then c.uncorr
  else if o = 0x110 then c.rew
  else if 0x1000 ≤ o ∧ o < 0x1400 then hostBlockWord s (16 * fn + (o - 0x1000) / 64) (o % 64 / 8)
  else 0

/-- A write of word `k` of the package's own registers that the physical function or firmware sets: 0 the Lumen device
number, 1 and 3 the size and the base of the pool window (R408), 2 the formation buffer, 4-7 a die's row threshold, 8-11 the
valid bit of a die's dump (W1C), 12 the skew of pages first allocated from here on (R38), from 1,024 the select words of the
frame aperture (R407), from 65,536 up the route table. -/
def writePackage (s : State) (k : Nat) (v : W64) : State :=
  let die : Fin 4 := Fin.ofNat 4 k
  if 2 ^ 16 ≤ k then
    if k < 2 ^ 16 + 2 ^ 15 then { s with routes := tabSet s.routes (k - 2 ^ 16) (v.toNat % 16) } else s
  else if windowCount ≤ k ∧ k < windowCount + windowCount then
    { s with windows := tabSet s.windows (k - windowCount) v.toNat }
  else if k = 0 then { s with device := v.toNat % 2 ^ 15 }
  else if k = 1 then { s with poolSize := v.toNat }
  else if k = 3 then { s with poolBase := v.toNat }
  else if k = 2 then
    if 4 * 2 ^ 20 ≤ v.toNat ∧ v.toNat ≤ 32 * 2 ^ 20 ∧ v.toNat % (4 * 2 ^ 20) = 0 then
      { s with dies := s.dies.map (fun d => { d with formB := v.toNat }) }
    else s
  else if 4 ≤ k ∧ k < 8 then
    if 256 ≤ v.toNat ∧ v.toNat ≤ rowMax then s.updDie die (fun d => { d with rowThr := v.toNat }) else s
  else if 8 ≤ k ∧ k < 12 then
    if v.getLsbD 0 then s.updDie die (fun d => { d with dump := d.dump.map (fun u => { u with valid := false }) }) else s
  else if k = 12 then { s with newSkew := BitVec.ofNat 2 v.toNat }
  else s

/-- Word `k` of the package's own registers as it reads, in the map of `writePackage`; 16-19 tell what a die's PCIe controller
is, 0 for one that reads as absent (R16). -/
def packageWord (s : State) (k : Nat) : W64 :=
  let d := s.dies.get (Fin.ofNat 4 k)
  if 2 ^ 16 ≤ k then (if k < 2 ^ 16 + 2 ^ 15 then w64 ((tabGet s.routes (k - 2 ^ 16)).getD 0) else 0)
  else if windowCount ≤ k ∧ k < windowCount + windowCount then w64 ((tabGet s.windows (k - windowCount)).getD 0)
  else if k = 0 then w64 s.device
  else if k = 1 then w64 s.poolSize
  else if k = 3 then w64 s.poolBase
  else if k = 2 then w64 (s.dies.get 0).formB
  else if 4 ≤ k ∧ k < 8 then w64 d.rowThr
  else if 8 ≤ k ∧ k < 12 then w64 (b2n ((d.dump.map (·.valid)).getD false))
  else if k = 12 then s.newSkew.zeroExtend 64
  else if 16 ≤ k ∧ k < 20 then
    match controllerOf (Fin.ofNat 4 k) with
    | .hostPort => 1
    | .fabricPort => 2
    | .absent => 0
  else 0

/-- The first address past the registers of the model's own map for functions' BAR0. -/
def barEnd : Nat := 2 ^ 48 + 385 * 65536

/-- What a read of a register from outside an instruction gives, at the addresses of `execRegisterWrite` (R8, R400, R402): no row
of the opcode table reads one, so no step asks for it. -/
def hostRead (s : State) (addr : W64) : W64 :=
  let a := addr.toNat
  if hostShut s then 0
  else if a < 2 ^ 42 then
    match blockAt (a % 2 ^ 40) with
    | some b => blockRead s (Fin.ofNat 4 (a / 2 ^ 40)) b
    | none => 0
  else if 2 ^ 48 ≤ a ∧ a < barEnd then barWord s ((a - 2 ^ 48) / 65536) ((a - 2 ^ 48) % 65536)
  else if 2 ^ 49 ≤ a ∧ a < 2 ^ 50 then packageWord s (a - 2 ^ 49)
  else if 2 ^ 50 ≤ a ∧ a < 2 ^ 50 + 32 then
    match s.parts.get (Fin.ofNat 32 (a - 2 ^ 50)) with
    | some q => q.conflict.word
    | none => 0
  else 0

/-- REGISTER_WRITE: a write applied field by field by the access codes (R8). Addresses are the model's own map: below 2^42 a
die's system control thread's local map; from 2^48 the functions' BAR0; from 2^49 the package's registers; from 2^50 the
partitions' conflict registers. None is there while the host port is shut (R411, R415). -/
def execRegisterWrite (addr value : W64) (s : State) : Out :=
  let a := addr.toNat
  if hostShut s then .next s
  else if a < 2 ^ 42 then
    match blockAt (a % 2 ^ 40) with
    | some b => .next (blockWrite s (Fin.ofNat 4 (a / 2 ^ 40)) b value.toNat (2 ^ 64 - 1))
    | none => .next s
  else if 2 ^ 48 ≤ a ∧ a < barEnd then
    let o := (a - 2 ^ 48) % 65536
    if 0x1000 ≤ o ∧ o < 0x1400 then
      .next (writeHostBlock s (16 * ((a - 2 ^ 48) / 65536) + (o - 0x1000) / 64) (o % 64 / 8) value)
    else .next s
  else if 2 ^ 49 ≤ a ∧ a < 2 ^ 50 then .next (writePackage s (a - 2 ^ 49) value)
  else if 2 ^ 50 ≤ a ∧ a < 2 ^ 50 + 32 then
    .next (s.updPart (Fin.ofNat 32 (a - 2 ^ 50)) (fun q => { q with
      conflict := { q.conflict with
        valid := q.conflict.valid && !value.getLsbD 0, more := q.conflict.more && !value.getLsbD 1 } }))
  else .next s

end Sys2Proof.Machine
end

