-- ==== Sys2Proof/Machine/LiftOps.lean ====
section
/-! DEFINITION. Lift-calls and lift queries (16_instructions_matrix_and_lift.md R268-R276). -/

namespace Sys2Proof.Machine

open Sys2Proof

/-! ### `lift` (R268, R276) -/

/-- Whether a lift of an extent overflows (R276). -/
def axisOverflow (c : CT) (e : Nat) : Bool :=
  let es := c.extents ++ [e]
  let slots := ((List.range es.length).map (fun k => extProd es (k + 1))).sum
  e = 0 || 256 < e || c.depth = 3 || 4096 < extProd es es.length || c.kernel.lift < c.slotBytes * slots

/-- Opens a lift depth: every active tuple is extended by every index of the new axis. -/
def openLift (c : CT) (e : Nat) : CT :=
  { c with lift := { c.lift with
      levels := c.lift.levels ++ [⟨e, c.pc + 4, c.lift.active⟩]
      active := c.lift.active.flatMap (fun n => (List.range e).map (fun i => n * e + i)) } }

/-- `lift` (R268): copies of earlier vector instructions are complete before the nest changes. -/
def execLift (a : GReg) (i : BitVec 15) (s : State) : Out :=
  scalar s { reads := [.g a], commits := true, drains := true, rule := .unbatched } (fun _ s =>
    let c := s.me
    let e := (c.getG a).toNat
    if axisOverflow c e then .trap .axisOverflow (c.getG a) false
    else
      match jumpTo s (c.relative i) with
      | .jump t s => .jump t (s.upd (fun c => openLift c e))
      | r => r)

/-! ### `lend` (R273) -/

/-- Every register of a control thread that can be batched. -/
def allRefs : List RegRef :=
  (List.finRange 32).map .g ++ (List.finRange 128).map .p ++ (List.range 48).map (fun k => .v k .one)

/-- A control thread once a register has been loaded anew: what was wrong with it is gone (R393). -/
def CT.cleanRef (c : CT) (a : Nat) (x : RegRef) : CT :=
  if c.regBad = [] then c
  else { c with regBad := c.regBad.filter (fun b => match x, b with
      | .v r _, .v r2 l => !(r = r2 && decide (l < a))
      | _, _ => !(x.asBad = some b)) }

/-- A batched register takes the value of its copy at the last index of the deepest axis, with its other axes kept. -/
def collapse (a d e : Nat) (c : CT) (x : RegRef) : CT :=
  let t := c.refTag x
  if !hasAxis t d then c
  else
    let rest : Tag := t &&& ~~~(BitVec.ofNat 3 (2 ^ (d - 1)))
    if rest = 0 then ((c.loadRef a x (c.copyBytes x t (e - 1))).setRefTag x 0).cleanRef a x
    else
      ((List.range (extProd c.extents (d - 1))).foldl (fun acc n =>
        acc.writeCopy x rest (n * e + (e - 1)) (c.copyBytes x t (n * e + (e - 1))) (c.copyMarks x t (n * e + (e - 1)))) c).setRefTag x rest

/-- Ends the deepest depth: its regions close, its registers collapse, its tuples are those active when it opened. -/
def closeLift (a : Nat) (c : CT) : CT :=
  match c.lift.levels.getLast? with
  | none => c
  | some l =>
    let d := c.depth
    let c := { c with lift := { c.lift with regions := c.lift.regions.filter (fun r => r.depth ≠ d) } }
    let c := allRefs.foldl (collapse a d l.extent) c
    { c with lift := { c.lift with levels := c.lift.levels.dropLast, active := l.outer } }

/-- The copies of a batched register that the end of a depth of extent `e` reads: those at the last index (R273). -/
def lastCopies (c : CT) (d e : Nat) (x : RegRef) : List Nat :=
  let t := c.refTag x
  if !hasAxis t d then []
  else if t &&& ~~~(BitVec.ofNat 3 (2 ^ (d - 1))) = 0 then [e - 1]
  else (List.range (extProd c.extents (d - 1))).map (fun n => n * e + (e - 1))

/-- The local address of a poisoned copy that `lend` would read (R393). -/
def badLast (c : CT) (e : Nat) : Option Nat :=
  if !c.maybePoisoned then none
  else allRefs.findSome? (fun x => (lastCopies c c.depth e x).findSome? (c.copyPoisoned x (c.refTag x)))

/-- A read of poisoned lift-frame bytes by a scalar instruction. -/
def poisonedCopy (s : State) (w : Nat) : Res := .poison (sramLoc s.me.pc 0 w) (.word (.loc s.cur) w 1)

/-- `lend` (R273): ILLEGAL at depth 0. -/
def execLend (s : State) : Out :=
  match s.me.lift.levels.getLast? with
  | none => illegalHere s
  | some l =>
    scalar s { commits := true, drains := true, rule := .once } (fun _ s =>
      match badLast s.me l.extent with
      | some w => poisonedCopy s w
      | none => .jump l.ret (s.upd (closeLift (lanes s s.cur))))

/-! ### Queries (R274) -/

/-- The tuples that share a tuple's indices on every axis but the innermost. -/
def siblings (c : CT) (n : Nat) : List Nat :=
  let e := (c.extents.getLast?).getD 1
  (List.range e).map (fun i => n / e * e + i)

/-- A tag without the innermost axis. -/
def CT.outerTag (c : CT) (t : Tag) : Tag := t &&& ~~~(BitVec.ofNat 3 (2 ^ (c.depth - 1)))

/-- A scalar register's value for a tuple. -/
def CT.valueFor (c : CT) (a : Nat) (r : GReg) (n : Nat) : W64 := w64 (leNat (c.valueBytes a (.g r) n))

/-- The local address of a poisoned copy of a scalar register among those of some tuples (R393). -/
def badAmong (c : CT) (r : GReg) (ns : List Nat) : Option Nat :=
  if c.locBad = [] ∨ c.getGTag r = 0 then none else ns.findSome? (c.copyPoisoned (.g r) (c.getGTag r))

/-- ILLEGAL at depth 0 (R274). -/
def CT.inLift (c : CT) : Option (Cause × W64) := if c.depth = 0 then some (.illegal, c.pc) else none

/-- `lidx` (R274). -/
def execLidx (d : GReg) (k : BitVec 2) (s : State) : Out :=
  let c := s.me
  let axis := if k = 0 then c.depth else k.toNat
  scalar s {
      writes := [.g d], rule := .on (BitVec.ofNat 3 (2 ^ (axis - 1)) ||| c.mask)
      fault := if axis = 0 ∨ c.depth < axis then some (.illegal, c.pc) else none } (fun n s =>
    .ok (s.upd (fun q => q.setG d (w64 (((coords c.extents n)[axis - 1]?).getD 0)))))

/-- The fold of `lred` and its identity (Table 16.6). -/
def lredFold (op : LredOp) (x y : W64) : W64 := match op with
  | .add => x + y
  | .min => if x.toInt ≤ y.toInt then x else y
  | .max => if x.toInt ≤ y.toInt then y else x
  | .minn => if x.toNat ≤ y.toNat then x else y
  | .maxn => if x.toNat ≤ y.toNat then y else x
  | .and => x &&& y
  | .or => x ||| y
  | .xor => x ^^^ y

/-- The value of a fold over no element. -/
def lredUnit : LredOp → W64
  | .min => w64 (2 ^ 63 - 1)
  | .max => w64 (2 ^ 63)
  | .minn | .and => BitVec.allOnes 64
  | .add | .maxn | .or | .xor => 0

/-- `lred` (R274): over the active elements of the innermost axis. -/
def execLred (d a : GReg) (op : LredOp) (s : State) : Out :=
  let c := s.me
  let l := lanes s s.cur
  scalar s {
      reads := [.g a], writes := [.g d], rule := .on (c.outerTag (c.getGTag a ||| c.mask)), fault := c.inLift } (fun n s =>
    let ns := (siblings c n).filter (fun m => c.lift.active.contains m)
    match badAmong c a ns with
    | some w => poisonedCopy s w
    | none =>
    .ok (s.upd (fun q => q.setG d (ns.foldl (fun x m => lredFold op x (c.valueFor l a m)) (lredUnit op)))))

/-- `lpick` (R274): a batched index raises BATCHED_INDIRECT; an index at or beyond the extent gives 0. -/
def execLpick (d a b : GReg) (s : State) : Out :=
  let c := s.me
  let l := lanes s s.cur
  let batched := if c.getGTag b ≠ 0 then some (.batchedIndirect, (c.getGTag b).zeroExtend 64) else none
  scalar s {
      reads := [.g a, .g b], writes := [.g d], rule := .on (c.outerTag (c.getGTag a ||| c.mask))
      fault := c.inLift.or batched } (fun n s =>
    let m := (siblings c n)[(c.getG b).toNat]?
    let v := match m with
      | some m => c.valueFor l a m
      | none => 0
    match badAmong c a m.toList with
    | some w => poisonedCopy s w
    | none =>
    .ok (s.upd (fun q => q.setG d v)))

/-- `ltag` (R274): a register number beyond its file is ILLEGAL. The tag alone is read, not the register. -/
def execLtag (d : GReg) (file : Fin 3) (r : BitVec 7) (s : State) : Out :=
  let c := s.me
  let n := r.toNat
  let ref : Option RegRef := match file.val with
    | 0 => if h : n < 32 then some (.g ⟨n, h⟩) else none
    | 1 => some (.p (Fin.ofNat 128 n))
    | _ => if n < 48 then some (.v n .one) else none
  match ref with
  | none => illegalHere s
  | some x =>
    scalar s { numbers := shapeNumbers c { reads := [x] }, writes := [.g d], rule := .on c.mask } (fun _ s =>
      .ok (s.upd (fun q => q.setG d ((c.refTag x).zeroExtend 64))))

/-- `lact` (R274): bits from the extent to 2,047 are cleared. -/
def execLact (p : PReg) (s : State) : Out :=
  let c := s.me
  scalar s { writes := [.p p], rule := .on (c.outerTag c.mask), fault := c.inLift } (fun n s =>
    let bits := ((siblings c n).zipIdx).foldl (fun x q => if c.lift.active.contains q.1 then x + 2 ^ q.2 else x) 0
    .ok (s.upd (fun q => q.setP p (BitVec.ofNat 2048 bits))))

end Sys2Proof.Machine
end

