-- ==== Sys2Proof/Machine/Lumen.lean ====
section
/-! DEFINITION. The events of the Lumen links (28_host_peers_and_virtual_functions.md R409-R410; notes/assumptions/25.md). -/

namespace Sys2Proof.Machine

open Sys2Proof

/-- The other end's business with a link: an acknowledgement, a request for replay, stop and go (R409). -/
def manageLink (s : State) (port : Fin 16) : LumenMsg → State
  | .ack n => updLink s port (·.acked n)
  | .replay n => updLink s port (·.resend n)
  | .stop vc => updLink s port (fun l => { l with stopped := l.stopped ||| (1#4 <<< vc.toNat) })
  | .go vc => serveAll (updLink s port (·.resume vc)) vc
  | _ => s

/-- A good flit in order: it takes a buffer of its channel and is acknowledged; with the last buffer the channel is stopped.
It then goes where it can. -/
def takeFlit (s : State) (port : Fin 16) (f : Flit) : State :=
  let s := updLink s port (fun l =>
    let l := { l with rxSeq := l.rxSeq + 1, bufs := l.bufs ++ [f] }.manage (.ack f.seq)
    if flitBuffers ≤ (l.onChannel f.vc).length then
      { l.manage (.stop f.vc) with halted := l.halted ||| (1#4 <<< f.vc.toNat) }
    else l)
  serveChannel s port f.vc flitBuffers

/-- A flit of the link's own business in order: it is done, and one that is not itself about acknowledgement is acknowledged
(notes/assumptions/25.md). -/
def takeManage (s : State) (port : Fin 16) (f : Flit) : State :=
  let s := updLink s port (fun l => { l with rxSeq := l.rxSeq + 1 })
  match f.msg with
  | .ack _ | .replay _ => manageLink s port f.msg
  | _ => manageLink (updLink s port (·.manage (.ack f.seq))) port f.msg

/-- Asks a port's peer for replay from the first missing number. -/
def askReplay (s : State) (port : Fin 16) : State := updLink s port (fun l => l.manage (.replay l.rxSeq))

/-- A good flit that is not the next in order: one that has been taken before is dropped; behind a gap, replay is asked for, and
what asks for replay itself is done, since the gap may be all that it could wait for (R409; notes/assumptions/25.md). -/
def outOfOrder (s : State) (port : Fin 16) (f : Flit) : State :=
  if 2048 ≤ (f.seq - (s.links.get port).rxSeq).toNat then s
  else
    match f.msg with
    | .replay n => askReplay (updLink s port (·.resend n)) port
    | _ => askReplay s port

/-- LUMEN_FLIT: a flit arrives at a port whose link is up. A good one in order is taken and acknowledged; a CRC failure, a gap,
or no buffer left asks for replay from the first missing number; link management is done at once (R409). A port lies on its
die (R16), and traffic to a die that has stopped stalls (R418). -/
def execLumenFlit (port : Fin 16) (vc : BitVec 2) (seq : BitVec 12) (c : Cargo) (s : State) : Out :=
  let f : Flit := ⟨vc, seq, c.crcOk, c.dest, c.msg⟩
  let l := s.links.get port
  if l.down || (s.dies.get (portDie port)).stopped then .next s
  else if !f.crcOk then .next (askReplay s port)
  else if f.seq ≠ l.rxSeq then .next (outOfOrder s port f)
  else if f.vc = manageVc then .next (takeManage s port f)
  else if flitBuffers ≤ (l.onChannel f.vc).length then .next (askReplay s port)
  else .next (takeFlit s port f)

/-! ### What is given up (R410) -/

/-- Whether a command's engine lies on a die that has stopped: its commands end no more (R418). -/
def engineStopped (s : State) (ag : Agent) : Bool := (s.dies.get (dieOf ag)).stopped

/-- The commands in flight whose messages have no route. -/
def unrouted (s : State) : List (Agent × Cmd) :=
  ((List.finRange 144).filter (fun ag => !engineStopped s ag)).flatMap (fun ag =>
    ((s.ct ag).cmds.filter (fun m => !cmdRouted s m.kind)).map (fun m => (ag, m)))

/-- LUMEN_LINK_DOWN: what the link had still to send is dropped, and so are the messages for which no route remains; their
commands complete with cause 0x40 (R410). -/
def execLumenLinkDown (port : Fin 16) (s : State) : Out :=
  let s := updLink s port (fun l => { l with down := true, wait := [], sent := [] })
  let s := (unrouted s).foldl (fun s q => failWhen s q.1 q.2 0x40) s
  .next ([0, 1, 2].foldl serveAll s)

/-- Whether a command has messages on Lumen links. -/
def onLumen : CmdKind → Bool
  | .notify _ _ (some _) _ _ => true
  | .coll _ => true
  | _ => false

/-- Whether a flit brings the notification of a command of this device. -/
def isNoteOf (f : Flit) (dev : Nat) (ag : Agent) (tl : Fin 8) (num : Nat) : Bool := match f.msg with
  | .notify d a l n _ _ => d.toNat == dev && a == ag && l == tl && n == num
  | _ => false

/-- Gives up what a command has sent: it is dropped wherever it still lies, and the command completes with cause 0x40. -/
def giveUp (s : State) (ag : Agent) (tl : Fin 8) (num : Nat) : State :=
  match findCmd s ag tl num with
  | some m =>
    if onLumen m.kind ∧ !engineStopped s ag then
      failWhen { s with links := s.links.map (·.forget (fun f => isNoteOf f s.device ag tl num)) } ag m 0x40
    else s
  | none => s

/-- Gives up one flit that a port has still to bring across, with the command of this device that has sent it, if that is still in
flight. -/
def dropOutgoing (s : State) (port : Fin 16) (f : Flit) : State :=
  let s := updLink s port (·.forget (· == f))
  match f.msg with
  | .notify d ag tl num _ _ => if d.toNat = s.device then giveUp s ag tl num else s
  | _ => s

/-- LUMEN_TIMEOUT: a message whose channel makes no progress for 1 ms is dropped, and the sender's command completes with cause
0x40 (R410). `chan` is the timeline of a command of the device's own, else the virtual channel. A port on a die that has stopped
stalls (R418). -/
def execLumenTimeout (at_ : Stuck) (chan : Fin 8) (num : Nat) (s : State) : Out :=
  let vc := BitVec.ofNat 2 chan.val
  let stopped (port : Fin 16) : Bool := (s.dies.get (portDie port)).stopped
  match at_ with
  | .own ag => .next (giveUp s ag chan num)
  | .transit port =>
    match ((s.links.get port).onChannel vc).head? with
    | some f =>
      if f.dest.toNat = s.device ∨ stopped port then .next s
      else .next (serveChannel (updLink s port (·.pop vc)) port vc flitBuffers)
    | none => .next s
  | .outgoing port =>
    let l := s.links.get port
    match (l.sent ++ l.wait).find? (fun f => f.vc = vc && vc ≠ manageVc && f.msg ≠ .dropped) with
    | some f => if stopped port then .next s else .next (dropOutgoing s port f)
    | none => .next s

end Sys2Proof.Machine
end

