-- ==== Sys2Proof/Machine/MatrixIssue.lean ====
section
/-! DEFINITION. The vector matrix instructions as steps of their own: each is issued alone, as the convoy that holds only
it (16_instructions_matrix_and_lift.md R262-R267; notes/assumptions/15.md). -/

namespace Sys2Proof.Machine

open Sys2Proof

/-- `mld` (R264). -/
def execMld (f : VFields) (s : State) : Out := issue (.mld f) s
/-- `mswap` (R265). -/
def execMswap (f : VFields) (s : State) : Out := issue (.mswap f) s
/-- `mxrO` (R266). -/
def execMxrO (f : VFields) (s : State) : Out := issue (.mxrO f) s
/-- `mxrF` (R266). -/
def execMxrF (f : VFields) (s : State) : Out := issue (.mxrF f) s
/-- `mstat` (R267). -/
def execMstat (f : VFields) (s : State) : Out := issue (.mstat f) s

end Sys2Proof.Machine
end

