-- ==== Sys2Proof/Machine/Package.lean ====
section
/-! DEFINITION. Holds, row protection, power, firmware, resets and attestation (02_runs_in_main_memory.md R50-R51,
29_bringup_power_and_security.md R411-R418; notes/assumptions/24.md). -/

namespace Sys2Proof.Machine

open Sys2Proof

/-! ### Holds (R50) -/

/-- The die of one of the package's eight HBM stacks. -/
def stackDie (stack : Fin 8) : Fin 4 := Fin.ofNat 4 (stack.val / 2)

/-- The bit of a stack among the two of its die. -/
def stackBit (stack : Fin 8) : BitVec 2 := 1#2 <<< (stack.val % 2)

/-- THERMAL_SELF_REFRESH: a stack is forced into self-refresh; the run traffic of its die is held. -/
def execThermalSelfRefresh (stack : Fin 8) (s : State) : Out :=
  .next (s.updDie (stackDie stack) (fun d => { d with hold := d.hold ||| stackBit stack }))

/-- THERMAL_HOLD: a hold has lasted longer than 10 ms; THERMAL_HOLD is posted to the physical function. -/
def execThermalHold (die : Fin 4) (s : State) : Out :=
  if (s.dies.get die).hold ≠ 0 then
    let s := s.updDie die (fun d => { d with thold := true })
    .next { s with notices := s.notices ++ [Notice.thermalHold die.val] }
  else .next s

/-- A vector queue whose head tries again. -/
def CT.unstall (c : CT) : CT := { c with
  vq := match c.vq with
    | v :: vs => { v with stalled := false } :: vs
    | [] => [] }

/-- SELF_REFRESH_EXIT: the stack leaves self-refresh, and held traffic goes on where the other one is not held either. -/
def execSelfRefreshExit (stack : Fin 8) (s : State) : Out :=
  let s := s.updDie (stackDie stack) (fun d => { d with hold := d.hold &&& ~~~(stackBit stack) })
  .next { s with cts := s.cts.map CT.unstall }

/-! ### Rows (R51) -/

/-- ROW_ACTIVATION_THRESHOLD: of a counter at threshold the neighbours are refreshed, the counter is reset, and a correctable
event is logged that counts at the physical function only; of one below it nothing happens. The address of a row is the part's
own matter. -/
def execRowActivationThreshold (die : Fin 4) (row : Nat) (s : State) : Out :=
  if rowDue (s.dies.get die) row then
    let s := s.updDie die (fun d => { d with rowCnt := tabDrop d.rowCnt row, rowBad := d.rowBad.filter (· ≠ row) })
    let s := addReport s die ⟨0, false, 0, 0, 0, 0, BitVec.allOnes 64, ⟨4, 0, 0, 0, 0, Config.freeWord s.fresh⟩⟩
    let s := updCounters s 0 (fun c => { c with corr := c.corr + 1 })
    .next { s with fresh := s.fresh + 1 }
  else .next s

/-! ### Power (R414) -/

/-- Module power at and above which a die's clock falls, and below which it may rise, in watts (R414). -/
def powerHigh : Nat := 2400
/-- See `powerHigh`. -/
def powerLow : Nat := 2300

/-- The lowest capping clock of a die, in 100 MHz (Table 29.2): a field outside its range counts as the nearest value in it
(notes/assumptions/11.md). -/
def Die.capFloor (d : Die) : Nat := min 40 (max 10 d.floor.toNat)

/-- The capping clock after a period. -/
def capClock (d : Die) (power : Nat) : Die :=
  if !d.capen then d
  else if d.tcap.toNat ≤ d.temp.toNat || (Config.moduleSensor && decide (powerHigh < power)) then
    if d.capFloor < d.cclk then { d with cclk := d.cclk - 1, capd := true } else d
  else if decide (d.temp.toNat + 5 < d.tcap.toNat) && (!Config.moduleSensor || decide (power < powerLow)) then
    { d with cclk := min 40 (d.cclk + 1) }
  else d

/-- POWER_CAP_PERIOD: 65,536 die cycles have passed, with this hottest sensor and this module power. -/
def execPowerCapPeriod (die : Fin 4) (temp power : Nat) (s : State) : Out :=
  let s := s.updDie die (fun d => { d with temp := BitVec.ofNat 8 (min 255 temp) })
  if (s.dies.get die).stopped then .next s
  else
    let s := s.updDie die (fun d => capClock d power)
    let d := s.dies.get die
    .next (if d.ttrip.toNat ≤ d.temp.toNat then fatalDie s die Config.tripCause else s)

/-- AFTERGLOW_DUMP: a fatal event stops the die and writes the dump (R418). -/
def execAfterglowDump (die : Fin 4) (cause : BitVec 8) (s : State) : Out := .next (fatalDie s die cause)

/-! ### Firmware (R415-R417) -/

/-- A measurement register extended by a digest: SHA3-256(M ‖ digest). -/
def extendMeas (m digest : BitVec 256) : BitVec 256 := Config.sha3 (leBytes 32 m.toNat ++ leBytes 32 digest.toNat)

/-- Extends one of a die's measurement registers. -/
def Die.extend (d : Die) (k : Fin 4) (digest : BitVec 256) : Die :=
  { d with meas := d.meas.set k.val (extendMeas (d.meas.get k) digest) k.isLt }

/-- Whether a die runs a firmware image: its signature verifies and it is not below the fused minimum (R415). -/
def runsImage (f : Firmware) (d : Die) : Bool := f.signed && decide (d.minVer.toNat ≤ f.version.toNat)

/-- A die as firmware brings it up with the training records of its two stacks: an image that it runs is loaded and measured
with its stages and its supervisor code run is installed; with any other the die stays in recovery (R415, R416). -/
def bootDie (d : Die) (die : Fin 4) (f : Firmware) (r0 r1 : Training) : Die :=
  let rom := d.extend 0 (Config.stageDigest die.val 0)
  if runsImage f d then
    { (((((rom.extend 0 (Config.sha3 f.image)).extend 1 (Config.sha3 f.sup)).extend 2 r0.digest).extend 2 r1.digest).extend 2
        (Config.stageDigest die.val 1)) with
      supCode := memWrite [] 0 f.sup, supLen := f.sup.length, recovery := false, up := true, svn := f.version
      training := #v[some r0, some r1] }
  else { rom with recovery := true, up := false }

/-- Brings up every die and its system control threads (Table 29.1, steps 1, 2, 5 and 6). -/
def bootAll (s : State) (fw : Vector Firmware 4) (record : Fin 8 → Training) : State :=
  let s := { s with dies := Vector.ofFn (fun k : Fin 4 =>
    bootDie (s.dies.get k) k (fw.get k) (record (Fin.ofNat 8 (2 * k.val))) (record (Fin.ofNat 8 (2 * k.val + 1)))) }
  { s with cts := Vector.ofFn (fun ag : Fin 144 =>
      if isUser ag || (s.dies.get (dieOf ag)).recovery then s.cts.get ag
      else { s.cts.get ag with status := .running }) }

/-- ATTESTATION_REQUEST: the die returns its report, signed over its first 1,600 bits. -/
def execAttestationRequest (die : Fin 4) (nonce : BitVec 256) (s : State) : Out :=
  let d := s.dies.get die
  let svn := d.svn
  let serial := Config.dieSerial die.val
  let idh := Config.identityHash die.val
  let body := leBytes 2 1 ++ leBytes 2 svn.toNat ++ leBytes 4 serial.toNat
    ++ d.meas.toList.flatMap (fun m => leBytes 32 m.toNat) ++ leBytes 32 nonce.toNat ++ leBytes 32 idh.toNat
  let r : Attestation := ⟨1, svn, serial, d.meas, nonce, idh, Config.mldsaSign die.val body⟩
  .next (s.updDie die (fun d => { d with attest := some r }))

/-- FUSED_MINIMUM_RAISE: the image that runs raises the fused minimum to its own security version. -/
def execFusedMinimumRaise (die : Fin 4) (s : State) : Out :=
  .next (s.updDie die (fun d => if d.up && decide (d.minVer.toNat < d.svn.toNat) then { d with minVer := d.svn } else d))

/-- MEASUREMENT_EXTEND: M3 takes a measurement that the physical function asks to add. -/
def execMeasurementExtend (die : Fin 4) (digest : BitVec 256) (s : State) : Out :=
  .next (s.updDie die (fun d => d.extend 3 digest))

/-! ### Resets (R411, R412) -/

/-- The digest of a training record (R412): of its values and serial number. -/
def recordDigest (delays : List Byte) (serial : W64) : BitVec 256 := Config.sha3 (delays ++ leBytes 8 serial.toNat)

/-- The record that full training of a stack makes. -/
def fullRecord (fresh : Nat) (stack : Fin 8) : Training :=
  let d := Config.trainedDelays stack.val fresh
  ⟨d, Config.stackSerial stack.val, recordDigest d (Config.stackSerial stack.val)⟩

/-- The record that firmware restores at a warm reset (R412): the one that the host driver has supplied through the recovery
mailbox, where its digest holds, its serial number is the stack's, and the restored stack passes its read test. -/
def restoredRecord (r : Restore) (stack : Fin 8) : Option Training :=
  ((r.mail.find? (fun m => m.1 = stack)).map (·.2)).filter (fun t =>
    t.digest == recordDigest t.delays t.serial && t.serial == Config.stackSerial stack.val && r.readOk.getLsbD stack.val)

/-- COLD_RESET: everything is at its reset value but the fused minimum versions; firmware then trains the stacks and brings up the
dies. -/
def execColdReset (fw : Vector Firmware 4) (s : State) : Out :=
  let t := { State.reset with
    sched := s.sched, fresh := s.fresh + 1
    dies := Vector.ofFn (fun k : Fin 4 => { Die.reset with minVer := (s.dies.get k).minVer }) }
  .next (bootAll t fw (fullRecord s.fresh))

/-- A run as a warm reset leaves it: an appender with unpublished records was killed, and no stream is open (Table 2.2). -/
def warmRun (r : Run) : Run :=
  { r with
    state := if r.state = .open_ ∧ r.ranges.any (fun g => !g.pub) then .truncated else r.state
    ranges := [], streams := 0 }

/-- A die's registers after a warm reset: those with a reset value have it; the sensor, the fuses, the measurements, the
error ring and the dump are kept, one cut short as invalid (R418). -/
def warmDie (d : Die) : Die :=
  { Die.reset with
    temp := d.temp, ring := d.ring, reports := d.reports, rowCnt := d.rowCnt, rowBad := d.rowBad, meas := d.meas, minVer := d.minVer
    dump := d.dump.map (fun u => { u with writing := false }) }

/-- A core after a warm reset: what is spared, binned and retired stays, and `part_id` keeps its value (R10). -/
def warmCore (s : State) (n : Fin 32) : Core :=
  { s.cores.get n with
    owner := none, rows := 0, cycle := 0, part := none, mark := none
    partId := partWord s (agentOf (4 * n.val)) }

/-- A control thread after a warm reset: bytes of its window, its trail and its view with a lasting fault keep it (R398). -/
def warmCt (s : State) (ag : Agent) : CT := { State.reset.cts.get ag with
    locStuck := (s.ct ag).locStuck, trailStuck := (s.ct ag).trailStuck, viewStuck := (s.ct ag).viewStuck }

/-- A queue after a warm reset: its sequence numbers survive, and so do the launches accepted into it, the completions in the
host's ring and those still held (R405). -/
def warmQueue (q : Queue) : Queue :=
  { Queue.reset with
    acc := q.acc, dseq := q.dseq, lhseq := q.lhseq
    pend := q.pend, held := q.held, posted := q.posted, finished := q.finished }

/-- Ends the launches that a warm reset interrupts: a host launch that has dispatched a task posts KILLED, so that every
accepted launch posts (R405; DESIGN CHOICE, notes/assumptions/24.md); children end with their parents; a launch that has
dispatched none stands in its queue again as accepted, one that was bound before those that were not. -/
def warmLaunches (s : State) : State :=
  let cut := s.launches.filter (fun e => !isChild e.2 && e.2.state == .running && e.2.dealt)
  let s := cut.foldl (fun s e => completeLaunch s e.1 { e.2 with parent := none } 3 e.2.cause.toNat) s
  let kept := s.launches.filter (fun e => !isChild e.2)
  let back := kept.filter (fun e => e.2.state = .running)
  { s with
    launches := kept.map (fun e => (e.1, { e.2 with
      state := .accepted, bound := [], blocks := [], groups := [], bars := Vector.replicate 16 Barrier.zero }))
    queues := s.queues.map (fun e => (e.1, { e.2 with
      pend := (back.filter (fun x => x.2.q = e.1)).map (·.1) ++ e.2.pend })) }

/-- Whether a frame lies on one of some dies. -/
def frameOn (dies : List (Fin 4)) (f : Nat) : Bool := dies.any (fun d => d.val = f / Config.framesPerDie)

/-- Erases the contents of the stacks that were retrained (R412): leaf entries there go to tier 3 and their counts fall;
runs with a page of their page list or their run table there are freed; the frames hold nothing more. -/
def eraseStacks (s : State) (dies : List (Fin 4)) : State :=
  let gone (l : Leaf) : Bool := l.tier = 0 && frameOn dies l.frame
  let lost := s.runs.flatMap (fun e => (e.2.leaves.filter gone).map (·.frame))
  let s := { s with runs := s.runs.map (fun e =>
    (e.1, { e.2 with leaves := e.2.leaves.map (fun (l : Leaf) => if gone l then ⟨0, 3, false, l.skew⟩ else l) })) }
  let s := lost.foldl dropFrame s
  let dead := s.runs.filter (fun e => frameOn dies e.2.root || e.2.dirs.any (frameOn dies) ||
    dies.any (fun (d : Fin 4) => d.val = Config.runTableDie (e.1 / 2 ^ 20)))
  let s := dead.foldl (fun s e => freeRun s e.1) s
  { s with frames := s.frames.filter (fun e => !frameOn dies e.1) }

/-- The lasting-fault report of a retrained stack. -/
def stackReport (s : State) (die : Fin 4) : State :=
  let s := addReport s die ⟨3, false, 0, 0, 0, 0, BitVec.allOnes 64, ⟨4, 0, 0, 0, 0, Config.freeWord s.fresh⟩⟩
  let s := updCounters s 0 (fun c => if Config.countsUncorrectable 3 then { c with uncorr := c.uncorr + 1 }
    else { c with corr := c.corr + 1 })
  { s with fresh := s.fresh + 1 }

/-- The stacks that a warm reset trains fully: those of dies whose firmware runs that it does not restore (R412). -/
def retrainedStacks (s : State) (fw : Vector Firmware 4) (r : Restore) : List (Fin 8) :=
  (List.finRange 8).filter (fun k =>
    runsImage (fw.get (stackDie k)) (s.dies.get (stackDie k)) && (restoredRecord r k).isNone)

/-- WARM_RESET: runs, frames, accepted launches and what is spared are kept; partitions, threads and contexts are not; the
stacks that are trained fully lose their contents. -/
def execWarmReset (fw : Vector Firmware 4) (r : Restore) (s : State) : Out :=
  let s := warmLaunches s
  let s := { s with
    cts := Vector.ofFn (warmCt s), cur := State.reset.cur, cores := Vector.ofFn (warmCore s), dies := s.dies.map warmDie
    parts := State.reset.parts, images := []
    runs := s.runs.map (fun (e : Nat × Run) => (e.1, warmRun e.2))
    queues := s.queues.map (fun (e : Nat × Queue) => (e.1, warmQueue e.2)) }
  let freed := s.runs.filter (fun (e : Nat × Run) => e.2.dpend)
  let s := freed.foldl (fun s (e : Nat × Run) => freeRun s e.1) s
  let fresh := s.fresh
  let anew := (retrainedStacks s fw r).map stackDie
  let s := eraseStacks { s with fresh := fresh + 1 } anew
  let s := anew.foldl stackReport s
  .next (bootAll s fw (fun k => (restoredRecord r k).getD (fullRecord fresh k)))

end Sys2Proof.Machine
end

