-- ==== Sys2Proof/Machine/Predicate.lean ====
section
/-! DEFINITION. Compares and predicates (11_instructions_scalar_and_control.md R191-R193). -/

namespace Sys2Proof.Machine

open Sys2Proof

/-- A compare condition on two 64-bit values (R191). -/
def ccHolds (c : Cc) (x y : W64) : Bool := match c with
  | .eq => decide (x = y)
  | .ne => decide (x ≠ y)
  | .lt => decide (x.toInt < y.toInt)
  | .ltn => decide (x.toNat < y.toNat)
  | .ge => decide (y.toInt ≤ x.toInt)
  | .gen => decide (y.toNat ≤ x.toNat)

/-- Bits 0 to VL - 1 of a predicate value are all 1 (R193). -/
def predAll (x : PBits) (vl : Nat) : Bool := (List.range vl).all (fun k => x.getLsbD k)
/-- Some of bits 0 to VL - 1 of a predicate value is 1 (R193). -/
def predAny (x : PBits) (vl : Nat) : Bool := (List.range vl).any (fun k => x.getLsbD k)

/-- An operation on two predicate registers. -/
def opPP (d a b : PReg) (f : PBits → PBits → PBits) (s : State) : Out :=
  scalar s { reads := [.p a, .p b], writes := [.p d] }
    (fun _ s => .ok (s.upd (fun c => c.setP d (f (c.getP a) (c.getP b)))))

/-- An operation on one predicate register, and on VL where `len` says so. -/
def opP (d a : PReg) (f : PBits → Nat → PBits) (len : Bool) (s : State) : Out :=
  scalar s { reads := [.p a], writes := [.p d], parity := if len then [.csr 0x008] else [] } (fun _ s => .ok (s.upd (fun c => c.setP d (f (c.getP a) c.vl))))

/-- `cmp.cc` (R191): the condition fills all 2,048 bits. -/
def execCmp (c : Cc) (p : PReg) (a b : GReg) (s : State) : Out :=
  scalar s { reads := [.g a, .g b], writes := [.p p] }
    (fun _ s => .ok (s.upd (fun x => x.setP p (pAll (ccHolds c (x.getG a) (x.getG b))))))
/-- `cmpi.cc` (R191). -/
def execCmpi (c : Cc) (p : PReg) (a : GReg) (i : BitVec 10) (s : State) : Out :=
  scalar s { reads := [.g a], writes := [.p p] }
    (fun _ s => .ok (s.upd (fun x => x.setP p (pAll (ccHolds c (x.getG a) (sext64 i))))))
/-- `pand` (R192). -/
def execPand (d a b : PReg) (s : State) : Out := opPP d a b (fun x y => x &&& y) s
/-- `por` (R192). -/
def execPor (d a b : PReg) (s : State) : Out := opPP d a b (fun x y => x ||| y) s
/-- `pxor` (R192). -/
def execPxor (d a b : PReg) (s : State) : Out := opPP d a b (fun x y => x ^^^ y) s
/-- `pnot` (R192). -/
def execPnot (d a : PReg) (s : State) : Out := opP d a (fun x _ => ~~~x) false s
/-- `pmov` (R192). -/
def execPmov (d a : PReg) (s : State) : Out := opP d a (fun x _ => x) false s
/-- `pall` (R193). -/
def execPall (d a : PReg) (s : State) : Out := opP d a (fun x n => pAll (predAll x n)) true s
/-- `pany` (R193). -/
def execPany (d a : PReg) (s : State) : Out := opP d a (fun x n => pAll (predAny x n)) true s

end Sys2Proof.Machine
end

