-- ==== Sys2Proof/Machine/ScalarInt.lean ====
section
/-! DEFINITION. Integer operations of the scalar pipe (11_instructions_scalar_and_control.md R186-R190). -/

namespace Sys2Proof.Machine

open Sys2Proof

/-! ### Values (Tables 11.1-11.3) -/

/-- Signed division (R188): all ones for a zero divisor, the dividend on overflow, else truncation toward zero. -/
def divS (a b : W64) : W64 :=
  if b = 0 then BitVec.allOnes 64
  else if a = BitVec.intMin 64 ∧ b = BitVec.allOnes 64 then a
  else BitVec.ofInt 64 (a.toInt.tdiv b.toInt)

/-- Signed remainder (R188): the dividend for a zero divisor, 0 on overflow, else the sign of the dividend. -/
def remS (a b : W64) : W64 :=
  if b = 0 then a
  else if a = BitVec.intMin 64 ∧ b = BitVec.allOnes 64 then 0
  else BitVec.ofInt 64 (a.toInt - b.toInt * a.toInt.tdiv b.toInt)

/-- Unsigned division (R188). -/
def divU (a b : W64) : W64 := if b = 0 then BitVec.allOnes 64 else w64 (a.toNat / b.toNat)

/-- Unsigned remainder (R188). -/
def remU (a b : W64) : W64 := if b = 0 then a else w64 (a.toNat - b.toNat * (a.toNat / b.toNat))

/-- High 64 bits of the signed product. -/
def mulHS (a b : W64) : W64 := BitVec.ofInt 64 ((a.toInt * b.toInt) / 2 ^ 64)

/-- High 64 bits of the unsigned product. -/
def mulHU (a b : W64) : W64 := w64 (a.toNat * b.toNat / 2 ^ 64)

/-- The shift amount: bits [5:0]. -/
def shAmt (b : W64) : Nat := b.toNat % 64

/-- Signed minimum. -/
def minS (a b : W64) : W64 := if a.toInt ≤ b.toInt then a else b
/-- Signed maximum. -/
def maxS (a b : W64) : W64 := if a.toInt ≤ b.toInt then b else a
/-- Unsigned minimum. -/
def minU (a b : W64) : W64 := if a.toNat ≤ b.toNat then a else b
/-- Unsigned maximum. -/
def maxU (a b : W64) : W64 := if a.toNat ≤ b.toNat then b else a

/-- Leading zero bits. -/
def clzW (a : W64) : W64 := w64 (((List.range 64).find? (fun k => a.getLsbD (63 - k))).getD 64)
/-- Trailing zero bits. -/
def ctzW (a : W64) : W64 := w64 (((List.range 64).find? (fun k => a.getLsbD k)).getD 64)
/-- One bits. -/
def popcW (a : W64) : W64 := w64 ((List.range 64).filter (fun k => a.getLsbD k)).length

/-! ### Shapes -/

/-- An operation on two registers. -/
def opRR (d a b : GReg) (f : W64 → W64 → W64) (s : State) : Out :=
  scalar s { reads := [.g a, .g b], writes := [.g d] }
    (fun _ s => .ok (s.upd (fun c => c.setG d (f (c.getG a) (c.getG b)))))

/-- An operation on one register. -/
def opR (d a : GReg) (f : W64 → W64) (s : State) : Out :=
  scalar s { reads := [.g a], writes := [.g d] } (fun _ s => .ok (s.upd (fun c => c.setG d (f (c.getG a)))))

/-- An operation on the destination register itself, with `n` parcels (R190). -/
def opD (n : Nat) (d : GReg) (f : W64 → W64) (s : State) : Out :=
  scalar s { size := n, reads := [.g d], writes := [.g d] } (fun _ s => .ok (s.upd (fun c => c.setG d (f (c.getG d)))))

/-- A constant load, with `n` parcels. -/
def opK (n : Nat) (d : GReg) (w : W64) (s : State) : Out :=
  scalar s { size := n, writes := [.g d] } (fun _ s => .ok (s.upd (fun c => c.setG d w)))

/-! ### Instructions -/

/-- `add` (R187). -/
def execAdd (d a b : GReg) (s : State) : Out := opRR d a b (fun x y => x + y) s
/-- `sub` (R187). -/
def execSub (d a b : GReg) (s : State) : Out := opRR d a b (fun x y => x - y) s
/-- `mul` (R187). -/
def execMul (d a b : GReg) (s : State) : Out := opRR d a b (fun x y => x * y) s
/-- `mulh` (R187). -/
def execMulh (d a b : GReg) (s : State) : Out := opRR d a b mulHS s
/-- `mulhn` (R187). -/
def execMulhn (d a b : GReg) (s : State) : Out := opRR d a b mulHU s
/-- `div` (R188). -/
def execDiv (d a b : GReg) (s : State) : Out := opRR d a b divS s
/-- `divn` (R188). -/
def execDivn (d a b : GReg) (s : State) : Out := opRR d a b divU s
/-- `rem` (R188). -/
def execRem (d a b : GReg) (s : State) : Out := opRR d a b remS s
/-- `remn` (R188). -/
def execRemn (d a b : GReg) (s : State) : Out := opRR d a b remU s
/-- `and` (R187). -/
def execAnd (d a b : GReg) (s : State) : Out := opRR d a b (fun x y => x &&& y) s
/-- `or` (R187). -/
def execOr (d a b : GReg) (s : State) : Out := opRR d a b (fun x y => x ||| y) s
/-- `xor` (R187). -/
def execXor (d a b : GReg) (s : State) : Out := opRR d a b (fun x y => x ^^^ y) s
/-- `andn` (R187). -/
def execAndn (d a b : GReg) (s : State) : Out := opRR d a b (fun x y => x &&& ~~~y) s
/-- `shl` (R187). -/
def execShl (d a b : GReg) (s : State) : Out := opRR d a b (fun x y => x <<< shAmt y) s
/-- `shr` (R187). -/
def execShr (d a b : GReg) (s : State) : Out := opRR d a b (fun x y => x >>> shAmt y) s
/-- `sha` (R187). -/
def execSha (d a b : GReg) (s : State) : Out := opRR d a b (fun x y => x.sshiftRight (shAmt y)) s
/-- `min` (R187). -/
def execMin (d a b : GReg) (s : State) : Out := opRR d a b minS s
/-- `max` (R187). -/
def execMax (d a b : GReg) (s : State) : Out := opRR d a b maxS s
/-- `minn` (R187). -/
def execMinn (d a b : GReg) (s : State) : Out := opRR d a b minU s
/-- `maxn` (R187). -/
def execMaxn (d a b : GReg) (s : State) : Out := opRR d a b maxU s
/-- `clz` (R187). -/
def execClz (d a : GReg) (s : State) : Out := opR d a clzW s
/-- `ctz` (R187). -/
def execCtz (d a : GReg) (s : State) : Out := opR d a ctzW s
/-- `popc` (R187). -/
def execPopc (d a : GReg) (s : State) : Out := opR d a popcW s

/-- `addi` (R189). -/
def execAddi (d a : GReg) (i : BitVec 15) (s : State) : Out := opR d a (fun x => x + sext64 i) s
/-- `andi` (R189). -/
def execAndi (d a : GReg) (i : BitVec 15) (s : State) : Out := opR d a (fun x => x &&& sext64 i) s
/-- `ori` (R189). -/
def execOri (d a : GReg) (i : BitVec 15) (s : State) : Out := opR d a (fun x => x ||| sext64 i) s
/-- `xori` (R189). -/
def execXori (d a : GReg) (i : BitVec 15) (s : State) : Out := opR d a (fun x => x ^^^ sext64 i) s
/-- `shli` (R189). -/
def execShli (d a : GReg) (i : BitVec 6) (s : State) : Out := opR d a (fun x => x <<< i.toNat) s
/-- `shri` (R189). -/
def execShri (d a : GReg) (i : BitVec 6) (s : State) : Out := opR d a (fun x => x >>> i.toNat) s
/-- `shai` (R189). -/
def execShai (d a : GReg) (i : BitVec 6) (s : State) : Out := opR d a (fun x => x.sshiftRight i.toNat) s
/-- `lui` (R189): the immediate above the low half of gd. -/
def execLui (d : GReg) (i : BitVec 15) (s : State) : Out :=
  opD 1 d (fun x => sext64 i <<< 32 + (x.truncate 32).zeroExtend 64) s
/-- `li` (R189). -/
def execLi (d : GReg) (i : BitVec 15) (s : State) : Out := opK 1 d (sext64 i) s
/-- Long `li` (R190). -/
def execLiLong (d : GReg) (i : BitVec 32) (s : State) : Out := opK 2 d (sext64 i) s
/-- Long `lui` (R190). -/
def execLuiLong (d : GReg) (i : BitVec 32) (s : State) : Out :=
  opD 2 d (fun x => i.zeroExtend 64 <<< 32 + (x.truncate 32).zeroExtend 64) s
/-- Long `addi` (R190): its source is gd itself. -/
def execAddiLong (d : GReg) (i : BitVec 32) (s : State) : Out := opD 2 d (fun x => x + sext64 i) s

end Sys2Proof.Machine
end

