-- ==== Sys2Proof/Machine/Scheduling.lean ====
section
/-! DEFINITION. Partitions and cores: creation, Meridian, the move of a core, function-level reset
(04_on_package_sram.md R72, R76, 24_execution_and_scheduling.md R364-R366, 28_host_peers_and_virtual_functions.md R405;
notes/assumptions/23.md). -/

namespace Sys2Proof.Machine

open Sys2Proof

/-! ### Partitions (R72, R76) -/

/-- Bytes of a core's SRAM that a descriptor's regions take, with a formation buffer of `b` bytes (Table 4.1). -/
def regionBytes (b locw coms trsz : Nat) : Nat :=
  b / 4 + 4 * (65536 * 2 ^ trsz) + 4 * 131072 + 4 * 98304 + 4 * (locw * 65536) + coms * 65536

/-- The formation buffer of a core's die. -/
def bufferOf (s : State) (core : Fin 32) : Nat := (s.dies.get (Fin.ofNat 4 (core.val / 8))).formB

/-- A partition as it is created (Tables 4.2, 24.7, 27.1). -/
def Partition.fresh (fn : Nat) (cores : List (Fin 32)) (desc : Nat) : Partition where
  fn := fn
  locw := fld desc 0 10
  coms := fld desc 10 10
  trsz := fld desc 20 3
  crep := fld desc 23 1 = 1
  chk := false
  common := cores
  home := []
  homeBad := []
  grans := []
  conflict := Conflict.zero
  drained := false
  stopDispatch := false
  floor := 1
  ceil := 32
  target := 0
  prog := 0
  lastQ := []
  turns := []

/-- A core becomes a partition's: its local windows are zeroed, and the views of its threads are empty (R72, R366). -/
def joinCore (s : State) (k p : Fin 32) : State :=
  let s := s.updCore k (fun c => { c with mark := none, part := some p })
  (List.finRange 4).foldl (fun s j => s.updCt (agentOf (4 * k.val + j.val)) (fun c =>
    { c with loc := [], locBad := c.locStuck, view := [], rp := [], early := [], acqd := [], delay := false, slow := none })) s

/-- PARTITION_CREATE: the command processor writes a partition's descriptor, or refuses it: its regions exceed a core's
SRAM, its trsz is 6 or 7, its number is taken, or a core is another partition's (R72, R76, R406). It comes only after the last
step of Table 29.1 on the host port's die and on those of its cores (R411, R415). -/
def execPartitionCreate (num : Fin 32) (fn : Nat) (cores : BitVec 32) (desc : W64) (s : State) : Out :=
  let ks := (List.finRange 32).filter (fun k => cores.getLsbD k.val)
  let q := Partition.fresh fn ks desc.toNat
  let fits (k : Fin 32) : Bool :=
    (s.dies.get (Fin.ofNat 4 (k.val / 8))).up && (s.cores.get k).part.isNone && decide (regionBytes (bufferOf s k) q.locw q.coms q.trsz ≤ Config.coreSram)
  if hostShut s ∨ (s.parts.get num).isSome ∨ 6 ≤ q.trsz ∨ ks = [] ∨ 384 < fn ∨ !ks.all fits then .next s
  else
    let s := { s with parts := s.parts.set num.val (some q) num.isLt }
    let s := s.updPart num (fun q => { q with homeBad := homeStuckOf s q })
    .next (ks.foldl (fun s k => joinCore s k num) s)

/-! ### Meridian (R365, R366) -/

/-- Cores that run a partition's tasks, ascending. -/
def coresOf (s : State) (p : Fin 32) : List (Fin 32) := (List.finRange 32).filter (fun k => (s.cores.get k).part = some p)

/-- The shortfall of a partition that has a target. -/
def shortfall (q : Partition) : Int := if q.target = 0 then 0 else (q.target : Int) - q.prog
/-- The surplus of a partition. -/
def surplus (q : Partition) : Int := if q.target = 0 then (q.prog : Int) else (q.prog : Int) - q.target

/-- The partitions that Meridian moves cores between: those whose border moves are not stopped (R325). -/
def movers (s : State) : List (Fin 32 × Partition) :=
  (List.finRange 32).filterMap (fun p => (s.parts.get p).bind (fun q => if q.stopDispatch then none else some (p, q)))

/-- The first of the partitions with the greatest measure. -/
def greatest (f : Partition → Int) : List (Fin 32 × Partition) → Option (Fin 32 × Partition)
  | [] => none
  | q :: qs => match greatest f qs with
    | none => some q
    | some r => if f q.2 < f r.2 then some r else some q

/-- The owner of a core: the partition in whose common set it lies. -/
def ownerOf (s : State) (k : Fin 32) : Option (Fin 32) :=
  (List.finRange 32).find? (fun p => match s.parts.get p with
    | some q => q.common.contains k
    | none => false)

/-- Marks a core for a partition. -/
def markCore (s : State) (k p : Fin 32) : State := s.updCore k (fun c => { c with mark := some p })

/-- Marks lent cores for return, where the owner has a shortfall and the borrower none, those that already carry a mark too; a
partition takes part in one move. -/
def markReturns (s : State) : List (Fin 32) → List (Fin 32) → State × List (Fin 32)
  | [], used => (s, used)
  | k :: ks, used =>
    match ownerOf s k, (s.cores.get k).part with
    | some o, some b =>
      let os := (movers s).find? (fun q => q.1 = o)
      let bs := (movers s).find? (fun q => q.1 = b)
      match os, bs with
      | some x, some y =>
        if o ≠ b ∧ 0 < shortfall x.2 ∧ shortfall y.2 ≤ 0 ∧ !used.contains o ∧ !used.contains b then
          markReturns (markCore s k o) ks (o :: b :: used)
        else markReturns s ks used
      | _, _ => markReturns s ks used
    | _, _ => markReturns s ks used

/-- Whether a core is marked for return to its owner. -/
def returning (s : State) (k : Fin 32) : Bool :=
  (s.cores.get k).mark.isSome && decide ((s.cores.get k).mark = ownerOf s k)

/-- Fewest and most cores of a partition (Table 24.7): a field outside its range counts as the nearest value in it
(notes/assumptions/11.md). -/
def Partition.fewest (q : Partition) : Nat := max 1 q.floor.toNat
/-- See `Partition.fewest`. -/
def Partition.most (q : Partition) : Nat := min 32 (max 1 q.ceil.toNat)

/-- MERIDIAN_PERIOD: at the end of a period a receiver and a donor are picked and the donor's highest core is marked, anew where an
earlier mark waits, but for one that waits to return to its owner; then prog returns to 0 (R365). -/
def execMeridianPeriod (s : State) : Out :=
  let m := markReturns s (List.finRange 32) []
  let s1 := m.1
  let free := (movers s1).filter (fun (q : Fin 32 × Partition) => !m.2.contains q.1)
  let rs := free.filter (fun (q : Fin 32 × Partition) => decide (0 < shortfall q.2) && decide ((coresOf s q.1).length < q.2.most))
  let s2 := match greatest shortfall rs with
    | none => s1
    | some r =>
      let ds := free.filter (fun (q : Fin 32 × Partition) => decide (q.1 ≠ r.1) && decide (q.2.fewest < (coresOf s q.1).length))
      match greatest surplus ds with
      | none => s1
      | some d => match (coresOf s d.1).getLast? with
        | some k => if returning s1 k then s1 else markCore s1 k r.1
        | none => s1
  .next { s2 with parts := s2.parts.map (fun (q : Option Partition) => q.map (fun (x : Partition) => { x with prog := 0 })) }

/-- Whether no control thread of a core is bound, and none has a saved context, whose task has still to end there (R385), and
its trails are compacted (R366). -/
def coreFree (s : State) (k : Fin 32) : Bool :=
  (List.finRange 4).all (fun j =>
    let c := s.ct (agentOf (4 * k.val + j.val))
    c.launch.isNone && c.task.isNone && (tabGet s.images (4 * k.val + j.val)).isNone && drainedTrail c.trail)

/-- CORE_MOVE: a marked core moves once it is free: its local windows are zeroed and its threads are the receiver's; a move
whose regions would not fit beside the common slice of its home partition, which stays, is abandoned (R366). Views of the old partition's common memory end with it. -/
def execCoreMove (core : Fin 32) (s : State) : Out :=
  let c := s.cores.get core
  let stopped := match c.part.bind (fun p => s.parts.get p) with
    | some q => q.stopDispatch
    | none => false
  match c.mark, c.mark.bind (fun p => s.parts.get p) with
  | some p, some q =>
    let slice := match (ownerOf s core).bind (fun o => s.parts.get o) with
      | some home => home.coms
      | none => 0
    if regionBytes (bufferOf s core) q.locw slice q.trsz > Config.coreSram then
      .next (s.updCore core (fun k => { k with mark := none }))
    else if stopped || q.stopDispatch || !coreFree s core then .next s
    else
      .next (joinCore s core p)
  | _, _ => .next (s.updCore core (fun k => { k with mark := none }))

/-! ### Function-level reset (R405) -/

/-- Compacts the trails of a partition as far as they go; `fuel` bounds the units. -/
def compactAll (s : State) (p : Fin 32) : (fuel : Nat) → State
  | 0 => s
  | fuel + 1 => match (partCts s p).find? (canCompact s) with
    | some ct => compactAll (compactUnit s ct) p fuel
    | none => s

/-- FUNCTION_LEVEL_RESET of a virtual function: its partitions are drained and reset as `preset` does, every launch of it ends
unposted, and its queues are disabled with acc, dseq and lhseq 0 (R405). Until all its threads stand, its commands have completed or are
suspended, and its trails are applied (R325), it has only begun, and the event is attempted again (notes/assumptions/23.md). -/
def execFunctionLevelReset (fn : Nat) (s : State) : Out :=
  if fn = 0 then .next s
  else
    let ps := (List.finRange 32).filter (fun p => match s.parts.get p with
      | some q => decide (q.fn = fn)
      | none => false)
    let s := ps.foldl (fun s p => if isDrained s p then s else drainStep s p) s
    if !ps.all (allStand s) then .next s
    else
    let s := ps.foldl (fun s p =>
      let s := updPartCts (s.updPart p (fun q => { q with drained := true })) p CT.publishOwed
      compactAll s p (markerFuel s)) s
    if !ps.all (allApplied s) then .next s
    else
    let s := ps.foldl resetPartition s
    .next { s with
      launches := s.launches.filter (fun e => e.2.fn ≠ fn)
      queues := s.queues.map (fun e => if queueFn e.1 = fn then
        (e.1, { e.2 with
          en := false, acc := 0, dseq := 0, lhseq := 0, head := 0, tail := 0, post := 0, pend := [], held := []
          posted := [], finished := [], wdcnt := 0, expired := false, wdtrap := false })
        else e) }

end Sys2Proof.Machine
end

