-- ==== Sys2Proof/Machine/TrailEvents.lean ====
section
/-! DEFINITION. The events of trails and of a control thread's boundary: strip commit, publication, compaction, user
events, vector faults and wakes (04_on_package_sram.md R79-R85, 05 R106, 12 R208, 20 R310, 25 R373-R377). -/

namespace Sys2Proof.Machine

open Sys2Proof

/-! ### The commit of a strip (R208) -/

/-- Whether an instruction commits an open strip (R208, R282, R315, R319). -/
def commitsStrip : Instr → Bool
  | .vsetvl _ _ _ | .rel | .amo _ _ _ _ _ _ _ | .cas _ _ _ _ _ _ | .bararr _ _ | .tlnotify _ _ _ | .wmset _
  | .rclose _ | .rseal _ _ | .rnew _ _ _ _ | .rfork _ _ | .rdrop _ | .sortr _ _ _ _ _ | .mrgr _ _ _ _ _ _
  | .joinr _ _ _ _ _ _ | .cpy _ _ | .enqw _ _ _ _ | .rmig _ _ _ _ _ | .stage _ _ | .coll _ _ | .tdone | .yield _
  | .trap _ | .vsaveq _ _ | .lift _ _ | .lend | .spawn _ _ | .ctkill _ _ => true
  | _ => false

/-- Whether the thread stands at an event that commits its strip: such an instruction, a pre-emption, a user event. -/
def commitDue (s : State) (ag : Agent) : Bool :=
  let c := s.ct ag
  c.preempt || (takesUser c && (dueEvent c).isSome) ||
    (match fetchAt s ag c.pc with
     | .instr (.convoyHeader _ ws) _ => ws.any (fun w => match decodeVec w.toNat with
       | .ok (.vamo _) => true
       | _ => false)
     | .instr i _ => commitsStrip i
     | .trap _ _ => true
     | .held => false)

/-- A strip commits ahead of the event that commits it, once every instruction of the strip has retired (R208). -/
def execStripCommit (ct : CtId) (s : State) : Out :=
  let ag := ctAgent ct
  if (s.ct ag).strip.isSome ∧ (s.ct ag).vq = [] ∧ commitDue s ag then
    match commitStrip s ag with
    | .done s => .next s
    | .stall s => .next s
    | .fault s => .next s
  else .next s

/-! ### Publication and compaction -/

/-- Whether the first `n` entries of a trail end inside a strip group. -/
def splitsGroup (t : Trail) (n : Nat) : Bool :=
  (t.entries.zipIdx).any (fun q => q.1.kind == .commit && decide (q.2 + 1 < n + q.1.addr) && decide (n < q.2 + 1))

/-- The part publishes a prefix of a trail on its own (R81); the published tail never falls (R80). -/
def execHwPublish (ct : CtId) (tail : Nat) (s : State) : Out :=
  let ag := ctAgent ct
  let t := (s.ct ag).trail
  if tail ≤ t.entries.length ∧ !splitsGroup t tail then
    .next (s.updCt ag (fun c => { c with
      trail := { t with pub := max t.pub tail }, owed := if c.owed ≤ tail then 0 else c.owed }))
  else .next s

/-- An append stalled at a full trail goes on once compaction has freed space (R79): the stalled vector instruction or
the waiting scalar one is attempted again. -/
def execTrailAppendResume (ct : CtId) (s : State) : Out :=
  let ag := ctAgent ct
  if trailUsed (s.ct ag).trail < trailSize s ag then
    .next (s.updCt ag (fun c => { c with
      status := if c.status = .waiting then .running else c.status
      vq := (match c.vq with
        | v :: vs => { v with stalled := false } :: vs
        | [] => []) }))
  else .next s

/-- The compactor applies the next unit of a trail (R85). -/
def execCompaction (trail : CtId) (s : State) : Out := .next (compactUnit s trail)

/-! ### Events at an instruction boundary (R374) -/

/-- A user event (R106): taken in user mode, outside a handler, at lift depth 0, behind a vector fault and a pre-emption request
that are pending (R374). An open strip commits first, once its instructions have retired (R208). A `uevec` with an error is consumed
(R392). A vector instruction pushed
before the event and not yet retired writes its scalar result into the register bank that is in place when it retires (DESIGN
CHOICE, notes/assumptions/32.md). -/
def execUserEvent (ct : CtId) (s : State) : Out :=
  let ag := ctAgent ct
  let c := s.ct ag
  match if takesUser c && c.task.isSome && c.status != .halted && !faultDue s ag && !c.preempt then dueEvent c else none with
  | none => .next s
  | some tl =>
    if c.strip.isSome ∧ c.vq ≠ [] then .next (waitHere s ag)
    else
      match commitStrip s ag with
      | .stall s => .next (waitHere s ag)
      | .fault s => .next (waitHere s ag)
      | .done s =>
        if c.regBad.contains (.csr 0x010) then .next (consume s ag (scalarLoc c) none) else
        .next (s.updCt ag (fun c =>
          let t := c.tls.get tl
          let c := { c.clean [.csr 0x011] with
            tls := c.tls.set tl.val { t with arm := false } tl.isLt
            uecause := BitVec.ofNat 8 (1 + tl.val * 16 + b2n t.err * 128) }
          let c := ((c.swapUser.setG 31 c.pc).setGTag 31 0).clean [.g 31]
          ({ c with inUev := true, pc := c.uevec, status := .running } : CT).newLevel))

/-- VECTOR_ASYNC (R377): a frozen queue's fault that has not been taken yet is taken at the boundary, in a handler too. -/
def execVectorAsync (ct : CtId) (s : State) : Out :=
  let ag := ctAgent ct
  match (s.ct ag).frozen with
  | some f => .next (if faultDue s ag && (s.ct ag).status != .halted then vectorTrap s ag f else s)
  | none => .next s

/-- A waiting `wfe` wakes after 65,536 clocks, or without cause (Table 20.2). -/
def execWfeWake (ag : Agent) (s : State) : Out :=
  .next (s.updCt ag (fun c => { c with wfe := c.wfe.map (fun w => { w with oth := true }) }))

end Sys2Proof.Machine
end

