-- ==== Sys2Proof/Machine/VConfig.lean ====
section
/-! DEFINITION. Vector configuration and the opening of strips (12_instructions_vector_memory_and_streams.md R206-R208,
06_registers.md R116, R117, R123, R124). -/

namespace Sys2Proof.Machine

open Sys2Proof

/-- The control and status registers that a change of `vtype` reads: itself and VL. -/
def vtypeParity : List BadReg := [.csr 0x00A, .csr 0x008]

/-- Sets `vtype`: VL falls to the new VLMAX where it lies above it, and gd receives the new VLMAX. -/
def setVtype (s : State) (d : GReg) (t : VType) : State :=
  let m := vlmaxOf (lanes s s.cur) t
  s.upd (fun c => { c.setG d (w64 m) with vtype := t, vl := min c.vl m })

/-- `vsetf` (R206): ILLEGAL for a gap of a type other than ds4 and ds8, and for a record size of a type other than rec. -/
def execVsetf (d : GReg) (rsz : BitVec 6) (gap : BitVec 4) (ty : VTy) (s : State) : Out :=
  if (gap ≠ 0 ∧ ty ≠ .ds4 ∧ ty ≠ .ds8) ∨ (rsz ≠ 0 ∧ ty ≠ .record) then illegalHere s
  else scalar s { writes := [.g d], parity := vtypeParity } (fun _ s => .ok (setVtype s d { s.me.vtype with ty := ty, gap := gap, rsz := rsz }))

/-- `vsetg` (R206): grp 11 is ILLEGAL. -/
def execVsetg (d : GReg) (grp : BitVec 2) (s : State) : Out :=
  if grp = 3 then illegalHere s
  else scalar s { writes := [.g d], parity := vtypeParity } (fun _ s => .ok (setVtype s d { s.me.vtype with grp := grp }))

/-- The scalar register and the log2 element size of strip pointer `k` (Table 6.6). -/
def stripPointer (c : CT) (k : Nat) : GReg × Nat :=
  (Fin.ofNat 32 (fld c.spset.toNat (8 * k) 5), fld c.spset.toNat (8 * k + 5) 3)

/-- The pointers that a mask selects and that are not disabled. -/
def stripPointers (c : CT) (mask : BitVec 4) : List (GReg × Nat) :=
  (((List.range 4).filter (fun k => mask.getLsbD k)).map (stripPointer c)).filter (fun q => q.1 ≠ 0)

/-- Bytes of a block in memory (R207). -/
def stripBlock (t : VTy) : Nat := match t with
  | .ds4 => 18 | .ds8 => 34 | _ => 17

/-- VL for an application length (R117, R207). -/
def grantVl (t : VTy) (avl m : Nat) : Nat := if tyIsBlock t then min (32 * ((avl + 31) / 32)) m else min avl m

/-- Advances one strip pointer by a granted VL (R124, R207). -/
def advancePointer (t : VTy) (vl : Nat) (c : CT) (q : GReg × Nat) : CT :=
  let n := if tyIsBlock t && q.2 == 0 then vl / 32 * stripBlock t else vl * 2 ^ q.2
  c.setG q.1 (c.getG q.1 + w64 n)

/-- What `vsetvl` does once an open strip has committed: the checkpoint is taken, pointers advance, VL is granted, and a
strip opens, marked when it is the second attempt of a rewound one (R207, R396). -/
def openStrip (c : CT) (m : Nat) (d a : GReg) (mask : BitVec 4) : CT :=
  let ps := stripPointers c mask
  let vl := grantVl c.vtype.ty (c.getG a).toNat m
  let save (r : GReg) := (r, c.getG r, c.getGTag r)
  let k : Checkpoint := ⟨c.pc, c.sup, c.inUev, c.inTrap, c.vtype, c.vl, (a :: d :: ps.map (·.1)).map save⟩
  let c2 := (ps.foldl (advancePointer c.vtype.ty vl) c).setG d (w64 vl)
  { c2.clean [.csr 0x008, .csr 0x00B] with
    vl := vl, vstart := 0, strip := some ⟨k, [], false, c.again.contains (c.level, c.pc), c.rp, []⟩
    again := c.again.filter (fun w => decide (w.1 ≠ c.level)) }

/-- `vsetvl` (R207): batched operands raise BATCHED_INDIRECT. Every earlier vector instruction retires first, so that those in
the queue of an open strip are the strip's own (R209, R396; notes/assumptions/13.md); in the handler of a frozen queue what an
open strip has buffered commits as it stands. -/
def execVsetvl (d a : GReg) (mask : BitVec 4) (s : State) : Out :=
  let ps := (stripPointers s.me mask).map (fun q => RegRef.g q.1)
  scalar s { reads := .g a :: ps, writes := .g d :: ps, commits := true, drains := true, parity := [.csr 0x00A, .csr 0x00C], rule := .unbatched } (fun _ s =>
    match commitStrip s s.cur with
    | .done s => .ok (s.upd (fun c => openStrip c (vlmax s s.cur) d a mask))
    | .stall s => .wait s
    | .fault s => .wait s)

end Sys2Proof.Machine
end

