-- ==== Sys2Proof/Machine/VFloatIssue.lean ====
section
/-! DEFINITION. The vector floating instructions as steps of their own: each is issued alone, as the convoy that holds only
it (13_instructions_vector_arithmetic.md R232-R236; notes/assumptions/15.md). -/

namespace Sys2Proof.Machine

open Sys2Proof

/-- `vfadd` (R232). -/
def execVfadd (f : VFields) (s : State) : Out := issue (.vfadd f) s
/-- `vfsub` (R232). -/
def execVfsub (f : VFields) (s : State) : Out := issue (.vfsub f) s
/-- `vfmul` (R232). -/
def execVfmul (f : VFields) (s : State) : Out := issue (.vfmul f) s
/-- `vfma` (R232). -/
def execVfma (f : VFields) (s : State) : Out := issue (.vfma f) s
/-- `vfnma` (R232). -/
def execVfnma (f : VFields) (s : State) : Out := issue (.vfnma f) s
/-- `vfdiv` (R232). -/
def execVfdiv (f : VFields) (s : State) : Out := issue (.vfdiv f) s
/-- `vfmin` (R234). -/
def execVfmin (f : VFields) (s : State) : Out := issue (.vfmin f) s
/-- `vfmax` (R234). -/
def execVfmax (f : VFields) (s : State) : Out := issue (.vfmax f) s
/-- `vfabs` (R234). -/
def execVfabs (f : VFields) (s : State) : Out := issue (.vfabs f) s
/-- `vfneg` (R234). -/
def execVfneg (f : VFields) (s : State) : Out := issue (.vfneg f) s
/-- `vfcmp` (R235). -/
def execVfcmp (f : VFields) (s : State) : Out := issue (.vfcmp f) s
/-- `vcmpt` (R235). -/
def execVcmpt (f : VFields) (s : State) : Out := issue (.vcmpt f) s
/-- `vfsqrt` (R232). -/
def execVfsqrt (f : VFields) (s : State) : Out := issue (.vfsqrt f) s
/-- `vsfu` (R236). -/
def execVsfu (f : VFields) (s : State) : Out := issue (.vsfu f) s

end Sys2Proof.Machine
end

