-- ==== Sys2Proof/Machine/VIntIssue.lean ====
section
/-! DEFINITION. The vector integer instructions as steps of their own: each is issued alone, as the convoy that holds only
it (13_instructions_vector_arithmetic.md R226-R231; notes/assumptions/15.md). -/

namespace Sys2Proof.Machine

open Sys2Proof

/-- `vadd` (R226). -/
def execVadd (f : VFields) (s : State) : Out := issue (.vadd f) s
/-- `vsub` (R226). -/
def execVsub (f : VFields) (s : State) : Out := issue (.vsub f) s
/-- `vmul` (R226). -/
def execVmul (f : VFields) (s : State) : Out := issue (.vmul f) s
/-- `vmulh` (R226). -/
def execVmulh (f : VFields) (s : State) : Out := issue (.vmulh f) s
/-- `vmacc` (R226). -/
def execVmacc (f : VFields) (s : State) : Out := issue (.vmacc f) s
/-- `vwmul` (R229). -/
def execVwmul (f : VFields) (s : State) : Out := issue (.vwmul f) s
/-- `vwmacc` (R229). -/
def execVwmacc (f : VFields) (s : State) : Out := issue (.vwmacc f) s
/-- `vsadd` (R226). -/
def execVsadd (f : VFields) (s : State) : Out := issue (.vsadd f) s
/-- `vssub` (R226). -/
def execVssub (f : VFields) (s : State) : Out := issue (.vssub f) s
/-- `vand` (R226). -/
def execVand (f : VFields) (s : State) : Out := issue (.vand f) s
/-- `vor` (R226). -/
def execVor (f : VFields) (s : State) : Out := issue (.vor f) s
/-- `vxor` (R226). -/
def execVxor (f : VFields) (s : State) : Out := issue (.vxor f) s
/-- `vshl` (R226). -/
def execVshl (f : VFields) (s : State) : Out := issue (.vshl f) s
/-- `vshr` (R226). -/
def execVshr (f : VFields) (s : State) : Out := issue (.vshr f) s
/-- `vsha` (R226). -/
def execVsha (f : VFields) (s : State) : Out := issue (.vsha f) s
/-- `vnshr` (R230). -/
def execVnshr (f : VFields) (s : State) : Out := issue (.vnshr f) s
/-- `vmin` (R226). -/
def execVmin (f : VFields) (s : State) : Out := issue (.vmin f) s
/-- `vmax` (R226). -/
def execVmax (f : VFields) (s : State) : Out := issue (.vmax f) s
/-- `vabs` (R226). -/
def execVabs (f : VFields) (s : State) : Out := issue (.vabs f) s
/-- `vcmp` (R231). -/
def execVcmp (f : VFields) (s : State) : Out := issue (.vcmp f) s

end Sys2Proof.Machine
end

