-- ==== Sys2Proof/Machine/VMemIssue.lean ====
section
/-! DEFINITION. The vector memory instructions as steps of their own: each is issued alone, as the convoy that holds only
it (12_instructions_vector_memory_and_streams.md R211-R221; notes/assumptions/15.md). -/

namespace Sys2Proof.Machine

open Sys2Proof

/-- `vld` (R214). -/
def execVld (f : VFields) (s : State) : Out := issue (.vld f) s
/-- `vlds` (R214). -/
def execVlds (f : VFields) (s : State) : Out := issue (.vlds f) s
/-- `vldx` (R213). -/
def execVldx (f : VFields) (s : State) : Out := issue (.vldx f) s
/-- `vldseg` (R214). -/
def execVldseg (f : VFields) (s : State) : Out := issue (.vldseg f) s
/-- `vst` (R214). -/
def execVst (f : VFields) (s : State) : Out := issue (.vst f) s
/-- `vsts` (R214). -/
def execVsts (f : VFields) (s : State) : Out := issue (.vsts f) s
/-- `vstx` (R213). -/
def execVstx (f : VFields) (s : State) : Out := issue (.vstx f) s
/-- `vstseg` (R214). -/
def execVstseg (f : VFields) (s : State) : Out := issue (.vstseg f) s
/-- `vldc` (R216). -/
def execVldc (f : VFields) (s : State) : Out := issue (.vldc f) s
/-- `vstc` (R217). -/
def execVstc (f : VFields) (s : State) : Out := issue (.vstc f) s
/-- `vspill` (R218). -/
def execVspill (f : VFields) (s : State) : Out := issue (.vspill f) s
/-- `vfill` (R218). -/
def execVfill (f : VFields) (s : State) : Out := issue (.vfill f) s
/-- `rld` (R219). -/
def execRld (f : VFields) (s : State) : Out := issue (.rld f) s
/-- `rapp` (R220). -/
def execRapp (f : VFields) (s : State) : Out := issue (.rapp f) s
/-- `vamo` (R221). -/
def execVamo (f : VFields) (s : State) : Out := issue (.vamo f) s
/-- `vldb` (R214). -/
def execVldb (f : VFields) (s : State) : Out := issue (.vldb f) s

end Sys2Proof.Machine
end

