-- ==== Sys2Proof/Machine/VPermIssue.lean ====
section
/-! DEFINITION. The vector conversion, permutation and reduction instructions as steps of their own: each is issued alone, as the convoy that holds only
it (14_instructions_convert_permute_reduce.md R237-R258; notes/assumptions/15.md). -/

namespace Sys2Proof.Machine

open Sys2Proof

/-- `vcvt` (R240). -/
def execVcvt (f : VFields) (s : State) : Out := issue (.vcvt f) s
/-- `vrnd` (R242). -/
def execVrnd (f : VFields) (s : State) : Out := issue (.vrnd f) s
/-- `vbscaleGet` (R244). -/
def execVbscaleGet (f : VFields) (s : State) : Out := issue (.vbscaleGet f) s
/-- `vbscaleSet` (R244). -/
def execVbscaleSet (f : VFields) (s : State) : Out := issue (.vbscaleSet f) s
/-- `vbquant` (R243). -/
def execVbquant (f : VFields) (s : State) : Out := issue (.vbquant f) s
/-- `vexpnGet` (R245). -/
def execVexpnGet (f : VFields) (s : State) : Out := issue (.vexpnGet f) s
/-- `vexpnScl` (R245). -/
def execVexpnScl (f : VFields) (s : State) : Out := issue (.vexpnScl f) s
/-- `vtailGet` (R246). -/
def execVtailGet (f : VFields) (s : State) : Out := issue (.vtailGet f) s
/-- `vtailSet` (R246). -/
def execVtailSet (f : VFields) (s : State) : Out := issue (.vtailSet f) s
/-- `vtailClr` (R246). -/
def execVtailClr (f : VFields) (s : State) : Out := issue (.vtailClr f) s
/-- `vmv` (R247). -/
def execVmv (f : VFields) (s : State) : Out := issue (.vmv f) s
/-- `vsel` (R247). -/
def execVsel (f : VFields) (s : State) : Out := issue (.vsel f) s
/-- `vbcast` (R248). -/
def execVbcast (f : VFields) (s : State) : Out := issue (.vbcast f) s
/-- `vextr` (R249). -/
def execVextr (f : VFields) (s : State) : Out := issue (.vextr f) s
/-- `vins` (R249). -/
def execVins (f : VFields) (s : State) : Out := issue (.vins f) s
/-- `viota` (R250). -/
def execViota (f : VFields) (s : State) : Out := issue (.viota f) s
/-- `vcompress` (R251). -/
def execVcompress (f : VFields) (s : State) : Out := issue (.vcompress f) s
/-- `vexpand` (R251). -/
def execVexpand (f : VFields) (s : State) : Out := issue (.vexpand f) s
/-- `vperm` (R252). -/
def execVperm (f : VFields) (s : State) : Out := issue (.vperm f) s
/-- `vpush` (R253). -/
def execVpush (f : VFields) (s : State) : Out := issue (.vpush f) s
/-- `vslideup` (R254). -/
def execVslideup (f : VFields) (s : State) : Out := issue (.vslideup f) s
/-- `vslidedn` (R254). -/
def execVslidedn (f : VFields) (s : State) : Out := issue (.vslidedn f) s
/-- `vrev` (R254). -/
def execVrev (f : VFields) (s : State) : Out := issue (.vrev f) s
/-- `vzip` (R254). -/
def execVzip (f : VFields) (s : State) : Out := issue (.vzip f) s
/-- `vunzip` (R254). -/
def execVunzip (f : VFields) (s : State) : Out := issue (.vunzip f) s
/-- `vredsum` (R255). -/
def execVredsum (f : VFields) (s : State) : Out := issue (.vredsum f) s
/-- `vfredsum` (R256). -/
def execVfredsum (f : VFields) (s : State) : Out := issue (.vfredsum f) s
/-- `vredmin` (R255). -/
def execVredmin (f : VFields) (s : State) : Out := issue (.vredmin f) s
/-- `vredmax` (R255). -/
def execVredmax (f : VFields) (s : State) : Out := issue (.vredmax f) s
/-- `vpopc` (R257). -/
def execVpopc (f : VFields) (s : State) : Out := issue (.vpopc f) s
/-- `vfirst` (R257). -/
def execVfirst (f : VFields) (s : State) : Out := issue (.vfirst f) s
/-- `vpand` (R258). -/
def execVpand (f : VFields) (s : State) : Out := issue (.vpand f) s
/-- `vpor` (R258). -/
def execVpor (f : VFields) (s : State) : Out := issue (.vpor f) s
/-- `vpxor` (R258). -/
def execVpxor (f : VFields) (s : State) : Out := issue (.vpxor f) s
/-- `vpnot` (R258). -/
def execVpnot (f : VFields) (s : State) : Out := issue (.vpnot f) s
/-- `vpset` (R258). -/
def execVpset (f : VFields) (s : State) : Out := issue (.vpset f) s

end Sys2Proof.Machine
end

