-- ==== Sys2Proof/Machine/VSortIssue.lean ====
section
/-! DEFINITION. The vector sort group instructions as steps of their own: each is issued alone, as the convoy that holds only
it (17_instructions_runs_sort_and_engines.md R297; notes/assumptions/15.md). -/

namespace Sys2Proof.Machine

open Sys2Proof

/-- `vsort` (R297). -/
def execVsort (f : VFields) (s : State) : Out := issue (.vsort f) s
/-- `vsortk` (R297). -/
def execVsortk (f : VFields) (s : State) : Out := issue (.vsortk f) s
/-- `vmrg` (R297). -/
def execVmrg (f : VFields) (s : State) : Out := issue (.vmrg f) s
/-- `vsegred` (R297). -/
def execVsegred (f : VFields) (s : State) : Out := issue (.vsegred f) s
/-- `vuniq` (R297). -/
def execVuniq (f : VFields) (s : State) : Out := issue (.vuniq f) s
/-- `vtag` (R297). -/
def execVtag (f : VFields) (s : State) : Out := issue (.vtag f) s
/-- `vsplit` (R297). -/
def execVsplit (f : VFields) (s : State) : Out := issue (.vsplit f) s
/-- `vsrch` (R297). -/
def execVsrch (f : VFields) (s : State) : Out := issue (.vsrch f) s

end Sys2Proof.Machine
end

