-- ==== Sys2Proof/Machine/Dispatch.lean ====
section
/-! DEFINITION. One arm for each constructor of `Instr`: the direct call of its meaning. -/

namespace Sys2Proof.Machine

open Sys2Proof

def exec (i : Instr) (s : State) : Host.Outcome State Fault Refusal :=
  match i with
  | .add d a b => Sys2Proof.Machine.execAdd d a b s
  | .sub d a b => Sys2Proof.Machine.execSub d a b s
  | .mul d a b => Sys2Proof.Machine.execMul d a b s
  | .mulh d a b => Sys2Proof.Machine.execMulh d a b s
  | .mulhn d a b => Sys2Proof.Machine.execMulhn d a b s
  | .div d a b => Sys2Proof.Machine.execDiv d a b s
  | .divn d a b => Sys2Proof.Machine.execDivn d a b s
  | .rem d a b => Sys2Proof.Machine.execRem d a b s
  | .remn d a b => Sys2Proof.Machine.execRemn d a b s
  | .and d a b => Sys2Proof.Machine.execAnd d a b s
  | .or d a b => Sys2Proof.Machine.execOr d a b s
  | .xor d a b => Sys2Proof.Machine.execXor d a b s
  | .andn d a b => Sys2Proof.Machine.execAndn d a b s
  | .shl d a b => Sys2Proof.Machine.execShl d a b s
  | .shr d a b => Sys2Proof.Machine.execShr d a b s
  | .sha d a b => Sys2Proof.Machine.execSha d a b s
  | .min d a b => Sys2Proof.Machine.execMin d a b s
  | .max d a b => Sys2Proof.Machine.execMax d a b s
  | .minn d a b => Sys2Proof.Machine.execMinn d a b s
  | .maxn d a b => Sys2Proof.Machine.execMaxn d a b s
  | .clz d a => Sys2Proof.Machine.execClz d a s
  | .ctz d a => Sys2Proof.Machine.execCtz d a s
  | .popc d a => Sys2Proof.Machine.execPopc d a s
  | .addi d a imm => Sys2Proof.Machine.execAddi d a imm s
  | .andi d a imm => Sys2Proof.Machine.execAndi d a imm s
  | .ori d a imm => Sys2Proof.Machine.execOri d a imm s
  | .xori d a imm => Sys2Proof.Machine.execXori d a imm s
  | .shli d a imm => Sys2Proof.Machine.execShli d a imm s
  | .shri d a imm => Sys2Proof.Machine.execShri d a imm s
  | .shai d a imm => Sys2Proof.Machine.execShai d a imm s
  | .lui d imm => Sys2Proof.Machine.execLui d imm s
  | .li d imm => Sys2Proof.Machine.execLi d imm s
  | .liLong d imm => Sys2Proof.Machine.execLiLong d imm s
  | .luiLong d imm => Sys2Proof.Machine.execLuiLong d imm s
  | .addiLong d imm => Sys2Proof.Machine.execAddiLong d imm s
  | .cmp c p a b => Sys2Proof.Machine.execCmp c p a b s
  | .cmpi c p a imm => Sys2Proof.Machine.execCmpi c p a imm s
  | .pand d a b => Sys2Proof.Machine.execPand d a b s
  | .por d a b => Sys2Proof.Machine.execPor d a b s
  | .pxor d a b => Sys2Proof.Machine.execPxor d a b s
  | .pnot d a => Sys2Proof.Machine.execPnot d a s
  | .pmov d a => Sys2Proof.Machine.execPmov d a s
  | .pall d a => Sys2Proof.Machine.execPall d a s
  | .pany d a => Sys2Proof.Machine.execPany d a s
  | .br off => Sys2Proof.Machine.execBr off s
  | .bp p neg off => Sys2Proof.Machine.execBp p neg off s
  | .call off => Sys2Proof.Machine.execCall off s
  | .ret a => Sys2Proof.Machine.execRet a s
  | .jr d a => Sys2Proof.Machine.execJr d a s
  | .loopn d a imm => Sys2Proof.Machine.execLoopn d a imm s
  | .loope p => Sys2Proof.Machine.execLoope p s
  | .nop => Sys2Proof.Machine.execNop s
  | .lds d a sz sx imm => Sys2Proof.Machine.execLds d a sz sx imm s
  | .sts d a sz imm => Sys2Proof.Machine.execSts d a sz imm s
  | .ldc d a sz sx imm => Sys2Proof.Machine.execLdc d a sz sx imm s
  | .stc d a sz imm => Sys2Proof.Machine.execStc d a sz imm s
  | .amo op dbl rel acq d a b => Sys2Proof.Machine.execAmo op dbl rel acq d a b s
  | .cas dbl rel acq d a b => Sys2Proof.Machine.execCas dbl rel acq d a b s
  | .rel => Sys2Proof.Machine.execRel s
  | .acq a => Sys2Proof.Machine.execAcq a s
  | .acqPartition => Sys2Proof.Machine.execAcqPartition s
  | .acqG a => Sys2Proof.Machine.execAcqG a s
  | .fenceSv => Sys2Proof.Machine.execFenceSv s
  | .fenceVs => Sys2Proof.Machine.execFenceVs s
  | .fenceVv => Sys2Proof.Machine.execFenceVv s
  | .fenceR common a b => Sys2Proof.Machine.execFenceR common a b s
  | .sbar mask => Sys2Proof.Machine.execSbar mask s
  | .wfe d => Sys2Proof.Machine.execWfe d s
  | .wfeWatch d a b => Sys2Proof.Machine.execWfeWatch d a b s
  | .trap code => Sys2Proof.Machine.execTrap code s
  | .tret => Sys2Proof.Machine.execTret s
  | .uret => Sys2Proof.Machine.execUret s
  | .csrr d csr => Sys2Proof.Machine.execCsrr d csr s
  | .csrw d a csr => Sys2Proof.Machine.execCsrw d a csr s
  | .csrs d a csr => Sys2Proof.Machine.execCsrs d a csr s
  | .csrc d a csr => Sys2Proof.Machine.execCsrc d a csr s
  | .yield d => Sys2Proof.Machine.execYield d s
  | .vsaveq d a => Sys2Proof.Machine.execVsaveq d a s
  | .vrestq d a => Sys2Proof.Machine.execVrestq d a s
  | .pdrain d a => Sys2Proof.Machine.execPdrain d a s
  | .pdrainGo d a => Sys2Proof.Machine.execPdrainGo d a s
  | .preset a => Sys2Proof.Machine.execPreset a s
  | .rnew d a named die => Sys2Proof.Machine.execRnew d a named die s
  | .rseal d a => Sys2Proof.Machine.execRseal d a s
  | .rfork d a => Sys2Proof.Machine.execRfork d a s
  | .rdrop a => Sys2Proof.Machine.execRdrop a s
  | .rinfo d a k => Sys2Proof.Machine.execRinfo d a k s
  | .rinfoStream d n k => Sys2Proof.Machine.execRinfoStream d n k s
  | .ropenR e a b n => Sys2Proof.Machine.execRopenR e a b n s
  | .ropenA a n => Sys2Proof.Machine.execRopenA a n s
  | .rclose n => Sys2Proof.Machine.execRclose n s
  | .sortr d a cb kw tl => Sys2Proof.Machine.execSortr d a cb kw tl s
  | .mrgr d a b cb kw tl => Sys2Proof.Machine.execMrgr d a b cb kw tl s
  | .joinr d a b mode kw tl => Sys2Proof.Machine.execJoinr d a b mode kw tl s
  | .cpy a tl => Sys2Proof.Machine.execCpy a tl s
  | .enqw d a b tl => Sys2Proof.Machine.execEnqw d a b tl s
  | .rmig d a b tier tl => Sys2Proof.Machine.execRmig d a b tier tl s
  | .stage a tl => Sys2Proof.Machine.execStage a tl s
  | .tlwait a tl => Sys2Proof.Machine.execTlwait a tl s
  | .tlwaitEv a tl => Sys2Proof.Machine.execTlwaitEv a tl s
  | .tlget d clr word tl => Sys2Proof.Machine.execTlget d clr word tl s
  | .tlnotify a stl tl => Sys2Proof.Machine.execTlnotify a stl tl s
  | .barinit a b n => Sys2Proof.Machine.execBarinit a b n s
  | .bararr d n => Sys2Proof.Machine.execBararr d n s
  | .barwait a n => Sys2Proof.Machine.execBarwait a n s
  | .baradd a n => Sys2Proof.Machine.execBaradd a n s
  | .coll a tl => Sys2Proof.Machine.execColl a tl s
  | .panel d a b => Sys2Proof.Machine.execPanel d a b s
  | .spawn d a => Sys2Proof.Machine.execSpawn d a s
  | .join d a => Sys2Proof.Machine.execJoin d a s
  | .tdone => Sys2Proof.Machine.execTdone s
  | .wmset n => Sys2Proof.Machine.execWmset n s
  | .wmwait d a b => Sys2Proof.Machine.execWmwait d a b s
  | .ctkill d a => Sys2Proof.Machine.execCtkill d a s
  | .vsetvl d a mask => Sys2Proof.Machine.execVsetvl d a mask s
  | .vsetf d rsz gap ty => Sys2Proof.Machine.execVsetf d rsz gap ty s
  | .vsetg d grp => Sys2Proof.Machine.execVsetg d grp s
  | .lift a imm => Sys2Proof.Machine.execLift a imm s
  | .lend => Sys2Proof.Machine.execLend s
  | .lidx d k => Sys2Proof.Machine.execLidx d k s
  | .lred d a op => Sys2Proof.Machine.execLred d a op s
  | .lpick d a b => Sys2Proof.Machine.execLpick d a b s
  | .ltag d file r => Sys2Proof.Machine.execLtag d file r s
  | .lact p => Sys2Proof.Machine.execLact p s
  | .convoyHeader h words => Sys2Proof.Machine.execConvoyHeader h words s
  | .convoyBind core => Sys2Proof.Machine.execConvoyBind core s
  | .vectorRetire ct => Sys2Proof.Machine.execVectorRetire ct s
  | .stripCommit ct => Sys2Proof.Machine.execStripCommit ct s
  | .vld f => Sys2Proof.Machine.execVld f s
  | .vlds f => Sys2Proof.Machine.execVlds f s
  | .vldx f => Sys2Proof.Machine.execVldx f s
  | .vldseg f => Sys2Proof.Machine.execVldseg f s
  | .vst f => Sys2Proof.Machine.execVst f s
  | .vsts f => Sys2Proof.Machine.execVsts f s
  | .vstx f => Sys2Proof.Machine.execVstx f s
  | .vstseg f => Sys2Proof.Machine.execVstseg f s
  | .vldc f => Sys2Proof.Machine.execVldc f s
  | .vstc f => Sys2Proof.Machine.execVstc f s
  | .vspill f => Sys2Proof.Machine.execVspill f s
  | .vfill f => Sys2Proof.Machine.execVfill f s
  | .rld f => Sys2Proof.Machine.execRld f s
  | .rapp f => Sys2Proof.Machine.execRapp f s
  | .vamo f => Sys2Proof.Machine.execVamo f s
  | .vldb f => Sys2Proof.Machine.execVldb f s
  | .vadd f => Sys2Proof.Machine.execVadd f s
  | .vsub f => Sys2Proof.Machine.execVsub f s
  | .vmul f => Sys2Proof.Machine.execVmul f s
  | .vmulh f => Sys2Proof.Machine.execVmulh f s
  | .vmacc f => Sys2Proof.Machine.execVmacc f s
  | .vwmul f => Sys2Proof.Machine.execVwmul f s
  | .vwmacc f => Sys2Proof.Machine.execVwmacc f s
  | .vsadd f => Sys2Proof.Machine.execVsadd f s
  | .vssub f => Sys2Proof.Machine.execVssub f s
  | .vand f => Sys2Proof.Machine.execVand f s
  | .vor f => Sys2Proof.Machine.execVor f s
  | .vxor f => Sys2Proof.Machine.execVxor f s
  | .vshl f => Sys2Proof.Machine.execVshl f s
  | .vshr f => Sys2Proof.Machine.execVshr f s
  | .vsha f => Sys2Proof.Machine.execVsha f s
  | .vnshr f => Sys2Proof.Machine.execVnshr f s
  | .vmin f => Sys2Proof.Machine.execVmin f s
  | .vmax f => Sys2Proof.Machine.execVmax f s
  | .vabs f => Sys2Proof.Machine.execVabs f s
  | .vcmp f => Sys2Proof.Machine.execVcmp f s
  | .vfadd f => Sys2Proof.Machine.execVfadd f s
  | .vfsub f => Sys2Proof.Machine.execVfsub f s
  | .vfmul f => Sys2Proof.Machine.execVfmul f s
  | .vfma f => Sys2Proof.Machine.execVfma f s
  | .vfnma f => Sys2Proof.Machine.execVfnma f s
  | .vfdiv f => Sys2Proof.Machine.execVfdiv f s
  | .vfmin f => Sys2Proof.Machine.execVfmin f s
  | .vfmax f => Sys2Proof.Machine.execVfmax f s
  | .vfabs f => Sys2Proof.Machine.execVfabs f s
  | .vfneg f => Sys2Proof.Machine.execVfneg f s
  | .vfcmp f => Sys2Proof.Machine.execVfcmp f s
  | .vcmpt f => Sys2Proof.Machine.execVcmpt f s
  | .vfsqrt f => Sys2Proof.Machine.execVfsqrt f s
  | .vsfu f => Sys2Proof.Machine.execVsfu f s
  | .vcvt f => Sys2Proof.Machine.execVcvt f s
  | .vrnd f => Sys2Proof.Machine.execVrnd f s
  | .vbscaleGet f => Sys2Proof.Machine.execVbscaleGet f s
  | .vbscaleSet f => Sys2Proof.Machine.execVbscaleSet f s
  | .vbquant f => Sys2Proof.Machine.execVbquant f s
  | .vexpnGet f => Sys2Proof.Machine.execVexpnGet f s
  | .vexpnScl f => Sys2Proof.Machine.execVexpnScl f s
  | .vtailGet f => Sys2Proof.Machine.execVtailGet f s
  | .vtailSet f => Sys2Proof.Machine.execVtailSet f s
  | .vtailClr f => Sys2Proof.Machine.execVtailClr f s
  | .vmv f => Sys2Proof.Machine.execVmv f s
  | .vsel f => Sys2Proof.Machine.execVsel f s
  | .vbcast f => Sys2Proof.Machine.execVbcast f s
  | .vextr f => Sys2Proof.Machine.execVextr f s
  | .vins f => Sys2Proof.Machine.execVins f s
  | .viota f => Sys2Proof.Machine.execViota f s
  | .vcompress f => Sys2Proof.Machine.execVcompress f s
  | .vexpand f => Sys2Proof.Machine.execVexpand f s
  | .vperm f => Sys2Proof.Machine.execVperm f s
  | .vpush f => Sys2Proof.Machine.execVpush f s
  | .vslideup f => Sys2Proof.Machine.execVslideup f s
  | .vslidedn f => Sys2Proof.Machine.execVslidedn f s
  | .vrev f => Sys2Proof.Machine.execVrev f s
  | .vzip f => Sys2Proof.Machine.execVzip f s
  | .vunzip f => Sys2Proof.Machine.execVunzip f s
  | .vredsum f => Sys2Proof.Machine.execVredsum f s
  | .vfredsum f => Sys2Proof.Machine.execVfredsum f s
  | .vredmin f => Sys2Proof.Machine.execVredmin f s
  | .vredmax f => Sys2Proof.Machine.execVredmax f s
  | .vpopc f => Sys2Proof.Machine.execVpopc f s
  | .vfirst f => Sys2Proof.Machine.execVfirst f s
  | .vpand f => Sys2Proof.Machine.execVpand f s
  | .vpor f => Sys2Proof.Machine.execVpor f s
  | .vpxor f => Sys2Proof.Machine.execVpxor f s
  | .vpnot f => Sys2Proof.Machine.execVpnot f s
  | .vpset f => Sys2Proof.Machine.execVpset f s
  | .mld f => Sys2Proof.Machine.execMld f s
  | .mswap f => Sys2Proof.Machine.execMswap f s
  | .mxrO f => Sys2Proof.Machine.execMxrO f s
  | .mxrF f => Sys2Proof.Machine.execMxrF f s
  | .mstat f => Sys2Proof.Machine.execMstat f s
  | .vsort f => Sys2Proof.Machine.execVsort f s
  | .vsortk f => Sys2Proof.Machine.execVsortk f s
  | .vmrg f => Sys2Proof.Machine.execVmrg f s
  | .vsegred f => Sys2Proof.Machine.execVsegred f s
  | .vuniq f => Sys2Proof.Machine.execVuniq f s
  | .vtag f => Sys2Proof.Machine.execVtag f s
  | .vsplit f => Sys2Proof.Machine.execVsplit f s
  | .vsrch f => Sys2Proof.Machine.execVsrch f s
  | .engineCompletion ag tl num peer => Sys2Proof.Machine.execEngineCompletion ag tl num peer s
  | .streamResume ct n => Sys2Proof.Machine.execStreamResume ct n s
  | .hwPublish ct tail => Sys2Proof.Machine.execHwPublish ct tail s
  | .trailAppendResume ct => Sys2Proof.Machine.execTrailAppendResume ct s
  | .compaction trail => Sys2Proof.Machine.execCompaction trail s
  | .notificationArrival ct tl src => Sys2Proof.Machine.execNotificationArrival ct tl src s
  | .userEvent ct => Sys2Proof.Machine.execUserEvent ct s
  | .vectorAsync ct => Sys2Proof.Machine.execVectorAsync ct s
  | .uncorrectableConsumed ag loc => Sys2Proof.Machine.execUncorrectableConsumed ag loc s
  | .selfTestComplete core unit passed retest => Sys2Proof.Machine.execSelfTestComplete core unit passed retest s
  | .watchdog q => Sys2Proof.Machine.execWatchdog q s
  | .preemption ct => Sys2Proof.Machine.execPreemption ct s
  | .contextRestore ct readsBack => Sys2Proof.Machine.execContextRestore ct readsBack s
  | .sqDoorbell q tail => Sys2Proof.Machine.execSqDoorbell q tail s
  | .recordAccept q r cont => Sys2Proof.Machine.execRecordAccept q r cont s
  | .cqHeadWrite q head => Sys2Proof.Machine.execCqHeadWrite q head s
  | .queueEnable q word => Sys2Proof.Machine.execQueueEnable q word s
  | .phseq q hseq => Sys2Proof.Machine.execPhseq q hseq s
  | .launchHead q => Sys2Proof.Machine.execLaunchHead q s
  | .stagingComplete q => Sys2Proof.Machine.execStagingComplete q s
  | .launchBind q => Sys2Proof.Machine.execLaunchBind q s
  | .launchComplete id => Sys2Proof.Machine.execLaunchComplete id s
  | .childBind id => Sys2Proof.Machine.execChildBind id s
  | .meridianPeriod => Sys2Proof.Machine.execMeridianPeriod s
  | .coreMove core => Sys2Proof.Machine.execCoreMove core s
  | .thermalSelfRefresh stack => Sys2Proof.Machine.execThermalSelfRefresh stack s
  | .thermalHold die => Sys2Proof.Machine.execThermalHold die s
  | .selfRefreshExit stack => Sys2Proof.Machine.execSelfRefreshExit stack s
  | .rowActivationThreshold die row => Sys2Proof.Machine.execRowActivationThreshold die row s
  | .powerCapPeriod die temp power => Sys2Proof.Machine.execPowerCapPeriod die temp power s
  | .afterglowDump die cause => Sys2Proof.Machine.execAfterglowDump die cause s
  | .coldReset fw => Sys2Proof.Machine.execColdReset fw s
  | .warmReset fw r => Sys2Proof.Machine.execWarmReset fw r s
  | .attestationRequest die nonce => Sys2Proof.Machine.execAttestationRequest die nonce s
  | .functionLevelReset fn => Sys2Proof.Machine.execFunctionLevelReset fn s
  | .partitionCreate num fn cores desc => Sys2Proof.Machine.execPartitionCreate num fn cores desc s
  | .apertureWrite window off bytes => Sys2Proof.Machine.execApertureWrite window off bytes s
  | .runTableHostWrite fn handle => Sys2Proof.Machine.execRunTableHostWrite fn handle s
  | .poolTimeout frame => Sys2Proof.Machine.execPoolTimeout frame s
  | .lumenFlit port vc seq cargo => Sys2Proof.Machine.execLumenFlit port vc seq cargo s
  | .lumenTimeout at_ chan num => Sys2Proof.Machine.execLumenTimeout at_ chan num s
  | .checkedModeWrite part chk => Sys2Proof.Machine.execCheckedModeWrite part chk s
  | .registerWrite addr value => Sys2Proof.Machine.execRegisterWrite addr value s
  | .wfeWake ag => Sys2Proof.Machine.execWfeWake ag s
  | .migrationRefused ag tl num => Sys2Proof.Machine.execMigrationRefused ag tl num s
  | .lumenLinkDown port => Sys2Proof.Machine.execLumenLinkDown port s
  | .fusedMinimumRaise die => Sys2Proof.Machine.execFusedMinimumRaise die s
  | .measurementExtend die digest => Sys2Proof.Machine.execMeasurementExtend die digest s

end Sys2Proof.Machine
end

