-- ==== Sys2Proof/Machine/Step.lean ====
section
/-! DEFINITION. One step of the package, and the placing of an instruction for the next step. -/

namespace Sys2Proof.Machine

open Sys2Proof

/-- One step: what the schedule names, what moves of its own accord, or the current agent's next instruction. -/
def step (s : State) : Host.Outcome State Fault Refusal := stepWith exec s

/-- The state with an instruction word stored where the current agent fetches next (notes/assumptions/9.md). -/
def State.withFetchWord (s : State) (nbits w : Nat) : State := placeWord s nbits w

end Sys2Proof.Machine
end

