-- ==== Sys2Proof/Safety.lean ====
section
/-! DEFINITION. What counts as a safe step and a safe run, and the conditions under which an instruction runs undisturbed,
in the terms claims use. -/

namespace Sys2Proof

open Sys2Proof.Machine

/-- A step is safe when the machine goes on: it neither stops with a fault nor meets an instruction with no meaning. -/
def SafeStep (s : State) : Prop := ∃ t, step s = .next t

/-- A run of `n` steps is safe when every one of them is. -/
def SafeRun : Nat → State → Prop
  | 0, _ => True
  | n + 1, s => ∃ t, step s = .next t ∧ SafeRun n t

/-! ### Undisturbed scalar instructions -/

/-- Nothing stands between the current control thread and a scalar instruction that reads and writes the listed registers:
each is declared (R110) and unbatched (R120), no batched-branch region is open (R272), the vector queue is empty, and no
register has an error (R392). -/
structure Clear (s : State) (reads writes : List RegRef) : Prop where
  declared : ∀ q ∈ shapeNumbers s.me { reads := reads, writes := writes }, q.1 < q.2
  tags : ∀ x ∈ reads ++ writes, s.me.refTag x = 0
  regions : s.me.lift.regions = []
  queue : s.me.vq = []
  sound : s.me.regBad = []

/-- Moreover no strip is open or has left ranges to reserve (R220), and nothing waits to enter the trail (R79). -/
structure Quiet (s : State) (reads writes : List RegRef) : Prop extends Clear s reads writes where
  strip : s.me.strip = none
  held : s.me.held = []
  out : s.me.out = []
  marks : s.me.marks = []

/-- The state after an undisturbed instruction of `n` parcels that only changes its control thread, by `f`: the program
counter goes on by R198, and nothing else changes. -/
def settled (s : State) (n : Nat) (f : CT → CT) : State :=
  s.upd (fun c => (f c).proceed n)

/-- The state after an undisturbed instruction that transfers control to an address and changes its control thread by
`f`. -/
def jumped (s : State) (target : W64) (f : CT → CT) : State :=
  s.upd (fun c => (f c).landAt target)

/-- A precise fault of an undisturbed instruction of a user control thread in user mode: the trap entry of R373, with
`tpc` at the instruction; the thread notes that it faulted, so that what comes after the fault stays pending (R374). -/
def trapped (s : State) (cause : Cause) (tval : W64) : State :=
  enterTrap (s.upd (fun c => { c with faulting := true })) s.cur cause.code 0 false none tval s.me.pc

/-! ### The tables of the integer instructions -/

/-- What an integer instruction of Tables 11.1 and 11.3 or of R190 writes: destination, registers read, parcels, value.
The bit counts of Table 11.1 are not among them. -/
def integerResult (c : CT) : Instr → Option (GReg × List RegRef × Nat × W64)
  | .add d a b => some (d, [.g a, .g b], 1, BitVec.ofInt 64 ((c.getG a).toInt + (c.getG b).toInt))
  | .sub d a b => some (d, [.g a, .g b], 1, BitVec.ofInt 64 ((c.getG a).toInt - (c.getG b).toInt))
  | .mul d a b => some (d, [.g a, .g b], 1, BitVec.ofInt 64 ((c.getG a).toInt * (c.getG b).toInt))
  | .mulh d a b => some (d, [.g a, .g b], 1, BitVec.ofInt 64 ((c.getG a).toInt * (c.getG b).toInt / 2 ^ 64))
  | .mulhn d a b => some (d, [.g a, .g b], 1, BitVec.ofNat 64 ((c.getG a).toNat * (c.getG b).toNat / 2 ^ 64))
  | .div d a b => some (d, [.g a, .g b], 1,
      if c.getG b = 0 then BitVec.allOnes 64
      else BitVec.ofInt 64 ((c.getG a).toInt.tdiv (c.getG b).toInt))
  | .rem d a b => some (d, [.g a, .g b], 1, BitVec.ofInt 64 ((c.getG a).toInt.tmod (c.getG b).toInt))
  | .divn d a b => some (d, [.g a, .g b], 1,
      if c.getG b = 0 then BitVec.allOnes 64 else BitVec.ofNat 64 ((c.getG a).toNat / (c.getG b).toNat))
  | .remn d a b => some (d, [.g a, .g b], 1, BitVec.ofNat 64 ((c.getG a).toNat % (c.getG b).toNat))
  | .and d a b => some (d, [.g a, .g b], 1, c.getG a &&& c.getG b)
  | .or d a b => some (d, [.g a, .g b], 1, c.getG a ||| c.getG b)
  | .xor d a b => some (d, [.g a, .g b], 1, c.getG a ^^^ c.getG b)
  | .andn d a b => some (d, [.g a, .g b], 1, c.getG a &&& ~~~c.getG b)
  | .shl d a b => some (d, [.g a, .g b], 1, BitVec.ofNat 64 ((c.getG a).toNat * 2 ^ ((c.getG b).toNat % 64)))
  | .shr d a b => some (d, [.g a, .g b], 1, BitVec.ofNat 64 ((c.getG a).toNat / 2 ^ ((c.getG b).toNat % 64)))
  | .sha d a b => some (d, [.g a, .g b], 1, BitVec.ofInt 64 ((c.getG a).toInt / 2 ^ ((c.getG b).toNat % 64)))
  | .min d a b => some (d, [.g a, .g b], 1, BitVec.ofInt 64 (Min.min (c.getG a).toInt (c.getG b).toInt))
  | .max d a b => some (d, [.g a, .g b], 1, BitVec.ofInt 64 (Max.max (c.getG a).toInt (c.getG b).toInt))
  | .minn d a b => some (d, [.g a, .g b], 1, BitVec.ofNat 64 (Min.min (c.getG a).toNat (c.getG b).toNat))
  | .maxn d a b => some (d, [.g a, .g b], 1, BitVec.ofNat 64 (Max.max (c.getG a).toNat (c.getG b).toNat))
  | .addi d a i => some (d, [.g a], 1, BitVec.ofInt 64 ((c.getG a).toInt + i.toInt))
  | .andi d a i => some (d, [.g a], 1, c.getG a &&& i.signExtend 64)
  | .ori d a i => some (d, [.g a], 1, c.getG a ||| i.signExtend 64)
  | .xori d a i => some (d, [.g a], 1, c.getG a ^^^ i.signExtend 64)
  | .shli d a i => some (d, [.g a], 1, BitVec.ofNat 64 ((c.getG a).toNat * 2 ^ i.toNat))
  | .shri d a i => some (d, [.g a], 1, BitVec.ofNat 64 ((c.getG a).toNat / 2 ^ i.toNat))
  | .shai d a i => some (d, [.g a], 1, BitVec.ofInt 64 ((c.getG a).toInt / 2 ^ i.toNat))
  | .lui d i => some (d, [.g d], 1, BitVec.ofInt 64 (i.toInt * 2 ^ 32 + ((c.getG d).toNat % 2 ^ 32 : Nat)))
  | .li d i => some (d, [], 1, BitVec.ofInt 64 i.toInt)
  | .liLong d i => some (d, [], 2, BitVec.ofInt 64 i.toInt)
  | .luiLong d i => some (d, [.g d], 2, BitVec.ofNat 64 (i.toNat * 2 ^ 32 + (c.getG d).toNat % 2 ^ 32))
  | .addiLong d i => some (d, [.g d], 2, BitVec.ofInt 64 ((c.getG d).toInt + i.toInt))
  | _ => none

/-- A compare condition of R191. -/
def condition (c : Cc) (x y : W64) : Prop := match c with
  | .eq => x = y
  | .ne => x ≠ y
  | .lt => x.toInt < y.toInt
  | .ltn => x.toNat < y.toNat
  | .ge => x.toInt ≥ y.toInt
  | .gen => x.toNat ≥ y.toNat

/-- What a compare or predicate instruction of R191 to R193 writes: destination, registers read, and for each of the
2,048 bits whether it becomes 1. -/
def predicateResult (c : CT) : Instr → Option (PReg × List RegRef × (Nat → Prop))
  | .cmp cc p a b => some (p, [.g a, .g b], fun _ => condition cc (c.getG a) (c.getG b))
  | .cmpi cc p a i => some (p, [.g a], fun _ => condition cc (c.getG a) (i.signExtend 64))
  | .pand d a b => some (d, [.p a, .p b], fun k => (c.getP a).getLsbD k = true ∧ (c.getP b).getLsbD k = true)
  | .por d a b => some (d, [.p a, .p b], fun k => (c.getP a).getLsbD k = true ∨ (c.getP b).getLsbD k = true)
  | .pxor d a b => some (d, [.p a, .p b], fun k => (c.getP a).getLsbD k ≠ (c.getP b).getLsbD k)
  | .pnot d a => some (d, [.p a], fun k => (c.getP a).getLsbD k = false)
  | .pmov d a => some (d, [.p a], fun k => (c.getP a).getLsbD k = true)
  | .pall d a => some (d, [.p a], fun _ => ∀ j < c.vl, (c.getP a).getLsbD j = true)
  | .pany d a => some (d, [.p a], fun _ => ∃ j < c.vl, (c.getP a).getLsbD j = true)
  | _ => none

/-! ### Memory -/

/-- The poison mark of one byte. -/
def badAt (m : Marks) (a : Nat) : Bool := marked m a 1

/-- No byte of `n` from an address up is marked. -/
def Sound (m : Marks) (a n : Nat) : Prop := ∀ k < n, badAt m (a + k) = false

/-- The marks of a memory after a write of good bytes: none on them, but for bytes with a lasting fault; elsewhere as before
(R393, R398). -/
def Remarked (old stuck new : Marks) (a n : Nat) : Prop :=
  ∀ x, badAt new x = if a ≤ x ∧ x < a + n then badAt stuck x else badAt old x

/-- The thread reads no poisoned byte of common memory from an address up (R393), and none from home on a stopped die, where
its read would stall (R418). -/
def SoundCom (s : State) (ag : Agent) (a n : Nat) : Prop :=
  (∀ k < n, comBad s ag (a + k) = none) ∧ comStalled s ag a n = false

/-- What a load of `n` bytes writes (R202): the bytes in their order, and above them the sign or zeros. -/
def Loaded (x : W64) (sx : Bool) (n : Nat) (byte : Nat → Byte) : Prop :=
  (∀ k < n, x.extractLsb' (8 * k) 8 = byte k) ∧
    ∀ k < 64, 8 * n ≤ k → x.getLsbD k = (sx && x.getLsbD (8 * n - 1))

/-- Byte `k` of a register. -/
def byteOf (x : W64) (k : Nat) : Byte := x.extractLsb' (8 * k) 8

/-- What an atomic of `n` bytes leaves in memory (Table 20.3), of every operation but `fadd`. -/
def amoResult (op : AmoOp) (n old x : Nat) : Option Nat :=
  let w := 8 * n
  let x := x % 2 ^ w
  let signed (u : Nat) : Int := if u < 2 ^ (w - 1) then u else (u : Int) - (2 ^ w : Nat)
  match op with
  | .add => some ((old + x) % 2 ^ w)
  | .and => some (old &&& x)
  | .or => some (old ||| x)
  | .xor => some (old ^^^ x)
  | .min => some (if signed x < signed old then x else old)
  | .max => some (if signed old < signed x then x else old)
  | .minn => some (if x < old then x else old)
  | .maxn => some (if old < x then x else old)
  | .swap => some x
  | .fadd => none

/-- The next scalar access of common memory that may be put off is put off (R329; the model's form of Table 21.5,
notes/assumptions/5.md). -/
def Delays (c : CT) : Prop := c.delay = true ∧ c.slow = none ∧ c.lift.levels = []

/-- The state after an instruction of one parcel that has put an access of `n` bytes at `w` off: its register is written when the
access is performed. -/
def putOffTo (s : State) (d : GReg) (w n : Nat) (k : SlowKind) : State :=
  settled s 1 (fun c => { c with delay := false, slow := some ⟨c.pc, d, w, n, k⟩ })

/-- No byte of an access waits for the compactor (R90): the thread's own trail has no entry to come that covers one, and its
view holds none; nor is one out of reach on a stopped die (R418). -/
def AtHome (s : State) (a n : Nat) : Prop :=
  (∀ j e, s.me.trail.done ≤ j → s.me.trail.entries[j]? = some e → e.kind = EntryKind.data →
    ¬ (e.addr < a + n ∧ a < e.addr + e.bytes.length)) ∧ (∀ k < n, tabGet s.me.view (a + k) = none) ∧
    outOfReach s s.cur a n = false

/-! ### Engine commands -/

/-- What a timeline of a thread must satisfy for a command to be issued on it at once (R102): declared, able to count
further, with fewer than 64 commands in flight; and no acquire marker waits for an earlier vector load (R79). -/
structure Issuable (s : State) (tl : Fin 8) : Prop where
  declared : tl.val < s.me.kernel.ntl
  count : (s.me.tls.get tl).issued < 2 ^ 64 - 1
  flight : s.me.cmds.length < 64
  marks : s.me.marks = []

/-- State `u` is state `s` with a command issued on a timeline (R102, R278): the command takes the next number and stands
last in flight, with nothing done and the formation size at its issue (R59); of runs only the stream count and the ended mark may differ; nothing else changes. -/
structure IssuedAs (s : State) (tl : Fin 8) (kind : CmdKind) (reads writes : List Interval) (u : State) : Prop where
  thread : u.me = { s.me with
    cmds := s.me.cmds ++ [⟨tl, (s.me.tls.get tl).issued + 1, kind, reads, writes, none, Progress.start (s.dies.get (dieOf s.cur)).formB, s.me.pc, none⟩]
    tls := s.me.tls.set tl.val { s.me.tls.get tl with issued := (s.me.tls.get tl).issued + 1 } tl.isLt }
  runs : ∀ k r, tabGet s.runs k = some r → ∃ q, tabGet u.runs k = some q ∧
    q = { r with streams := q.streams, ended := q.ended }
  rest : u = { s with cts := u.cts, runs := u.runs }
  others : ∀ k, k ≠ s.cur → u.ct k = s.ct k

/-! ### Vector instructions issued alone -/

/-- Nothing stands between the current control thread and a vector instruction of form `m` and fields `f`: its bits and
the state make it legal (R419), its registers are declared and unbatched, the queue is empty and not frozen, no
batched-branch region is open, nothing of what came before waits to enter the trail or a run (R79, R210, R220), no register
has an error (R392), no lane or column of the core is to go wrong (R394), and the instruction does not resume partway (R375). -/
structure VQuiet (s : State) (i : Instr) (m : Form) (f : VFields) : Prop where
  user : isUser s.cur = true
  form : formOf i = some m
  fields : fieldsOf i = some f
  bits : bitsOk m f = true
  declared : ∀ q ∈ instrNumbers s.me (lanes s s.cur) ⟨i, m, f, s.me.pc⟩, q.1 < q.2
  types : vtypeOk s.me (lanes s s.cur) ⟨i, m, f, s.me.pc⟩ = true
  tags : ∀ x ∈ singles s.me.vtype s.me.vl (lanes s s.cur) (vecReads m f ++ vecWrites m f), s.me.refTag x = 0
  regions : s.me.lift.regions = []
  queue : s.me.vq = []
  frozen : s.me.frozen = none
  sound : s.me.regBad = []
  out : s.me.out = []
  marks : s.me.marks = []
  held : s.me.held = []
  spill : s.me.spilling = false
  resume : s.me.lift.resume = none
  upset : (s.cores.get (coreOf s.cur)).upset = none

/-- The registers that a vector instruction may change. -/
def written (s : State) (m : Form) (f : VFields) : List RegRef :=
  singles s.me.vtype s.me.vl (lanes s s.cur) (vecWrites m f)

/-- The state that an unbatched vector instruction takes at its push (R121). -/
def pushedCtx (s : State) (i : Instr) (m : Form) (f : VFields) : VCtx :=
  { s.me.pushCtx s.me.pc with
    ga := s.me.getG (Fin.ofNat 32 f.va.toNat)
    gb := s.me.getG (Fin.ofNat 32 f.vb.toNat)
    gc := s.me.getG (Fin.ofNat 32 f.vc.toNat)
    first := firstOf s s.me i
    tags := (singles s.me.vtype s.me.vl (lanes s s.cur) (vecReads m f) ++ written s m f).map (fun r => (r, 0))
    lead := true }

/-- The entry of an unbatched vector instruction as it retires, without its footprints. -/
def alone (s : State) (i : Instr) (m : Form) (f : VFields) : VEntry := ⟨i, pushedCtx s i m f, [], [], none, 0, false, none⟩

/-- The state after a vector instruction that has run to its end and changed only its control thread, by `g`: `vstart` is
cleared, the program counter is left to the convoy, and with the queue empty nothing that loads have read ahead stands (the
model's form, notes/assumptions/13.md). -/
def vdone (s : State) (g : CT → CT) : State := s.upd (fun c => { g c with vstart := 0, early := [] })

/-- Field `e` of `w` bits in the lanes of `n` registers from `r` up, `a` active lanes of each, as one string (R112, R116). -/
def fieldOf (c : CT) (a r n w e : Nat) : Nat := (c.group a r n).pay / 2 ^ (w * e) % 2 ^ w

/-- Whether element `e` is active (R113). -/
def Active (c : CT) (f : VFields) (e : Nat) : Prop :=
  c.vstart.toNat ≤ e ∧ e < c.vl ∧ (c.getP f.pm).getLsbD e ≠ f.pn

/-- Registers outside a list, and everything of a thread that is no register, are the same in both threads. -/
structure OnlyChanges (ws : List RegRef) (c d : CT) : Prop where
  rest : d = { c with v := d.v, p := d.p, g := d.g, fflags := d.fflags }
  v : ∀ r, RegRef.v r .one ∉ ws → d.getV r = c.getV r
  p : ∀ r, RegRef.p r ∉ ws → d.getP r = c.getP r
  g : ∀ r, RegRef.g r ∉ ws → d.getG r = c.getG r

/-- The signed or unsigned value of a pattern of `w` bits. -/
def patternValue (signed : Bool) (w n : Nat) : Int :=
  if signed && decide (2 ^ (w - 1) ≤ n % 2 ^ w) then ((n % 2 ^ w : Nat) : Int) - (2 ^ w : Nat) else ((n % 2 ^ w : Nat) : Int)

/-- A result in `w` bits: modulo 2^w, or clamped to the type's range (R226). -/
def fitted (signed : Bool) (w : Nat) (sat : Bool) (x : Int) : Nat :=
  let lo : Int := if signed then -(2 ^ (w - 1) : Nat) else 0
  let hi : Int := if signed then (2 ^ (w - 1) : Nat) - 1 else (2 ^ w : Nat) - 1
  ((if sat then max lo (min hi x) else x) % (2 ^ w : Nat)).toNat

/-- The exact result of an integer instruction of Table 13.2 whose result is not rounded, from its width, the signedness of
its type, and the values of its sources and its old destination. -/
def vectorInteger : Instr → Option (VFields × (Nat → Bool → Int → Int → Int → Int))
  | .vadd f => some (f, fun _ _ a b _ => a + b)
  | .vsub f => some (f, fun _ _ a b _ => a - b)
  | .vmul f => some (f, fun _ _ a b _ => a * b)
  | .vmacc f => some (f, fun _ _ a b d => d + a * b)
  | .vmin f => some (f, fun _ _ a b _ => min a b)
  | .vmax f => some (f, fun _ _ a b _ => max a b)
  | .vabs f => some (f, fun _ _ a _ _ => if a < 0 then -a else a)
  | .vand f => some (f, fun w _ a b _ => (((a % (2 ^ w : Nat)).toNat &&& (b % (2 ^ w : Nat)).toNat : Nat) : Int))
  | .vor f => some (f, fun w _ a b _ => (((a % (2 ^ w : Nat)).toNat ||| (b % (2 ^ w : Nat)).toNat : Nat) : Int))
  | .vxor f => some (f, fun w _ a b _ => (((a % (2 ^ w : Nat)).toNat ^^^ (b % (2 ^ w : Nat)).toNat : Nat) : Int))
  | .vshl f => some (f, fun w _ a b _ => a * 2 ^ (b % (w : Int)).toNat)
  | .vshr f => some (f, fun w _ a b _ => a % (2 ^ w : Nat) / 2 ^ (b % (w : Int)).toNat)
  | .vsha f => some (f, fun w _ a b _ => patternValue true w (a % (2 ^ w : Nat)).toNat / 2 ^ (b % (w : Int)).toNat)
  | _ => none

/-- Element `e`, with its tail, of an operand of type `t` from register `r` up (R112, R114, R119). -/
def elemOf (c : CT) (a : Nat) (vt : VType) (t : VTy) (r : BitVec 6) (e : Nat) : Elem :=
  let w := elemBits vt (resolveTy vt t)
  (c.group a r.toNat (groupRegs vt w)).elem w e

/-- An element as a register holds it in `w` bits: 4-bit elements and records have no tail (R114, R297). -/
def heldElem (w : Nat) (y : Elem) : Elem := (y.1 % 2 ^ w, if w < 8 ∨ 32 < w then 0 else y.2 % 4)

/-- What a vector instruction of the floating, conversion, permutation and reduction families writes to the registers from vd
up: which elements, and the value of each with its tail, from the thread before it (R232 to R256). None for 6-bit operands and
block types, for the part's own order of a float sum, and for the other instructions. -/
def vectorElement (c : CT) (a : Nat) (x : VCtx) (i : Instr) (f : VFields) : Option ((Nat → Bool) × (Nat → Elem)) :=
  let on := c.isActive f x
  let all := c.isActive f { x with vstart := 0 }
  let acts := (List.range x.vl).filter all
  let first (e : Nat) : Bool := e == 0 && decide (0 < x.vl)
  let w := x.w1 f
  let fm := fmtOf f.t1
  let va := elemOf c a x.vtype f.t1 f.va
  let vb := elemOf c a x.vtype f.t1 f.vb
  let va2 := elemOf c a x.vtype (ty2 f) f.va
  let vb2 := elemOf c a x.vtype (ty2 f) f.vb
  let scalar : Elem := (x.gb.toNat % 2 ^ x.w2 f, 0)
  let a1 (e : Nat) : Machine.Num := match f.smod.toNat with
    | 1 => (ext fm (va e)).negate
    | 2 => (ext fm (va e)).withSign false
    | _ => ext fm (va e)
  let b2 (e : Nat) : Machine.Num := ext (fmtOf (ty2 f)) (if f.fn.toNat / 64 % 4 = 0 then vb2 e else scalar)
  let c3 (e : Nat) : Machine.Num := ext fm (elemOf c a x.vtype f.t1 f.vc e)
  let float (op : Nat → NumRes) : Option ((Nat → Bool) × (Nat → Elem)) := some (on, fun e => (narrowInto fm (op e)).1)
  let move (g : Nat → Elem) : Option ((Nat → Bool) × (Nat → Elem)) := some (all, g)
  let bit (r : BitVec 6) (k e : Nat) : Bool := (c.getP (predNo f r k)).getLsbD e
  let chosen := (List.range x.vl).filter (bit f.vb 6)
  let amount := if f.fn.toNat / 64 % 4 = 1 then x.gb.toNat else f.vb.toNat
  let below (k : Nat) (y : Elem) : Elem := if k < x.vl then y else (0, 0)
  let value (t : VTy) (y : Elem) : Int := patternValue (isSigned t) (elemBits x.vtype t) y.1
  let idx (e : Nat) : Nat := (vb2 e).1
  let pairs (n : Nat) : Elem := if n % 2 = 0 then va (n / 2) else vb (n / 2)
  let joined (n : Nat) : Elem := if n < x.vl then va n else vb (n - x.vl)
  if isF6 f || tyIsBlock f.t1 || tyIsBlock f.t2 then none
  else
    match i with
    | .vfadd _ => float (fun e => numAdd (a1 e) (b2 e))
    | .vfsub _ => float (fun e => numSub (a1 e) (b2 e))
    | .vfmul _ => float (fun e => numMul (a1 e) (b2 e))
    | .vfdiv _ => float (fun e => numDiv (a1 e) (b2 e))
    | .vfma _ => float (fun e => numFma (a1 e) (b2 e) (c3 e))
    | .vfnma _ => float (fun e => numFma (a1 e).negate (b2 e) (c3 e))
    | .vfsqrt _ => float (fun e => numSqrt (a1 e))
    | .vfmin _ => float (fun e => numMinMax false (a1 e) (b2 e))
    | .vfmax _ => float (fun e => numMinMax true (a1 e) (b2 e))
    | .vfabs _ => some (on, fun e => if (ext fm (va e)).isNan then (fm.nanCode, 0) else ((va e).1 % fm.signBit, (va e).2))
    | .vfneg _ => some (on, fun e => if (ext fm (va e)).isNan then (fm.nanCode, 0)
        else if (va e).1 < fm.signBit then ((va e).1 % fm.signBit + fm.signBit, (va e).2)
        else ((va e).1 % fm.signBit, (va e).2))
    | .vsfu _ => float (fun e => sfu (f.fn.toNat % 8) (ext (fmtOf (ty2 f)) (va2 e)))
    | .vcvt _ => some (on, fun e =>
        if f.t1 = ty2 f then va e
        else if isInt (ty2 f) then
          if isInt f.t1 then (fitted (isSigned f.t1) w f.sat (value (ty2 f) (va2 e)), 0)
          else (narrowInto fm (.ofInt (value (ty2 f) (va2 e)), 0)).1
        else if isInt f.t1 then ((numToInt (isSigned f.t1) w (x.mode f) (ext (fmtOf (ty2 f)) (va2 e))).1, 0)
        else (narrowInto fm (ext (fmtOf (ty2 f)) (va2 e), 0)).1)
    | .vrnd _ => some (on, fun e =>
        let n := (narrowInto fm (ext (fmtOf (ty2 f)) (va2 e), 0)).1
        if x.mode f = .keep then n else ((roundFinal fm n.1 n.2 (x.mode f) f.sat).1, 0))
    | .vexpnGet _ => some (on, fun e => (fitted true w f.sat (match ext (fmtOf f.t2) (va2 e) with
        | .fin _ m k => if m = 0 then -(2 ^ (w - 1) : Nat) else (Nat.log2 m : Int) + k
        | _ => (2 ^ (w - 1) : Nat) - 1), 0))
    | .vexpnScl _ => float (fun e => (match ext fm (va e) with
        | .fin s m q => .fin s m (q + value f.t2 (vb2 e))
        | v => v, 0))
    | .vtailGet _ => some (on, fun e => ((va2 e).2, 0))
    | .vtailSet _ => some (on, fun e => match decodeNum fm (va e).1 0 with
        | .fin _ _ _ => ((va e).1, (vb2 e).1 % 4)
        | _ => ((va e).1, 0))
    | .vtailClr _ => some (on, fun e => ((va e).1, 0))
    | .vmv _ => some (on, va)
    | .vsel _ => some (on, fun e => if bit f.vc 5 e then va e
        else if f.fn.toNat / 64 % 4 = 0 then vb e else (x.gb.toNat % 2 ^ w, 0))
    | .vbcast _ => move (fun e =>
        if f.fn.toNat % 4 = 0 then (x.ga.toNat % 2 ^ w, 0)
        else if f.fn.toNat % 4 = 1 then below x.gb.toNat (va x.gb.toNat)
        else va (e / 32))
    | .vins _ => some (fun e => e == x.gb.toNat && decide (e < x.vl), fun _ => (x.ga.toNat % 2 ^ w, 0))
    | .viota _ => move (fun e => (((List.range e).filter (fun k => all k && bit f.va 7 k)).length % 2 ^ w, 0))
    | .vcompress _ => some (fun e => decide (e < chosen.length), fun e => va (chosen.getD e 0))
    | .vexpand _ => some (fun e => chosen.contains e, fun e => va ((List.range e).filter (bit f.vb 6)).length)
    | .vperm _ => move (fun e => below (idx e) (va (idx e)))
    | .vpush _ => some (fun k => decide (k < x.vl) && acts.any (fun e => idx e == k),
        fun k => va ((acts.filter (fun e => idx e = k)).getLastD 0))
    | .vslideup _ => some (fun e => all e && decide (amount ≤ e), fun e => va (e - amount))
    | .vslidedn _ => move (fun e => below (e + amount) (va (e + amount)))
    | .vrev _ => move (fun e => va (x.vl - 1 - e))
    | .vzip _ => move (fun e => pairs (if f.fn.getLsbD 0 then x.vl + e else e))
    | .vunzip _ => move (fun e => joined (if f.fn.getLsbD 0 then 2 * e + 1 else 2 * e))
    | .vredsum _ => some (first, fun _ => (fitted (isSigned f.t1) w f.sat
        (value f.t1 (vb 0) + (acts.map (fun e => patternValue (isSigned f.t1) (x.w2 f) (va2 e).1)).sum), 0))
    | .vredmin _ => some (first, fun _ => if isFloat f.t1 then (narrowInto fm (foldMinMax false ((vb 0 :: acts.map va).map (ext fm)))).1
        else (((acts.map (fun e => value f.t1 (va e))).foldl min (value f.t1 (vb 0)) % (2 ^ w : Nat)).toNat, 0))
    | .vredmax _ => some (first, fun _ => if isFloat f.t1 then (narrowInto fm (foldMinMax true ((vb 0 :: acts.map va).map (ext fm)))).1
        else (((acts.map (fun e => value f.t1 (va e))).foldl max (value f.t1 (vb 0)) % (2 ^ w : Nat)).toNat, 0))
    | .vfredsum _ => if f.fn.getLsbD 0 then none
        else some (first, fun _ => acts.foldl (fun q e => (narrowInto fm (numAdd (ext fm q) (ext (fmtOf (ty2 f)) (va2 e)))).1)
          (narrowInto fm (ext fm (vb 0), 0)).1)
    | _ => none

/-- What a vector instruction that compares or combines predicates writes to the active bits of the predicate that vd names (R231,
R235, R258). -/
def vectorBit (c : CT) (a : Nat) (x : VCtx) (i : Instr) (f : VFields) : Option (Nat → Bool) :=
  let bit (r : BitVec 6) (k e : Nat) : Bool := (c.getP (predNo f r k)).getLsbD e
  let w := x.w1 f
  let wide (e : Nat) : Nat := fieldOf c a f.va.toNat (groupRegs x.vtype (2 * w)) (2 * w) e
  let va (e : Nat) : Nat := if f.smod = 5 then wide e / 2 ^ w else if f.smod = 6 then wide e % 2 ^ w
    else (elemOf c a x.vtype f.t1 f.va e).1
  let vb (e : Nat) : Nat := (elemOf c a x.vtype f.t1 f.vb e).1
  let cc := f.fn.toNat % 8
  match i with
  | .vpand _ => some (fun e => bit f.va 7 e && bit f.vb 6 e)
  | .vpor _ => some (fun e => bit f.va 7 e || bit f.vb 6 e)
  | .vpxor _ => some (fun e => bit f.va 7 e != bit f.vb 6 e)
  | .vpnot _ => some (fun e => !bit f.va 7 e)
  | .vpset _ => some (fun e => decide (e < x.ga.toNat))
  | .vcmp _ => some (fun e =>
      if cc = 0 then va e == vb e
      else if cc = 1 then va e != vb e
      else if cc = 2 then decide (patternValue true w (va e) < patternValue true w (vb e))
      else if cc = 3 then decide (va e < vb e)
      else if cc = 4 then decide (patternValue true w (va e) ≥ patternValue true w (vb e))
      else decide (va e ≥ vb e))
  | .vfcmp _ => some (fun e => cmpNum cc
      (storedValue (fmtOf f.t1) (signMod f (fmtOf f.t1) (elemOf c a x.vtype f.t1 f.va e)) (x.mode f))
      (storedValue (fmtOf (ty2 f)) (elemOf c a x.vtype (ty2 f) f.vb e) (x.mode f)))
  | _ => none

/-- What a vector instruction with a scalar result writes to the register that vd names (R249, R257). -/
def vectorScalar (c : CT) (a : Nat) (x : VCtx) (i : Instr) (f : VFields) : Option W64 :=
  let marks := (List.range x.vl).filter (fun e => c.isActive f { x with vstart := 0 } e && (c.getP (predNo f f.va 7)).getLsbD e)
  match i with
  | .vpopc _ => some (w64 marks.length)
  | .vfirst _ => some ((marks.head?.map w64).getD (BitVec.allOnes 64))
  | .vextr _ =>
    let q := elemOf c a x.vtype f.t1 f.va x.gb.toNat
    some (if x.vl ≤ x.gb.toNat then 0
      else if isFloat f.t1 then w64 (roundFinal (fmtOf f.t1) q.1 q.2 (x.mode f) f.sat).1
      else BitVec.ofInt 64 (patternValue (isSigned f.t1) (x.w1 f) q.1))
  | _ => none

/-- Bytes written from addresses up, one write after another. -/
def storeAll (m : Mem) (ws : List (Nat × List Byte)) : Mem := ws.foldl (fun m q => memWrite m q.1 q.2) m

/-- An element that a store writes, or field `k` of one: its address and bytes, and the flags of its rounding (R214). -/
def storedAt (c : CT) (a : Nat) (m : VForm) (f : VFields) (x : VCtx) (e k : Nat) : (Nat × List Byte) × Flags :=
  let es := elemBytes x (x.ty1 f)
  let fd := if m = .indexed then { f with t2 := VTy.none } else f
  let wr := elemBits x.vtype (resolveTy x.vtype (ty2 fd))
  let n := groupRegs x.vtype wr
  let r := storedElem fd x ((c.group a (f.vd.toNat + k * n) n).elem wr e)
  (((elemAddr m f x es e k (if m = .indexed then indexAt c a f x e else 0)).toNat, leBytes es r.1), r.2)

/-- The 6-bit field that a store of fields writes for an element, with its flags (R129, R131, R214). -/
def storedField (c : CT) (a : Nat) (f : VFields) (x : VCtx) (e : Nat) : Nat × Flags :=
  let q := elemOf c a x.vtype (ty2 f) f.vd e
  let v := ext (fmtOf (resolveTy x.vtype (ty2 f))) q
  let to_ := fmtOf (x.ty1 f)
  let v := if f.t2 = .none then v else ext to_ (narrowInto to_ (v, 0)).1
  let n := narrowTail (f6Fmt f) v
  let r := roundFinal (f6Fmt f) n.code n.tail (x.mode f) f.sat
  (r.1, n.flags ||| r.2)

/-- What a vector store writes, in ascending order of its elements, words or blocks, and the flags that it raises (R214, R215,
R218): each active element at its address; each word that holds an active 6-bit field, the other fields kept; each block with its
scale bytes first; or a register's image. -/
def storeWrites (c : CT) (a : Nat) (acc : VAccess) (f : VFields) (x : VCtx) : List (Nat × List Byte) × Flags :=
  let t := x.ty1 f
  let acts := c.actives f x
  let all (qs : List ((Nat × List Byte) × Flags)) := (qs.map (·.1), qs.foldl (fun fl q => fl ||| q.2) 0)
  match acc.form.resolved t with
  | .image => ([((vBase f x).toNat, vImage a (c.getV f.vd.toNat))], 0)
  | .blocks =>
    let g := c.group a f.vd.toNat (groupRegs x.vtype (elemBits x.vtype t))
    ((movedBlocks x).map (fun b => ((vBase f x + w64 (b * blockBytes t)).toNat,
      leBytes (if t = .mx4 then 1 else 2) ((g.scales t b).1 + 256 * (g.scales t b).2) ++
        leBytes (4 * blockLanes t) (g.pay / 2 ^ (32 * blockLanes t * b) % 2 ^ (32 * blockLanes t)))), 0)
  | .fields6 =>
    let words := (List.range (x.vl / 5 + 1)).filter (fun k => acts.any (fun e => e / 5 == k))
    (words.map (fun k =>
      let p := (vBase f x + w64 (4 * k)).toNat
      let old := leNat ((List.range 4).map (fun j => memGet c.loc (p + j)))
      (p, leBytes 4 ((List.range 5).map (fun j => (if acts.contains (5 * k + j) then (storedField c a f x (5 * k + j)).1 % 64
        else old / 64 ^ j % 64) * 64 ^ j)).sum)), acts.foldl (fun fl e => fl ||| (storedField c a f x e).2) 0)
  | .segment => all (acts.flatMap (fun e => (List.range (segFields f)).map (storedAt c a .segment f x e)))
  | m => all (acts.map (fun e => storedAt c a m f x e 0))

/-- The marks of a memory after writes of good bytes (R393, R398). -/
def StoredOver (old stuck new : Marks) (ws : List (Nat × List Byte)) : Prop :=
  ∀ x, badAt new x = if ∃ q ∈ ws, q.1 ≤ x ∧ x < q.1 + q.2.length then badAt stuck x else badAt old x

/-- The control thread after entries have been appended to its trail one by one, the first of them that finds no room and
the later ones left to wait, the trail published with all that an earlier `rel` has still to publish (R79); bytes that come to lie
at a place of the trail's ring with a lasting fault are poisoned (R398). -/
def appended (s : State) (es : List Entry) (c : CT) : CT :=
  let q := fitEntries (trailSize s s.cur - trailUsed s.me.trail) es
  let d := c.appended (trailSize s s.cur) q.1
  { d with
    trail := { d.trail with pub := if q.2 = [] then c.trail.pub else d.trail.entries.length }
    owed := if q.2 = [] then c.owed else 0
    out := q.2 }

/-! ### Steps -/

/-- The scalar pipe of the current thread of `u` is what moves next at `s`: the schedule names its thread, or names nothing
no dump is being written and nothing moves of its own accord; its die has not stopped, it is running or waiting, no vector fault is to be taken, and
nothing is to enter the trail, to be committed or to be reserved first (R79, R210, R220, R374, R418): ranges held from a failed
commit wait while their fault stands or is handled. -/
structure PipeMoves (s u : State) : Prop where
  next : (∃ ag rest, s.sched = .run ag :: rest ∧ u = { s with sched := rest, cur := ag }) ∨
    (s.sched = [] ∧ dumpingDie s = none ∧ autoEvent s = none ∧ u = s)
  die : (u.dies.get (dieOf u.cur)).stopped = false
  status : u.me.status = .running ∨ u.me.status = .waiting
  first : firstEvent u = none
  out : u.me.out = []
  marks : u.me.marks = []
  spill : u.me.spilling = false
  held : u.me.held = [] ∨ (u.me.inTrap = true ∨ u.me.frozen ≠ none) ∧
    ∀ st, u.me.strip = some st → bufLocal st.writes ≤ Config.stripLocalCap

/-- Every memory of the part stands in its canonical form: local windows, saved ones, home common memory, tier-0 frames,
the pool and the supervisor code runs. -/
structure CanonicalMemory (s : State) : Prop where
  windows : ∀ ag, Memory.wf (s.ct ag).loc = true
  images : ∀ e ∈ s.images, Memory.wf e.2.ctx.loc = true
  home : ∀ p q, s.parts.get p = some q → Memory.wf q.home = true
  frames : ∀ e ∈ s.frames, Memory.wf e.2.data = true
  pool : Memory.wf s.pool = true
  code : ∀ d, Memory.wf (s.dies.get d).supCode = true

end Sys2Proof
end

