-- ==== Sys2Proof/Certificates/Slice0/Obligations.lean ====
section
/-! DEFINITION. What is claimed of the model, one statement after another, each formalising the rules it cites. -/

open Sys2Proof Sys2Proof.Machine

/-! ### Integer and predicate instructions -/

/-- Tables 11.1 and 11.3 and R187 to R190: every integer instruction writes its value to its destination and changes
nothing else but the program counter; a destination of g0 takes nothing. -/
def Obligations.IntegerResults : Prop :=
  ∀ (s : State) (i : Instr) (d : GReg) (reads : List RegRef) (n : Nat) (w : W64),
    integerResult s.me i = some (d, reads, n, w) → Quiet s reads [.g d] →
      exec i s = .next (settled s n (fun c => c.setG d w))

/-- Table 11.1: `clz`, `ctz` and `popc` count leading zeros, trailing zeros (64 for 0) and one bits. -/
def Obligations.BitCounts : Prop :=
  ∀ (s : State) (d a : GReg), Quiet s [.g a] [.g d] →
    (∃ k ≤ 64, exec (.clz d a) s = .next (settled s 1 (fun c => c.setG d (w64 k))) ∧
      (∀ j < k, (s.me.getG a).getLsbD (63 - j) = false) ∧ (k < 64 → (s.me.getG a).getLsbD (63 - k) = true)) ∧
    (∃ k ≤ 64, exec (.ctz d a) s = .next (settled s 1 (fun c => c.setG d (w64 k))) ∧
      (∀ j < k, (s.me.getG a).getLsbD j = false) ∧ (k < 64 → (s.me.getG a).getLsbD k = true)) ∧
    exec (.popc d a) s = .next (settled s 1 (fun c =>
      c.setG d (w64 ((List.range 64).map (fun j => b2n ((s.me.getG a).getLsbD j))).sum)))

/-- R191 to R193: compares and predicate instructions write all 2,048 bits of their destination by their condition, and
change nothing else but the program counter. -/
def Obligations.PredicateResults : Prop :=
  ∀ (s : State) (i : Instr) (d : PReg) (reads : List RegRef) (bits : Nat → Prop),
    predicateResult s.me i = some (d, reads, bits) → Quiet s reads [.p d] →
      ∃ v : PBits, (∀ k < 2048, v.getLsbD k = true ↔ bits k) ∧
        exec i s = .next (settled s 1 (fun c => c.setP d v))

/-! ### Control flow -/

/-- R194 to R196: `br`, `bp`, `call`, `ret`, `jr` and `nop` go where the rules say, `call` and `jr` write the address
after them, and nothing else changes. -/
def Obligations.BranchResults : Prop :=
  ∀ (s : State),
    (∀ off : BitVec 25, Quiet s [] [] →
      let t := s.me.pc + BitVec.ofInt 64 (4 * off.toInt)
      t.toNat < codeBytes s s.cur → exec (.br off) s = .next (jumped s t id)) ∧
    (∀ (p : PReg) (neg : Bool) (off : BitVec 17), Quiet s [.p p] [] →
      let t := s.me.pc + BitVec.ofInt 64 (4 * off.toInt)
      ((s.me.getP p).getLsbD 0 ≠ neg → t.toNat < codeBytes s s.cur → exec (.bp p neg off) s = .next (jumped s t id)) ∧
      ((s.me.getP p).getLsbD 0 = neg → exec (.bp p neg off) s = .next (settled s 1 id))) ∧
    (∀ off : BitVec 25, Quiet s [] [.g 1] →
      let t := s.me.pc + BitVec.ofInt 64 (4 * off.toInt)
      t.toNat < codeBytes s s.cur →
        exec (.call off) s = .next (jumped s t (fun c => c.setG 1 (s.me.pc + 4)))) ∧
    (∀ a : GReg, Quiet s [.g a] [] → (s.me.getG a).toNat % 4 = 0 → (s.me.getG a).toNat < codeBytes s s.cur →
      exec (.ret a) s = .next (jumped s (s.me.getG a) id)) ∧
    (∀ d a : GReg, Quiet s [.g a] [.g d] → (s.me.getG a).toNat % 4 = 0 → (s.me.getG a).toNat < codeBytes s s.cur →
      exec (.jr d a) s = .next (jumped s (s.me.getG a) (fun c => c.setG d (s.me.pc + 4)))) ∧
    (Quiet s [] [] → exec .nop s = .next (settled s 1 id)) ∧ decode [0x5E000000] = .ok (.nop, 1)

/-- R195 and R171: a transfer in user mode, a `bp` that is taken among them, whose target lies at or beyond the code run's
length raises RUN_RANGE, one through a register that is not a multiple of 4 raises MISALIGN first, each with `tpc` at the
branch and no register of the instruction written. -/
def Obligations.BranchTraps : Prop :=
  ∀ (s : State), isUser s.cur = true → s.me.sup = false →
    (∀ off : BitVec 25, Quiet s [] [] →
      let t := s.me.pc + BitVec.ofInt 64 (4 * off.toInt)
      codeBytes s s.cur ≤ t.toNat → exec (.br off) s =
        .next (trapped s .runRange (runFaultWord s.me.kernel.code (t.toNat / 4) 0 0))) ∧
    (∀ (p : PReg) (neg : Bool) (off : BitVec 17), Quiet s [.p p] [] → (s.me.getP p).getLsbD 0 ≠ neg →
      let t := s.me.pc + BitVec.ofInt 64 (4 * off.toInt)
      codeBytes s s.cur ≤ t.toNat → exec (.bp p neg off) s =
        .next (trapped s .runRange (runFaultWord s.me.kernel.code (t.toNat / 4) 0 0))) ∧
    (∀ a : GReg, Quiet s [.g a] [] →
      ((s.me.getG a).toNat % 4 ≠ 0 → exec (.ret a) s = .next (trapped s .misalign (s.me.getG a))) ∧
      ((s.me.getG a).toNat % 4 = 0 → codeBytes s s.cur ≤ (s.me.getG a).toNat → exec (.ret a) s =
        .next (trapped s .runRange (runFaultWord s.me.kernel.code ((s.me.getG a).toNat / 4) 0 0)))) ∧
    (∀ off : BitVec 25, Quiet s [] [.g 1] →
      let t := s.me.pc + BitVec.ofInt 64 (4 * off.toInt)
      codeBytes s s.cur ≤ t.toNat → exec (.call off) s =
        .next (trapped s .runRange (runFaultWord s.me.kernel.code (t.toNat / 4) 0 0))) ∧
    (∀ d a : GReg, Quiet s [.g a] [.g d] →
      ((s.me.getG a).toNat % 4 ≠ 0 → exec (.jr d a) s = .next (trapped s .misalign (s.me.getG a))) ∧
      ((s.me.getG a).toNat % 4 = 0 → codeBytes s s.cur ≤ (s.me.getG a).toNat → exec (.jr d a) s =
        .next (trapped s .runRange (runFaultWord s.me.kernel.code ((s.me.getG a).toNat / 4) 0 0))))

/-! ### Loop nests -/

/-- R197 and R199: `loopn` opens a level with its count, start, end and index register, or passes beyond the end for a
count of 0, and clears gd either way; an end that is not ahead, or beyond the innermost open level's, raises ILLEGAL, and a
seventh level RESOURCE; `loope` leaves the innermost level when its predicate holds, and does nothing
otherwise or with no level open. -/
def Obligations.LoopResults : Prop :=
  ∀ (s : State),
    (∀ (d a : GReg) (i : BitVec 15), Quiet s [.g a] [.g d] → isUser s.cur = true → s.me.sup = false →
      let stop := s.me.pc + BitVec.ofInt 64 (4 * i.toInt)
      let past := ∃ l ∈ s.me.loops.head?, l.stop.toNat < stop.toNat
      (i.toInt ≤ 0 ∨ past → exec (.loopn d a i) s = .next (trapped s .illegal s.me.pc)) ∧
      (0 < i.toInt → ¬ past → s.me.getG a ≠ 0 → 6 ≤ s.me.loops.length →
        ∃ n, exec (.loopn d a i) s = .next (trapped s .resource n))) ∧
    (∀ (d a : GReg) (i : BitVec 15), Quiet s [.g a] [.g d] → 0 < i.toInt →
      let stop := s.me.pc + BitVec.ofInt 64 (4 * i.toInt)
      (∀ l ∈ s.me.loops.head?, stop.toNat ≤ l.stop.toNat) →
        (s.me.getG a = 0 → exec (.loopn d a i) s = .next (jumped s (stop + 4) (fun c => c.setG d 0))) ∧
        (s.me.getG a ≠ 0 → s.me.loops.length < 6 →
          exec (.loopn d a i) s = .next (settled s 1 (fun c =>
            { c.setG d 0 with
              loops := ⟨(s.me.getG a).toNat, (s.me.getG a).toNat, s.me.pc + 4, stop, d⟩ :: c.loops })))) ∧
    (∀ p : PReg, Quiet s [.p p] [] →
      (∀ l ls, s.me.loops = l :: ls → (s.me.getP p).getLsbD 0 = true →
        exec (.loope p) s = .next (jumped s (l.stop + 4) (fun c => { c with loops := ls }))) ∧
      (s.me.loops = [] ∨ (s.me.getP p).getLsbD 0 = false → exec (.loope p) s = .next (settled s 1 id)))

/-- R198: at the end of a level's body an instruction that transfers no control goes back to the start while iterations
are left, and the index register takes the iteration number; a level with none left is removed, and the next level is
tested in its place. Said of `nop`, which does nothing else. -/
def Obligations.LoopEnd : Prop :=
  ∀ (s : State) (l : Loop) (ls : List Loop), Quiet s [] [] → s.me.inUev = false → s.me.inTrap = false →
    s.me.loops = l :: ls → s.me.pc.toNat ≤ l.stop.toNat → l.stop.toNat < s.me.pc.toNat + 4 →
      (1 < l.left → ∃ t, exec .nop s = .next t ∧ t.me.pc = l.start ∧
        t.me.loops = { l with left := l.left - 1 } :: ls ∧
        (∀ r : GReg, t.me.getG r =
          if r = l.idx ∧ l.idx ≠ 0 then w64 (l.count - (l.left - 1)) else s.me.getG r)) ∧
      (l.left ≤ 1 → exec .nop s = exec .nop (s.upd (fun c => { c with loops := ls })))

/-! ### Traps, privilege and returns -/

/-- R321, R369 and R373: `trap` in user mode saves cause 0x17, the code and the address after it, exchanges g24 to g31
with the supervisor bank, enters supervisor mode at byte 0 of the supervisor code, and leaves every other register and
every other control thread as they were. -/
def Obligations.SystemCall : Prop :=
  ∀ (s : State) (code : BitVec 10), Quiet s [] [] → isUser s.cur = true → s.me.sup = false → s.me.inTrap = false →
    ∃ t, exec (.trap code) s = .next t ∧
      t.me.tcause.toNat % 2 ^ 8 = 0x17 ∧ t.me.tval = code.setWidth 64 ∧ t.me.tpc = s.me.pc + 4 ∧
      t.me.sup = true ∧ t.me.inTrap = true ∧ t.me.pc = 0 ∧
      (∀ r : GReg, r.val < 24 → t.me.getG r = s.me.getG r) ∧
      (∀ k : Fin 8, t.me.getG (Fin.ofNat 32 (24 + k.val)) = (s.me.sBank.get k).1 ∧
        (t.me.sBank.get k).1 = s.me.getG (Fin.ofNat 32 (24 + k.val))) ∧
      t.me.p = s.me.p ∧ t.me.v = s.me.v ∧ t.me.loops = s.me.loops ∧ t.me.lift.levels = s.me.lift.levels ∧
      t.me.lift.active = s.me.lift.active ∧ t.me.streams = s.me.streams ∧ t.me.tls = s.me.tls ∧ t.me.loc = s.me.loc ∧ t.me.trail = s.me.trail ∧
      (∀ k, k ≠ s.cur → t.ct k = s.ct k) ∧ t.runs = s.runs ∧ t.frames = s.frames ∧ t.parts = s.parts

/-- R375 and R106: `tret` of a user control thread in a trap that came from user mode gives back the interrupted g24 to g31 and
execution at `tpc` in user mode; from a trap that came from supervisor mode the thread stays in its handler, with the registers
it has (the model's reading, notes/assumptions/8.md); a vector queue whose fault has been taken goes on with what it still
holds. `uret` in a user-event handler gives back the interrupted g24 to g31 and goes to the address that shadow g31 holds;
outside a handler it raises ILLEGAL. -/
def Obligations.Returns : Prop :=
  ∀ (s : State),
    (isUser s.cur = true → s.me.sup = true → s.me.inTrap = true → (s.me.vq = [] ∨ s.me.frozen ≠ none) →
    s.me.regBad = [] → ∃ t, exec .tret s = .next t ∧ t.me.pc = s.me.tpc ∧ t.me.vq = s.me.vq ∧
      (t.me.sup = true ↔ s.me.tcause.getLsbD 16 = true) ∧ (t.me.inTrap = true ↔ s.me.tcause.getLsbD 16 = true) ∧
      (∀ f, s.me.frozen = some f → t.me.frozen = if f.told then none else some f) ∧
      (∀ r : GReg, r.val < 24 → t.me.getG r = s.me.getG r) ∧
      (s.me.tcause.getLsbD 16 = false →
        ∀ k : Fin 8, t.me.getG (Fin.ofNat 32 (24 + k.val)) = (s.me.sBank.get k).1) ∧
      (s.me.tcause.getLsbD 16 = true → t.me.g = s.me.g ∧ t.me.sBank = s.me.sBank) ∧
      t.me.p = s.me.p ∧ t.me.v = s.me.v ∧ t.me.loc = s.me.loc ∧ t.me.trail = s.me.trail ∧
      (∀ k, k ≠ s.cur → t.ct k = s.ct k) ∧ t.runs = s.runs ∧ t.parts = s.parts) ∧
    (Quiet s [] [] → s.me.inUev = true → ∃ t, exec .uret s = .next t ∧ t.me.pc = s.me.getG 31 ∧ t.me.inUev = false ∧
      (∀ r : GReg, r.val < 24 → t.me.getG r = s.me.getG r) ∧
      (∀ k : Fin 8, t.me.getG (Fin.ofNat 32 (24 + k.val)) = (s.me.uBank.get k).1) ∧
      t.me.p = s.me.p ∧ t.me.v = s.me.v ∧ t.me.vq = s.me.vq ∧ t.me.loc = s.me.loc) ∧
    (Quiet s [] [] → s.me.inUev = false → isUser s.cur = true → s.me.sup = false →
      exec .uret s = .next (trapped s .illegal s.me.pc))

/-- R373 and R375: a trap that is entered from user mode and returned from at once leaves every register of the control
thread as it was, g24 to g31 among them, and goes on at the saved address in user mode. Where the trap interrupted the
instruction, it goes on at the lift copy at which it stood. -/
def Obligations.TrapRoundTrip : Prop :=
  ∀ (s : State) (cause : Cause) (tval : W64), isUser s.cur = true → s.me.sup = false → s.me.inTrap = false →
    let t := trapReturn (trapped s cause tval) s.cur
    t.me.pc = s.me.pc ∧ t.me.sup = false ∧ t.me.inTrap = false ∧ t.me.g = s.me.g ∧ t.me.gtag = s.me.gtag ∧
      t.me.sBank = s.me.sBank ∧ t.me.p = s.me.p ∧ t.me.v = s.me.v ∧ t.me.loops = s.me.loops ∧
      { t.me.lift with resume := none } = { s.me.lift with resume := none } ∧
      (cause = .vectorAsync ∨ cause = .uncorrectable ∨ cause = .watchdog ∨ s.me.lift.resume = none → t.me.lift = s.me.lift)

/-- R324, R325, R291, R375, R110 and R186: in user mode every privileged instruction raises PRIVILEGE with its first parcel in
`tval`, whatever its operands; an instruction of Tables 11.1 to 11.3 that names a scalar register at or beyond the declared
count raises RESOURCE with a number that exceeds its declaration. Neither writes a register of its own. -/
def Obligations.IssueTraps : Prop :=
  ∀ (s : State) (i : Instr), isUser s.cur = true → s.me.sup = false → s.me.vq = [] → s.me.strip = none →
    (∀ parcel : Nat,
      (match i with
        | .tret | .vsaveq _ _ | .vrestq _ _ | .rmig _ _ _ _ _ | .pdrain _ _ | .pdrainGo _ _ | .preset _ => True
        | _ => False) →
      encodeScalar i = some parcel → exec i s = .next (trapped s .privilege (w64 parcel))) ∧
    (∀ (d : GReg) (reads : List RegRef) (n : Nat) (w : W64), integerResult s.me i = some (d, reads, n, w) →
      (∃ r ∈ RegRef.g d :: reads, ∃ k : GReg, r = .g k ∧ k ≠ 0 ∧ s.me.kernel.gregs ≤ k.val) →
        ∃ k : Nat, s.me.kernel.gregs ≤ k ∧ k < 32 ∧ exec i s = .next (trapped s .resource (w64 k)))

/-! ### Control and status registers -/

/-- R122, R322 and Table 6.4: `csrr` writes the register's value to gd; of the registers other than the two counters and
`conflict`, said outright for those that one field of the thread holds. What `ct_id`, `core_id` and `part_id` read on a system
control thread is the model's choice (notes/assumptions/32.md). -/
def Obligations.CsrReads : Prop :=
  ∀ (s : State) (d : GReg) (csr : BitVec 12) (w : W64), Quiet s [] [.g d] → csr ≠ 0x020 → csr ≠ 0x021 →
    (csr.toNat < 0x100 ∨ s.me.sup = true) →
    (match csr.toNat with
      | 0x000 => w = s.me.frm.setWidth 64
      | 0x001 => w = s.me.fflags.setWidth 64
      | 0x008 => w = w64 s.me.vl
      | 0x009 => w = w64 (vlmax s s.cur)
      | 0x00A => w = s.me.vtype.word
      | 0x00B => w = s.me.vstart.setWidth 64
      | 0x00C => w = s.me.spset.setWidth 64
      | 0x00D => w = liftWord s.me.lift
      | 0x010 => w = s.me.uevec
      | 0x011 => w = s.me.uecause.setWidth 64
      | 0x022 => w = w64 (if isUser s.cur then s.cur.val else (s.cur.val - 128) % 4)
      | 0x023 => w = w64 (if isUser s.cur then s.cur.val / 4 else 0)
      | 0x024 => w = partWord s s.cur
      | 0x025 => w = s.me.kparm
      | 0x026 => w = s.me.bankwave
      | 0x100 => w = s.me.vlcap.setWidth 64
      | 0x101 => w = s.me.ctweight.setWidth 64
      | 0x102 => w = s.me.tcause
      | 0x103 => w = s.me.tval
      | 0x104 => w = s.me.tpc
      | _ => False) →
    exec (.csrr d csr) s = .next (settled { s with fresh := s.fresh + 1 } 1 (fun c => c.setG d w))

/-- R322, R123 and R125: `csrw`, `csrs` and `csrc` write the old value to gd, and apply g(ga), old OR g(ga) and old AND
NOT g(ga) to the register; 000 and 111 leave `frm`, 0 and values above 8 leave `vlcap`, and 0 leaves `ctweight`
unchanged; a read-only register keeps its value, and of `tcause`, which software may write (R125), the bits above 31 and bit
19 stay 0. The two bits of `conflict` clear by 1s of `csrw` and `csrs` (Table 4.4). -/
def Obligations.CsrWrites : Prop :=
  (∀ (s : State) (d a : GReg) (csr : BitVec 12) (old : W64) (put : CT → W64 → CT),
    Quiet s [.g a] [.g d] → (csr.toNat < 0x100 ∨ s.me.sup = true) →
    (match csr.toNat with
      | 0x000 => old = s.me.frm.setWidth 64 ∧
          put = fun c x => if x.setWidth 3 = 0#3 ∨ x.setWidth 3 = 7#3 then c else { c with frm := x.setWidth 3 }
      | 0x001 => old = s.me.fflags.setWidth 64 ∧ put = fun c x => { c with fflags := x.setWidth 6 }
      | 0x00B => old = s.me.vstart.setWidth 64 ∧ put = fun c x => { c with vstart := x.setWidth 11 }
      | 0x00C => old = s.me.spset.setWidth 64 ∧ put = fun c x => { c with spset := x.setWidth 32 }
      | 0x010 => old = s.me.uevec ∧ put = fun c x => { c with uevec := x &&& ~~~3#64 }
      | 0x026 => old = s.me.bankwave ∧ put = fun c x => { c with bankwave := x }
      | 0x100 => old = s.me.vlcap.setWidth 64 ∧ put = fun c x =>
          if 1 ≤ x.toNat % 16 ∧ x.toNat % 16 ≤ 8 then { c with vlcap := x.setWidth 4 } else c
      | 0x101 => old = s.me.ctweight.setWidth 64 ∧ put = fun c x =>
          if x.setWidth 4 = 0#4 then c else { c with ctweight := x.setWidth 4 }
      | 0x102 => old = s.me.tcause ∧ put = fun c x => { c with tcause := x &&& 0xFFF7FFFF#64 }
      | 0x103 => old = s.me.tval ∧ put = fun c x => { c with tval := x }
      | 0x104 => old = s.me.tpc ∧ put = fun c x => { c with tpc := x }
      | 0x008 => old = w64 s.me.vl ∧ put = fun c _ => c
      | 0x009 => old = w64 (vlmax s s.cur) ∧ put = fun c _ => c
      | 0x00A => old = s.me.vtype.word ∧ put = fun c _ => c
      | 0x00D => old = liftWord s.me.lift ∧ put = fun c _ => c
      | 0x011 => old = s.me.uecause.setWidth 64 ∧ put = fun c _ => c
      | 0x025 => old = s.me.kparm ∧ put = fun c _ => c
      | _ => False) →
    let x := s.me.getG a
    let q := { s with fresh := s.fresh + 1 }
    exec (.csrw d a csr) s = .next (settled q 1 (fun c => put (c.setG d old) x)) ∧
    exec (.csrs d a csr) s = .next (settled q 1 (fun c => put (c.setG d old) (old ||| x))) ∧
    exec (.csrc d a csr) s = .next (settled q 1 (fun c => put (c.setG d old) (old &&& ~~~x)))) ∧
  (∀ (s : State) (d a : GReg) (k : Fin 32) (p : Partition), Quiet s [.g a] [.g d] → partNo s s.cur = some k →
    s.parts.get k = some p →
    let x := s.me.getG a
    let old := w64 (b2n p.conflict.valid + b2n p.conflict.more * 2 + p.conflict.trla.toNat * 2 ^ 2 +
      p.conflict.trlb.toNat * 2 ^ 9 + p.conflict.idxa.toNat * 2 ^ 16 + p.conflict.idxb.toNat * 2 ^ 40)
    let q := { s with fresh := s.fresh + 1 }
    let u := settled (q.updPart k (fun p => { p with conflict := { p.conflict with
      valid := p.conflict.valid && !x.getLsbD 0, more := p.conflict.more && !x.getLsbD 1 } })) 1 (fun c => c.setG d old)
    exec (.csrw d a 0x030) s = .next u ∧ exec (.csrs d a 0x030) s = .next u ∧
    exec (.csrc d a 0x030) s = .next (settled q 1 (fun c => c.setG d old)))

/-- R122: in user mode an access to a supervisor register raises PRIVILEGE, listed or not, and an access to a number
below 0x100 that Table 6.4 does not list raises ILLEGAL. -/
def Obligations.CsrTraps : Prop :=
  ∀ (s : State) (d a : GReg) (csr : BitVec 12), isUser s.cur = true → s.me.sup = false → s.me.vq = [] →
    s.me.strip = none →
    (0x100 ≤ csr.toNat ∧ csr.toNat < 0x200 →
      ∀ i ∈ [Instr.csrr d csr, .csrw d a csr, .csrs d a csr, .csrc d a csr],
        exec i s = .next (trapped s .privilege (w64 ((encodeScalar i).getD 0)))) ∧
    (csr.toNat < 0x100 → csr.toNat ∉ csrNumbers →
      ∀ i ∈ [Instr.csrr d csr, .csrw d a csr, .csrs d a csr, .csrc d a csr],
        exec i s = .next (trapped s .illegal s.me.pc))

/-! ### Scalar memory -/

/-- R201 and R202: an aligned `lds` within the window writes its bytes, extended, to gd, where none of them is poisoned; an
aligned `sts` writes its bytes to the window, where every other byte reads as before; nothing else changes but the program
counter. A load that meets a single-symbol error (R392) reports it and counts it as correctable, at the physical function where it
lies in a fabric or at a die edge (R400), and reads the same bytes. -/
def Obligations.LocalAccess : Prop :=
  ∀ (s : State) (d a : GReg) (sz : MSize) (i : BitVec 11), isUser s.cur = true →
    let n := mszBytes sz
    let w := (memAddr s.me a n i).toNat
    let u := correctOnRead s s.cur
    (tabGet s.flips s.cur.val = none → u = s) ∧
    (∀ err, tabGet s.flips s.cur.val = some err → tabGet u.flips s.cur.val = none ∧ u.cts = s.cts ∧ u.parts = s.parts ∧
      u.runs = s.runs ∧ u.frames = s.frames ∧
      (∃ r, (u.dies.get (dieOf s.cur)).ring.getLast? = some r ∧ r.kind = 0 ∧ r.loc = err.1) ∧
      (u.dies.get (dieOf s.cur)).reports = (s.dies.get (dieOf s.cur)).reports + 1 ∧
      let fn := if err.1.src = 7 then 0 else fnOf s s.cur
      (countersOf u fn).corr = (countersOf s fn).corr + 1) ∧
    (w % n = 0 → w + n ≤ s.me.kernel.loc →
      (∀ sx : Bool, Quiet s [.g a] [.g d] → Sound s.me.locBad w n →
        ∃ x, Loaded x sx n (fun k => memGet s.me.loc (w + k)) ∧
          exec (.lds d a sz sx i) s = .next (settled u 1 (fun c => c.setG d x))) ∧
      (Quiet s [.g a, .g d] [] →
        ∃ m b, (∀ k < n, memGet m (w + k) = byteOf (s.me.getG d) k) ∧
          (∀ x, x < w ∨ w + n ≤ x → memGet m x = memGet s.me.loc x) ∧ Remarked s.me.locBad s.me.locStuck b w n ∧
          exec (.sts d a sz i) s = .next (settled s 1 (fun c => { c with loc := m, locBad := b }))))

/-- R74, R207 and R210: inside a strip whose buffer has room a local store leaves the window as it is, and the thread's
own loads read it. -/
def Obligations.StripStore : Prop :=
  ∀ (s : State) (d a : GReg) (sz : MSize) (i : BitVec 11) (st : Strip), isUser s.cur = true →
    Clear s [.g a, .g d] [] → s.me.strip = some st → st.overflow = false →
    let n := mszBytes sz
    let w := (memAddr s.me a n i).toNat
    w % n = 0 → w + n ≤ s.me.kernel.loc → bufLocal st.writes + n ≤ Config.stripLocalCap →
      bufTrail st.writes ≤ Config.stripTrailCap →
      ∃ t, exec (.sts d a sz i) s = .next t ∧ t.me.loc = s.me.loc ∧ (s.me.loops = [] → t.me.g = s.me.g) ∧
        (∃ u, t.me.strip = some u ∧ u.check = st.check ∧ u.overflow = false) ∧
        (∀ k < n, t.me.locByte (w + k) = byteOf (s.me.getG d) k) ∧
        (∀ x, x < w ∨ w + n ≤ x → t.me.locByte x = s.me.locByte x)

/-- R203 and R204: an aligned `ldc` within the common size writes the bytes that the thread reads by R83, where none of them is
poisoned (with the error it meets corrected, see `LocalAccess`); an aligned `stc` appends one entry to the thread's trail,
leaves home and every other thread as they are, and is what the thread then reads; with a full trail the trail is published
and the entry waits for room (R79, R81); that the thread reads it there too is the model's reading (notes/assumptions/7.md). What
vector loads have read ahead of these bytes no longer stands (R327; notes/assumptions/13.md). A load that the schedule puts off
leaves its register as it is until it is performed, with what the thread then reads (R329; notes/assumptions/5.md). -/
def Obligations.CommonAccess : Prop :=
  ∀ (s : State) (d a : GReg) (sz : MSize) (i : BitVec 11),
    let n := mszBytes sz
    let w := (memAddr s.me a n i).toNat
    w % n = 0 → w + n ≤ s.me.kernel.com →
      (∀ sx : Bool, SoundCom s s.cur w n → ∃ x, Loaded x sx n (fun k => comByte s s.cur (w + k)) ∧
        (Quiet s [.g a] [.g d] →
          (Delays s.me → exec (.ldc d a sz sx i) s = .next (putOffTo s d w n (.load sx))) ∧
          (¬ Delays s.me →
            exec (.ldc d a sz sx i) s = .next (settled (correctOnRead s s.cur) 1 (fun c => (c.dropEarly w n).setG d x)))) ∧
        (∀ pc : W64, s.me.slow = some ⟨pc, d, w, n, .load sx⟩ → (partNo s s.cur).isSome = true →
          settleSlow s s.cur = (correctOnRead s s.cur).upd (fun c => ({ c with slow := none }.dropEarly w n).setG d x))) ∧
      (Quiet s [.g a, .g d] [] →
        let e := dataEntry w ((List.range n).map (byteOf (s.me.getG d))) []
        let t := settled s 1 (fun c => appended s [e] (c.dropEarly w n))
        let room := trailUsed s.me.trail + 32 ≤ trailSize s s.cur
        exec (.stc d a sz i) s = .next t ∧
        (room → t.me.out = [] ∧ t.me.trail.pub = s.me.trail.pub ∧ t.me.trail.done = s.me.trail.done ∧
          (s.me.trailStuck = [] → t.me.trail.entries = s.me.trail.entries ++ [e])) ∧
        (¬ room → t.me.out = [e] ∧ t.me.trail = { s.me.trail with pub := s.me.trail.entries.length } ∧ t.me.owed = 0) ∧
        (s.me.trail.done ≤ s.me.trail.entries.length →
          (∀ k < n, comByte t s.cur (w + k) = byteOf (s.me.getG d) k) ∧
          (∀ x, x < w ∨ w + n ≤ x → comByte t s.cur x = comByte s s.cur x)))

/-- R83: a read of common memory takes, in this order, the strip write buffer, the newest entry of the thread's own trail
that is not compacted, its view, and home. An entry that waits for room in the trail counts with the trail's, the model's reading
(notes/assumptions/7.md). -/
def Obligations.CommonReadOrder : Prop :=
  ∀ (s : State) (ag : Agent) (x : Nat),
    let c := s.ct ag
    let es := c.trail.entries.drop c.trail.done ++ c.out
    (∀ st b, c.strip = some st → stripCom st.writes x = some b → comByte s ag x = b) ∧
    ((∀ st, c.strip = some st → stripCom st.writes x = none) →
      (∀ (j : Nat) e b, es[j]? = some e → entryByte e x = some b →
        (∀ k e', j < k → es[k]? = some e' → entryByte e' x = none) → comByte s ag x = b) ∧
      ((∀ e ∈ es, entryByte e x = none) →
        (∀ v, tabGet c.view x = some v → comByte s ag x = v.val) ∧
        (tabGet c.view x = none → comByte s ag x = homeByte s ag x)))

/-- R202 to R204, R311 and R90: in user mode a misaligned scalar access or atomic raises MISALIGN with its address, and an
aligned one that reaches beyond the declared size raises LOCAL_BOUNDS or COMMON_BOUNDS with the first byte beyond; a
`fadd` of 8 bytes raises MISALIGN before either; nothing is read or written. An atomic of whose bytes the thread's view
holds a copy waits. -/
def Obligations.MemoryTraps : Prop :=
  ∀ (s : State) (d a : GReg) (sz : MSize) (sx : Bool) (i : BitVec 11), isUser s.cur = true → s.me.sup = false →
    let n := mszBytes sz
    let w := memAddr s.me a n i
    (Quiet s [.g a] [.g d] →
      (w.toNat % n ≠ 0 → exec (.lds d a sz sx i) s = .next (trapped s .misalign w) ∧
        exec (.ldc d a sz sx i) s = .next (trapped s .misalign w)) ∧
      (w.toNat % n = 0 →
        (s.me.kernel.loc < w.toNat + n → exec (.lds d a sz sx i) s =
          .next (trapped s .localBounds (w64 (max w.toNat s.me.kernel.loc)))) ∧
        (s.me.kernel.com < w.toNat + n → exec (.ldc d a sz sx i) s =
          .next (trapped s .commonBounds (w64 (max w.toNat s.me.kernel.com)))))) ∧
    (Quiet s [.g a, .g d] [] →
      (w.toNat % n ≠ 0 → exec (.sts d a sz i) s = .next (trapped s .misalign w) ∧
        exec (.stc d a sz i) s = .next (trapped s .misalign w)) ∧
      (w.toNat % n = 0 →
        (s.me.kernel.loc < w.toNat + n → exec (.sts d a sz i) s =
          .next (trapped s .localBounds (w64 (max w.toNat s.me.kernel.loc)))) ∧
        (s.me.kernel.com < w.toNat + n → exec (.stc d a sz i) s =
          .next (trapped s .commonBounds (w64 (max w.toNat s.me.kernel.com)))))) ∧
    (∀ (op : AmoOp) (dbl acq : Bool) (b : GReg), Quiet s [.g a, .g b] [.g d] →
      let n := if dbl then 8 else 4
      let w := s.me.getG a
      let j := Instr.amo op dbl false acq d a b
      (op = .fadd ∧ dbl = true ∨ w.toNat % n ≠ 0 → exec j s = .next (trapped s .misalign w)) ∧
      (¬ (op = .fadd ∧ dbl = true) → w.toNat % n = 0 → (partNo s s.cur).isSome = true →
        (s.me.kernel.com < w.toNat + n →
          exec j s = .next (trapped s .commonBounds (w64 (max w.toNat s.me.kernel.com)))) ∧
        (w.toNat + n ≤ s.me.kernel.com → s.me.trail.done = s.me.trail.entries.length →
          (∃ k < n, (tabGet s.me.view (w.toNat + k)).isSome = true) → exec j s = .next (waitHere s s.cur))))

/-! ### Atomics and ordering -/

/-- R311: an atomic whose bytes are at home, none of them poisoned, reads the old value there (with the error it meets
corrected, see `LocalAccess`), writes the new one there, and writes the old one, zero-extended, to gd; with `.rel` it first acts
as `rel`. What vector loads have read ahead of these bytes, with `.acq` of any, no longer stands (R312, R327;
notes/assumptions/13.md). One without `.acq` that the schedule puts off does the same when it is performed (R329;
notes/assumptions/5.md). -/
def Obligations.AtomicResults : Prop :=
  ∀ (s : State) (dbl rel acq : Bool) (d a b : GReg) (pn : Fin 32), partNo s s.cur = some pn →
    let n := if dbl then 8 else 4
    let w := (s.me.getG a).toNat
    let old := leNat (homeRead s s.cur w n)
    let v := if rel then release s s.cur else s
    let u := correctOnRead v s.cur
    let fresh (c : CT) : CT := if acq then { c with early := [] } else c.dropEarly w n
    let later := acq = false ∧ Delays s.me
    w % n = 0 → w + n ≤ s.me.kernel.com → AtHome s w n → homePoisoned s pn w n = false →
      (Quiet s [.g a, .g b] [.g d] →
        (∀ op new, amoResult op n old (s.me.getG b).toNat = some new →
          ¬ later → exec (.amo op dbl rel acq d a b) s =
            .next (settled (homeWrite u pn w (leBytes n new) []) 1 (fun c => (fresh c).setG d (w64 old)))) ∧
        (dbl = false → ¬ later → exec (.amo .fadd dbl rel acq d a b) s =
          .next (settled (homeWrite u pn w (leBytes n (bankFadd old ((s.me.getG b).toNat % 2 ^ 32))) []) 1
            (fun c => (fresh c).setG d (w64 old)))) ∧
        (∀ op, later → (op = .fadd → dbl = false) → exec (.amo op dbl rel acq d a b) s =
          .next (putOffTo v d w n (.amo op (s.me.getG b).toNat)))) ∧
      (Quiet s [.g a, .g b, .g d] [.g d] →
        let new := if old = (s.me.getG d).toNat % 2 ^ (8 * n) then (s.me.getG b).toNat % 2 ^ (8 * n) else old
        (¬ later → exec (.cas dbl rel acq d a b) s =
          .next (settled (homeWrite u pn w (leBytes n new) []) 1 (fun c => (fresh c).setG d (w64 old)))) ∧
        (later → exec (.cas dbl rel acq d a b) s =
          .next (putOffTo v d w n (.cas (s.me.getG d).toNat (s.me.getG b).toNat)))) ∧
      (∀ (pc : W64) (k : SlowKind) (new : Nat), s.me.slow = some ⟨pc, d, w, n, k⟩ →
        ((∃ op x, k = .amo op x ∧ (amoResult op n old x = some new ∨ (op = .fadd ∧ dbl = false ∧ new = bankFadd old (x % 2 ^ 32)))) ∨
          (∃ e x, k = .cas e x ∧ new = if old = e % 2 ^ (8 * n) then x % 2 ^ (8 * n) else old)) →
        settleSlow s s.cur = (homeWrite (correctOnRead s s.cur) pn w (leBytes n new) []).upd (fun c =>
          ({ c with slow := none }.dropEarly w n).setG d (w64 old)))

/-- R80, R305 and R33: `rel` publishes the thread's whole trail and every range that its streams have reserved in an open
run, and changes nothing else but the program counter. Where the schedule puts the publication of a trail off (R306 orders
nothing later behind a release; the model's form of it, notes/assumptions/5.md), it notes the tail that is still to be published. -/
def Obligations.Release : Prop :=
  ∀ (s : State), Quiet s [] [] →
    (s.me.putOff = true → hasUnpublished s s.cur = false →
      exec .rel s = .next (settled s 1 (fun c => { c with putOff := false, owed := c.trail.entries.length }))) ∧
    (s.me.putOff = false ∨ hasUnpublished s s.cur = true →
    ∃ t, exec .rel s = .next t ∧ t = settled (release s s.cur) 1 id ∧
      t.me.trail = { s.me.trail with pub := s.me.trail.entries.length } ∧ t.me.owed = 0 ∧
      (s.me.loops = [] → t.me.g = s.me.g) ∧ t.me.p = s.me.p ∧ t.me.v = s.me.v ∧ t.me.view = s.me.view ∧
      t.me.loc = s.me.loc ∧
      (∀ k r, tabGet s.runs k = some r → r.state = .open_ →
        ∃ u, tabGet t.runs k = some u ∧ u.state = r.state ∧ u.length = r.length ∧ u.leaves = r.leaves ∧
          ∀ g ∈ u.ranges, anyStream s.cur g.by_ = true → g.pub = true) ∧
      (∀ k r, tabGet s.runs k = some r → r.state ≠ .open_ → tabGet t.runs k = some r) ∧
      (∀ k, k ≠ s.cur → t.ct k = s.ct k) ∧ t.frames = s.frames ∧ t.parts = s.parts)

/-- R306: `acq` of a trail of the partition, `acq g0` of all of them and `acq.g` of a group acquire at the published tails;
an `acq` of a control thread outside the partition raises GROUP. -/
def Obligations.Acquires : Prop :=
  ∀ (s : State) (u : State),
    let tail (t : CtId) := markEntry t.val (s.ct (ctAgent t)).trail.pub (s.ct (ctAgent t)).trail.gen
    (∀ a : GReg, Quiet s [.g a] [] → ∀ t : CtId, t.val = (s.me.getG a).toNat % 128 →
      (∀ k, partNo s s.cur = some k → partNo s (ctAgent t) = some k → acquireMarks s s.cur [tail t] = .ok u →
        exec (.acq a) s = .next (settled u 1 id)) ∧
      (isUser s.cur = true → s.me.sup = false → (∀ k, partNo s s.cur = some k → partNo s (ctAgent t) ≠ some k) →
        exec (.acq a) s = .next (trapped s .group (w64 t.val)))) ∧
    (∀ k, Quiet s [] [] → partNo s s.cur = some k → acquireMarks s s.cur ((partCts s k).map tail) = .ok u →
      exec .acqPartition s = .next (settled u 1 id)) ∧
    (∀ (a : GReg) (id' : Nat) (l : Launch), Quiet s [.g a] [] → (s.me.getG a).toNat % 256 < s.me.kernel.ngrp →
      s.me.launch = some id' → tabGet s.launches id' = some l →
      let ms := (List.finRange 128).filter (fun t => (l.groups[(s.me.getG a).toNat % 256]?.getD 0).getLsbD t.val)
      ms ≠ [] → acquireMarks s s.cur (ms.map tail) = .ok u → exec (.acqG a) s = .next (settled u 1 id))

/-- R82 and R79: acquiring another thread's trail, with no marker in it, at a tail that the replay point has not passed: the
thread then reads, wherever neither its strip nor its own trail covers a byte, the newest replayed entry that covers it
and is not compacted; other bytes read as before; the replay point is the tail; and a marker of the trail waits to be
appended, which with no vector load queued and room in the trail happens before the next instruction. A copy that comes to lie in
view bytes with a lasting fault is poisoned (R398). -/
def Obligations.AcquireShows : Prop :=
  ∀ (s : State) (t : CtId) (p : Nat), s.me.strip = none → ctAgent t ≠ s.cur →
    let tr := (s.ct (ctAgent t)).trail
    let m := markEntry t.val tr.pub tr.gen
    tr.pub ≤ tr.entries.length → (∀ e ∈ tr.entries, e.kind ≠ EntryKind.marker) →
    (tabGet s.me.rp t.val = some (p, tr.gen) ∨ p = 0 ∧ ∀ q, tabGet s.me.rp t.val = some q → q.2 ≠ tr.gen) →
    p < tr.pub → (s.dies.get (dieOf (ctAgent t))).stopped = false → s.me.readsQueued = false →
    s.me.view.length + ((tr.entries.take tr.pub).map (fun e => e.bytes.length)).sum ≤ Config.viewCapacity →
      ∃ u, acquireTrails s s.cur [t] = .ok u ∧
        tabGet u.me.rp t.val = some (tr.pub, tr.gen) ∧
        u.me.trail = s.me.trail ∧ u.me.marks = s.me.marks ++ [m] ∧
        (s.me.vq = [] → s.me.out = [] → s.me.marks = [] → s.me.held = [] →
          trailUsed s.me.trail + 16 ≤ trailSize s s.cur →
          ∃ v, settleTrail u s.cur = (v, true) ∧ v.me.marks = [] ∧ v.me.out = [] ∧
            v.me.trail = { s.me.trail with entries := s.me.trail.entries ++ [m] }) ∧
        (∀ j e x b, p ≤ j → tr.done ≤ j → j < tr.pub → tr.entries[j]? = some e → entryByte e x = some b →
          (∀ k e', j < k → k < tr.pub → tr.entries[k]? = some e' → entryByte e' x = none) →
          tabGet u.me.view x = some ⟨b, t.val, j, tr.gen, badAt (e.bad ++ s.me.viewStuck) x⟩) ∧
        (∀ x, (∀ j e, p ≤ j → tr.done ≤ j → j < tr.pub → tr.entries[j]? = some e → entryByte e x = none) →
          tabGet u.me.view x = tabGet s.me.view x) ∧
        (∀ k, k ≠ s.cur → u.ct k = s.ct k)

/-- R308, R309, R95 and R310: the fences and `sbar` complete with no other effect when what they order has been performed,
but that what vector loads have read ahead no longer stands (notes/assumptions/13.md);
`fence.r` waits while an engine command in flight touches its interval; an undeclared stream of `sbar` raises RESOURCE;
`wfe` writes the wake bits that hold, and waits while none does; a `wfe` of the code that a handler has interrupted goes on
waiting (the form is the model's choice, notes/assumptions/13.md). -/
def Obligations.OrderingResults : Prop :=
  ∀ (s : State),
    let unread (c : CT) : CT := { c with early := [] }
    let outer := s.me.wfe.filter (fun w => decide (w.level < s.me.level))
    (Quiet s [] [] → exec .fenceSv s = .next (settled s 1 unread) ∧ exec .fenceVs s = .next (settled s 1 id) ∧
      exec .fenceVv s = .next (settled s 1 unread)) ∧
    (∀ (common : Bool) (a b : GReg), Quiet s [.g a, .g b] [] →
      let touches := s.me.getG b ≠ 0 ∧ ∃ c ∈ s.me.cmds, ∃ x ∈ c.reads ++ c.writes, x.common = common ∧ x.lo < x.hi ∧
        x.lo < (s.me.getG a).toNat + (s.me.getG b).toNat ∧ (s.me.getG a).toNat < x.hi
      (¬ touches → exec (.fenceR common a b) s = .next (settled s 1 unread)) ∧
      (touches → exec (.fenceR common a b) s = .next (waitHere s s.cur))) ∧
    (∀ mask : BitVec 4, Quiet s [] [] →
      ((∀ k < 4, mask.getLsbD k = true → k < s.me.kernel.nst) → exec (.sbar mask) s = .next (settled s 1 id)) ∧
      (isUser s.cur = true → s.me.sup = false → (∃ k < 4, mask.getLsbD k = true ∧ s.me.kernel.nst ≤ k) →
        ∃ k < 4, s.me.kernel.nst ≤ k ∧ exec (.sbar mask) s = .next (trapped s .resource (w64 k)))) ∧
    (∀ d : GReg, Quiet s [] [.g d] →
      let w := wfeNow s.me none false
      let bits := b2n (eventPending s.me) + b2n w.tln * 2 + b2n w.wat * 4 + b2n (w.oth || s.me.preempt) * 8
      (bits ≠ 0 → exec (.wfe d) s = .next (settled s 1 (fun c => { c.setG d (w64 bits) with wfe := outer }))) ∧
      (bits = 0 → exec (.wfe d) s = .next (waitHere (s.upd (fun c => { c with wfe := w :: outer })) s.cur))) ∧
    (∀ d a b : GReg, Quiet s [.g a, .g b] [.g d] →
      let w := (s.me.getG a).toNat
      w % 8 = 0 → w + 8 ≤ s.me.kernel.com → AtHome s w 8 → (∀ x ∈ s.me.wfe, x.level = s.me.level → x.pc ≠ s.me.pc) →
        leNat (homeRead s s.cur w 8) ≠ (s.me.getG b).toNat →
          ∃ bits : Nat, bits % 8 / 4 = 1 ∧ bits < 16 ∧ exec (.wfeWatch d a b) s =
            .next (settled s 1 (fun c => { c.setG d (w64 bits) with wfe := outer })))

/-! ### The queue frame and the partition instructions -/

/-- R324 and R378: in supervisor mode `vsaveq` at a convoy boundary writes a frame to the window, empties the queue and
writes the frame's length to gd; `vrestq` of that frame, where it has no poisoned byte, gives the queue and its freeze back and
writes 0; of bytes that no `vsaveq` wrote it writes 0x19 and restores nothing, and so of bytes that hold an uncorrectable error, which it
reports as consumed (what a frame stands for is the model's choice, notes/assumptions/14.md, and so is that such an error has no
other fate, 21.md). -/
def Obligations.QueueFrames : Prop :=
  ∀ (s : State) (d a : GReg),
    let w := (s.me.getG a).toNat
    s.me.sup = true → w % 16 = 0 → w + 16384 ≤ s.me.kernel.loc →
      (overNumber (shapeNumbers s.me { reads := [.g a], writes := [.g d] }) = none →
        (∀ x ∈ [RegRef.g a, .g d], s.me.refTag x = 0) → s.me.lift.regions = [] → s.me.strip = none →
        s.me.regBad = [] → queueMeets s.me [.g a] [.g d] = false → s.me.acqQueued = false → s.me.atConvoy = true →
        ∃ (bs : List Byte) (b : Marks), 32 ≤ bs.length ∧ bs.length ≤ 16384 ∧ bs.length % 16 = 0 ∧
          leNat (bs.take 4) = bs.length ∧ frameOk bs = true ∧ Remarked s.me.locBad s.me.locStuck b w bs.length ∧
          exec (.vsaveq d a) s = .next (settled
            { s with fresh := s.fresh + 1, saved := ⟨bs, s.me.vq, s.me.frozen⟩ :: s.saved } 1
            (fun c => { c with vq := [], frozen := none, early := [], loc := memWrite c.loc w bs, locBad := b }.setG d
              (w64 bs.length)))) ∧
      (Quiet s [.g a] [.g d] → s.me.late = false →
        let len := leNat (memRead s.me.loc w 4)
        let bs := memRead s.me.loc w len
        (Sound s.me.locBad w (max 4 len) → 32 ≤ len → len ≤ 16384 → frameOk bs = true →
          ∀ q, s.saved.find? (fun q => q.bytes = bs) = some q → exec (.vrestq d a) s =
            .next (settled s 1 (fun c => { c.setG d 0 with vq := q.vq, frozen := q.frozen }))) ∧
        (Sound s.me.locBad w (max 4 (min len 16384)) →
          len < 32 ∨ 16384 < len ∨ frameOk bs = false ∨ (∀ q ∈ s.saved, q.bytes ≠ bs) →
            exec (.vrestq d a) s = .next (settled s 1 (fun c => c.setG d 0x19))) ∧
        (∀ k < max 4 (min len 16384), badAt s.me.locBad (w + k) = true → Sound s.me.locBad w k →
          exec (.vrestq d a) s = .next (settled (reportConsumed s s.cur (sramLoc s.me.pc 0 (w + k)) false
            (some (.word (.loc s.cur) (w + k) 1))) 1 (fun c => c.setG d 0x19))))

/-- R325 and R388 (A drained partition): on a system control thread whose operand names a partition of its die, `pdrain` that finds every thread
able to stand and no command running halts them all, stops dispatch and counts the halted in gd, and a second one writes
0; `pdrain.go` releases them; `preset` of a drained and compacted partition leaves every thread idle, with an empty trail
of the next generation and an empty view, and dispatch stopped. -/
def Obligations.PartitionControl : Prop :=
  ∀ (s : State) (d a : GReg) (p : Fin 32) (q : Partition), isUser s.cur = false → s.me.sup = true →
    s.parts.get p = some q → p.val = (s.me.getG a).toNat % 32 → partOnDie s p (dieOf s.cur) = true →
      (Quiet s [.g a] [.g d] →
        (q.drained = true → exec (.pdrain d a) s = .next (settled s 1 (fun c => c.setG d 0))) ∧
        (q.drained = false → allStand (drainStep s p) p = true →
          ∃ u, exec (.pdrain d a) s = .next (settled u 1 (fun c => c.setG d (w64 (haltedCount (drainStep s p) p)))) ∧
            u.parts.get p = some { q with stopDispatch := true, drained := true } ∧
            (∀ ct ∈ partCts s p, (u.ct (ctAgent ct)).status = .halted ∨ (u.ct (ctAgent ct)).status = .idle) ∧
            (∀ ct ∈ partCts s p, (u.ct (ctAgent ct)).g = (s.ct (ctAgent ct)).g ∧
              (u.ct (ctAgent ct)).pc = (s.ct (ctAgent ct)).pc) ∧ u.me = s.me) ∧
        ∃ u, exec (.pdrainGo d a) s = .next (settled u 1 (fun c => c.setG d (w64 (haltedCount s p)))) ∧
          u.parts.get p = some { q with drained := false, stopDispatch := false } ∧
          (∀ ct ∈ partCts s p, u.ct (ctAgent ct) = { s.ct (ctAgent ct) with
            status := if (s.ct (ctAgent ct)).status = .halted then (s.ct (ctAgent ct)).wasRun
              else (s.ct (ctAgent ct)).status })) ∧
      (Quiet s [.g a] [] → q.drained = true → allStand s p = true →
        (∀ ct ∈ partCts s p, max (s.ct (ctAgent ct)).trail.pub (s.ct (ctAgent ct)).owed ≤ (s.ct (ctAgent ct)).trail.done) →
        ∃ u, exec (.preset a) s = .next (settled u 1 id) ∧
          (∀ ct ∈ partCts s p,
            let c := u.ct (ctAgent ct)
            c.status = .idle ∧ c.task = none ∧ c.launch = none ∧ c.view = [] ∧ c.cmds = [] ∧ c.vq = [] ∧
              c.trail.entries = [] ∧ c.trail.done = 0 ∧ c.trail.pub = 0 ∧
              c.trail.gen = (s.ct (ctAgent ct)).trail.gen + 1) ∧
          (∃ r, u.parts.get p = some r ∧ r.conflict = Conflict.zero ∧ r.home = q.home ∧ r.stopDispatch = true))

/-! ### Runs and streams -/

/-- R282, R39, R418 and Table 2.2: `rnew` of a legal record size, with a handle and a frame free, makes an open empty run under
a free handle on a free frame of its die; it and `rdrop` wait for the frames of a die that has stopped; `rseal` publishes the issuer's ranges (R33), seals a run whose watermark then is its
length, as it is of one whose ranges are all the issuer's, and waits for others' ranges; `rdrop` of a run
with streams open only marks it; `rinfo` reads its descriptor's words and `rinfo` of a stream the words of Table 5.1. -/
def Obligations.RunLifecycle : Prop :=
  ∀ (s : State) (d a : GReg),
    (∀ (named : Bool) (die : BitVec 2), Quiet s [.g a] [.g d] → (named = true ∨ die = 0) →
      let z := (s.me.getG a).toNat
      let home := if named then die.toNat else (dieOf s.cur).val
      let fn := fnOf s s.cur
      z % 4 = 0 → 4 ≤ z → z ≤ 16384 →
        ((s.dies.get (Fin.ofNat 4 home)).stopped = true → exec (.rnew d a named die) s = .next (waitHere s s.cur)) ∧
        ((s.dies.get (Fin.ofNat 4 home)).stopped = false →
        ((s.runs.filter (fun e => e.1 / 2 ^ 20 = fn)).length < 2 ^ 20 - 1 → (usedPlaces s home).length < 2 ^ 21 →
          ∃ h f, 1 ≤ h ∧ h < 2 ^ 20 ∧ tabGet s.runs (runKey fn h) = none ∧ f / 2 ^ 21 = home ∧
            f ∉ usedPlaces s home ∧
            exec (.rnew d a named die) s = .next (settled
              { s with
                frames := tabSet s.frames f ⟨1, [], []⟩
                fresh := s.fresh + 1
                runs := tabSet s.runs (runKey fn h) (Run.fresh z f home) } 1 (fun c => c.setG d (w64 h)))) ∧
        ((2 ^ 20 - 1 ≤ (s.runs.filter (fun e => e.1 / 2 ^ 20 = fn)).length ∨ 2 ^ 21 ≤ (usedPlaces s home).length) →
          exec (.rnew d a named die) s = .next (settled s 1 (fun c => c.setG d 0))))) ∧
    (∀ k r, findRun s (fnOf s s.cur) (s.me.getG a) = some (k, r) →
      (Quiet s [.g a] [.g d] →
        (r.state = .open_ → r.wmark = r.length → r.ranges = [] → exec (.rseal d a) s =
          .next (settled (updRun s k (fun _ => { r with state := .sealed })) 1 (fun c => c.setG d 0))) ∧
        (r.state = .open_ →
          let q := publishRun r (anyStream s.cur)
          (q.wmark = r.length → exec (.rseal d a) s = .next (settled
            (updRun s k (fun _ => { r with state := .sealed, wmark := r.length, ranges := [] })) 1 (fun c => c.setG d 0))) ∧
          (q.wmark ≠ r.length → exec (.rseal d a) s = .next (waitHere (updRun s k (fun _ =>
            { r with ranges := q.ranges, wmark := q.wmark })) s.cur)) ∧
          (∀ g ∈ q.ranges, anyStream s.cur g.by_ = true → g.pub = true) ∧
          (∀ gs g, r.ranges = gs ++ [g] → (∀ x ∈ r.ranges, anyStream s.cur x.by_ = true) → g.first + g.count = r.length →
            q.wmark = r.length) ∧
          (∀ g gs, r.ranges = g :: gs → anyStream s.cur g.by_ = false → g.pub = false → q.wmark = r.wmark)) ∧
        (r.state = .sealed → exec (.rseal d a) s = .next (settled s 1 (fun c => c.setG d 0))) ∧
        (r.state = .truncated → exec (.rseal d a) s = .next (settled s 1 (fun c => c.setG d 1))) ∧
        exec (.rinfo d a 1) s = .next (settled s 1 (fun c => c.setG d (w64 r.length))) ∧
        exec (.rinfo d a 2) s = .next (settled s 1 (fun c => c.setG d (w64 r.wmark))) ∧
        exec (.rinfo d a 3) s = .next (settled s 1 (fun c => c.setG d (w64 (r.streams % 1024)))) ∧
        exec (.rinfo d a 0) s = .next (settled s 1 (fun c => c.setG d (w64 (r.state.code + b2n r.depth * 4 +
          b2n r.dpend * 8 + (r.recsz / 4 - 1) * 16 + r.root * 2 ^ 32))))) ∧
      (Quiet s [.g a] [] →
        (r.streams = 0 → runStopped s r = false → exec (.rdrop a) s = .next (settled (freeRun s k) 1 id)) ∧
        (r.streams = 0 → runStopped s r = true → exec (.rdrop a) s = .next (waitHere s s.cur)) ∧
        (r.streams ≠ 0 → exec (.rdrop a) s =
          .next (settled (updRun s k (fun r => { r with dpend := true })) 1 id)))) ∧
    (∀ n k : BitVec 2, Quiet s [] [.g d] → n.toNat < s.me.kernel.nst → k ≠ 3 →
      let t := s.me.streams.get (Fin.ofNat 4 n.toNat)
      exec (.rinfoStream d n k) s = .next (settled s 1 (fun c => c.setG d (
        if k = 0 then w64 (t.run + t.mode.code * 2 ^ 20 + b2n t.stall * 2 ^ 22 + b2n t.susp * 2 ^ 23 + t.voff * 2 ^ 32 +
          t.vwid * 2 ^ 44)
        else if k = 1 then w64 (t.next % 2 ^ 41) else w64 (t.stop % 2 ^ 41)))))

/-- R40, R282 and R418: `rfork` of a run, where it succeeds, answers a free handle for a run of the same record size that holds
the records below the watermark, page for page on the same frames, with its length there; the forked run keeps its
records. It waits for frames of a die that has stopped. It answers 0 where no handle is free or a count cannot rise, and also where no frame is free for its root or a directory
page, which is the model's choice (notes/assumptions/32.md). -/
def Obligations.RunFork : Prop :=
  ∀ (s : State) (d a : GReg) (k : Nat) (r : Run), Quiet s [.g a] [.g d] →
    findRun s (fnOf s s.cur) (s.me.getG a) = some (k, r) →
      let stops := runStopped s r = true ∨ (s.dies.get (Fin.ofNat 4 r.die)).stopped = true
      (stops → exec (.rfork d a) s = .next (waitHere s s.cur)) ∧
      (¬ stops → forkRun s k r = none → exec (.rfork d a) s = .next (settled s 1 (fun c => c.setG d 0))) ∧
      (∀ h u, ¬ stops → forkRun s k r = some (h, u) →
        exec (.rfork d a) s = .next (settled u 1 (fun c => c.setG d (w64 h))) ∧
        tabGet s.runs (runKey (fnOf s s.cur) h) = none ∧ 1 ≤ h ∧ h < 2 ^ 20 ∧
        (∃ c, tabGet u.runs (runKey (fnOf s s.cur) h) = some c ∧ c.recsz = r.recsz ∧ c.length = r.wmark ∧
          c.wmark = r.wmark ∧ c.streams = 0 ∧ c.state = (if r.state = .sealed then .sealed else .open_) ∧
          ∀ q, q * 65536 < r.wmark * r.recsz →
            (leafAt c q).frame = (leafAt r q).frame ∧ (leafAt c q).tier = (leafAt r q).tier) ∧
        ∃ c, tabGet u.runs k = some c ∧ c.length = r.length ∧ c.wmark = r.wmark ∧ c.state = r.state ∧
          ∀ q, (leafAt c q).frame = (leafAt r q).frame ∧ (leafAt c q).tier = (leafAt r q).tier)

/-- R283, R33, R94, R418 and Table 5.1: `ropen.r` and `ropen.a` of a closed stream bind it to the run and count it there; `ropen.a`
of a run that is not open raises RUN_SEALED. `rclose` of a closed stream does nothing; of an open one it publishes what
the stream has appended, takes it off its run's count, frees the run where it was dropped and this was its last stream,
and leaves the stream closed, with its other fields 0 (the model's choice, notes/assumptions/32.md); where it would free frames on a
die that has stopped it waits. -/
def Obligations.Streams : Prop :=
  ∀ (s : State) (n : BitVec 2), n.toNat < s.me.kernel.nst →
    let i := Fin.ofNat 4 n.toNat
    ((s.me.streams.get i).mode = .closed →
      (∀ (e a b : GReg) k r, Quiet s [.g e, .g a, .g b] [] →
        findRun s (fnOf s s.cur) (s.me.getG a) = some (k, r) →
        let w := (s.me.getG b).toNat
        let st : Stream := {
          run := (s.me.getG a).toNat, mode := .read, stall := false, susp := false
          voff := w / 2 ^ 40 % 2 ^ 12, vwid := w / 2 ^ 52 % 2 ^ 12, next := w % 2 ^ 40, ranOut := false
          stop := if e = 0 then 2 ^ 41 - 1 else (s.me.getG e).toNat % 2 ^ 41 }
        exec (.ropenR e a b n) s = .next (settled (updRun s k (fun r => { r with streams := r.streams + 1 })) 1
          (fun c => { c with streams := c.streams.set i.val st i.isLt }))) ∧
      (∀ (a : GReg) k r, Quiet s [.g a] [] → findRun s (fnOf s s.cur) (s.me.getG a) = some (k, r) →
        let st : Stream := { Stream.closed with run := (s.me.getG a).toNat, mode := .append }
        (r.state = .open_ → exec (.ropenA a n) s =
          .next (settled (updRun s k (fun r => { r with streams := r.streams + 1, ended := false })) 1
            (fun c => { c with streams := c.streams.set i.val st i.isLt }))) ∧
        (r.state ≠ .open_ → isUser s.cur = true → s.me.sup = false → exec (.ropenA a n) s =
          .next (trapped s .runSealed (runFaultWord (s.me.getG a).toNat r.length 0 n.toNat)))) ∧
      (Quiet s [] [] → exec (.rclose n) s = .next (settled s 1 id))) ∧
    (let st := s.me.streams.get i
      let k := runKey (fnOf s s.cur) st.run
      Quiet s [] [] → st.mode ≠ .closed → ∀ r, tabGet s.runs k = some r →
        (r.dpend = true → runStopped s r = true → exec (.rclose n) s = .next (waitHere s s.cur)) ∧
        ((r.dpend = true → runStopped s r = false) → ∃ t, exec (.rclose n) s = .next t ∧ t.me.streams.get i = Stream.closed ∧
          (∀ j, j ≠ i → t.me.streams.get j = s.me.streams.get j) ∧
          (r.dpend = true → r.streams ≤ 1 → tabGet t.runs k = none) ∧
          (r.dpend = false → ∃ u, tabGet t.runs k = some u ∧ u.streams = r.streams - 1 ∧ u.length = r.length ∧
            u.state = r.state ∧
            (r.state = .open_ → ∀ g ∈ u.ranges, oneStream s.cur i g.by_ = true → g.pub = true))))

/-! ### Engine commands and timelines -/

/-- R278 and R284 to R292, R296, R294: each engine instruction whose checks pass issues its command with the next number of
its timeline. -/
def Obligations.EngineIssue : Prop :=
  ∀ (s : State) (d a b : GReg) (tl : Fin 8), Issuable s tl →
    let fn := fnOf s s.cur
    let word (r : GReg) := s.me.getG r
    let block (n : Nat) := memRead s.me.loc (word a).toNat n
    (∀ (cb : BitVec 3) (kw : Bool) ko o ki i, Quiet s [.g d, .g a] [] →
      findRun s fn (word d) = some (ko, o) → findRun s fn (word a) = some (ki, i) → ki ≠ ko → o.state = .open_ →
      cbOk s.me cb.toNat = true → o.recsz = i.recsz → (if kw then 16 else 8) ≤ o.recsz →
      i.recsz ≤ (s.dies.get (dieOf s.cur)).formB →
      ∃ u, IssuedAs s tl (.sort (word d).toNat (word a).toNat kw cb.toNat) [] [] u ∧
        exec (.sortr d a cb kw tl) s = .next (settled u 1 id)) ∧
    (∀ (cb : BitVec 3) (kw : Bool) ko o (ws : List W64), Quiet s [.g d, .g a, .g b] [] →
      (b ≠ 0 ∧ ws = [word a, word b] ∨
        b = 0 ∧ ∃ k, 2 ≤ k ∧ k ≤ 16 ∧ k = leNat (block 4) ∧ (word a).toNat % 4 = 0 ∧
          (word a).toNat + 4 + 4 * k ≤ s.me.kernel.loc ∧
          ws = (List.range k).map (fun j => w64 (leNat (memRead s.me.loc ((word a).toNat + 4 + 4 * j) 4)))) →
      findRun s fn (word d) = some (ko, o) → o.state = .open_ → cbOk s.me cb.toNat = true →
      (if kw then 16 else 8) ≤ o.recsz →
      (∀ w ∈ ws, ∃ k r, findRun s fn w = some (k, r) ∧ k ≠ ko ∧ r.recsz = o.recsz) →
      ∃ u, IssuedAs s tl (.merge (word d).toNat (ws.map (·.toNat)) kw cb.toNat) [] [] u ∧
        exec (.mrgr d a b cb kw tl) s = .next (settled u 1 id)) ∧
    (∀ (mode : BitVec 2) (kw : Bool) ko o kl l kr r, Quiet s [.g d, .g a, .g b] [] → mode ≠ 3 →
      findRun s fn (word d) = some (ko, o) → findRun s fn (word a) = some (kl, l) →
      findRun s fn (word b) = some (kr, r) → kl ≠ ko → kr ≠ ko → o.state = .open_ →
      let z := if kw then 16 else 8
      z ≤ o.recsz → z ≤ l.recsz → z ≤ r.recsz →
      o.recsz + z = (if mode = 2 then l.recsz + z else l.recsz + r.recsz + 4) →
      ∃ u, IssuedAs s tl (.join (word d).toNat (word a).toNat (word b).toNat mode.toNat kw) [] [] u ∧
        exec (.joinr d a b mode kw tl) s = .next (settled u 1 id)) ∧
    (Quiet s [.g a] [] → (word a).toNat % 8 = 0 → (word a).toNat + 104 ≤ s.me.kernel.loc →
      let c := copyBlockOf (block 104)
      let total := c.count * c.esz
      copyWordOk (blockField (block 104) 0 8) c = true → copyOver s.me c = none → total ≠ 0 →
      (c.ssp = 2 → ∃ k r, findRun s fn (w64 c.shdl) = some (k, r) ∧ total % r.recsz = 0) →
      (c.dsp = 2 → ∃ k r, findRun s fn (w64 c.dhdl) = some (k, r) ∧ r.state = .open_ ∧ total % r.recsz = 0) →
      ¬ (c.ssp = 2 ∧ c.dsp = 2 ∧ c.shdl = c.dhdl) →
      let srcs := if c.ssp = 2 then [] else c.sources
      let dsts := if c.dsp = 2 then [] else c.dests
      (∀ x ∈ srcs, x % (c.esz : Int) = 0 ∧ 0 ≤ x ∧ x + c.esz ≤ spaceSize s.me c.ssp) →
      (∀ x ∈ dsts, x % (c.esz : Int) = 0 ∧ 0 ≤ x ∧ x + c.esz ≤ spaceSize s.me c.dsp) →
      ∃ u, IssuedAs s tl (.copy c total) (sideInterval c.ssp c.esz srcs) (sideInterval c.dsp c.esz dsts) u ∧
        exec (.cpy a tl) s = .next (settled u 1 id)) ∧
    (∀ k r, Quiet s [.g d, .g a, .g b] [] → findRun s fn (word d) = some (k, r) → r.state = .open_ →
      let n := (word b).toNat
      0 < n → n % r.recsz = 0 → n ≤ 65536 → n ≤ 16 * r.recsz → (word a).toNat + n ≤ s.me.kernel.loc →
      ∃ u, IssuedAs s tl (.enqw (word d).toNat (word a).toNat n) [⟨false, (word a).toNat, (word a).toNat + n⟩] [] u ∧
        exec (.enqw d a b tl) s = .next (settled u 1 id)) ∧
    (∀ (tier : BitVec 2) k r, Quiet s [.g d, .g a, .g b] [] → s.me.sup = true →
      findRun s fn (word d) = some (k, r) → (word a).toNat < r.leaves.length →
      ∃ u, IssuedAs s tl (.migrate (word d).toNat (word a).toNat (word b).toNat tier.toNat) [] [] u ∧
        exec (.rmig d a b tier tl) s = .next (settled u 1 id)) ∧
    (∀ k r, Quiet s [.g a] [] → findRun s fn (word a) = some (k, r) →
      ∃ u, IssuedAs s tl (.stage (word a).toNat ((r.wmark * r.recsz + 65535) / 65536)) [] [] u ∧
        exec (.stage a tl) s = .next (settled u 1 id)) ∧
    (∀ ko o ki i, Quiet s [.g a] [] → (word a).toNat % 8 = 0 → (word a).toNat + 80 ≤ s.me.kernel.loc →
      let c := collBlockOf (block 80)
      c.mode ≠ 3 → fld (blockField (block 80) 0 8) 19 45 = 0 → 2 ≤ c.m → c.m ≤ 16 →
      findRun s fn (w64 c.out) = some (ko, o) → findRun s fn (w64 c.inp) = some (ki, i) → ki ≠ ko →
      o.state = .open_ → cbOk s.me c.cb = true → o.recsz = i.recsz → (if c.kw then 16 else 8) ≤ o.recsz →
      ∃ u, IssuedAs s tl (.coll c) [] [] u ∧ exec (.coll a tl) s = .next (settled u 1 id)) ∧
    (∀ (at_ : Fin 8) (t : CtId) k, Quiet s [.g a] [] → word a = w64 t.val → partNo s s.cur = some k →
      partNo s (ctAgent t) = some k →
      ∃ u, IssuedAs (release s s.cur) tl (.notify t.val at_.val none s.me.trail.entries.length s.me.trail.gen) [] [] u ∧
        exec (.tlnotify a tl at_) s = .next (settled u 1 id))

/-- R29: handle 0, a handle with upper bits set, a free descriptor and a dropped run name no run, and an instruction whose
operand does so raises RUN_HANDLE with the operand. R278, said of `sortr`: before a command is issued the checks come in
their order; a timeline beyond the declared count raises RESOURCE, an operand that names no run RUN_HANDLE, an output that
is also an input RUN_HANDLE, and one that is not open RUN_SEALED. -/
def Obligations.RunChecks : Prop :=
  ∀ (s : State) (d a : GReg), isUser s.cur = true → s.me.sup = false →
    let fn := fnOf s s.cur
    let w := s.me.getG a
    (w = 0 ∨ 2 ^ 20 ≤ w.toNat ∨ tabGet s.runs (runKey fn w.toNat) = none ∨
      (∃ r, tabGet s.runs (runKey fn w.toNat) = some r ∧ r.dpend = true) →
      (Quiet s [.g a] [.g d] → exec (.rseal d a) s = .next (trapped s .runHandle w) ∧
        exec (.rfork d a) s = .next (trapped s .runHandle w) ∧
        ∀ k, exec (.rinfo d a k) s = .next (trapped s .runHandle w)) ∧
      (Quiet s [.g a] [] → exec (.rdrop a) s = .next (trapped s .runHandle w))) ∧
    (∀ (cb : BitVec 3) (kw : Bool) (tl : Fin 8), Quiet s [.g d, .g a] [] →
      let i := Instr.sortr d a cb kw tl
      (s.me.kernel.ntl ≤ tl.val → exec i s = .next (trapped s .resource (w64 tl.val))) ∧
      (tl.val < s.me.kernel.ntl →
        (findRun s fn (s.me.getG d) = none → exec i s = .next (trapped s .runHandle (s.me.getG d))) ∧
        (∀ ko o, findRun s fn (s.me.getG d) = some (ko, o) →
          (findRun s fn w = none → exec i s = .next (trapped s .runHandle w)) ∧
          (∀ ki r, findRun s fn w = some (ki, r) →
            (ki = ko → exec i s = .next (trapped s .runHandle (s.me.getG d))) ∧
            (ki ≠ ko → o.state ≠ .open_ → exec i s =
              .next (trapped s .runSealed (runFaultWord (s.me.getG d).toNat o.length 0 0)))))))

/-- R102, R103, R106, R280 and R293: `tlwait` of a number that is done acquires the senders of the notifications up to it
and goes on, with what vector loads have read ahead no longer standing (R306; notes/assumptions/13.md), one of a number to come waits, and one beyond done + 2^32 raises TIMELINE_RANGE; `tlwait.ev` arms the event;
`tlget` reads a status word and, where asked, clears words 1 to 5 and err. -/
def Obligations.TimelineResults : Prop :=
  ∀ (s : State) (a d : GReg) (tl : Fin 8), tl.val < s.me.kernel.ntl →
    let t := s.me.tls.get tl
    let n := (s.me.getG a).toNat
    (Quiet s [.g a] [] →
      (n ≤ t.done → ∀ u, acquireMarks s s.cur
          ((t.notes.filter (fun m => m.num ≤ n)).map (fun m => markEntry m.from_ m.tail m.gen)) = .ok u →
        exec (.tlwait a tl) s = .next (settled u 1 (fun c => { c with
          tls := c.tls.set tl.val { c.tls.get tl with notes := t.notes.filter (fun m => n < m.num) } tl.isLt }))) ∧
      (n ≤ t.done → t.notes = [] → s.me.view.length ≤ Config.viewCapacity →
        exec (.tlwait a tl) s = .next (settled s 1 (fun c => { c with early := [] }))) ∧
      (t.done < n → n ≤ t.done + 2 ^ 32 → exec (.tlwait a tl) s = .next (waitHere s s.cur)) ∧
      (t.done + 2 ^ 32 < n → isUser s.cur = true → s.me.sup = false →
        exec (.tlwait a tl) s = .next (trapped s .timelineRange (w64 n))) ∧
      exec (.tlwaitEv a tl) s = .next (settled s 1 (fun c => { c with
        tls := c.tls.set tl.val { t with arm := true, armv := n } tl.isLt }))) ∧
    (∀ (clr : Bool) (word : BitVec 3), Quiet s [] [.g d] → word.toNat < 6 →
      let x := match word.toNat with
        | 0 => w64 t.done | 1 => t.cons | 2 => t.emit | 3 => t.miss | 4 => t.brk
        | _ => w64 (t.flg.toNat + b2n t.err * 2 ^ 8 + t.cause.toNat * 2 ^ 16 + t.cnum % 2 ^ 40 * 2 ^ 24)
      exec (.tlget d clr word tl) s = .next (settled s 1 (fun c => { c.setG d x with
        tls := if clr then c.tls.set tl.val { t with
            cons := 0, emit := 0, miss := 0, brk := 0, flg := 0, cause := 0, cnum := 0, err := false } tl.isLt
          else c.tls })))

/-! ### Barriers -/

/-- R92 and R295: on a barrier of the launch whose group holds the issuer, `barinit` sets it up, in phase 0, which releases every
`barwait` that waits on the barrier for another phase, `bararr` releases, answers
the phase and counts the arrival, ending the phase where it is the last and nothing is pending, at which instant every
`barwait` that waits on the barrier is released; `barwait` of an earlier phase acquires the group's trails, one of the
present phase waits, and one that was released goes on whatever the barrier shows by then; and `baradd` adds to the pending
count. -/
def Obligations.BarrierResults : Prop :=
  ∀ (s : State) (n : Fin 16) (id' : Nat) (l : Launch), n.val < s.me.kernel.nbar → s.me.launch = some id' →
    tabGet s.launches id' = some l → isUser s.cur = true →
    let b := l.bars.get n
    let put (s : State) (x : Barrier) := s.updLaunch id' (fun l => { l with bars := l.bars.set n.val x n.isLt })
    let free (u : State) (which : BitVec 16 → Bool) : State :=
      let go (c : CT) : CT := if c.launch = some id' then
          { c with barw := c.barw.map (fun w =>
            if w.bar = n ∧ w.fate = .waiting ∧ which w.phase then { w with fate := .released } else w) }
        else c
      { u with
        cts := Vector.ofFn (fun k : Fin 144 => go (u.cts.get k))
        images := u.images.map (fun e => (e.1, { e.2 with ctx := go e.2.ctx })) }
    let member (g : Nat) := (l.groups[g]?.getD 0).getLsbD s.cur.val = true
    (∀ x y : GReg, Quiet s [.g x, .g y] [] →
      let e := (s.me.getG x).toNat
      let g := (s.me.getG y).toNat
      g < s.me.kernel.ngrp → 1 ≤ e → e ≤ 128 → b.arrived = 0 → member g →
        exec (.barinit x y n) s = .next (settled (free (put s ⟨e, 0, g, 0, 0, false⟩) (fun ph => ph ≠ 0)) 1 id)) ∧
    (∀ d : GReg, Quiet s [] [.g d] → member b.group → b.err = false → b.arrived < b.expect →
      let last := b.arrived + 1 = b.expect ∧ b.pending = 0
      let x := if last then { b with arrived := 0, phase := b.phase + 1 } else { b with arrived := b.arrived + 1 }
      let u := put (release s s.cur) x
      exec (.bararr d n) s =
        .next (settled (if last then free u (fun _ => true) else u) 1 (fun c => c.setG d (b.phase.setWidth 64)))) ∧
    (∀ a : GReg, Quiet s [.g a] [] →
      let ph := (s.me.getG a).setWidth 16
      let members (g : Nat) := (List.finRange 128).filter (fun t => (l.groups[g]?.getD 0).getLsbD t.val)
      let here (w : BarWait) := w.pc = s.me.pc ∧ w.bar = n ∧ w.phase = ph
      (member b.group → (∀ w ∈ s.me.barw, ¬ here w) → b.err = false →
        (b.phase = ph → exec (.barwait a n) s = .next (waitHere (s.upd (fun c =>
          { c with barw := c.barw ++ [⟨c.pc, n, ph, b.group, .waiting⟩] })) s.cur)) ∧
        (b.phase ≠ ph → ∀ u, acquireTrails s s.cur (members b.group) = .ok u →
          exec (.barwait a n) s = .next (settled u 1 id))) ∧
      (∀ w ws, s.me.barw = w :: ws → here w → (∀ v ∈ ws, ¬ here v) →
        (w.fate = .waiting → exec (.barwait a n) s = .next (waitHere s s.cur)) ∧
        (w.fate = .released → ∀ u, acquireTrails s s.cur (members w.group) = .ok u →
          exec (.barwait a n) s = .next (settled u 1 (fun c => { c with barw := ws })))) ∧
      (member b.group → b.pending + (s.me.getG a).toNat < 2 ^ 36 → exec (.baradd a n) s =
        .next (settled (put s { b with pending := b.pending + (s.me.getG a).toNat }) 1 id)))

/-- R295 and R92: the faults of the barrier instructions in user mode: RESOURCE for a number beyond the declared count, and for a
group of `barinit` beyond its own, GROUP for an issuer outside the barrier's group, or outside the one that `barinit` names, and BARRIER for a `barinit` of 0 or more than 128 threads or of a barrier
with arrivals, for a `bararr` beyond the expected count (after its release), a `barwait` on an error or one that an error met
as it waited, and a `baradd` past 2^36 - 1. -/
def Obligations.BarrierTraps : Prop :=
  ∀ (s : State) (n : Fin 16) (id' : Nat) (l : Launch), s.me.launch = some id' →
    tabGet s.launches id' = some l → isUser s.cur = true → s.me.sup = false →
    let b := l.bars.get n
    let member (g : Nat) := (l.groups[g]?.getD 0).getLsbD s.cur.val = true
    (∀ d a : GReg, s.me.kernel.nbar ≤ n.val →
      (Quiet s [] [.g d] → exec (.bararr d n) s = .next (trapped s .resource (w64 n.val))) ∧
      (Quiet s [.g a] [] → exec (.barwait a n) s = .next (trapped s .resource (w64 n.val)) ∧
        exec (.baradd a n) s = .next (trapped s .resource (w64 n.val)))) ∧
    (∀ x y : GReg, Quiet s [.g x, .g y] [] →
      (s.me.kernel.nbar ≤ n.val → exec (.barinit x y n) s = .next (trapped s .resource (w64 n.val))) ∧
      (n.val < s.me.kernel.nbar → s.me.kernel.ngrp ≤ (s.me.getG y).toNat →
        exec (.barinit x y n) s = .next (trapped s .resource (s.me.getG y))) ∧
      (n.val < s.me.kernel.nbar → (s.me.getG y).toNat < s.me.kernel.ngrp → 1 ≤ (s.me.getG x).toNat →
        (s.me.getG x).toNat ≤ 128 → b.arrived = 0 → ¬ member (s.me.getG y).toNat →
        exec (.barinit x y n) s = .next (trapped s .group (s.me.getG y)))) ∧
    (n.val < s.me.kernel.nbar →
      (∀ x y : GReg, Quiet s [.g x, .g y] [] → (s.me.getG y).toNat < s.me.kernel.ngrp →
        (s.me.getG x = 0 ∨ 128 < (s.me.getG x).toNat ∨ b.arrived ≠ 0) →
        exec (.barinit x y n) s = .next (trapped s .barrier (w64 n.val))) ∧
      (∀ d : GReg, Quiet s [] [.g d] →
        (¬ member b.group → exec (.bararr d n) s = .next (trapped s .group (w64 b.group))) ∧
        (member b.group → b.err = true ∨ b.expect ≤ b.arrived →
          exec (.bararr d n) s = .next (trapped (release s s.cur) .barrier (w64 n.val)))) ∧
      (∀ a : GReg, Quiet s [.g a] [] → ¬ member b.group →
        (s.me.barw = [] → exec (.barwait a n) s = .next (trapped s .group (w64 b.group))) ∧
        exec (.baradd a n) s = .next (trapped s .group (w64 b.group))) ∧
      (∀ a : GReg, Quiet s [.g a] [] → member b.group →
        (b.err = true → s.me.barw = [] → exec (.barwait a n) s = .next (trapped s .barrier (w64 n.val))) ∧
        (∀ w, s.me.barw = [w] → w.pc = s.me.pc → w.bar = n → w.phase = (s.me.getG a).setWidth 16 → w.fate = .failed →
          exec (.barwait a n) s = .next (trapped s .barrier (w64 n.val)) ∧ (trapped s .barrier (w64 n.val)).me.barw = []) ∧
        (2 ^ 36 ≤ b.pending + (s.me.getG a).toNat →
          exec (.baradd a n) s = .next (trapped s .barrier (w64 n.val)))))

/-! ### Tasks -/

/-- R314 and Table 20.4: `panel` grants the next chunk in row-major order and moves the cursor; an exhausted panel grants
0. -/
def Obligations.PanelResults : Prop :=
  ∀ (s : State) (d a b : GReg) (id' : Nat) (l : Launch), Quiet s [.g a, .g b] [.g d] → s.me.launch = some id' →
    tabGet s.launches id' = some l →
    let wantCols := min 2048 (max 1 (s.me.getG a).toNat)
    let wantRows := min 256 (max 1 (s.me.getG b).toNat)
    let rows := l.lrec.rows
    let cols := l.lrec.cols
    let c := s.me
    (rows ≤ c.row0 → exec (.panel d a b) s = .next (settled s 1 (fun c => c.setG d 0))) ∧
    (c.row0 < rows →
      let band := if c.col0 = 0 then min wantRows (rows - c.row0) else c.band
      let n := min wantCols (cols - c.col0)
      let w := w64 (c.col0 + c.row0 * 2 ^ 20 + n * 2 ^ 40 + band * 2 ^ 52)
      exec (.panel d a b) s = .next (settled s 1 (fun c => { c.setG d w with
        col0 := if c.col0 + n = cols then 0 else c.col0 + n
        row0 := if c.col0 + n = cols then c.row0 + band else c.row0
        band := band })))

/-- R315, R316 and R363: `spawn` of a legal record with a slot free releases, submits the record as a child of the issuer's
launch and answers the slot; `join` of a completed child acquires the partition and answers its status, and of one that
runs waits. -/
def Obligations.ChildResults : Prop :=
  ∀ (s : State) (d a : GReg),
    (∀ (part : Fin 32) (id' : Nat) (l : Launch), Quiet s [.g a] [.g d] → partNo s s.cur = some part →
      s.me.launch = some id' → tabGet s.launches id' = some l →
      let w := (s.me.getG a).toNat
      let r := recordOf (memRead s.me.loc w 64)
      w % 8 = 0 → w + 64 + 64 * r.npar ≤ s.me.kernel.loc →
      (∃ n < 16, ∀ q, tabGet s.me.children n = some q → q.joined = true) →
      0 < r.tasks → r.tasks < 2 ^ 24 → l.depth < 8 →
      ∃ slot < 16, (∀ q, tabGet s.me.children slot = some q → q.joined = true) ∧
        let u := release s s.cur
        let child := Launch.fresh r (memRead s.me.loc (w + 64) (64 * r.npar)) l.fn part l.q (l.depth + 1)
          (some (s.cur.val, slot))
        exec (.spawn d a) s = .next (settled
          { u with
            nextLaunch := s.nextLaunch + 1
            fresh := s.fresh + 1
            launches := tabSet s.launches s.nextLaunch child } 1
          (fun c => { c.setG d (w64 slot) with children := tabSet c.children slot ⟨s.nextLaunch, none, false⟩ }))) ∧
    (∀ q, Quiet s [.g a] [.g d] →
      let slot := (s.me.getG a).toNat % 16
      tabGet s.me.children slot = some q →
        (q.status = none → exec (.join d a) s = .next (waitHere s s.cur)) ∧
        (∀ w k u, q.status = some w → partNo s s.cur = some k → acquireTrails s s.cur (partCts s k) = .ok u →
          exec (.join d a) s = .next (settled u 1 (fun c =>
            { c.setG d w with children := tabSet c.children slot { q with joined := true } }))))

/-- R317, R160, R367 and R418: `tdone`, unless it waits to free a run with frames on a die that has stopped, closes every stream, publishes the whole trail, ends the task and leaves the thread bound
to its launch with empty nests and zero planes; the launch counts one more task that completed. -/
def Obligations.TaskEndResult : Prop :=
  ∀ (s : State) (k id' : Nat) (l : Launch), Quiet s [] [] → isUser s.cur = true → s.me.task = some k →
    s.me.status ≠ .halted → s.me.launch = some id' → tabGet s.launches id' = some l → s.me.children = [] →
    (closeWaits s (List.finRange 4) = true → exec .tdone s = .next (waitHere s s.cur)) ∧
    (closeWaits s (List.finRange 4) = false → ∃ t, exec .tdone s = .next t ∧ t.me.task = none ∧ t.me.status = .bound ∧ t.me.launch = s.me.launch ∧
      t.me.loops = [] ∧ t.me.lift = Lift.empty ∧ t.me.front = Plane.zero ∧ t.me.shadow = Plane.zero ∧
      t.me.sup = false ∧ t.me.inUev = false ∧ t.me.cmds = s.me.cmds ∧
      (∀ i, (t.me.streams.get i).mode = .closed) ∧
      t.me.trail = { s.me.trail with pub := s.me.trail.entries.length } ∧
      (∃ q, tabGet t.launches id' = some { l with ended := l.ended + 1, ok := l.ok + 1, runs := q } ∧ ∀ k ∈ q, k ∈ l.runs) ∧
      (∀ j, j ≠ s.cur → t.ct j = s.ct j))

/-- R318, R33, R358 and R319: `wmset` of a stream in append mode publishes what it has appended, and of another raises
RUN_HANDLE (its `tval`, the handle in the stream's state, is the model's choice, notes/assumptions/32.md); `wmwait` answers a watermark
that has reached gb, waits where it can still rise, and raises RUN_RANGE where it cannot, and where the run has ended while it waited. In user mode `ctkill` of another thread that runs a task of the issuer's kernel releases, drops the target's strip
and unpublished trail entries (but for those that a `rel` of it has put off to publish, notes/assumptions/5.md), ends its task,
and writes 1; a self-kill ends the issuer's task and writes no register; a
target that runs no task of that kernel raises PRIVILEGE. -/
def Obligations.WatermarkAndKill : Prop :=
  (∀ (s : State) (n : BitVec 2), n.toNat < s.me.kernel.nst →
    let st := s.me.streams.get (Fin.ofNat 4 n.toNat)
    (Quiet s [] [] →
      (st.mode = .append → ∃ u, exec (.wmset n) s = .next (settled u 1 id) ∧ u.cts = s.cts ∧ u.frames = s.frames ∧
        ∀ r, tabGet s.runs (runKey (fnOf s s.cur) st.run) = some r → r.state = .open_ →
          ∃ q, tabGet u.runs (runKey (fnOf s s.cur) st.run) = some q ∧ q.length = r.length ∧ q.state = .open_ ∧
            ∀ g ∈ q.ranges, oneStream s.cur (Fin.ofNat 4 n.toNat) g.by_ = true → g.pub = true) ∧
      (st.mode ≠ .append → isUser s.cur = true → s.me.sup = false →
        exec (.wmset n) s = .next (trapped s .runHandle (w64 st.run)))) ∧
    (∀ (d a b : GReg) k r, Quiet s [.g a, .g b] [.g d] → findRun s (fnOf s s.cur) (s.me.getG a) = some (k, r) →
      ((s.me.level, s.me.pc) ∈ s.me.ranOut → isUser s.cur = true → s.me.sup = false →
        exec (.wmwait d a b) s = .next (trapped s .runRange (runFaultWord (s.me.getG a).toNat r.wmark 0 0))) ∧
      ((s.me.level, s.me.pc) ∉ s.me.ranOut → (s.me.getG b).toNat ≤ r.wmark →
        exec (.wmwait d a b) s = .next (settled s 1 (fun c => c.setG d (w64 r.wmark)))) ∧
      ((s.me.level, s.me.pc) ∉ s.me.ranOut → r.wmark < (s.me.getG b).toNat →
        (r.state = .open_ → r.ended = false → exec (.wmwait d a b) s = .next (waitHere s s.cur)) ∧
        (r.state ≠ .open_ ∨ r.ended = true → isUser s.cur = true → s.me.sup = false →
          exec (.wmwait d a b) s =
            .next (trapped s .runRange (runFaultWord (s.me.getG a).toNat r.wmark 0 0)))))) ∧
  (∀ (s : State) (d a : GReg), Quiet s [.g a] [.g d] → isUser s.cur = true → s.me.sup = false →
    let t := agentOf ((s.me.getG a).toNat % 128)
    (sameKernel s s.cur t = true → t ≠ s.cur →
      ∃ u, exec (.ctkill d a) s = .next (settled u 1 (fun c => c.setG d 1)) ∧
        u.me.trail = { s.me.trail with pub := s.me.trail.entries.length } ∧ u.me.loc = s.me.loc ∧
        (u.ct t).task = none ∧ (u.ct t).strip = none ∧ (u.ct t).cmds = [] ∧ (u.ct t).vq = [] ∧
        (u.ct t).loc = (s.ct t).loc ∧ (u.ct t).launch = (s.ct t).launch ∧
        (let kept := max (s.ct t).trail.pub (s.ct t).owed;
          (u.ct t).trail = { (s.ct t).trail with pub := kept, entries := (s.ct t).trail.entries.take kept })) ∧
    (sameKernel s s.cur t = true → t = s.cur → s.me.inTrap = false →
      ∃ u, exec (.ctkill d a) s = .next u ∧ u.me.task = none ∧ u.me.g = s.me.g ∧ u.me.launch = s.me.launch) ∧
    (sameKernel s s.cur t = false →
      exec (.ctkill d a) s = .next (trapped s .privilege (w64 ((encodeScalar (.ctkill d a)).getD 0)))))

/-! ### Vector configuration -/

/-- R206, R116 and Table 6.5: `vsetf` and `vsetg` set their fields of `vtype`, write the new VLMAX to gd and lower VL to
it; a gap of a type other than ds4 and ds8, a record size of one other than rec, and group code 11 raise ILLEGAL; blen
reads 0 whatever is written. -/
def Obligations.VectorTypes : Prop :=
  ∀ (s : State) (d : GReg), Quiet s [] [.g d] → isUser s.cur = true →
    let lane := 32 * min (s.cores.get (coreOf s.cur)).healthy s.me.vlcap.toNat
    (∀ t : VType, t.word.toNat / 64 % 4 = 0 ∧ (t.grp ≠ 3 → vlmaxOf lane t =
      if t.ty = .none then 0
      else if t.ty = .record then 2 ^ t.grp.toNat * lane * 4 / (4 * (t.rsz.toNat + 1))
      else min 2048 (2 ^ t.grp.toNat * lane * 32 / tyWidth t.ty))) ∧
    (∀ (rsz : BitVec 6) (gap : BitVec 4) (ty : VTy),
      let t := { s.me.vtype with ty := ty, gap := gap, rsz := rsz }
      (¬ (gap ≠ 0 ∧ ty ≠ .ds4 ∧ ty ≠ .ds8) → ¬ (rsz ≠ 0 ∧ ty ≠ .record) →
        exec (.vsetf d rsz gap ty) s = .next (settled s 1 (fun c =>
          { c.setG d (w64 (vlmaxOf lane t)) with vtype := t, vl := min c.vl (vlmaxOf lane t) }))) ∧
      (s.me.sup = false → (gap ≠ 0 ∧ ty ≠ .ds4 ∧ ty ≠ .ds8) ∨ (rsz ≠ 0 ∧ ty ≠ .record) →
        exec (.vsetf d rsz gap ty) s = .next (trapped s .illegal s.me.pc))) ∧
    (∀ grp : BitVec 2,
      let t := { s.me.vtype with grp := grp }
      (grp ≠ 3 → exec (.vsetg d grp) s = .next (settled s 1 (fun c =>
        { c.setG d (w64 (vlmaxOf lane t)) with vtype := t, vl := min c.vl (vlmaxOf lane t) }))) ∧
      (s.me.sup = false → grp = 3 → exec (.vsetg d grp) s = .next (trapped s .illegal s.me.pc)))

/-- R117, R124 and R207: `vsetvl` grants the length, in whole blocks of a block type (VLMAX of an element type is a multiple
of 32), writes it to gd, advances a strip
pointer that the mask names by its bytes, clears `vstart`, and opens a strip whose checkpoint is the state at the
instruction. -/
def Obligations.StripOpening : Prop :=
  ∀ (s : State) (d a : GReg) (mask : BitVec 4) (ps : List (GReg × Nat)), isUser s.cur = true →
    stripPointers s.me mask = ps →
    Quiet s (.g a :: ps.map (fun q => .g q.1)) (.g d :: ps.map (fun q => .g q.1)) →
    let t := s.me.vtype.ty
    let avl := (s.me.getG a).toNat
    let vl := if t = .ds4 ∨ t = .ds8 ∨ t = .mx4 then min (32 * ((avl + 31) / 32)) (vlmax s s.cur)
      else min avl (vlmax s s.cur)
    ∃ f : CT → CT, exec (.vsetvl d a mask) s = .next (settled s 1 f) ∧
      let c := f s.me
      (t ≠ .none → t ≠ .record → vlmax s s.cur % 32 = 0) ∧
      c.vl = vl ∧ c.vstart = 0 ∧ (d ≠ 0 → c.getG d = w64 vl) ∧
      ((ps.map (·.1)).Nodup → ∀ q ∈ ps, q.1 ≠ d → c.getG q.1 = s.me.getG q.1 + w64 (
        if (t = .ds4 ∨ t = .ds8 ∨ t = .mx4) ∧ q.2 = 0 then
          vl / 32 * (if t = .ds4 then 18 else if t = .ds8 then 34 else 17)
        else vl * 2 ^ q.2)) ∧
      (∀ r, r ≠ d → (∀ q ∈ ps, q.1 ≠ r) → c.getG r = s.me.getG r) ∧
      (∃ k, c.strip = some k ∧ k.writes = [] ∧ k.overflow = false ∧ k.check.pc = s.me.pc ∧
        k.check.vl = s.me.vl ∧ k.check.vtype = s.me.vtype ∧
        ∀ r ∈ a :: d :: ps.map (·.1), (r, s.me.getG r, s.me.getGTag r) ∈ k.check.regs) ∧
      c.vtype = s.me.vtype ∧ c.p = s.me.p ∧ c.v = s.me.v ∧ c.loc = s.me.loc ∧ c.trail = s.me.trail

/-! ### Lift-calls -/

/-- R268 and R276: `lift` opens a level of its extent, with every active tuple extended by every index, and transfers
control; an extent of 0 or above 256, a fourth level, more than 4,096 tuples, or slots beyond the lift frame raise
AXIS_OVERFLOW. `lend` returns to the instruction after the `lift` with the tuples active when it opened; every tag loses
the axis, and at depth 1 a batched register takes its last copy. -/
def Obligations.LiftResults : Prop :=
  ∀ (s : State) (a : GReg) (i : BitVec 15),
    (Quiet s [.g a] [] →
      let e := (s.me.getG a).toNat
      let es := s.me.extents ++ [e]
      let slots := ((List.range es.length).map (fun k => (es.take (k + 1)).foldl (· * ·) 1)).sum
      let fits := 1 ≤ e ∧ e ≤ 256 ∧ s.me.lift.levels.length ≠ 3 ∧ es.foldl (· * ·) 1 ≤ 4096 ∧
        s.me.slotBytes * slots ≤ s.me.kernel.lift
      let t := s.me.pc + BitVec.ofInt 64 (4 * i.toInt)
      (fits → t.toNat < codeBytes s s.cur → exec (.lift a i) s = .next (jumped s t (fun c => { c with
        lift := { c.lift with
          levels := c.lift.levels ++ [⟨e, s.me.pc + 4, c.lift.active⟩]
          active := c.lift.active.flatMap (fun n => (List.range e).map (fun j => n * e + j)) } }))) ∧
      (¬ fits → isUser s.cur = true → s.me.sup = false →
        exec (.lift a i) s = .next (trapped s .axisOverflow (s.me.getG a)))) ∧
    (∀ l, Quiet s [] [] → s.me.locBad = [] → s.me.lift.levels.getLast? = some l →
      ∃ t, exec .lend s = .next t ∧ t.me.pc = l.ret ∧ t.me.lift.levels = s.me.lift.levels.dropLast ∧
        t.me.lift.active = l.outer ∧
        (∀ x, hasAxis (t.me.refTag x) s.me.lift.levels.length = false ∧
          ∀ j, j + 1 ≠ s.me.lift.levels.length → (t.me.refTag x).getLsbD j = (s.me.refTag x).getLsbD j) ∧
        (∀ r : GReg, s.me.getGTag r = 0 → t.me.getG r = s.me.getG r) ∧
        (s.me.lift.levels.length = 1 → (∀ x, s.me.refTag x = 0 ∨ s.me.refTag x = 1) → ∀ r : GReg, s.me.getGTag r = 1 →
          t.me.getG r = w64 (leNat (s.me.copyBytes (.g r) 1 (l.extent - 1))))) ∧
    (s.me.lift.levels = [] → isUser s.cur = true → s.me.sup = false → s.me.vq = [] → s.me.strip = none →
      exec .lend s = .next (trapped s .illegal s.me.pc))

/-- R274 and R270: the lift queries. `ltag` answers a register's tag. At depth 1, with no region open: `lidx` gives every
active example its index and a tag of that axis; `lred` folds the active copies of ga, `lpick` takes the copy at g(gb) or 0
beyond the extent, and `lact` gives the active examples as bits, each unbatched. At depth 0 they raise ILLEGAL. -/
def Obligations.LiftQueries : Prop :=
  ∀ (s : State) (d : GReg),
    (∀ r : GReg, Quiet s [.g r] [.g d] → exec (.ltag d 0 (BitVec.ofNat 7 r.val)) s =
      .next (settled s 1 (fun c => c.setG d 0))) ∧
    (∀ (a b : GReg) (p : PReg) (op : LredOp) (l : LiftLevel), s.me.lift.levels = [l] → d ≠ 0 → p ≠ 0 →
      d.val < s.me.kernel.gregs → p.val < s.me.kernel.pregs → s.me.kernel.gregs ≤ 32 → s.me.sup = false →
      s.me.lift.regions = [] → s.me.lift.resume = none → s.me.vq = [] → s.me.strip = none → s.me.loops = [] →
      s.me.regBad = [] → s.me.locBad = [] → (∀ n ∈ s.me.lift.active, n < l.extent) → s.me.lift.active.Nodup → s.me.lift.active ≠ [] →
      (∀ x, s.me.refTag x = 0 ∨ s.me.refTag x = 1) →
      let copy (r : GReg) (n : Nat) : W64 :=
        if s.me.getGTag r = 0 then s.me.getG r else w64 (leNat (s.me.copyBytes (.g r) 1 n))
      (∃ t, exec (.lidx d 0) s = .next t ∧ t.me.pc = s.me.pc + 4 ∧ t.me.getGTag d = 1 ∧
        (∀ n ∈ s.me.lift.active, t.me.copyBytes (.g d) 1 n = leBytes 8 n) ∧
        (∀ r, r ≠ d → t.me.getGTag r = s.me.getGTag r)) ∧
      (a.val < s.me.kernel.gregs → ∃ t, exec (.ltag d 0 (BitVec.ofNat 7 a.val)) s = .next t ∧
        t.me.pc = s.me.pc + 4 ∧ t.me.getGTag d = 0 ∧ t.me.getG d = (s.me.getGTag a).setWidth 64) ∧
      (a.val < s.me.kernel.gregs → b.val < s.me.kernel.gregs →
        (∃ t, exec (.lred d a op) s = .next t ∧ t.me.pc = s.me.pc + 4 ∧ t.me.getGTag d = 0 ∧
          t.me.getG d = ((List.range l.extent).filter (fun n => s.me.lift.active.contains n)).foldl
            (fun x n => lredFold op x (copy a n)) (lredUnit op)) ∧
        (s.me.getGTag b = 0 → ∃ t, exec (.lpick d a b) s = .next t ∧ t.me.pc = s.me.pc + 4 ∧ t.me.getGTag d = 0 ∧
          t.me.getG d = if (s.me.getG b).toNat < l.extent then copy a (s.me.getG b).toNat else 0)) ∧
      (∃ t, exec (.lact p) s = .next t ∧ t.me.pc = s.me.pc + 4 ∧ t.me.getPTag p = 0 ∧
        ∀ k < 2048, (t.me.getP p).getLsbD k = decide (k < l.extent ∧ k ∈ s.me.lift.active))) ∧
    (s.me.lift.levels = [] → isUser s.cur = true → s.me.sup = false → s.me.vq = [] → s.me.strip = none →
      ∀ (a b : GReg) (k : BitVec 2) (op : LredOp) (p : PReg),
        exec (.lidx d k) s = .next (trapped s .illegal s.me.pc) ∧
        exec (.lred d a op) s = .next (trapped s .illegal s.me.pc) ∧
        exec (.lpick d a b) s = .next (trapped s .illegal s.me.pc) ∧
        exec (.lact p) s = .next (trapped s .illegal s.me.pc))

/-- R270: a scalar operation on batched sources gives a batched result: its tag is the OR of its sources' tags, and its copy
for each active example is the operation on that example's copies; no other byte of the window is written, so no copy of an example
that is not active. Said of `add` at depth 1, for a source that is batched and another that may be, where no byte of a copy is
poisoned. -/
def Obligations.BatchedResults : Prop :=
  ∀ (s : State) (d a b : GReg) (l : LiftLevel), s.me.lift.levels = [l] → d ≠ 0 → d ≠ a → d ≠ b → s.me.sup = false →
    (∀ r ∈ [d, a, b], r.val < s.me.kernel.gregs) → s.me.kernel.gregs ≤ 32 →
    s.me.lift.regions = [] → s.me.lift.resume = none → s.me.vq = [] → s.me.strip = none → s.me.loops = [] →
    s.me.regBad = [] → s.me.locBad = [] → (∀ n ∈ s.me.lift.active, n < l.extent) → s.me.lift.active.Nodup →
    s.me.getGTag a = 1 → (s.me.getGTag b = 0 ∨ s.me.getGTag b = 1) → (s.me.getGTag d = 0 ∨ s.me.getGTag d = 1) →
    let copy (r : GReg) (n : Nat) : W64 :=
      if s.me.getGTag r = 0 then s.me.getG r else w64 (leNat (s.me.copyBytes (.g r) 1 n))
    ∃ t, exec (.add d a b) s = .next t ∧ t.me.pc = s.me.pc + 4 ∧ t.me.getGTag d = 1 ∧
      t.me.getGTag a = 1 ∧ t.me.getGTag b = s.me.getGTag b ∧
      (∀ n ∈ s.me.lift.active, t.me.copyBytes (.g d) 1 n = leBytes 8 (copy a n + copy b n).toNat) ∧
      (∀ x, (∀ n ∈ s.me.lift.active, x < s.me.slotAddr 1 n + 8 * d.val ∨ s.me.slotAddr 1 n + 8 * d.val + 8 ≤ x) →
        t.me.locByte x = s.me.locByte x) ∧
      (∀ n < l.extent, n ∉ s.me.lift.active → t.me.copyBytes (.g d) 1 n = s.me.copyBytes (.g d) 1 n) ∧
      (∀ n < l.extent, t.me.copyBytes (.g a) 1 n = s.me.copyBytes (.g a) 1 n)

/-! ### Vector instructions

Each is issued by itself, as the convoy that holds only it: the model's choice (notes/assumptions/15.md). The retirement of an
instruction of a convoy does the same to the registers (`Obligations.Convoys`). -/

/-- R113, R119, R121, R154 and R232 to R258: every vector instruction that computes on registers, issued with nothing in its way, runs to
its end at once; of its thread it changes only the registers it writes and `fflags`, and of the rest of the machine
nothing (but that a single-symbol error which it meets is corrected, R392, see `LocalAccess`). `core` is what its description has it do to the registers. These are `vadd`, `vsub`, `vmul`, `vmulh`, `vmacc`,
`vwmul`, `vwmacc`, `vsadd`, `vssub`, `vand`, `vor`, `vxor`, `vshl`, `vshr`, `vsha`, `vnshr`, `vmin`, `vmax`, `vabs`,
`vcmp`, `vfadd`, `vfsub`, `vfmul`, `vfma`, `vfnma`, `vfdiv`, `vfmin`, `vfmax`, `vfabs`, `vfneg`, `vfcmp`, `vcmpt`,
`vfsqrt`, `vsfu`, `vcvt`, `vrnd`, `vbscale` (get and set), `vbquant`, `vexpn` (both forms), `vtail` (get, set and clr),
`vmv`, `vsel`, `vbcast`, `vextr`, `vins`, `viota`, `vcompress`, `vexpand`, `vperm`, `vpush`, `vslideup`, `vslidedn`,
`vrev`, `vzip`, `vunzip`, `vredsum`, `vfredsum`, `vredmin`, `vredmax`, `vpopc`, `vfirst`, `vpand`, `vpor`, `vpxor`,
`vpnot` and `vpset`, and of the sorting unit `vsort`, `vsortk`, `vmrg`, `vsegred`, `vuniq`, `vtag`, `vsplit` and
`vsrch`. What the floating, conversion, move, permutation and reduction instructions among them write is that of `vectorElement`,
element by element, with every other element kept (not said of 6-bit fields, block types, `vcmpt` and a float sum in the part's own
order); those with a predicate or a scalar result write that of `vectorBit` and `vectorScalar`. The side bits of a moved
record, and a scalar source of one of more than 64 bits, are the model's choice (notes/assumptions/32.md). -/
def Obligations.VectorComputes : Prop :=
  ∀ (s : State) (i : Instr) (m : Form) (f : VFields) (core : VCore), VQuiet s i m f →
    (coreOp i = some (f, core) ∨ sortOp i = some (f, core)) →
      let a := lanes s s.cur
      let x := pushedCtx s i m f
      let g := core f x a
      let w := x.w1 f
      exec i s = .next (vdone (correctOnRead s s.cur) g) ∧ OnlyChanges (written s m f) s.me (g s.me) ∧
      (a ≤ 256 →
        (∀ writes value, vectorElement s.me a x i f = some (writes, value) →
          ∀ e, (e + 1) * w ≤ 32 * a * groupRegs s.me.vtype w →
            elemOf (g s.me) a s.me.vtype f.t1 f.vd e =
              if writes e then heldElem w (value e) else elemOf s.me a s.me.vtype f.t1 f.vd e) ∧
        (∀ value, vectorBit s.me a x i f = some value → predNo f f.vd 8 ≠ 0 → ∀ e < 2048,
          ((g s.me).getP (predNo f f.vd 8)).getLsbD e =
            if x.vl ≤ x.vstart then (s.me.getP (predNo f f.vd 8)).getLsbD e
            else decide (e < x.vl) && (if s.me.isActive f x e then value e else (s.me.getP (predNo f f.vd 8)).getLsbD e)) ∧
        (∀ value, vectorScalar s.me a x i f = some value → Fin.ofNat 32 f.vd.toNat ≠ 0 →
          (g s.me).getG (Fin.ofNat 32 f.vd.toNat) = value))

/-- R226, R223, R178, R227 and R113: the integer instructions of Table 13.2 that do not round write to each active element
of vd the result of its sources, modulo 2^w or clamped where sat is set, and leave every other element; with nib = 1 they
do so to each half of a byte. -/
def Obligations.VectorIntegers : Prop :=
  ∀ (s : State) (i : Instr) (m : Form) (f : VFields) (op : Nat → Bool → Int → Int → Int → Int), VQuiet s i m f →
    vectorInteger i = some (f, op) → lanes s s.cur ≤ 256 →
    let a := lanes s s.cur
    let w := tyWidth f.t1
    let signed := isSigned f.t1
    let n := groupRegs s.me.vtype w
    let src (r : BitVec 6) (w e : Nat) : Nat := fieldOf s.me a r.toNat n w e
    let wide (e : Nat) : Nat := fieldOf s.me a f.va.toNat (groupRegs s.me.vtype (2 * w)) (2 * w) e
    let second (w e : Nat) : Nat :=
      if f.fn.toNat / 64 % 4 = 0 then src f.vb w e
      else if f.fn.toNat / 64 % 4 = 1 then (s.me.getG (Fin.ofNat 32 f.vb.toNat)).toNat % 2 ^ w
      else (f.vb.toInt % (2 ^ w : Nat)).toNat
    ∃ t, exec i s = .next t ∧ ∀ e, (e + 1) * w ≤ 32 * a * n →
      (f.fn.getLsbD 3 = false → (Active s.me f e → fieldOf t.me a f.vd.toNat n w e =
          fitted signed w f.sat (op w signed
            (if f.smod = 1 then -(patternValue signed w (src f.va w e))
              else if f.smod = 5 then patternValue signed w (wide e / 2 ^ w)
              else if f.smod = 6 then patternValue signed w (wide e % 2 ^ w)
              else patternValue signed w (src f.va w e))
            (patternValue signed w (second w e)) (patternValue signed w (src f.vd w e)))) ∧
        (¬ Active s.me f e → fieldOf t.me a f.vd.toNat n w e = src f.vd w e)) ∧
      (f.fn.getLsbD 3 = true → ∀ j < 2,
        (Active s.me f e → fieldOf t.me a f.vd.toNat n 4 (2 * e + j) =
          fitted signed 4 f.sat (op 4 signed (patternValue signed 4 (src f.va 4 (2 * e + j)))
            (patternValue signed 4 (if f.fn.toNat / 64 % 4 = 0 then src f.vb 4 (2 * e + j) else second 4 e)) 0)) ∧
        (¬ Active s.me f e → fieldOf t.me a f.vd.toNat n 4 (2 * e + j) = src f.vd 4 (2 * e + j)))

/-- R213 to R218: a vector load that passes its checks and reads no poisoned byte writes only its destination registers, and no memory;
an indexed one whose elements all pass does too. Each active element becomes the bytes at its address with tail 00, with every other
element kept: of `vldx` the address is that of its index where no destination register is an index register, of `vldseg` field `k`
goes to the registers of its own group, a 6-bit field is widened exactly, a block goes to its lanes and its scale bytes to their
place, and `vfill` takes an image. A byte of common memory that has been read ahead of earlier accesses has the value it had then
(Table 21.5; the form in which it is held is the model's choice, notes/assumptions/13.md). These are `vld`, `vlds`,
`vldx`, `vldseg`, `vldc`, `vldb` and `vfill`. -/
def Obligations.VectorLoads : Prop :=
  ∀ (s : State) (i : Instr) (m : Form) (f : VFields) (acc : VAccess), VQuiet s i m f → s.me.strip = none →
    accessOf i = some acc → acc.store = false → lanes s s.cur ≤ 256 →
    let a := lanes s s.cur
    let x := pushedCtx s i m f
    let t := x.ty1 f
    let w := elemBits s.me.vtype t
    let n := groupRegs s.me.vtype w
    let form := acc.form.resolved t
    let nf := f.vc.toNat + 1
    let n2 := groupRegs s.me.vtype (x.w2 f)
    let byte (q : Nat) : Byte := if acc.common then (tabGet s.me.early q).getD (comByte s s.cur q) else memGet s.me.loc q
    let bytes (p k : Nat) : Nat := leNat ((List.range k).map (fun j => byte (p + j)))
    let elem (c : CT) (r e : Nat) : Elem := (c.group a r n).elem w e
    memoryFault acc f x (if acc.common then s.me.kernel.com else s.me.kernel.loc) = none →
    loadPoison s s.cur (alone s i m f) = none → (acc.common = true → loadStalled f x s = false) →
    (acc.form = .indexed → (gatherFrom a f x (s.me.actives f x) s.me).2 = none) →
      ∃ g : CT → CT,
        exec i s = .next (vdone (correctOnRead s s.cur) g) ∧
        OnlyChanges (written s m f) s.me (g s.me) ∧
        (form ≠ .blocks → form ≠ .image → (form = .indexed → ∀ j < n, ∀ k < n2, f.vd.toNat + j ≠ f.vb.toNat + k) →
          ∀ e, (e + 1) * w ≤ 32 * a * n → ∀ k < (if form = .segment then nf else 1),
            let r := f.vd.toNat + k * n
            (¬ Active s.me f e → elem (g s.me) r e = elem s.me r e) ∧
            (Active s.me f e →
              (form = .unit → elem (g s.me) r e = (bytes (vBase f x + w64 (e * (w / 8))).toNat (w / 8), 0)) ∧
              (form = .strided → elem (g s.me) r e = (bytes (vBase f x + w64 e * x.gb).toNat (w / 8), 0)) ∧
              (form = .broadcast → elem (g s.me) r e = (bytes (vBase f x).toNat (w / 8), 0)) ∧
              (form = .indexed → elem (g s.me) r e =
                (bytes (vBase f x + w64 (fieldOf s.me a f.vb.toNat n2 (x.w2 f) e)).toNat (w / 8), 0)) ∧
              (form = .segment → elem (g s.me) r e = (bytes (vBase f x + w64 ((e * nf + k) * (w / 8))).toNat (w / 8), 0)) ∧
              (form = .fields6 → elem (g s.me) r e = heldElem w (narrowInto (fmtOf t) (decodeNum (f6Fmt f)
                (bytes (vBase f x + w64 (4 * (e / 5))).toNat 4 / 2 ^ (6 * (e % 5)) % 64) 0, 0)).1))) ∧
        (form = .blocks →
          let l := blockLanes t
          let sb := if t = .mx4 then 1 else 2
          let was := s.me.group a f.vd.toNat n
          let is := (g s.me).group a f.vd.toNat n
          ∀ b, (b + 1) * l ≤ a * n →
            if s.me.vstart.toNat / 32 ≤ b ∧ b < s.me.vl / 32 then
              let p := (vBase f x + w64 (b * (sb + 4 * l))).toNat
              fieldOf (g s.me) a f.vd.toNat n (32 * l) b = bytes (p + sb) (4 * l) ∧
                is.scales t b = (bytes p 1, if t = .mx4 then 0 else bytes (p + 1) 1)
            else fieldOf (g s.me) a f.vd.toNat n (32 * l) b = fieldOf s.me a f.vd.toNat n (32 * l) b ∧
              is.scales t b = was.scales t b) ∧
        (form = .image → (g s.me).getV f.vd.toNat = vFromImage a (s.me.getV f.vd.toNat)
          ((List.range 1536).map (fun k => memGet s.me.loc ((vBase f x).toNat + k))))

/-- R213 to R215, R217, R218 and R79: outside a strip every vector store that passes its checks (and, of 6-bit fields, reads no
poisoned byte) completes, and writes no register but `fflags`. What it writes, and where, is `storeWrites`: `vst`, `vsts`, `vstx`,
`vstseg` and `vspill` write it to the local window, in ascending order; `vstc` appends it to the thread's trail, one data entry for
each maximal run of bytes within a stripe, and leaves home as it is. Of an unconverted store of integers the bytes are the elements'
own; the thread then reads them from common memory, and every other byte as before. Entries that find no room wait, with the trail
published (the model's choice, notes/assumptions/7.md). -/
def Obligations.VectorStores : Prop :=
  ∀ (s : State) (i : Instr) (m : Form) (f : VFields) (acc : VAccess), VQuiet s i m f → s.me.strip = none →
    accessOf i = some acc → acc.store = true →
    let a := lanes s s.cur
    let x := pushedCtx s i m f
    let t := x.ty1 f
    let w := elemBits s.me.vtype t
    let n := groupRegs s.me.vtype w
    let els := s.me.actives f x
    let at_ (e : Nat) : Nat := (vBase f x + (match acc.form with
      | .strided => w64 e * x.gb
      | .indexed => w64 (fieldOf s.me a f.vb.toNat (groupRegs s.me.vtype (x.w2 f)) (x.w2 f) e)
      | _ => w64 (e * (w / 8)))).toNat
    let bytes (e : Nat) : List Byte := leBytes (w / 8) (fieldOf s.me a f.vd.toNat n w e)
    let ws := (storeWrites s.me a acc f x).1
    let fl := (storeWrites s.me a acc f x).2
    let ps := (coalesce ws).flatMap (fun q => stripes q.1 q.2)
    memoryFault acc f x (if acc.common then s.me.kernel.com else s.me.kernel.loc) = none →
    (acc.form = .indexed → indexedFault s.me a f x = none) →
    loadPoison s s.cur (alone s i m f) = none →
      (acc.common = false → ∃ b, exec i s = .next (vdone (correctOnRead s s.cur) (fun c =>
          { c with loc := storeAll c.loc ws, locBad := b, fflags := c.fflags ||| fl })) ∧
        StoredOver s.me.locBad s.me.locStuck b ws) ∧
      ((acc.form = .unit ∨ acc.form = .strided ∨ acc.form = .indexed) → isInt t = true →
        ws = els.map (fun e => (at_ e, bytes e)) ∧ fl = 0) ∧
      (acc.common = true →
        let u := vdone (correctOnRead s s.cur) (fun c =>
          { appended s (ps.map (fun q => dataEntry q.1 q.2 [])) c with
            fflags := c.fflags ||| fl })
        exec i s = .next u ∧
        (isInt t = true → s.me.trail.done ≤ s.me.trail.entries.length →
          (∀ e ∈ els, ∀ k < w / 8, comByte u s.cur (at_ e + k) = (bytes e).getD k 0) ∧
          ∀ y, (∀ e ∈ els, y < at_ e ∨ at_ e + w / 8 ≤ y) → comByte u s.cur y = comByte s s.cur y))

/-- R213: in user mode a vector access whose checks fail at the push raises its fault precisely and changes nothing else: a
base or a stride that is not aligned MISALIGN, then bounds, at the first byte beyond the declared size that an element from `vstart` to
VL - 1 would touch, active or not. An indexed access makes the same checks element by element (of active elements, the model's choice,
notes/assumptions/32.md): at the first that fails, the elements below it are complete, nothing at or above it is accessed, and the
queue freezes with the fault and the element at which it goes on. -/
def Obligations.VectorMemoryTraps : Prop :=
  ∀ (s : State) (i : Instr) (m : Form) (f : VFields) (acc : VAccess), VQuiet s i m f → s.me.strip = none →
    s.me.sup = false → accessOf i = some acc →
    let a := lanes s s.cur
    let x := pushedCtx s i m f
    let t := x.ty1 f
    let al := accessAlign (acc.form.resolved t) (elemBits s.me.vtype t / 8) t
    let size := if acc.common then s.me.kernel.com else s.me.kernel.loc
    let bounds := if acc.common then Cause.commonBounds else Cause.localBounds
    (acc.form ≠ .indexed →
      ((vBase f x).toNat % al ≠ 0 → exec i s = .next (trapped s .misalign (vBase f x))) ∧
      ((vBase f x).toNat % al = 0 → acc.form = .strided → x.gb.toNat % al ≠ 0 →
        exec i s = .next (trapped s .misalign (vBase f x + x.gb))) ∧
      ((vBase f x).toNat % al = 0 → (acc.form = .strided → x.gb.toNat % al = 0) →
        ∀ q, (touched (acc.form.resolved t) f x t).find? (fun q => decide (size < q.1.toNat + q.2)) = some q →
          exec i s = .next (trapped s bounds (w64 (max q.1.toNat size)))) ∧
      ((vBase f x).toNat % al = 0 → acc.form = .unit → tyIsBlock t = false → x.vstart < x.vl →
        (vBase f x).toNat + x.vl * (elemBits s.me.vtype t / 8) < 2 ^ 64 →
        size < (vBase f x).toNat + x.vl * (elemBits s.me.vtype t / 8) →
        ∃ y : Nat, size ≤ y ∧ exec i s = .next (trapped s bounds (w64 y))) ∧
      ((vBase f x).toNat % 16 = 0 → acc.form = .image → size < (vBase f x).toNat + 1536 →
        exec i s = .next (trapped s .localBounds (w64 (max (vBase f x).toNat size))))) ∧
    (acc.form = .indexed → a ≤ 256 → loadPoison s s.cur (alone s i m f) = none →
      let w := elemBits s.me.vtype t
      let n := groupRegs s.me.vtype w
      let n2 := groupRegs s.me.vtype (x.w2 f)
      let at_ (e : Nat) : W64 := vBase f x + w64 (fieldOf s.me a f.vb.toNat n2 (x.w2 f) e)
      let passes (e : Nat) : Prop := (at_ e).toNat % (w / 8) = 0 ∧ (at_ e).toNat + w / 8 ≤ size
      (acc.store = false → ∀ j < n, ∀ k < n2, f.vd.toNat + j ≠ f.vb.toNat + k) →
      ∀ e, Active s.me f e → ¬ passes e → (∀ k < e, Active s.me f k → passes k) →
        ∃ u v, exec i s = .next u ∧ u.me.vq.flatMap (·.entries) = [v] ∧ v.instr = i ∧ v.ctx.vstart = e ∧
          u.me.frozen = some ⟨if (at_ e).toNat % (w / 8) ≠ 0 then .misalign else .localBounds,
            if (at_ e).toNat % (w / 8) ≠ 0 then at_ e else w64 (max (at_ e).toNat size), false, s.me.pc, e, false⟩ ∧
          u.me.pc = s.me.pc ∧ u.me.g = s.me.g ∧ u.me.p = s.me.p ∧ u.me.trail = s.me.trail ∧
          (acc.store = true → u.me.v = s.me.v ∧ u.me.loc = storeAll s.me.loc
            (((s.me.actives f x).filter (fun k => decide (k < e))).map (fun k => (storedAt s.me a .indexed f x k 0).1))) ∧
          (acc.store = false → u.me.loc = s.me.loc ∧ ∀ k, (k + 1) * w ≤ 32 * a * n →
            (u.me.group a f.vd.toNat n).elem w k = if s.me.isActive f x k && decide (k < e) then
              (leNat ((List.range (w / 8)).map (fun j => memGet s.me.loc ((at_ k).toNat + j))), 0)
            else (s.me.group a f.vd.toNat n).elem w k))

/-- R219, R220 and R221: `rld` of a stream whose records are there fills its elements from them in ascending order, writes
the active ones, and advances the stream; outside a strip `rapp` reserves and writes its range of the run at once, inside
one that has not overflowed it is buffered. `vamo` with one active element performs that element's atomic at home, after a
release where rel is set, and the element receives the old value. -/
def Obligations.VectorStreams : Prop :=
  ∀ (s : State) (m : Form) (f : VFields), lanes s s.cur ≤ 256 →
    let a := lanes s s.cur
    let n := Fin.ofNat 4 f.fn.toNat
    let st := s.me.streams.get n
    let k := runKey (fnOf s s.cur) st.run
    let w := elemBits s.me.vtype (resolveTy s.me.vtype f.t1)
    let g := groupRegs s.me.vtype w
    (VQuiet s (.rld f) m f → st.mode = .read → st.ranOut = false → ∀ r, tabGet s.runs k = some r →
      ∀ (cnt : Nat) (recs : Nat → List Byte),
        let v := if st.vwid = 0 then r.recsz else 4 * st.vwid
        0 < v → s.me.vl * (w / 8) = cnt * v → 4 * st.voff + v ≤ r.recsz → st.next + cnt ≤ r.wmark →
        st.next + cnt ≤ st.stop →
        recsPoisoned s r st.next cnt = none →
        (∀ j < cnt, recordHeld s r (st.next + j) = false ∧ runRecord s r (st.next + j) = some (recs j)) →
        let bytes := (List.range cnt).flatMap (fun j => ((recs j).drop (4 * st.voff)).take v)
        let next : Stream := { st with stall := false, susp := false, next := st.next + cnt }
        ∃ core : CT → CT, exec (.rld f) s =
            .next (vdone (correctOnRead s s.cur) (fun c => { core c with streams := c.streams.set n.val next n.isLt })) ∧
          OnlyChanges (written s m f) s.me (core s.me) ∧
          ∀ e, (e + 1) * w ≤ 32 * a * g →
            (¬ Active s.me f e → fieldOf (core s.me) a f.vd.toNat g w e = fieldOf s.me a f.vd.toNat g w e) ∧
            (Active s.me f e → fieldOf (core s.me) a f.vd.toNat g w e = leNat ((bytes.drop (e * (w / 8))).take (w / 8)))) ∧
    (VQuiet s (.rapp f) m f → st.mode = .append → ∀ r bs fl, tabGet s.runs k = some r → r.state = .open_ →
      0 < r.recsz → s.me.vl * (w / 8) % r.recsz = 0 → appendBytes f (pushedCtx s (.rapp f) m f) s = (bs, fl) → bs ≠ [] →
        (isInt (resolveTy s.me.vtype f.t1) = true → f.t2 = .none →
          bs = (List.range s.me.vl).flatMap (fun e => leBytes (w / 8) (fieldOf s.me a f.vd.toNat g w e)) ∧ fl = 0) ∧
        (∀ u, s.me.strip = none → streamAppend s s.cur n bs = .ok u →
          exec (.rapp f) s = .next (vdone (correctOnRead u s.cur) (fun c => { c with fflags := c.fflags ||| fl })) ∧
          ∃ q, tabGet u.runs k = some q ∧ q.length = r.length + bs.length / r.recsz ∧ q.state = .open_ ∧
            u.me.streams.get n = { st with susp := false, next := st.next + bs.length / r.recsz }) ∧
        (∀ p, s.me.strip = some p → p.overflow = false → bufLocal p.writes ≤ Config.stripLocalCap →
          bufTrail p.writes + bs.length ≤ Config.stripTrailCap →
          exec (.rapp f) s = .next (vdone (correctOnRead s s.cur) (fun c => { c with
            strip := some { p with writes := .app n s.me.pc bs :: p.writes }
            fflags := c.fflags ||| fl })))) ∧
    (VQuiet s (.vamo f) m f → s.me.strip = none → ∀ pn op new e, partNo s s.cur = some pn →
      amoOf (f.fn.toNat % 16) = some op →
      let dbl := f.fn.getLsbD 4
      (∀ j, (Active s.me f j ∧ (dbl = true → j % 2 = 0)) ↔ j = e) →
      let p := s.me.getG (Fin.ofNat 32 f.va.toNat) + w64 (fieldOf s.me a f.vb.toNat (groupRegs s.me.vtype 32) 32 e)
      let z := if dbl then 8 else 4
      let lo := fieldOf s.me a f.vc.toNat g 32 e
      let x := if dbl then lo + fieldOf s.me a f.vc.toNat g 32 (e + 1) * 2 ^ 32 else lo
      let old := leNat (homeRead s s.cur p.toNat z)
      let u := if f.fn.getLsbD 5 then release s s.cur else s
      p.toNat % z = 0 → p.toNat + z ≤ s.me.kernel.com → AtHome s p.toNat z → homePoisoned s pn p.toNat z = false →
      (amoResult op z old x = some new ∨ (op = .fadd ∧ dbl = false ∧ new = bankFadd old x)) →
        ∃ core : CT → CT, exec (.vamo f) s =
            .next (vdone (correctOnRead (homeWrite u pn p.toNat (leBytes z new) []) s.cur) core) ∧
          OnlyChanges (written s m f) s.me (core s.me) ∧
          ∀ j, (j + 1) * 32 ≤ 32 * a * g → fieldOf (core s.me) a f.vd.toNat g 32 j =
            if j = e then old % 2 ^ 32 else if dbl = true ∧ j = e + 1 then old / 2 ^ 32
            else fieldOf s.me a f.vd.toNat g 32 j)

/-! ### The matrix array -/

/-- R157 to R160 and R262 to R267: on a core with 256 lanes and a working array, `mld` fills the shadow plane from its source
in the local window, `mswap` exchanges the planes, and `mxr` writes to element n of vd, where the predicate has a 1,
column n's sum, and sets no flag but nv; each first takes the array, whose former owner keeps its planes in its save area (it
takes up its own saved planes, where no byte of them is poisoned). `mstat` writes the word of Table 16.3 and takes nothing; that it needs no local window is
the model's choice (notes/assumptions/32.md). That
each is issued by itself is the model's choice (notes/assumptions/15.md). -/
def Obligations.MatrixResults : Prop :=
  ∀ (s : State) (m : Form) (f : VFields),
    (VQuiet s (.mstat f) m f → ∃ w : W64, exec (.mstat f) s = .next (vdone (correctOnRead s s.cur) (fun c => c.setG (Fin.ofNat 32 f.vd.toNat) w)) ∧
      (∀ k, (s.cores.get (coreOf s.cur)).owner = some k → w.toNat % 4 = k.val) ∧
      w.getLsbD 2 = decide ((s.cores.get (coreOf s.cur)).owner = some (ctIndex s.cur)) ∧ w.getLsbD 3 = s.me.planesValid ∧
      w.toNat / 16 % 16 = s.me.front.fmt.code ∧ w.toNat / 256 % 16 = s.me.shadow.fmt.code ∧ w.getLsbD 12 = s.me.chk ∧
      w.getLsbD 13 = decide (lanes s s.cur = 256) ∧ w.toNat / 2 ^ 32 = s.me.xfer.toNat) ∧
    (lanes s s.cur = 256 → (s.cores.get (coreOf s.cur)).arrayFailed = false → Config.planeSaveBytes ≤ s.me.kernel.loc →
      (ownsArray s s.cur = true ∨ s.me.planesSaved = false ∨ (s.me.strip = none ∧ Sound s.me.locBad 0 Config.planeSaveBytes)) →
      let u := takeArray s s.cur
      (u.cores.get (coreOf s.cur)).owner = some (ctIndex s.cur) ∧
      (∀ k, (s.cores.get (coreOf s.cur)).owner = some k → k ≠ ctIndex s.cur →
        let old := agentOf (4 * (coreOf s.cur).val + k.val)
        (s.ct old).planesValid = true → (u.ct old).planesSaved = true ∧
          (u.ct old).loc = memWrite (s.ct old).loc 0 ((s.ct old).front.bytes ++ (s.ct old).shadow.bytes)) ∧
      (VQuiet s (.mld f) m f → s.me.strip = none →
        let b := s.me.getG (Fin.ofNat 32 f.va.toNat) + (f.fn.signExtend 64) * 16
        let bs := (List.range (mldBytes f)).map (fun k => memGet s.me.loc (b.toNat + k))
        b.toNat % 16 = 0 → b.toNat + mldBytes f ≤ s.me.kernel.loc → Sound s.me.locBad b.toNat (mldBytes f) → (f.t2 = .none ∨ badScale f bs = none) →
          exec (.mld f) s = .next (vdone (correctOnRead u s.cur) (fun c => { c with
            shadow := mldPlane f bs, planesValid := true, pushShadow := f.t1 })) ∧
          (f.t2 = .none → (mldPlane f bs).fmt = f.t1 ∧
            ∀ k < 65536, (mldPlane f bs).payload.extractLsb' (8 * k) 8 = memGet s.me.loc (b.toNat + k))) ∧
      (VQuiet s (.mswap f) m f → exec (.mswap f) s = .next (vdone (correctOnRead u s.cur) (fun c => { c with
        front := c.shadow, shadow := c.front, pushFront := c.pushShadow, pushShadow := c.pushFront }))) ∧
      (∀ tree : Bool, VQuiet s (if tree then .mxrF f else .mxrO f) m f → rowFits f.t1 s.me.pushFront = true →
        ∃ core : CT → CT, exec (if tree then .mxrF f else .mxrO f) s =
            .next ((vdone (correctOnRead u s.cur) core).updCore (coreOf s.cur) (fun k => { k with rows := k.rows + 1 })) ∧
          OnlyChanges (written s m f) u.me (core u.me) ∧
          (core u.me).fflags &&& ~~~fNv = u.me.fflags &&& ~~~fNv ∧
          ∀ n < 256,
            ((u.me.getP f.pm).getLsbD n ≠ f.pn → fieldOf (core u.me) 256 f.vd.toNat 1 32 n =
              (rowResult tree (rowProducts f (u.me.group 256 f.va.toNat 1) u.me.front n)
                (if f.fn.getLsbD 2 then (0, 0) else (u.me.group 256 f.vd.toNat 1).elem 32 n)).1.1) ∧
            ((u.me.getP f.pm).getLsbD n = f.pn →
              fieldOf (core u.me) 256 f.vd.toNat 1 32 n = fieldOf u.me 256 f.vd.toNat 1 32 n)))

/-! ### Convoys -/

/-- R121, R152, R154, R155, R175 and R208: a convoy that passes its checks enters the queue behind the others with every
operand its instructions take at the push, clears `vstart`, and the scalar pipe goes on behind it; a core's only ready head
binds, and its thread's deficit falls by n * s (w of an image, and of a convoy without vector operands, is the model's choice,
notes/assumptions/32.md); a bound head's computing instruction retires with its effect on the
registers; a strip that is due to commit closes: its buffered local writes are made in program order, its trail entries appended
as one group with a strip-commit entry behind them, and its run ranges reserved in program order. -/
def Obligations.Convoys : Prop :=
  ∀ (s : State),
    (∀ (h : ConvoyHdr) (words : List (BitVec 64)) (vs : List VInstr) (p : Pushed), headerOk h = true →
      words.length = h.n.toNat → isUser s.cur = true → checkConvoy s h words = .ok vs → operandPends s.me vs = false →
      s.me.vq.length < Config.vqDepth → s.me.strip = none → s.me.marks = [] → s.me.regBad = [] →
      (s.me.locBad = [] ∨ ∀ x ∈ scalarReads vs, s.me.refTag x = 0) → pushAll s vs ⟨s.me, [], []⟩ = .ok p →
        exec (.convoyHeader h words) s = .next (settled (s.pushNotices p.notices) (1 + 2 * words.length) (fun _ =>
          { p.ct with vq := p.ct.vq ++ [⟨p.entries, h.chain, false, 0, false⟩], vstart := 0 })) ∧
        p.ct.vq = s.me.vq ∧ p.ct.g = s.me.g ∧ p.ct.p = s.me.p ∧ p.ct.v = s.me.v ∧ p.ct.loc = s.me.loc ∧
        p.ct.trail = s.me.trail ∧ p.ct.fflags = s.me.fflags ∧
        ((∀ x, s.me.refTag x = 0) → s.me.lift.regions = [] → s.me.lift.resume = none → p.entries.map (·.instr) = vs.map (·.instr) ∧
          ∀ e ∈ p.entries, e.ctx.copy = none ∧ e.ctx.vl = s.me.vl ∧ e.ctx.vtype = s.me.vtype ∧ e.ctx.frm = s.me.frm ∧
            e.ctx.vstart = s.me.vstart.toNat ∧ ∀ f, fieldsOf e.instr = some f →
              e.ctx.ga = s.me.getG (Fin.ofNat 32 f.va.toNat) ∧ e.ctx.gb = s.me.getG (Fin.ofNat 32 f.vb.toNat) ∧
              e.ctx.gc = s.me.getG (Fin.ofNat 32 f.vc.toNat))) ∧
    (∀ (core : Fin 32) (j : Fin 4) (v : Convoy) (vs : List Convoy),
      let ag := agentOf (4 * core.val + j.val)
      readyHead s ag = some v → (s.ct ag).vq = v :: vs → (∀ k ∈ coreCts core, k ≠ ag → (s.ct k).vq = []) →
      (s.cores.get core).tests = [] →
      let l := (convoyVl v * convoyWidth v + 31) / 32
      let n := min ((l + 31) / 32) (s.cores.get core).healthy
      let st := if n = 0 then 0 else (l + 32 * n - 1) / (32 * n)
      ∃ t, exec (.convoyBind core) s = .next t ∧ (∀ k, k ≠ ag → t.ct k = s.ct k) ∧
        t.ct ag = { s.ct ag with
          vq := { v with bound := true, groups := n } :: vs
          deficit := max (-65536) (min 65535 ((s.ct ag).deficit - n * st))
          bankwave := (t.ct ag).bankwave, chk := (t.ct ag).chk, passed := 0 } ∧
        (∀ q, partOf s ag = some q → (t.ct ag).chk = q.chk)) ∧
    (∀ (ct : CtId) (v : Convoy) (vs : List Convoy) (e : VEntry) (es : List VEntry) (f : VFields) (core : VCore),
      let ag := ctAgent ct
      (s.ct ag).vq = v :: vs → v.entries = e :: es → (s.ct ag).frozen = none →
      (v.bound = true → e.ctx.copy = none → e.late = none → e.fenced = false → coreOp e.instr = some (f, core) →
        (s.ct ag).out = [] → (s.ct ag).marks = [] → (s.ct ag).held = [] → (s.ct ag).spilling = false →
        (s.ct ag).regBad = [] → (s.cores.get (coreOf ag)).upset = none →
        exec (.vectorRetire ct) s = .next ((correctOnRead s ag).updCt ag (fun c => { core f e.ctx (lanes s ag) c with
          vq := if es = [] then vs else { v with entries := es, stalled := false } :: vs
          early := if es = [] ∧ vs = [] then [] else (s.ct ag).early }))) ∧
      (v.bound = false → exec (.vectorRetire ct) s = .next s)) ∧
    (∀ (ct : CtId) (p : Strip), (s.ct (ctAgent ct)).strip = some p → p.writes = [] → (s.ct (ctAgent ct)).held = [] →
      (s.ct (ctAgent ct)).vq = [] → commitDue s (ctAgent ct) = true →
        exec (.stripCommit ct) s = .next (s.updCt (ctAgent ct) (fun c => { c with strip := none }))) ∧
    (∀ (ct : CtId) (p : Strip),
      let ag := ctAgent ct
      let c := s.ct ag
      let es := bufEntries p.writes
      let group := if es = [] then [] else es ++ [commitEntry (es.length + 1)]
      c.strip = some p → c.held = [] → c.out = [] → c.marks = [] → c.vq = [] → commitDue s ag = true →
      trailUsed c.trail + (group.map entryBytes).sum ≤ trailSize s ag →
        let u := s.updCt ag (fun c => (c.appended (trailSize s ag) group).putLocal p.writes)
        (∀ t ok, flushHeld u ag (bufAppends p.writes) = (t, ok) →
          exec (.stripCommit ct) s = .next (t.updCt ag (fun c => { c with strip := none }))) ∧
        (bufAppends p.writes = [] → exec (.stripCommit ct) s = .next (u.updCt ag (fun c => { c with strip := none }))) ∧
        (∀ n pc bs v, bufAppends p.writes = [.app n pc bs] → streamAppend u ag n bs = .ok v →
          exec (.stripCommit ct) s = .next (v.updCt ag (fun c => { c with strip := none, held := [] }))) ∧
        (Memory.wf c.loc = true → ∀ a, memGet (u.ct ag).loc a = (stripLoc p.writes a).getD (memGet c.loc a)) ∧
        (c.trailStuck = [] → (u.ct ag).trail.entries = c.trail.entries ++ group) ∧
        (u.ct ag).trail.pub = c.trail.pub ∧ (u.ct ag).trail.done = c.trail.done)

/-! ### Events of trails, engines and streams -/

/-- R57, R68, R81, R84, R85, R102, R104, R294, R34, R382 and R410: a prefix of a trail that splits no strip group may be published,
and the published tail never falls; the compactor applies a published data entry to home, counts it, and drops the view
bytes it is the source of, once each thread that has acquired the trail has performed a load that it had put off (the model's
form, notes/assumptions/5.md); a stalled append goes on once there is room, and a stalled stream once the record that its `rld`
needs is there or no more can come; a `wfe` may wake without cause; a notification counts on its target's timeline, one that
stands alone in the buffers of a port leaves them, and its answer goes back; a command that runs to its end leaves flight, and one that the driver
refuses or a Lumen link loses completes in error with its cause. The passes of a sort
without a combine entry, once they are made, come to one run, which is the records' stable sort. That the answer to a notification
goes back on channel 1 is the model's choice (notes/assumptions/25.md), and so are the answers of other devices and the engine's
run to its end in one step (16.md). -/
def Obligations.TrailAndEngineEvents : Prop :=
  ∀ (s : State),
    (∀ (ct : CtId) (n : Nat), n ≤ (s.ct (ctAgent ct)).trail.entries.length →
      splitsGroup (s.ct (ctAgent ct)).trail n = false →
        exec (.hwPublish ct n) s = .next (s.updCt (ctAgent ct) (fun c =>
          { c with trail := { c.trail with pub := max c.trail.pub n }, owed := if c.owed ≤ n then 0 else c.owed }))) ∧
    (∀ (ct : CtId), trailUsed (s.ct (ctAgent ct)).trail < trailSize s (ctAgent ct) →
      exec (.trailAppendResume ct) s = .next (s.updCt (ctAgent ct) (fun c => { c with
        status := if c.status = .waiting then .running else c.status
        vq := match c.vq with
          | v :: vs => { v with stalled := false } :: vs
          | [] => [] }))) ∧
    (∀ (ct : CtId) (e : Entry) (pn : Fin 32) (q : Partition),
      let tr := (s.ct (ctAgent ct)).trail
      tr.entries[tr.done]? = some e → e.kind = EntryKind.data → tr.done < tr.pub → unitEnd tr tr.done = tr.done →
      partNo s (ctAgent ct) = some pn → s.parts.get pn = some q → unitStalled s ct [e] = false →
      (∀ ag ∈ acquirers s ct.val, (s.ct ag).slow = none) →
        ∃ t, exec (.compaction ct) s = .next t ∧ (∃ q2, t.parts.get pn = some q2 ∧
            q2.home = memWrite q.home e.addr e.bytes) ∧
          (t.ct (ctAgent ct)).trail = { tr with done := tr.done + 1 } ∧
          (∀ k, k ≠ ctAgent ct → (t.ct k).trail = (s.ct k).trail) ∧
          (∀ k, (t.ct k).loc = (s.ct k).loc ∧ (t.ct k).g = (s.ct k).g ∧ (t.ct k).view = (s.ct k).view.filter (fun v =>
            !(v.2.trail = ct.val && v.2.idx = tr.done && v.2.gen = tr.gen))) ∧
          (∀ k, k ≠ pn → t.parts.get k = s.parts.get k) ∧ t.runs = s.runs ∧ t.frames = s.frames) ∧
    (∀ (ct : CtId) (ag : Agent) (q : Slow) (sx : Bool), canCompact s ct = true → ag ∈ acquirers s ct.val →
      (s.ct ag).slow = some q → q.kind = .load sx → ∃ t, exec (.compaction ct) s = .next t ∧ (t.ct ag).slow = none ∧
        (t.ct ag).early = [] ∧ ∀ x : W64, Loaded x sx q.size (fun k => comByte s ag (q.addr + k)) → q.size ≤ 8 → 0 < q.size →
          q.dest ≠ 0 → (t.ct ag).getG q.dest = x) ∧
    (∀ (ct : CtId) (n : Fin 4) (r : Run),
      let st := (s.ct (ctAgent ct)).streams.get n
      tabGet s.runs (runKey (fnOf s (ctAgent ct)) st.run) = some r → st.stall = true →
        (neededRecord s (ctAgent ct) n < r.wmark ∨ r.state ≠ .open_ ∨ r.ended = true ∨ st.ranOut = true →
          exec (.streamResume ct n) s = .next (s.updCt (ctAgent ct) (fun c => { c with
            streams := c.streams.set n.val { st with stall := false } n.isLt
            vq := match c.vq with
              | v :: vs => { v with stalled := false } :: vs
              | [] => [] }))) ∧
        (r.wmark ≤ neededRecord s (ctAgent ct) n → r.state = .open_ → r.ended = false → st.ranOut = false →
          exec (.streamResume ct n) s = .next s)) ∧
    (∀ ag : Agent, exec (.wfeWake ag) s = .next (s.updCt ag (fun c => { c with wfe := c.wfe.map (fun w => { w with oth := true }) }))) ∧
    (∀ (ct : CtId) (tl : Fin 8),
      let c := s.ct (ctAgent ct)
      let u := c.tls.get tl
      (s.dies.get (dieOf (ctAgent ct))).stopped = false → c.task.isSome = true → tl.val < c.kernel.ntl → u.fin = [] →
        u.done = u.issued →
        (∀ (port : Fin 16) (f : Flit) (dev : BitVec 15) (ag : Agent) (stl : Fin 8) (num : Nat),
          (s.links.get port).onChannel 1 = [f] → (∀ q, q ≠ port → (s.links.get q).onChannel 1 = []) →
          (s.links.get port).halted.getLsbD 1 = false →
          f.dest.toNat = s.device → f.msg = .notify dev ag stl num ct tl →
            ∃ t, exec (.notificationArrival ct tl .remote) s = .next t ∧
              (t.ct (ctAgent ct)).tls.get tl = { u with issued := u.issued + 1, done := u.issued + 1 } ∧
              (t.links.get port).onChannel 1 = [] ∧
              ∀ out, routeTo s dev.toNat = some out → (s.links.get out).stopped.getLsbD 1 = false →
                (t.links.get out).wire.getLast? =
                  some ⟨1, (s.links.get out).txSeq, true, dev, .answer ag stl num true⟩) ∧
        (∀ (src : CtId) (m : Cmd) (tail : Nat) (gen : BitVec 16), src ≠ ct → (s.ct (ctAgent src)).cmds = [m] →
          m.kind = .notify ct.val tl.val none tail gen → m.susp = none → m.doom = none →
          (s.dies.get (dieOf (ctAgent src))).stopped = false →
            ∃ t, exec (.notificationArrival ct tl (.fromCt src)) s = .next t ∧ (t.ct (ctAgent src)).cmds = [] ∧
              (t.ct (ctAgent ct)).tls.get tl = { u with
                issued := u.issued + 1, done := u.issued + 1
                notes := u.notes ++ [⟨u.issued + 1, (ctAgent src).val, tail, gen⟩] })) ∧
    (∀ (ag : Agent) (tl : Fin 8) (num : Nat) (m : Cmd), findCmd s ag tl num = some m →
      (∀ (peer : PeerAnswer) (u : State) (st : Stats), (s.dies.get (dieOf ag)).stopped = false →
        heldBack (s.ct ag) m = false → m.susp = none → m.doom = none → runCmd s ag m peer none = .done u st →
          ∃ t, exec (.engineCompletion ag tl num peer) s = .next t ∧
            (t.ct ag).cmds = (u.ct ag).cmds.filter (fun e => !(e.tl = tl && e.num = num)) ∧
            ((t.ct ag).tls.get tl).emit = ((u.ct ag).tls.get tl).emit + w64 st.emit ∧
            ((t.ct ag).tls.get tl).cons = ((u.ct ag).tls.get tl).cons + w64 st.cons ∧
            (((u.ct ag).tls.get tl).fin = [] → num = ((u.ct ag).tls.get tl).done + 1 →
              ((t.ct ag).tls.get tl).done = num)) ∧
      (∀ (i : Instr) (cause : BitVec 8),
        (s.dies.get (dieOf ag)).stopped = false →
        (i = .migrationRefused ag tl num ∧ m.susp.isSome = true ∧ cmdStopped s ag m = false ∧ cause = 0x0A) ∨
          (i = .lumenTimeout (.own ag) tl num ∧ onLumen m.kind = true ∧ (m.susp = none ∨ agentDrained s ag = false) ∧ cause = 0x40) →
          ∃ t, exec i s = .next t ∧
            (t.ct ag).cmds = (s.ct ag).cmds.filter (fun e => !(e.tl = tl && e.num = num)) ∧
            ((t.ct ag).tls.get tl).err = true ∧
            (((s.ct ag).tls.get tl).err = false →
              ((t.ct ag).tls.get tl).cause = cause ∧ ((t.ct ag).tls.get tl).cnum = num) ∧
            (((s.ct ag).tls.get tl).fin = [] → num = ((s.ct ag).tls.get tl).done + 1 →
              ((t.ct ag).tls.get tl).done = num))) ∧
    (∀ (ag : Agent) (tl : Fin 8) (num : Nat) (m : Cmd), findCmd s ag tl num = some m → onLumen m.kind = true →
      (s.dies.get (dieOf ag)).stopped = false → ∃ t, exec (.lumenTimeout (.own ag) tl num) s = .next t ∧
        ∀ (port : Fin 16) (f : Flit), f ∈ (t.links.get port).wait ++ (t.links.get port).sent →
          isNoteOf f s.device ag tl num = false) ∧
    (∀ (ag : Agent) (kw c : Nat) (rs : List (List Byte)) (p0 : Progress) (t : State) (p : Progress), 0 < c → p0.pass = 0 →
      sortPasses s ag none kw c rs (rs.length + 1) p0 = (t, p, .ready) →
        let q := (nextPass none kw c rs p).1.headD []
        (nextPass none kw c rs p).1.length ≤ 1 ∧ q.Perm rs ∧ q.Pairwise (fun x y => keyOf kw x ≤ keyOf kw y) ∧
          ∀ k, q.filter (fun x => keyOf kw x = k) = rs.filter (fun x => keyOf kw x = k))

/-! ### Events of control threads -/

/-- R106, R377, R383, R385, R323, R396, R397, R398 and R367: a due user event is taken with the interrupted address in g31; a frozen
queue's fault is taken as VECTOR_ASYNC; a pre-emption saves the context and leaves the thread idle, and a restore brings it
back; `yield` answers whether it was pre-empted; a consumed error outside a strip raises UNCORRECTABLE; a unit that passes its
test is out of test, a failing lane is spared, and a second one retires its group; a counting watchdog counts, and at its limit traps
system control thread 0. Where an image lies, when a restore is turned away and that a thread restored has an empty trail are the
model's choices (notes/assumptions/20.md), and so are the place that a consumed error names and that a self-test which is not in
progress does nothing (21.md). -/
def Obligations.ThreadEvents : Prop :=
  ∀ (s : State),
    (∀ (ct : CtId),
      let ag := ctAgent ct
      let c := s.ct ag
      (∀ tl : Fin 8, c.sup = false → c.inUev = false → c.inTrap = false → c.lift.levels = [] → c.task.isSome = true →
        c.status ≠ .halted → c.strip = none → c.frozen = none → c.preempt = false → BadReg.csr 0x010 ∉ c.regBad → (c.tls.get tl).arm = true → (c.tls.get tl).armv ≤ (c.tls.get tl).done →
        (∀ k < tl, ¬ ((c.tls.get k).arm = true ∧ (c.tls.get k).armv ≤ (c.tls.get k).done)) →
          ∃ t, exec (.userEvent ct) s = .next t ∧ (∀ k, k ≠ ag → t.ct k = s.ct k) ∧ (t.ct ag).pc = c.uevec ∧
            (t.ct ag).inUev = true ∧ (t.ct ag).getG 31 = c.pc ∧
            (t.ct ag).tls.get tl = { c.tls.get tl with arm := false } ∧
            (t.ct ag).uecause.toNat = 1 + 16 * tl.val + 128 * (if (c.tls.get tl).err then 1 else 0) ∧
            (∀ r : GReg, r.val < 24 → (t.ct ag).getG r = c.getG r) ∧
            (∀ k : Fin 8, ((t.ct ag).uBank.get k).1 = c.getG (Fin.ofNat 32 (24 + k.val)) ∧
              (k.val < 7 → (t.ct ag).getG (Fin.ofNat 32 (24 + k.val)) = (c.uBank.get k).1)) ∧
            (t.ct ag).p = c.p ∧ (t.ct ag).v = c.v ∧ (t.ct ag).loc = c.loc) ∧
      (∀ f, c.frozen = some f → f.told = false → savingQueue s ag = false → c.inTrap = false → c.status ≠ .halted →
        ∃ t, exec (.vectorAsync ct) s = .next t ∧ (∀ k, k ≠ ag → t.ct k = s.ct k) ∧
          (t.ct ag).tcause.toNat % 256 = 0x18 ∧ (t.ct ag).tcause.toNat / 256 % 256 = f.cause.code ∧
          (t.ct ag).tval = f.tval ∧ (t.ct ag).tpc = c.pc ∧ (t.ct ag).sup = true ∧ (t.ct ag).inTrap = true ∧
          (t.ct ag).pc = 0 ∧ (t.ct ag).vq = c.vq ∧ (t.ct ag).strip = c.strip ∧
          (t.ct ag).frozen = some { f with told := true }) ∧
      (c.task.isSome = true → c.status ≠ .halted → c.status ≠ .idle → c.strip = none → c.vq = [] → c.frozen = none →
        c.out = [] → c.marks = [] → c.held = [] → c.regBad = [] → (∀ m ∈ c.cmds, m.susp.isSome = true) → ownsArray s ag = false →
          ∃ t im, exec (.preemption ct) s = .next t ∧ (∀ k, k ≠ ag → t.ct k = s.ct k) ∧
            tabGet t.images ag.val = some im ∧ im.ctx.g = c.g ∧ im.ctx.p = c.p ∧ im.ctx.pc = c.pc ∧ im.ctx.tls = c.tls ∧
            (∀ k : Fin 48, vImage (lanes s ag) (im.ctx.v.get k) = vImage (lanes s ag) (c.v.get k)) ∧
            im.ctx.loops = c.loops ∧ im.ctx.lift = c.lift ∧ im.ctx.task = c.task ∧ im.ctx.streams = c.streams ∧
            2048 + 8 * c.kernel.gregs + 256 * c.kernel.pregs + 1536 * c.kernel.vregs ≤ im.size ∧ im.bad = false ∧
            (t.ct ag).status = .idle ∧ (t.ct ag).task = none ∧ (t.ct ag).launch = none ∧ (t.ct ag).loc = c.loc ∧
            (t.ct ag).trail = { c.trail with pub := c.trail.entries.length }) ∧
      (∀ im, tabGet s.images ag.val = some im →
        let x := im.ctx
        (restoreReady s ag = true → dispatchStopped s ag = false → x.vlcap.toNat ≤ (s.cores.get (coreOf ag)).healthy → im.bad = false →
          ∃ t, exec (.contextRestore ct true) s = .next t ∧ (∀ k, k ≠ ag → t.ct k = s.ct k) ∧
            tabGet t.images ag.val = none ∧ (t.ct ag).g = x.g ∧ (t.ct ag).p = x.p ∧
            (∀ k : Fin 48, vImage (32 * x.vlcap.toNat) ((t.ct ag).v.get k) = vImage (32 * x.vlcap.toNat) (x.v.get k)) ∧
            (t.ct ag).pc = x.pc ∧ (t.ct ag).status = x.status ∧ (t.ct ag).tls = x.tls ∧ (t.ct ag).rp = x.rp ∧
            (t.ct ag).loc = c.loc ∧ (t.ct ag).view = [] ∧ (t.ct ag).trail.entries = []) ∧
        (restoreReady s ag = false ∨ dispatchStopped s ag = true ∨ (s.cores.get (coreOf ag)).healthy < x.vlcap.toNat →
          exec (.contextRestore ct true) s = .next s))) ∧
    (∀ (d : GReg), Quiet s [] [.g d] →
      (s.me.preempt = false → exec (.yield d) s =
        .next (settled s 1 (fun c => { c.setG d 0 with deficit := -65536 }))) ∧
      (s.me.preempt = true → s.me.loops = [] → d ≠ 0 → (∀ m ∈ s.me.cmds, m.susp.isSome = true) →
        ownsArray s s.cur = false →
          ∃ t im, exec (.yield d) s = .next t ∧ tabGet t.images s.cur.val = some im ∧ im.ctx.getG d = 1 ∧
            im.ctx.pc = s.me.pc + 4 ∧ (∀ r, r ≠ d → im.ctx.getG r = s.me.getG r) ∧ t.me.status = .idle ∧ t.me.task = none)) ∧
    (∀ (ag : Agent) (loc : ErrLoc), isUser ag = true → (s.dies.get (dieOf ag)).stopped = false →
      loc.src ≠ 5 → loc.src ≠ 1 → loc.src ≠ 2 → retiring (s.ct ag) = none →
      (s.ct ag).task.isSome = true → (s.ct ag).strip = none → (s.ct ag).inTrap = false →
        let d := s.dies.get (dieOf ag)
        ∃ t r, exec (.uncorrectableConsumed ag loc) s = .next t ∧ (t.dies.get (dieOf ag)).ring.getLast? = some r ∧
          (t.dies.get (dieOf ag)).reports = d.reports + 1 ∧
          r.rew = false ∧ r.loc = { loc with iadr := (s.ct ag).pc } ∧ (t.ct ag).tcause.toNat % 256 = 0x15 ∧
          (t.ct ag).tval = w64 (d.reports % 2 ^ 32) ∧ (t.ct ag).tpc = (s.ct ag).pc ∧ (t.ct ag).sup = true ∧
          (t.ct ag).pc = 0 ∧ ∀ k, k ≠ ag → t.ct k = s.ct k) ∧
    (∀ (core : Fin 32) (unit : TestUnit) (retest : Bool),
      let k := s.cores.get core
      let die := Fin.ofNat 4 (core.val / 8)
      ((unit, retest) ∉ k.tests → ∀ passed, exec (.selfTestComplete core unit passed retest) s = .next s) ∧
      ((unit, retest) ∈ k.tests →
        exec (.selfTestComplete core unit true retest) s =
          .next (s.updCore core (fun k => { k with tests := k.tests.filter (fun q => q ≠ (unit, retest)) })) ∧
        (∀ grp lane : Nat, unit = .lane grp lane → (∀ ag ∈ coreAgents core, (s.ct ag).canStop = true) →
          (s.dies.get die).pol = false →
            ∃ t, exec (.selfTestComplete core unit false retest) s = .next t ∧
              (t.dies.get die).reports = (s.dies.get die).reports + 2 ∧ (unit, retest) ∉ (t.cores.get core).tests ∧
              (k.spare.get (Fin.ofNat 8 grp) = none → t.cts = s.cts ∧
                (t.cores.get core).spare.get (Fin.ofNat 8 grp) = some lane ∧
                (t.cores.get core).well = k.well) ∧
              (k.spare.get (Fin.ofNat 8 grp) ≠ none → (t.cores.get core).well = k.well.filter (fun g => g ≠ grp) ∧
                (k.well.Nodup → grp ∈ k.well → (t.cores.get core).healthy + 1 = k.healthy))))) ∧
    (∀ (n : Nat) (p : Partition) (first : Fin 32) (rest : List (Fin 32)), watchState s n = 2 → (s.queue n).wdtrap = false →
      s.parts.get (Fin.ofNat 32 (s.queue n).part.toNat) = some p → p.common = first :: rest →
      let b := s.queue n
      let ag := system0 (first.val / 8)
      (b.wdcnt.toNat + 1 < b.wdlim.toNat → exec (.watchdog n) s =
        .next (s.updQueue n (fun b => { b with wdcnt := b.wdcnt + 1 }))) ∧
      (b.wdlim.toNat ≤ b.wdcnt.toNat + 1 → (s.dies.get (dieOf ag)).stopped = false → (s.ct ag).inTrap = false →
        ∃ t, exec (.watchdog n) s = .next t ∧ (t.queue n).expired = true ∧ (t.ct ag).tcause.toNat % 256 = 0x14 ∧
          (t.ct ag).tval = w64 n ∧ (t.ct ag).tpc = (s.ct ag).pc ∧ (t.ct ag).pc = 0 ∧ (t.ct ag).inTrap = true))

/-! ### Queues and launches -/

/-- R352 to R363, R390, R403 to R405 and R30: the doorbell moves the tail of an enabled queue; a record whose sequence number
is next is accepted as a launch of the queue, any other sets err; completions that are held are written once the host makes
room; enabling a queue clears its numbers; phseq posts the held status; a launch at the head completes, is staged, binds
and completes as its record says, whether or not its queue is still enabled; a child is staged once its predecessors have completed;
a function-level reset waits until the function's partitions are drained and compacted (the model's form, notes/assumptions/23.md),
disables its queues and ends its launches; a host
write to an active run table is dropped and logged. How the turn of a queue is kept while its head cannot bind, and that a child's
predecessors are launches of its parent's queue, is the model's reading (notes/assumptions/22.md); which address spaces are active
is too (25.md). -/
def Obligations.QueueEvents : Prop :=
  ∀ (s : State) (n : Nat),
    let b := s.queue n
    let ring (x : BitVec 4) : Nat := if x.toNat < 4 then 4 else x.toNat
    (∀ tail : BitVec 16, hostShut s = false → b.en = true → exec (.sqDoorbell n tail) s =
      .next (s.updQueue n (fun b => { b with tail := tail.toNat % 2 ^ ring b.sqsz }))) ∧
    (∀ (r : LaunchRec) (cont : List Byte), b.en = true → b.err = false → (∀ d, (s.dies.get d).up = true) →
      cont.length = 64 * r.npar → 1 + r.npar ≤ available b →
        (r.hseq ≠ b.acc + 1 → ∃ t, exec (.recordAccept n r cont) s = .next t ∧ (t.queue n).err = true ∧
          (t.queue n).acc = b.acc ∧ t.launches = s.launches) ∧
        (r.hseq = b.acc + 1 → r.tasks < 2 ^ 24 → ∃ t l, exec (.recordAccept n r cont) s = .next t ∧
          tabGet t.launches s.nextLaunch = some l ∧ l.lrec = r ∧ l.params = cont ∧ l.state = .accepted ∧ l.q = n ∧
          l.fn = n / 16 ∧ l.depth = 1 ∧ l.parent = none ∧ t.nextLaunch = s.nextLaunch + 1 ∧
          (t.queue n).acc = r.hseq ∧ (t.queue n).pend = b.pend ++ [s.nextLaunch] ∧
          (t.queue n).head = (b.head + 1 + r.npar) % 2 ^ ring b.sqsz ∧ t.cts = s.cts) ∧
        (r.hseq = b.acc + 1 → 2 ^ 24 ≤ r.tasks → ∃ t, exec (.recordAccept n r cont) s = .next t ∧
          (t.queue n).acc = r.hseq ∧ t.launches = s.launches ∧
          ∃ c ∈ (t.queue n).posted ++ (t.queue n).held, c.hseq = r.hseq ∧ c.status = 5 ∧ c.cause = 0x1A)) ∧
    (∀ head : BitVec 16, hostShut s = false →
      (b.held = [] → exec (.cqHeadWrite n head) s = .next (s.updQueue n (fun b => { b with cqh := head }))) ∧
      (∀ c, b.held = [c] → ringRoom { b with cqh := head } = true → ∃ t, exec (.cqHeadWrite n head) s = .next t ∧
        (t.queue n).held = [] ∧ (t.queue n).posted = b.posted ++ [{ c with dseq := b.dseq + 1 }] ∧
        (t.queue n).dseq = b.dseq + 1 ∧ (t.queue n).lhseq = c.hseq)) ∧
    (∀ word : W64, hostShut s = false → word.getLsbD 0 = true → b.en = false → ∃ t, exec (.queueEnable n word) s = .next t ∧
      (t.queue n).en = true ∧ (t.queue n).acc = 0 ∧ (t.queue n).dseq = 0 ∧ (t.queue n).head = 0 ∧
      (t.queue n).post = 0 ∧ (t.queue n).wdcnt = 0 ∧ (t.queue n).prio.toNat = word.toNat / 2 % 4 ∧
      (partOfFn s (word.toNat / 8 % 32) (n / 16) = true → (t.queue n).part.toNat = word.toNat / 8 % 32) ∧
      (∀ k, k ≠ n → t.queue k = s.queue k)) ∧
    (∀ hseq : W64, b.held = [] → ringRoom b = true → ∃ t, exec (.phseq n hseq) s = .next t ∧
      (t.queue n).posted = b.posted ++ [⟨hseq, b.dseq + 1, b.pst, b.pcause, 0, 0⟩] ∧ (t.queue n).dseq = b.dseq + 1 ∧
      (t.queue n).lhseq = hseq ∧ (∀ k, k ≠ n → t.queue k = s.queue k)) ∧
    (∀ (id : Nat) (l : Launch), headLaunch s n = some (id, l) →
      let part := Fin.ofNat 32 b.part.toNat
      (l.state = .accepted → partStopped s part = false →
        (l.lrec.tasks = 0 → l.parent = none → l.depth = 1 → l.q = n → ∃ t, exec (.launchHead n) s = .next t ∧
          tabGet t.launches id = none ∧ id ∉ (t.queue n).pend ∧
          ∃ c ∈ (t.queue n).posted ++ (t.queue n).held, c.hseq = l.lrec.hseq ∧ c.status = 0) ∧
        (l.lrec.tasks ≠ 0 → partOfFn s part.val (n / 16) = true →
          (∀ p ∈ predecessors l.lrec, p.toNat < l.lrec.hseq.toNat ∧ predDone b l.lrec.hseq p = true) →
            exec (.launchHead n) s = .next (s.updLaunch id (fun l => { l with state := .staging, part := part })))) ∧
      (∀ bs, l.state = .staging → partStopped s l.part = false → headerOf s l = .ok bs → workingSet s l (kernelOf bs) = some [] → l.lrec.cond = false →
        ∃ t, exec (.stagingComplete n) s = .next t ∧
          t = { s.updLaunch id (fun l => { l with state := .binding }) with parts := t.parts } ∧
          ∀ p, (t.parts.get p).map (fun q => { q with turns := [] }) = (s.parts.get p).map (fun q => { q with turns := [] })) ∧
      (∀ u, l.state = .binding → partStopped s l.part = false → turn (holdTurns s l.part) l.part = some n →
        childWaits s l.part n = false → bindLaunch (holdTurns s l.part) id l = .bound u → ∃ t l2, exec (.launchBind n) s = .next t ∧ tabGet t.launches id = some l2 ∧
          l2.state = .running ∧ l2.lrec = l.lrec ∧ id ∉ (t.queue n).pend ∧ (∀ k ∈ l2.bound, k < 128 ∧
            (t.ct (agentOf k)).launch = some id ∧ (t.ct (agentOf k)).status = .bound ∧ (t.ct (agentOf k)).task = none ∧
            (t.ct (agentOf k)).trail.entries = [] ∧ (t.ct (agentOf k)).trail.done = 0 ∧ (t.ct (agentOf k)).trail.pub = 0 ∧
            (t.ct (agentOf k)).trail.gen = (s.ct (agentOf k)).trail.gen + 1))) ∧
    (∀ (id : Nat) (l : Launch), tabGet s.launches id = some l →
      (launchDone s id l = true → l.parent = none → l.depth = 1 → ∃ t, exec (.launchComplete id) s = .next t ∧
        tabGet t.launches id = none ∧
        (∀ k ∈ l.bound, (s.ct (agentOf k)).launch = some id → (t.ct (agentOf k)).status = .idle ∧
          (t.ct (agentOf k)).launch = none) ∧
        ∃ c ∈ (t.queue l.q).posted ++ (t.queue l.q).held, c.hseq = l.lrec.hseq ∧
          c.status = (if l.flt = false ∧ l.kil = false then 0 else if l.firstKill = true then 3 else 1) ∧
          c.cause = l.cause ∧ c.ntask = BitVec.ofNat 32 l.ok) ∧
      (2 ≤ l.depth → partStopped s l.part = false →
        (l.state = .accepted → (∀ p ∈ predecessors l.lrec, p ∈ (s.queue l.q).finished) →
          exec (.childBind id) s = .next (s.updLaunch id (fun l => { l with state := .staging }))) ∧
        (∀ bs, l.state = .staging → headerOf s l = .ok bs → workingSet s l (kernelOf bs) = some [] → l.lrec.cond = false →
          exec (.childBind id) s = .next (s.updLaunch id (fun l => { l with state := .binding }))))) ∧
    (∀ fn : Nat, fn ≠ 0 →
      ((∀ p q, s.parts.get p = some q → q.fn = fn → q.drained = true ∧ allStand s p = true ∧
          ∀ ct ∈ partCts s p, max (s.ct (ctAgent ct)).trail.pub (s.ct (ctAgent ct)).owed ≤ (s.ct (ctAgent ct)).trail.done) →
        ∃ t, exec (.functionLevelReset fn) s = .next t ∧ (∀ e ∈ t.launches, e.2.fn ≠ fn) ∧
          ∀ k, k / 16 = fn → (t.queue k).en = false ∧ (t.queue k).acc = 0 ∧ (t.queue k).dseq = 0 ∧ (t.queue k).lhseq = 0) ∧
      (∀ p q, s.parts.get p = some q → q.fn = fn → q.drained = true → allStand s p = false →
        ∃ t, exec (.functionLevelReset fn) s = .next t ∧ t.launches = s.launches ∧ t.queues = s.queues ∧
          t.parts.get p = some q)) ∧
    (∀ fn handle : Nat, hostShut s = false → activeSpace s fn = true → handle < 2 ^ 20 →
      exec (.runTableHostWrite fn handle) s = .next { s with notices := s.notices ++ [.isolation fn] })

/-! ### The package -/

/-- R365, R366, R50, R51, R411 to R418, R395, R405 to R410 and R76: what scheduling, power, resets, firmware, the host and the
links do to the package. The model's choices are in it where the spec leaves them open: the address of a register write, what
flits that are not next ask for, how the ends of a link talk to each other, the address of a frame of the pool, and the pages of
page lists and the unpublished bytes under an aperture write (notes/assumptions/25.md), a floor out of its range (11.md), that the
host port is shut until its die is up (9.md), that a core's views end with its move (23.md), what resets keep beyond the spec's
words, the two parts of a dump and the status of a launch that a warm reset cuts short (24.md). -/
def Obligations.PackageEvents : Prop :=
  ∀ (s : State) (die : Fin 4),
    let d := s.dies.get die
    (∃ t, exec .meridianPeriod s = .next t ∧ t.cts = s.cts ∧ (∀ k, (t.cores.get k).part = (s.cores.get k).part) ∧
      ∀ p, t.parts.get p = (s.parts.get p).map (fun q => { q with prog := 0 })) ∧
    (∀ (core p b o : Fin 32) (q y x : Partition), (s.cores.get core).mark = some p → s.parts.get p = some q →
      (s.cores.get core).part = some b → s.parts.get b = some y → q.stopDispatch = false → y.stopDispatch = false →
      ownerOf s core = some o → s.parts.get o = some x →
      coreFree s core = true → regionBytes (bufferOf s core) q.locw x.coms q.trsz ≤ Config.coreSram →
        ∃ t, exec (.coreMove core) s = .next t ∧ (t.cores.get core).part = some p ∧ (t.cores.get core).mark = none ∧
          (∀ k ∈ coreCts core, (t.ct k).loc = [] ∧ (t.ct k).view = [] ∧ (t.ct k).g = (s.ct k).g) ∧
          (∀ k, k ∉ coreCts core → t.ct k = s.ct k)) ∧
    (∀ stack : Fin 8, exec (.thermalSelfRefresh stack) s = .next (s.updDie (Fin.ofNat 4 (stack.val / 2)) (fun d =>
      { d with hold := d.hold ||| 1#2 <<< (stack.val % 2) }))) ∧
    (d.hold ≠ 0 → exec (.thermalHold die) s = .next
      { s.updDie die (fun d => { d with thold := true }) with notices := s.notices ++ [.thermalHold die.val] }) ∧
    (∀ stack : Fin 8, ∃ t, exec (.selfRefreshExit stack) s = .next t ∧
      (∀ k : Fin 4, (t.dies.get k).hold = if k.val = stack.val / 2 then (s.dies.get k).hold &&& ~~~(1#2 <<< (stack.val % 2))
        else (s.dies.get k).hold) ∧
      ∀ k, t.ct k = { s.ct k with vq := match (s.ct k).vq with
        | v :: vs => { v with stalled := false } :: vs
        | [] => [] }) ∧
    (∀ row : Nat,
      let n := ((tabGet d.rowCnt row).getD 0).toNat
      let due := d.rowThr ≤ n ∨ n = 16383 ∨ row ∈ d.rowBad
      (due → ∃ t, exec (.rowActivationThreshold die row) s = .next t ∧ tabGet (t.dies.get die).rowCnt row = none ∧
        row ∉ (t.dies.get die).rowBad ∧ (countersOf t 0).corr = (countersOf s 0).corr + 1 ∧
        (t.dies.get die).reports = d.reports + 1 ∧ t.cts = s.cts) ∧
      (¬ due → exec (.rowActivationThreshold die row) s = .next s)) ∧
    (∀ temp power : Nat, d.stopped = false → temp < 256 → temp < d.ttrip.toNat → d.capen = true →
      (d.tcap.toNat ≤ temp → min 40 (max 10 d.floor.toNat) < d.cclk → exec (.powerCapPeriod die temp power) s = .next
        (s.updDie die (fun d => { d with temp := BitVec.ofNat 8 temp, cclk := d.cclk - 1, capd := true }))) ∧
      (temp + 5 < d.tcap.toNat → exec (.powerCapPeriod die temp power) s = .next
        (s.updDie die (fun d => { d with temp := BitVec.ofNat 8 temp, cclk := min 40 (d.cclk + 1) })))) ∧
    (∀ cause : BitVec 8, d.dump = none → ∃ t u, exec (.afterglowDump die cause) s = .next t ∧
      (t.dies.get die).stopped = true ∧ (t.dies.get die).dump = some u ∧ u.valid = false ∧ u.writing = true ∧
      u.cause = cause ∧ u.more = 0 ∧ u.ring = d.ring ∧ t.cts = s.cts ∧
      ((finishDump t die).dies.get die).dump = some { u with valid := true, writing := false }) ∧
    (∀ (cause : BitVec 8) (u : Dump), d.dump = some u → u.valid = true → exec (.afterglowDump die cause) s =
      .next (s.updDie die (fun d => { d with stopped := true, dump := some { u with more := u.more + 1 } }))) ∧
    (∀ fw : Vector Firmware 4, ∃ t, exec (.coldReset fw) s = .next t ∧ t.runs = [] ∧ t.frames = [] ∧ t.queues = [] ∧
      t.launches = [] ∧ (∀ p, t.parts.get p = none) ∧ (∀ k : Fin 4, (t.dies.get k).minVer = (s.dies.get k).minVer ∧
        (t.dies.get k).stopped = false ∧
        let runs := (fw.get k).signed = true ∧ (s.dies.get k).minVer.toNat ≤ (fw.get k).version.toNat
        (runs → (t.dies.get k).recovery = false ∧ (t.dies.get k).up = true ∧ (t.dies.get k).svn = (fw.get k).version ∧
          (t.dies.get k).meas.get 1 = Config.sha3 (leBytes 32 0 ++ leBytes 32 (Config.sha3 (fw.get k).sup).toNat)) ∧
        (¬ runs → (t.dies.get k).recovery = true ∧ (t.dies.get k).up = false)) ∧
      ∀ k, isUser k = true → t.ct k = CT.reset) ∧
    (∀ (fw : Vector Firmware 4) (r : Restore), (∀ k, (restoredRecord r k).isSome = true) →
      ∃ t, exec (.warmReset fw r) s = .next t ∧
      (∀ p, t.parts.get p = none) ∧ t.images = [] ∧ t.links = s.links ∧
      (∀ k, isUser k = true → t.ct k = { CT.reset with
        locStuck := (s.ct k).locStuck, trailStuck := (s.ct k).trailStuck, viewStuck := (s.ct k).viewStuck }) ∧
      (∀ k : Fin 4, (t.dies.get k).temp = (s.dies.get k).temp ∧ (t.dies.get k).rowCnt = (s.dies.get k).rowCnt) ∧
      (∀ k : Fin 128, partWord t (ctAgent k) = partWord s (ctAgent k)) ∧
      (∀ q, (t.queue q).en = false ∧ (t.queue q).acc = (s.queue q).acc) ∧
      (∀ id l, tabGet s.launches id = some l → l.depth = 1 →
        (l.state = .running → l.dealt = true →
          ∃ c ∈ (t.queue l.q).posted ++ (t.queue l.q).held, c.hseq = l.lrec.hseq ∧ c.status = 3) ∧
        ((∀ e ∈ s.launches, e.2.state ≠ .running) → (t.queue l.q).dseq = (s.queue l.q).dseq ∧
          ∃ m, tabGet t.launches id = some m ∧ m.lrec = l.lrec ∧ m.params = l.params ∧ m.state = .accepted)) ∧
      ((∀ e ∈ s.runs, e.2.dpend = false) → t.frames = s.frames ∧ ∀ k r, tabGet s.runs k = some r →
        ∃ u, tabGet t.runs k = some u ∧ u.recsz = r.recsz ∧ u.length = r.length ∧ u.wmark = r.wmark ∧
          u.leaves = r.leaves)) ∧
    (∀ nonce : BitVec 256, ∃ t r, exec (.attestationRequest die nonce) s = .next t ∧
      (t.dies.get die).attest = some r ∧ r.ver = 1 ∧ r.nonce = nonce ∧ r.meas = d.meas ∧
      r.svn = d.svn ∧ t.cts = s.cts) ∧
    (∀ (num : Fin 32) (fn : Nat) (cores : BitVec 32) (desc : W64), hostShut s = false → s.parts.get num = none → fn ≤ 384 → cores ≠ 0 →
      desc.toNat / 2 ^ 20 % 8 < 6 → (∀ k : Fin 32, cores.getLsbD k.val = true → (s.cores.get k).part = none ∧
        (s.dies.get (Fin.ofNat 4 (k.val / 8))).up = true ∧ regionBytes (bufferOf s k) (desc.toNat % 1024) (desc.toNat / 1024 % 1024) (desc.toNat / 2 ^ 20 % 8) ≤
          Config.coreSram) →
      ∃ t q, exec (.partitionCreate num fn cores desc) s = .next t ∧ t.parts.get num = some q ∧ q.fn = fn ∧
        q.locw = desc.toNat % 1024 ∧ q.coms = desc.toNat / 1024 % 1024 ∧ q.home = [] ∧
        (∀ k, k ∈ q.common ↔ cores.getLsbD k.val = true) ∧
        ∀ k : Fin 32, (t.cores.get k).part = if cores.getLsbD k.val then some num else (s.cores.get k).part) ∧
    (∀ (window off : Nat) (bytes : List Byte), hostShut s = false → window < 1024 → off + bytes.length ≤ 65536 →
      let frame := (tabGet s.windows window).getD 0
      let unread := s.runs.all (fun e => !frameRead e.2 frame)
      frame < 2 ^ 23 →
      (unread = true → (∀ e ∈ s.runs, frameAppended e.2 frame off bytes.length = false) →
        ∀ fr, tabGet s.frames frame = some fr → ∃ b, exec (.apertureWrite window off bytes) s = .next { s with
            frames := tabSet s.frames frame { fr with data := memWrite fr.data off bytes, bad := b } } ∧
          Remarked fr.bad ((tabGet s.stuck frame).getD []) b off bytes.length) ∧
      (unread = true → (∃ e ∈ s.runs, frameAppended e.2 frame off bytes.length = true) →
        exec (.apertureWrite window off bytes) s = .next s) ∧
      (unread = false → exec (.apertureWrite window off bytes) s =
        .next { s with notices := s.notices ++ [.isolation 0] })) ∧
    (∀ frame : Nat, s.poolBase + frame * 65536 ∉ s.poison → exec (.poolTimeout frame) s =
      .next { s with poison := (s.poolBase + frame * 65536) :: s.poison }) ∧
    (∀ (port : Fin 16) (f : Flit),
      let l := s.links.get port
      l.down = false → l.halted = 0 → l.stopped.getLsbD 3 = false → (s.dies.get (portDie port)).stopped = false →
        (f.crcOk = true → f.vc ≠ 3 → f.seq = l.rxSeq → l.onChannel f.vc = [] → f.dest.toNat = s.device →
          ∃ t, exec (.lumenFlit port f.vc f.seq ⟨f.crcOk, f.dest, f.msg⟩) s = .next t ∧ (t.links.get port).rxSeq = l.rxSeq + 1 ∧
            (t.links.get port).wire = l.wire ++ [⟨3, l.txSeq, true, 0, .ack f.seq⟩] ∧ (t.links.get port).txSeq = l.txSeq + 1 ∧
            ((∃ dev ag stl num ct tl, f.msg = .notify dev ag stl num ct tl) → (t.links.get port).bufs = l.bufs ++ [f])) ∧
        (f.crcOk = true → f.vc ≠ 3 → f.seq = l.rxSeq → l.onChannel f.vc = [] → f.dest.toNat ≠ s.device →
          ∀ out, routeTo s f.dest.toNat = some out → out ≠ port → (s.links.get out).stopped.getLsbD f.vc.toNat = false →
          ∃ t, exec (.lumenFlit port f.vc f.seq ⟨f.crcOk, f.dest, f.msg⟩) s = .next t ∧
            (t.links.get out).wire = (s.links.get out).wire ++ [{ f with seq := (s.links.get out).txSeq, crcOk := true }] ∧
            (t.links.get out).sent = (s.links.get out).sent ++ [{ f with seq := (s.links.get out).txSeq, crcOk := true }] ∧
            (t.links.get out).txSeq = (s.links.get out).txSeq + 1) ∧
        (f.crcOk = false ∨ (f.seq ≠ l.rxSeq ∧ (f.seq - l.rxSeq).toNat < 2048 ∧ (∀ n, f.msg ≠ .replay n)) ∨
            (f.seq = l.rxSeq ∧ f.vc ≠ 3 ∧ 16 ≤ (l.onChannel f.vc).length) →
          let q : Flit := ⟨3, l.txSeq, true, 0, .replay l.rxSeq⟩
          exec (.lumenFlit port f.vc f.seq ⟨f.crcOk, f.dest, f.msg⟩) s = .next (updLink s port (fun l =>
            { l with txSeq := l.txSeq + 1, sent := l.sent ++ [q], wire := l.wire ++ [q] }))) ∧
        (f.crcOk = true → 2048 ≤ (f.seq - l.rxSeq).toNat →
          exec (.lumenFlit port f.vc f.seq ⟨f.crcOk, f.dest, f.msg⟩) s = .next s) ∧
        (∀ n, f.crcOk = true → f.seq = l.rxSeq → f.vc = 3 → f.msg = .ack n →
          exec (.lumenFlit port f.vc f.seq ⟨f.crcOk, f.dest, f.msg⟩) s = .next (updLink s port (fun l =>
            { l with rxSeq := l.rxSeq + 1, sent := if l.sent.any (fun x => x.seq = n) then
              (l.sent.dropWhile (fun x => x.seq ≠ n)).drop 1 else l.sent })))) ∧
    (∀ port : Fin 16, (∀ k, (s.ct k).cmds = []) → (∀ k, (s.links.get k).bufs = []) → exec (.lumenLinkDown port) s =
      .next (updLink s port (fun l => { l with down := true, wait := [], sent := [] }))) ∧
    (∀ (p : Fin 32) (q : Partition) (chk : Bool), hostShut s = false → s.parts.get p = some q →
      ∃ t, exec (.checkedModeWrite p chk) s = .next t ∧ t.parts.get p = some { q with chk := chk } ∧
        ∀ ct ∈ partCts s p, (t.ct (ctAgent ct)).chk =
          if (s.ct (ctAgent ct)).vq.any (·.bound) then (s.ct (ctAgent ct)).chk else chk) ∧
    (∀ value : W64, hostShut s = false → exec (.registerWrite (w64 (2 ^ 40 * die.val + 0x40200200)) value) s = .next (s.updDie die (fun d =>
      { d with
        capen := value.getLsbD 0, floor := value.extractLsb' 8 8, tcap := value.extractLsb' 24 8
        ttrip := value.extractLsb' 32 8
        capd := d.capd && !value.getLsbD 41, thold := d.thold && !value.getLsbD 42 }))) ∧
    (d.up = true → d.minVer.toNat < d.svn.toNat → exec (.fusedMinimumRaise die) s =
      .next (s.updDie die (fun d => { d with minVer := d.svn }))) ∧
    (d.up = false → exec (.fusedMinimumRaise die) s = .next s) ∧
    (hostShut s = true → ∀ (n : Nat) (tail head : BitVec 16) (word addr value : W64) (p : Fin 32) (chk : Bool) (w off : Nat)
      (bytes : List Byte) (fn : Nat) (cores : BitVec 32), ∀ i ∈ ([.sqDoorbell n tail, .cqHeadWrite n head, .queueEnable n word,
        .registerWrite addr value, .checkedModeWrite p chk, .apertureWrite w off bytes,
        .partitionCreate p fn cores word] : List Instr), exec i s = .next s) ∧
    (∀ digest : BitVec 256, ∃ t, exec (.measurementExtend die digest) s = .next t ∧ (t.dies.get die).meas.get 3 =
      Config.sha3 (leBytes 32 (d.meas.get 3).toNat ++ leBytes 32 digest.toNat) ∧
      ∀ k, k ≠ 3 → (t.dies.get die).meas.get k = d.meas.get k)

/-! ### Fetch, decoding and the step -/

/-- R170, R171, R374, R375 and R329: where the scalar pipe moves and the parcels at the program counter decode to a legal
instruction, the step is that instruction's `exec`; what is due after it follows in the same step unless the instruction
faulted, a fault of fetch traps, and what the schedule or the part itself moves is moved first (an event of the later kinds only
where the next instruction does not fault, none on a stopped die, R418). A fault of fetch keeps the lift copy at which the instruction
was to go on. While a thread has an access put off, either the access is performed or an instruction runs that may come before it.
The schedule and its default are the model's choice
(notes/assumptions/5.md), and so are the cause of a misaligned fetch (10.md) and when a dump is written to its end (24.md). -/
def Obligations.StepRunsDecoded : Prop :=
  (∀ s u : State, PipeMoves s u → u.me.slow = none →
    let v := u.upd CT.atBoundary
    let pc := v.me.pc
    (∀ (i : Instr) (ps : List (BitVec 32)), decode ps = .ok (i, ps.length) → pc.toNat % 4 = 0 →
      pc.toNat + 4 * ps.length ≤ codeBytes v v.cur →
      (∀ (k : Nat) (p : BitVec 32), ps[k]? = some p → codeParcel v v.cur (pc.toNat + 4 * k) = some p) →
      (∀ k < ps.length, codeHeld v v.cur (pc.toNat + 4 * k) = false) →
      (∀ h ws, i = .convoyHeader h ws → headerOk h = true) →
      (laterEvent v = none → step s = exec i v) ∧
      (∀ e t, laterEvent v = some e → inWfe v.me = false → yieldTakes i e = false → exec i v = .next t →
        step s = if faulted t then .next t else exec e v)) ∧
    (pc.toNat % 4 ≠ 0 → step s = .next (preciseTrap v v.cur .misalign pc false v.me.lift.resume pc)) ∧
    (pc.toNat % 4 = 0 → codeBytes v v.cur < pc.toNat + 4 → step s =
      .next (preciseTrap v v.cur .runRange (runFaultWord (codeHandle v v.cur) (pc.toNat / 4) 0 0) false v.me.lift.resume pc))) ∧
  (∀ (s : State) (i : Instr) (rest : List Act), s.sched = .event i :: rest → isEvent i = true →
    eventStopped s i = false → (∀ ag, interrupts s i = some ag → faultNext exec { s with sched := rest } ag = false) →
    (∀ ag, slowFor i = some ag ∨ interrupts s i = some ag → (s.ct ag).slow = none) →
      step s = exec i { s with sched := rest }) ∧
  (∀ (s : State) (i : Instr) (rest : List Act), s.sched = .event i :: rest → isEvent i = true → eventStopped s i = true →
    step s = .next { s with sched := rest }) ∧
  (∀ (s : State) (i : Instr), s.sched = [] → dumpingDie s = none → autoEvent s = some i →
    (s.dies.get (dieOf s.cur)).stopped = false → s.me.slow = none → (∀ ag, slowFor i = some ag → (s.ct ag).slow = none) →
      step s = exec i s) ∧
  (∀ s : State, s.sched = [] → dumpingDie s = none → (s.dies.get (dieOf s.cur)).stopped = false → s.me.slow.isSome = true →
    (settleSlow s s.cur).me.slow = none → step s = .next (settleSlow s s.cur)) ∧
  (∀ (s u : State) (ag : Agent) (rest : List Act) (q : Slow), s.sched = .run ag :: rest → PipeMoves s u → u.me.slow = some q →
    step s = .next (settleSlow u ag) ∨
      ∃ i, passes (u.upd CT.atBoundary).me q i = true ∧ step s = exec i (u.upd CT.atBoundary)) ∧
  (∀ (s : State) (die : Fin 4), s.sched = [] → dumpingDie s = some die → step s = .next (finishDump s die)) ∧
  (∀ (s : State), s.sched = [] → dumpingDie s = none → (s.dies.get (dieOf s.cur)).stopped = true →
    step s = .fault (.dieStopped (dieOf s.cur).val))

/-- R170 to R178: in every encoding the spec gives, decoding takes back what encoding put there. A well-formed scalar
instruction, long form or convoy at the head of any parcels decodes to itself and its length, the word of a well-formed
vector instruction to itself; only events have neither. -/
def Obligations.EncodeDecode : Prop :=
  ∀ i : Instr, i.wellFormed = true →
    (∀ rest, encode i ≠ [] → decode (encode i ++ rest) = .ok (i, (encode i).length)) ∧
    (∀ w, encodeVec i = some w → decodeVec w = .ok i) ∧
    (isEvent i = false → encode i ≠ [] ∨ ∃ w, encodeVec i = some w)

/-- Words that the spec's worked examples and encoding tables write out decode to the instructions they stand for: Table
16.7 and the program after it, atomics of Table 20.1, and vector words of Tables 13.5, 14.5 and 16.4. -/
def Obligations.DecodeWords : Prop :=
  (∀ e ∈ ([(0xC8028004, .lift 5 4), (0xCA000000, .lend), (0xCA600080, .lidx 6 0), (0xCA838100, .lred 8 7 .add),
      (0xCA83A580, .lpick 8 7 9), (0xCAB00207, .ltag 11 0 7), (0xCA000284, .lact 4), (0x3E500003, .li 5 3),
      (0x62703001, .sts 7 0 .d 1), (0x36730004, .shli 7 6 4), (0x42409801, .cmpi .ne 1 6 1), (0x52040002, .bp 1 false 2),
      (0x2E738005, .addi 7 7 5), (0xC0000180, .tdone), (0x70028038, .amo .swap true true false 0 5 0),
      (0x72729850, .cas true false true 7 5 6)] : List (BitVec 32 × Instr)),
    decode [e.1] = .ok (e.2, 1)) ∧
  decodeVec 0x2014108006100200 = .ok (.vadd ⟨5, 1, 2, 0, 3, false, .i8, .none, 0, 0, true, 0⟩) ∧
  decodeVec 0x4A24108000900002 = .ok (.vfcmp ⟨9, 1, 2, 0, 0, false, .f32, .none, 0, 0, false, 2⟩) ∧
  decodeVec 0x6014300000A90000 = .ok (.vcvt ⟨5, 3, 0, 0, 0, false, .e4m3, .f32, 0, 0, false, 0⟩) ∧
  decodeVec 0x8314100000A00007 = .ok (.mxrF ⟨5, 1, 0, 0, 0, false, .e4m3, .none, 0, 0, false, 7⟩)

/-- Every memory keeps its canonical form through every step: equal memories stay equal data. The form is the model's
choice (notes/assumptions/4.md). -/
def Obligations.MemoryCanonical : Prop :=
  ∀ s t : State, CanonicalMemory s → step s = .next t → CanonicalMemory t

/-- R411 and the Reset columns of Tables 5.1, 5.3, 6.4 to 6.7, 24.3, 27.1, 28.1 and 29.2: what reset leaves of the fields for
which the spec gives a value. There is no run, frame, partition, launch or enabled queue; user control threads are idle,
system ones in supervisor mode (that user ones are not is the model's choice, notes/assumptions/2.md); every memory is in its
canonical form, which is the model's choice too (4.md). -/
def Obligations.ResetState : Prop :=
  let s := State.reset
  (∀ ag, let c := s.ct ag
    c.frm = 1 ∧ c.fflags = 0 ∧ c.vl = 0 ∧ c.vtype = ⟨.f32, 0, 0, 0⟩ ∧ c.vstart = 0 ∧ c.spset = 0 ∧
      c.lift.levels = [] ∧ c.uevec = 0 ∧ c.uecause = 0 ∧ c.kparm = 0 ∧ c.bankwave = 0 ∧ c.vlcap = 8 ∧ c.ctweight = 4 ∧
      c.tcause = 0 ∧ c.tval = 0 ∧ c.tpc = 0 ∧
      (∀ k : Fin 4, (c.streams.get k).mode = .closed) ∧ (∀ k : Fin 8, (c.tls.get k).done = 0 ∧ (c.tls.get k).issued = 0)) ∧
  (∀ ag, isUser ag = true → (s.ct ag).status = .idle ∧ (s.ct ag).sup = false ∧ vlmax s ag = 256) ∧
  (∀ ag, isUser ag = false → (s.ct ag).sup = true) ∧
  s.runs = [] ∧ s.frames = [] ∧ s.launches = [] ∧ (∀ p, s.parts.get p = none) ∧
  (∀ q, let u := s.queue q
    u.en = false ∧ u.prio = 0 ∧ u.acc = 0 ∧ u.dseq = 0 ∧ u.lhseq = 0 ∧ u.wdlim = 0 ∧ u.wdcnt = 0 ∧ u.pst = 0 ∧
      u.pcause = 0) ∧
  (∀ k, let d := s.dies.get k
    d.dclk = 0 ∧ d.capen = true ∧ d.cclk = 40 ∧ d.floor = 10 ∧ d.tcap = 95 ∧ d.ttrip = 115 ∧ d.hold = 0 ∧
      d.capd = false ∧ d.thold = false ∧ d.pol = false ∧ d.minbin = 3 ∧ d.rowThr = 2048 ∧ d.formB = 2 ^ 24 ∧ d.stopped = false) ∧
  (∀ k, (s.cores.get k).cycle = 0) ∧ CanonicalMemory s
end

