-- ==== Sys2Proof/Laws/Memory.lean ====
section
/-! SUPPORT. The laws of byte memories and tables: a read after a write, and that every operation keeps the canonical
form. -/

namespace Sys2Proof.Machine

open Sys2Proof

/-! ### Reading after writing -/

theorem memGet_memDrop (m : Mem) (a x : Nat) : memGet (memDrop m a) x = if x = a then 0 else memGet m x := by
  induction m with
  | nil => simp [memDrop, memGet]
  | cons c m ih =>
    obtain ⟨k, b⟩ := c
    have hd : memDrop ((k, b) :: m) a = if k = a then memDrop m a else (k, b) :: memDrop m a := by
      by_cases h : k = a <;> simp [memDrop, h]
    rw [hd]
    by_cases hka : k = a
    · subst hka
      simp only [if_true, ih, memGet]
      by_cases hx : x = k <;> simp [hx]
      intro h
      exact absurd h.symm hx
    · simp only [hka, if_false, memGet, ih]
      by_cases hkx : k = x
      · subst hkx; simp [hka]
      · simp [hkx]

theorem memGet_memInsert (m : Mem) (a : Nat) (b : Byte) (x : Nat) (h : ∀ c ∈ m, c.1 ≠ a) :
    memGet (memInsert a b m) x = if x = a then b else memGet m x := by
  induction m with
  | nil =>
    simp only [memInsert, memGet]
    by_cases hx : x = a
    · simp [hx]
    · simp [hx, Ne.symm hx]
  | cons c m ih =>
    obtain ⟨k, v⟩ := c
    have hka : k ≠ a := h (k, v) (by simp)
    have hm : ∀ c ∈ m, c.1 ≠ a := fun c hc => h c (by simp [hc])
    unfold memInsert
    by_cases hlt : a < k
    · simp only [hlt, if_true, memGet]
      by_cases hx : x = a
      · simp [hx]
      · simp [hx, Ne.symm hx]
    · simp only [hlt, if_false, memGet, ih hm]
      by_cases hkx : k = x
      · subst hkx; simp [hka]
      · simp [hkx]

theorem mem_memDrop (m : Mem) (a : Nat) : ∀ c ∈ memDrop m a, c.1 ≠ a := by
  intro c hc
  have := (List.mem_filter.mp hc).2
  simpa using this

/-- A byte write: the address reads the byte written, every other address reads as before. -/
theorem memGet_memSet (m : Mem) (a : Nat) (b : Byte) (x : Nat) :
    memGet (memSet m a b) x = if x = a then b else memGet m x := by
  unfold memSet
  split
  · rename_i hb; rw [memGet_memDrop, hb]
  · rw [memGet_memInsert _ _ _ _ (mem_memDrop m a), memGet_memDrop]
    split <;> rfl

/-- A write of bytes: the addresses written read the bytes, every other address reads as before. -/
theorem memGet_memWrite (bs : List Byte) (m : Mem) (a x : Nat) :
    memGet (memWrite m a bs) x = if h : a ≤ x ∧ x < a + bs.length then bs[x - a]'(by omega) else memGet m x := by
  induction bs generalizing m a with
  | nil =>
    have : ¬ (a ≤ x ∧ x < a + ([] : List Byte).length) := by simp
    rw [dif_neg this, memWrite]
  | cons b bs ih =>
    rw [memWrite, ih]
    by_cases h1 : a + 1 ≤ x ∧ x < a + 1 + bs.length
    · have h2 : a ≤ x ∧ x < a + (b :: bs).length := by simp; omega
      rw [dif_pos h1, dif_pos h2]
      have h3 : x - a = (x - (a + 1)) + 1 := by omega
      simp [h3]
    · rw [dif_neg h1, memGet_memSet]
      by_cases hx : x = a
      · subst hx
        have h2 : x ≤ x ∧ x < x + (b :: bs).length := by simp
        rw [dif_pos h2]
        simp
      · have h2 : ¬ (a ≤ x ∧ x < a + (b :: bs).length) := by simp; omega
        rw [dif_neg h2, if_neg hx]

/-- A byte outside a write reads as before. -/
theorem memGet_memWrite_out (bs : List Byte) (m : Mem) (a x : Nat) (h : x < a ∨ a + bs.length ≤ x) :
    memGet (memWrite m a bs) x = memGet m x := by
  rw [memGet_memWrite, dif_neg (by omega)]

/-- Bytes read where they were written are the bytes written. -/
theorem memRead_memWrite (bs : List Byte) (m : Mem) (a : Nat) : memRead (memWrite m a bs) a bs.length = bs := by
  apply List.ext_getElem
  · simp [memRead]
  · intro k h1 h2
    have hk : k < bs.length := h2
    have h3 : a ≤ a + k ∧ a + k < a + bs.length := by omega
    simp only [memRead, List.getElem_map, List.getElem_range]
    rw [memGet_memWrite, dif_pos h3]
    simp

/-! ### The canonical form -/

theorem wf_memDrop (m : Mem) (a : Nat) (h : Memory.wf m = true) : Memory.wf (memDrop m a) = true := by
  induction m with
  | nil => rfl
  | cons c m ih =>
    obtain ⟨k, b⟩ := c
    simp only [Memory.wf, Bool.and_eq_true, List.all_eq_true, decide_eq_true_eq] at h
    obtain ⟨⟨hb, hr⟩, hm⟩ := h
    by_cases hk : k = a
    · have : memDrop ((k, b) :: m) a = memDrop m a := by simp [memDrop, hk]
      rw [this]; exact ih hm
    · have : memDrop ((k, b) :: m) a = (k, b) :: memDrop m a := by simp [memDrop, hk]
      rw [this]
      simp only [Memory.wf, Bool.and_eq_true, List.all_eq_true, decide_eq_true_eq]
      exact ⟨⟨hb, fun c hc => hr c (List.mem_filter.mp hc).1⟩, ih hm⟩

theorem mem_memInsert {a : Nat} {b : Byte} {m : Mem} {c : Host.Cell} (h : c ∈ memInsert a b m) : c = (a, b) ∨ c ∈ m := by
  induction m with
  | nil => simpa [memInsert] using h
  | cons d m ih =>
    unfold memInsert at h
    split at h
    · simpa using h
    · rcases List.mem_cons.mp h with rfl | h
      · simp
      · rcases ih h with h | h <;> simp [h]

theorem wf_memInsert (m : Mem) (a : Nat) (b : Byte) (hb : b ≠ 0) (hn : ∀ c ∈ m, c.1 ≠ a) (h : Memory.wf m = true) :
    Memory.wf (memInsert a b m) = true := by
  induction m with
  | nil =>
    simpa [memInsert, Memory.wf] using hb
  | cons c m ih =>
    obtain ⟨k, v⟩ := c
    have h0 := h
    simp only [Memory.wf, Bool.and_eq_true, List.all_eq_true, decide_eq_true_eq] at h
    obtain ⟨⟨hv, hr⟩, hm⟩ := h
    have hka : k ≠ a := hn (k, v) (by simp)
    unfold memInsert
    split
    · rename_i hlt
      simp only [Memory.wf, Bool.and_eq_true, List.all_eq_true, decide_eq_true_eq]
      refine ⟨⟨by simpa using hb, ?_⟩, ⟨hv, hr⟩, hm⟩
      intro c hc
      rcases List.mem_cons.mp hc with rfl | hc
      · exact hlt
      · exact Nat.lt_trans hlt (hr c hc)
    · rename_i hlt
      simp only [Memory.wf, Bool.and_eq_true, List.all_eq_true, decide_eq_true_eq]
      refine ⟨⟨hv, ?_⟩, ih (fun c hc => hn c (by simp [hc])) hm⟩
      intro c hc
      rcases mem_memInsert hc with rfl | hc
      · simp only; omega
      · exact hr c hc

/-- A byte write keeps the canonical form. -/
theorem wf_memSet (m : Mem) (a : Nat) (b : Byte) (h : Memory.wf m = true) : Memory.wf (memSet m a b) = true := by
  unfold memSet
  split
  · exact wf_memDrop m a h
  · rename_i hb
    exact wf_memInsert _ a b hb (mem_memDrop m a) (wf_memDrop m a h)

/-- A write of bytes keeps the canonical form. -/
theorem wf_memWrite (bs : List Byte) (m : Mem) (a : Nat) (h : Memory.wf m = true) :
    Memory.wf (memWrite m a bs) = true := by
  induction bs generalizing m a with
  | nil => exact h
  | cons b bs ih => exact ih _ _ (wf_memSet m a b h)

/-- The canonical form by its two parts: addresses rise, and no byte is 0. -/
theorem wf_iff (m : Mem) : Memory.wf m = true ↔ m.Pairwise (fun a b => a.1 < b.1) ∧ ∀ c ∈ m, c.2 ≠ 0 := by
  induction m with
  | nil => simp [Memory.wf]
  | cons c m ih =>
    obtain ⟨k, b⟩ := c
    simp only [Memory.wf, Bool.and_eq_true, List.all_eq_true, decide_eq_true_eq, ih, List.pairwise_cons, List.mem_cons,
      forall_eq_or_imp, bne_iff_ne]
    exact ⟨fun ⟨⟨hb, hr⟩, hp, hz⟩ => ⟨⟨hr, hp⟩, hb, hz⟩, fun ⟨⟨hr, hp⟩, hb, hz⟩ => ⟨⟨hb, hr⟩, hp, hz⟩⟩

/-- A part of a memory, moved down to address 0, keeps the canonical form. -/
theorem wf_memSlice (m : Mem) (lo n : Nat) (h : Memory.wf m = true) : Memory.wf (memSlice m lo n) = true := by
  rw [wf_iff] at h ⊢
  refine ⟨?_, ?_⟩
  · rw [memSlice, List.pairwise_map]
    refine (h.1.filter _).imp_of_mem fun {a b} ha _ hab => ?_
    have := (List.mem_filter.mp ha).2
    simp only [Bool.and_eq_true, decide_eq_true_eq] at this
    omega
  · intro c hc
    obtain ⟨q, hq, rfl⟩ := List.mem_map.mp hc
    exact h.2 q (List.mem_filter.mp hq).1

/-- A memory with a page of another put in its place keeps the canonical form. -/
theorem wf_memPaste (m page : Mem) (lo n : Nat) (h : Memory.wf m = true) (hp : Memory.wf page = true) :
    Memory.wf (memPaste m lo n page) = true := by
  rw [wf_iff] at h hp ⊢
  refine ⟨?_, ?_⟩
  · rw [memPaste, List.pairwise_append, List.pairwise_append, List.pairwise_map]
    refine ⟨⟨h.1.filter _, (hp.1.filter _).imp fun hab => by omega, ?_⟩, h.1.filter _, ?_⟩
    · intro a ha b hb
      obtain ⟨q, hq, rfl⟩ := List.mem_map.mp hb
      have := (List.mem_filter.mp ha).2
      simp only [decide_eq_true_eq] at this
      omega
    · intro a ha b hb
      have hb := (List.mem_filter.mp hb).2
      simp only [decide_eq_true_eq] at hb
      rcases List.mem_append.mp ha with ha | ha
      · have := (List.mem_filter.mp ha).2
        simp only [decide_eq_true_eq] at this
        omega
      · obtain ⟨q, hq, rfl⟩ := List.mem_map.mp ha
        have := (List.mem_filter.mp hq).2
        simp only [decide_eq_true_eq] at this
        omega
  · intro c hc
    rcases List.mem_append.mp hc with hc | hc
    · rcases List.mem_append.mp hc with hc | hc
      · exact h.2 c (List.mem_filter.mp hc).1
      · obtain ⟨q, hq, rfl⟩ := List.mem_map.mp hc
        exact hp.2 q (List.mem_filter.mp hq).1
    · exact h.2 c (List.mem_filter.mp hc).1

/-- A byte below every listed address reads 0. -/
theorem memGet_above (m : Mem) (x : Nat) (h : ∀ c ∈ m, x < c.1) : memGet m x = 0 := by
  induction m with
  | nil => rfl
  | cons c m ih =>
    obtain ⟨k, b⟩ := c
    have hk : x < k := h (k, b) (by simp)
    have : k ≠ x := by omega
    simp only [memGet, this, if_false]
    exact ih (fun c hc => h c (by simp [hc]))

/-! ### Byte strings and numbers -/

@[simp] theorem leBytes_length (n w : Nat) : (leBytes n w).length = n := by
  induction n generalizing w with
  | zero => rfl
  | succ n ih => simp [leBytes, ih]

/-- The number of the bytes of a number is the number modulo 256^n. -/
theorem leNat_leBytes (n w : Nat) : leNat (leBytes n w) = w % 256 ^ n := by
  induction n generalizing w with
  | zero => simp [leBytes, leNat, Nat.mod_one]
  | succ n ih =>
    have h : (256 : Nat) ^ (n + 1) = 256 * 256 ^ n := by rw [Nat.pow_succ, Nat.mul_comm]
    simp only [leBytes, leNat, ih, BitVec.toNat_ofNat, h, Nat.mod_mul]

theorem leNat_lt (bs : List Byte) : leNat bs < 256 ^ bs.length := by
  induction bs with
  | nil => simp [leNat]
  | cons b bs ih =>
    have hb := b.isLt
    simp only [leNat, List.length_cons, Nat.pow_succ]
    omega

/-! ### Tables -/

theorem tabGet_tabDrop {α : Type} (t : Tab α) (n k : Nat) :
    tabGet (tabDrop t n) k = if k = n then none else tabGet t k := by
  induction t with
  | nil => simp [tabDrop, tabGet]
  | cons c m ih =>
    obtain ⟨j, b⟩ := c
    have hd : tabDrop ((j, b) :: m) n = if j = n then tabDrop m n else (j, b) :: tabDrop m n := by
      by_cases h : j = n <;> simp [tabDrop, h]
    rw [hd]
    by_cases hjn : j = n
    · subst hjn
      simp only [if_true, ih, tabGet]
      by_cases hx : k = j <;> simp [hx]
      intro h
      exact absurd h.symm hx
    · simp only [hjn, if_false, tabGet, ih]
      by_cases hjk : j = k
      · subst hjk; simp [hjn]
      · simp [hjk]

theorem tabGet_tabInsert {α : Type} (t : Tab α) (n : Nat) (v : α) (k : Nat) (h : ∀ c ∈ t, c.1 ≠ n) :
    tabGet (tabInsert n v t) k = if k = n then some v else tabGet t k := by
  induction t with
  | nil =>
    simp only [tabInsert, tabGet]
    by_cases hx : k = n
    · simp [hx]
    · simp [hx, Ne.symm hx]
  | cons c m ih =>
    obtain ⟨j, w⟩ := c
    have hjn : j ≠ n := h (j, w) (by simp)
    have hm : ∀ c ∈ m, c.1 ≠ n := fun c hc => h c (by simp [hc])
    unfold tabInsert
    by_cases hlt : n < j
    · simp only [hlt, if_true, tabGet]
      by_cases hx : k = n
      · simp [hx]
      · simp [hx, Ne.symm hx]
    · simp only [hlt, if_false, tabGet, ih hm]
      by_cases hjk : j = k
      · subst hjk; simp [hjn]
      · simp [hjk]

/-- A table entry after it is set. -/
theorem tabGet_tabSet {α : Type} (t : Tab α) (n : Nat) (v : α) (k : Nat) :
    tabGet (tabSet t n v) k = if k = n then some v else tabGet t k := by
  unfold tabSet
  rw [tabGet_tabInsert, tabGet_tabDrop]
  · split <;> rfl
  · intro c hc
    have := (List.mem_filter.mp hc).2
    simpa using this

/-- A table entry after another is changed. -/
theorem tabGet_tabUpd {α : Type} (t : Tab α) (n : Nat) (f : α → α) (k : Nat) :
    tabGet (tabUpd t n f) k = if k = n then (tabGet t n).map f else tabGet t k := by
  unfold tabUpd
  cases h : tabGet t n with
  | none =>
    by_cases hk : k = n
    · subst hk; simp [h]
    · simp [hk]
  | some v => simp [tabGet_tabSet]

end Sys2Proof.Machine
end

