-- ==== Sys2Proof/Laws/PerInstr.lean ====
section
/-! SUPPORT. The family RoundTrip: of each well-formed instruction, decoding the parcels it is encoded in gives it back, and
decoding the word of a vector instruction does. -/

namespace Sys2Proof.Laws.RoundTrip

open Sys2Proof

set_option Elab.async false

/-- What is said of an instruction: at the head of any parcels its encoding decodes to it, with the encoding's length; a
vector instruction's word decodes to it. -/
def Statement (i : Instr) : Prop := i.wellFormed = true →
  (∀ rest, encode i ≠ [] → decode (encode i ++ rest) = .ok (i, (encode i).length)) ∧
    ∀ w, encodeVec i = some w → decodeVec w = .ok i

/-! ### Codes and fields -/

@[simp] theorem ofNat_32 (r : Fin 32) : Fin.ofNat 32 r.val = r := by ext; simp [Fin.ofNat, Nat.mod_eq_of_lt r.isLt]
@[simp] theorem ofNat_128 (r : Fin 128) : Fin.ofNat 128 r.val = r := by ext; simp [Fin.ofNat, Nat.mod_eq_of_lt r.isLt]
@[simp] theorem ofNat_8 (r : Fin 8) : Fin.ofNat 8 r.val = r := by ext; simp [Fin.ofNat, Nat.mod_eq_of_lt r.isLt]
@[simp] theorem ofNat_16 (r : Fin 16) : Fin.ofNat 16 r.val = r := by ext; simp [Fin.ofNat, Nat.mod_eq_of_lt r.isLt]
@[simp] theorem ofNat_3 (r : Fin 3) : Fin.ofNat 3 r.val = r := by ext; simp [Fin.ofNat, Nat.mod_eq_of_lt r.isLt]
@[simp] theorem b2n_flag (b : Bool) : (b2n b == 1) = b := by cases b <;> rfl
theorem b2n_false : b2n false = 0 := rfl
theorem b2n_lt (b : Bool) : b2n b < 2 := by cases b <;> decide
@[simp] theorem ccOf_code (c : Cc) : ccOf c.code = some c := by cases c <;> rfl
theorem cc_lt (c : Cc) : c.code < 6 := by cases c <;> decide
@[simp] theorem szOf_code (c : MSize) : szOf c.code = some c := by cases c <;> rfl
theorem sz_lt (c : MSize) : c.code < 4 := by cases c <;> decide
@[simp] theorem amoOf_code (c : AmoOp) : amoOf c.code = some c := by cases c <;> rfl
theorem amo_lt (c : AmoOp) : c.code < 10 := by cases c <;> decide
@[simp] theorem lredOf_code (c : LredOp) : lredOf c.code = c := by cases c <;> rfl
theorem lred_lt (c : LredOp) : c.code < 8 := by cases c <;> decide
@[simp] theorem tyOf_code (c : VTy) : tyOf c.code = c := by cases c <;> rfl
theorem ty_lt (c : VTy) : c.code < 16 := by cases c <;> decide

theorem fld_all (x : BitVec 32) : fld x.toNat 0 32 = x.toNat := by
  simp only [fld]; have := x.isLt; omega

/-- The fields of format A. -/
theorem encA_std (op : Nat) (d a b : GReg) (fn : Nat) (hop : op < 112) (hfn : fn < 1024) :
    encA op d a b fn < 2 ^ 25 * 112 ∧ fld (encA op d a b fn) 25 7 = op ∧ fld (encA op d a b fn) 20 5 = d.val ∧
      fld (encA op d a b fn) 15 5 = a.val ∧ fld (encA op d a b fn) 10 5 = b.val ∧
      fld (encA op d a b fn) 0 10 = fn ∧ fld (encA op d a b fn) 0 15 = b.val * 1024 + fn := by
  have := d.isLt; have := a.isLt; have := b.isLt
  simp only [fld, encA]; omega

/-- The fields of format I. -/
theorem encI_std (op : Nat) (d a : GReg) (i : Nat) (hop : op < 112) (hi : i < 32768) :
    encI op d a i < 2 ^ 25 * 112 ∧ fld (encI op d a i) 25 7 = op ∧ fld (encI op d a i) 20 5 = d.val ∧
      fld (encI op d a i) 15 5 = a.val ∧ fld (encI op d a i) 0 15 = i := by
  have := d.isLt; have := a.isLt
  simp only [fld, encI]; omega

/-- The fields of the first parcel of a long form. -/
theorem encLong_std (op : Nat) (d : GReg) (hop : 0x78 ≤ op ∧ op < 0x80) :
    encLong op d < 2 ^ 32 ∧ fld (encLong op d) 28 4 = 15 ∧ fld (encLong op d) 25 7 = op ∧ fld (encLong op d) 20 5 = d.val ∧
      fld (encLong op d) 0 20 = 0 := by
  have := d.isLt
  simp only [fld, encLong]; omega

/-! ### Units -/

/-- An instruction of one parcel keeps the statement if the scalar decoder answers it. -/
theorem scalar_ok {i : Instr} {w : Nat} (he : encode i = [BitVec.ofNat 32 w]) (hv : vecParts i = none)
    (h : ∀ n, n = w → n < 2 ^ 25 * 112 ∧ (i.wellFormed = true → decodeScalar n = .ok i)) : Statement i := by
  intro hwf
  obtain ⟨hw, hd⟩ := h w rfl
  refine ⟨fun rest _ => ?_, fun w hw => by simp [encodeVec, hv] at hw⟩
  have h0 : (BitVec.ofNat 32 w).toNat = w := by simp; omega
  have h1 : fld w 28 4 < 14 := by unfold fld; omega
  have h2 : ¬ fld w 28 4 = 14 := by omega
  have h3 : ¬ fld w 28 4 = 15 := by omega
  rw [he]
  simp [decode, h0, unitParcels, h2, h3, hd hwf, Except.map]

/-- An event is no unit and no vector instruction. -/
theorem event_ok {i : Instr} (he : encode i = []) (hv : vecParts i = none) : Statement i :=
  fun _ => ⟨fun _ h => absurd he h, fun w hw => by simp [encodeVec, hv] at hw⟩

/-- The unit of a long form decodes to what its two parcels give. -/
theorem long_unit {i : Instr} {w : Nat} {imm : BitVec 32} (rest : List (BitVec 32))
    (he : encode i = [BitVec.ofNat 32 w, imm])
    (hw : w < 2 ^ 32) (h1 : fld w 28 4 = 15) (hd : decodeLong w imm.toNat = .ok i) :
    decode (encode i ++ rest) = .ok (i, (encode i).length) := by
  have h0 : (BitVec.ofNat 32 w).toNat = w := by
    rw [BitVec.toNat_ofNat, Nat.mod_eq_of_lt hw]
  have h5 : ¬ fld w 28 4 = 14 := by omega
  have h6 : unitParcels w = 2 := by rw [unitParcels, if_neg h5, if_pos h1]
  have h7 : ¬ rest.length + 1 + 1 < 2 := by omega
  rw [he]
  show decode (BitVec.ofNat 32 w :: imm :: rest) = .ok (i, 2)
  simp only [decode, h0, h6, List.length_cons, if_neg h7, if_neg h5, if_pos h1, hd, Except.map]

/-- A long form keeps the statement if its decoder answers it. -/
theorem long_ok {i : Instr} {op : Nat} {d : GReg} {imm : BitVec 32} (hop : 0x78 ≤ op ∧ op < 0x80)
    (he : encode i = [BitVec.ofNat 32 (encLong op d), imm]) (hv : vecParts i = none)
    (hd : ∀ w, fld w 25 7 = op → fld w 20 5 = d.val → fld w 0 20 = 0 → decodeLong w imm.toNat = .ok i) : Statement i := by
  refine fun _ => ⟨fun rest _ => ?_, fun w hw => by simp [encodeVec, hv] at hw⟩
  obtain ⟨hw, h1, h2, h3, h4⟩ := encLong_std op d hop
  generalize encLong op d = w at he hw h1 h2 h3 h4
  exact long_unit rest he hw h1 (hd w h2 h3 h4)

/-- A vector instruction keeps the statement if its opcode's decoder answers it. -/
theorem vec_ok {i : Instr} {op : Nat} {f : VFields} (hop : op < 256) (he : encode i = []) (hv : vecParts i = some (op, f))
    (hd : ∀ w, fld w 56 8 = op → vecFields w = f → i.wellFormed = true → decodeVec w = .ok i) : Statement i := by
  refine fun hwf => ⟨fun _ h => absurd he h, fun w hw => ?_⟩
  simp only [encodeVec, hv, Option.map_some, Option.some.injEq] at hw
  obtain ⟨vd, va, vb, vc, pm, pn, t1, t2, rnd, smod, sat, fn⟩ := f
  simp only [encVec] at hw
  have := vd.isLt; have := va.isLt; have := vb.isLt; have := vc.isLt; have := pm.isLt; have := b2n_lt pn
  have := ty_lt t1; have := ty_lt t2; have := rnd.isLt; have := smod.isLt; have := b2n_lt sat; have := fn.isLt
  have r0 : fld w 56 8 = op := by simp only [fld]; omega
  have r1 : fld w 50 6 = vd.toNat := by simp only [fld]; omega
  have r2 : fld w 44 6 = va.toNat := by simp only [fld]; omega
  have r3 : fld w 38 6 = vb.toNat := by simp only [fld]; omega
  have r4 : fld w 32 6 = vc.toNat := by simp only [fld]; omega
  have r5 : fld w 25 7 = pm.val := by simp only [fld]; omega
  have r6 : fld w 24 1 = b2n pn := by simp only [fld]; omega
  have r7 : fld w 20 4 = t1.code := by simp only [fld]; omega
  have r8 : fld w 16 4 = t2.code := by simp only [fld]; omega
  have r9 : fld w 13 3 = rnd.toNat := by simp only [fld]; omega
  have r10 : fld w 10 3 = smod.toNat := by simp only [fld]; omega
  have r11 : fld w 9 1 = b2n sat := by simp only [fld]; omega
  have r12 : fld w 0 9 = fn.toNat := by simp only [fld]; omega
  refine hd w r0 ?_ hwf
  simp [vecFields, bAt, pAt, flagAt, r1, r2, r3, r4, r5, r6, r7, r8, r9, r10, r11, r12]

/-- The words of a convoy come back from their parcels. -/
theorem vecWords_wordParcels (ws : List (BitVec 64)) : vecWords (wordParcels ws) = ws := by
  induction ws with
  | nil => rfl
  | cons w ws ih =>
    have h : w.extractLsb' 32 32 ++ w.extractLsb' 0 32 = w := by
      ext j hj
      simp only [BitVec.getElem_append, BitVec.getElem_extractLsb']
      by_cases h : j < 32 <;> simp [h]
      · rw [← BitVec.getLsbD_eq_getElem]
      · rw [show 32 + (j - 32) = j by omega, ← BitVec.getLsbD_eq_getElem]
    simp [vecWords, wordParcels, h, ih]

theorem wordParcels_length (ws : List (BitVec 64)) : (wordParcels ws).length = 2 * ws.length := by
  induction ws with
  | nil => rfl
  | cons w ws ih => simp [wordParcels, ih]; omega

/-- A header with the words it announces. -/
theorem convoy_ok (h : ConvoyHdr) (ws : List (BitVec 64)) : Statement (.convoyHeader h ws) := by
  refine fun hwf => ⟨fun rest _ => ?_, fun w hw => by simp [encodeVec, vecParts] at hw⟩
  simp only [Instr.wellFormed, beq_iff_eq] at hwf
  obtain ⟨n, u1, u2, u3, u4, u5, u6, chain⟩ := h
  have := n.isLt; have := u1.isLt; have := u2.isLt; have := u3.isLt; have := u4.isLt; have := u5.isLt; have := u6.isLt
  have := b2n_lt chain
  generalize hw : encHeader ⟨n, u1, u2, u3, u4, u5, u6, chain⟩ = w
  have he : encode (.convoyHeader ⟨n, u1, u2, u3, u4, u5, u6, chain⟩ ws) = BitVec.ofNat 32 w :: wordParcels ws := by
    rw [← hw]; rfl
  simp only [encHeader] at hw
  obtain ⟨r0, r1, r2, r3, r4, r5, r6, r7, r8, r9⟩ : fld w 28 4 = 14 ∧ fld w 25 3 = n.toNat ∧ fld w 22 3 = u1.toNat ∧
      fld w 19 3 = u2.toNat ∧ fld w 16 3 = u3.toNat ∧ fld w 13 3 = u4.toNat ∧ fld w 10 3 = u5.toNat ∧
      fld w 7 3 = u6.toNat ∧ fld w 6 1 = b2n chain ∧ fld w 0 6 = 0 := by
    simp only [fld]; omega
  have hd : decodeHeader w = ⟨n, u1, u2, u3, u4, u5, u6, chain⟩ := by
    simp [decodeHeader, bAt, flagAt, r1, r2, r3, r4, r5, r6, r7, r8]
  have h0 : (BitVec.ofNat 32 w).toNat = w := by simp; omega
  have hl := wordParcels_length ws
  have hu : unitParcels w = 1 + 2 * ws.length := by simp [unitParcels, r0, hd, ← hwf]
  have ht : (wordParcels ws ++ rest).take (1 + 2 * ws.length - 1) = wordParcels ws := by
    rw [show 1 + 2 * ws.length - 1 = (wordParcels ws).length by omega, List.take_left']
    rfl
  rw [he]
  simp only [decode, List.cons_append, h0, hu, r0, r9, hd, if_true, ht, vecWords_wordParcels, List.length_append, hl]
  rw [if_neg (by omega)]
  simp [hl, Nat.add_comm]

/-! ### The instructions -/

theorem add (d a b : GReg) : Statement (.add d a b) := by
  have := d.isLt; have := a.isLt; have := b.isLt
  refine scalar_ok rfl rfl (w := encA 0x00 d a b 0) (fun w hw => ?_)
  obtain ⟨hb, r4, r3, r2, r1, r0, _⟩ := encA_std (0x00) (d) (a) (b) (0) (by decide) (by decide)
  rw [← hw] at hb r4 r3 r2 r1 r0
  exact ⟨hb, fun _ => by simp [decodeScalar, decodeA, gAt, ifZero, r0, r1, r2, r3, r4]⟩
theorem sub (d a b : GReg) : Statement (.sub d a b) := by
  have := d.isLt; have := a.isLt; have := b.isLt
  refine scalar_ok rfl rfl (w := encA 0x01 d a b 0) (fun w hw => ?_)
  obtain ⟨hb, r4, r3, r2, r1, r0, _⟩ := encA_std (0x01) (d) (a) (b) (0) (by decide) (by decide)
  rw [← hw] at hb r4 r3 r2 r1 r0
  exact ⟨hb, fun _ => by simp [decodeScalar, decodeA, gAt, ifZero, r0, r1, r2, r3, r4]⟩
theorem mul (d a b : GReg) : Statement (.mul d a b) := by
  have := d.isLt; have := a.isLt; have := b.isLt
  refine scalar_ok rfl rfl (w := encA 0x02 d a b 0) (fun w hw => ?_)
  obtain ⟨hb, r4, r3, r2, r1, r0, _⟩ := encA_std (0x02) (d) (a) (b) (0) (by decide) (by decide)
  rw [← hw] at hb r4 r3 r2 r1 r0
  exact ⟨hb, fun _ => by simp [decodeScalar, decodeA, gAt, ifZero, r0, r1, r2, r3, r4]⟩
theorem mulh (d a b : GReg) : Statement (.mulh d a b) := by
  have := d.isLt; have := a.isLt; have := b.isLt
  refine scalar_ok rfl rfl (w := encA 0x03 d a b 0) (fun w hw => ?_)
  obtain ⟨hb, r4, r3, r2, r1, r0, _⟩ := encA_std (0x03) (d) (a) (b) (0) (by decide) (by decide)
  rw [← hw] at hb r4 r3 r2 r1 r0
  exact ⟨hb, fun _ => by simp [decodeScalar, decodeA, gAt, ifZero, r0, r1, r2, r3, r4]⟩
theorem mulhn (d a b : GReg) : Statement (.mulhn d a b) := by
  have := d.isLt; have := a.isLt; have := b.isLt
  refine scalar_ok rfl rfl (w := encA 0x04 d a b 0) (fun w hw => ?_)
  obtain ⟨hb, r4, r3, r2, r1, r0, _⟩ := encA_std (0x04) (d) (a) (b) (0) (by decide) (by decide)
  rw [← hw] at hb r4 r3 r2 r1 r0
  exact ⟨hb, fun _ => by simp [decodeScalar, decodeA, gAt, ifZero, r0, r1, r2, r3, r4]⟩
theorem div (d a b : GReg) : Statement (.div d a b) := by
  have := d.isLt; have := a.isLt; have := b.isLt
  refine scalar_ok rfl rfl (w := encA 0x05 d a b 0) (fun w hw => ?_)
  obtain ⟨hb, r4, r3, r2, r1, r0, _⟩ := encA_std (0x05) (d) (a) (b) (0) (by decide) (by decide)
  rw [← hw] at hb r4 r3 r2 r1 r0
  exact ⟨hb, fun _ => by simp [decodeScalar, decodeA, gAt, ifZero, r0, r1, r2, r3, r4]⟩
theorem divn (d a b : GReg) : Statement (.divn d a b) := by
  have := d.isLt; have := a.isLt; have := b.isLt
  refine scalar_ok rfl rfl (w := encA 0x06 d a b 0) (fun w hw => ?_)
  obtain ⟨hb, r4, r3, r2, r1, r0, _⟩ := encA_std (0x06) (d) (a) (b) (0) (by decide) (by decide)
  rw [← hw] at hb r4 r3 r2 r1 r0
  exact ⟨hb, fun _ => by simp [decodeScalar, decodeA, gAt, ifZero, r0, r1, r2, r3, r4]⟩
theorem rem (d a b : GReg) : Statement (.rem d a b) := by
  have := d.isLt; have := a.isLt; have := b.isLt
  refine scalar_ok rfl rfl (w := encA 0x07 d a b 0) (fun w hw => ?_)
  obtain ⟨hb, r4, r3, r2, r1, r0, _⟩ := encA_std (0x07) (d) (a) (b) (0) (by decide) (by decide)
  rw [← hw] at hb r4 r3 r2 r1 r0
  exact ⟨hb, fun _ => by simp [decodeScalar, decodeA, gAt, ifZero, r0, r1, r2, r3, r4]⟩
theorem remn (d a b : GReg) : Statement (.remn d a b) := by
  have := d.isLt; have := a.isLt; have := b.isLt
  refine scalar_ok rfl rfl (w := encA 0x08 d a b 0) (fun w hw => ?_)
  obtain ⟨hb, r4, r3, r2, r1, r0, _⟩ := encA_std (0x08) (d) (a) (b) (0) (by decide) (by decide)
  rw [← hw] at hb r4 r3 r2 r1 r0
  exact ⟨hb, fun _ => by simp [decodeScalar, decodeA, gAt, ifZero, r0, r1, r2, r3, r4]⟩
theorem and (d a b : GReg) : Statement (.and d a b) := by
  have := d.isLt; have := a.isLt; have := b.isLt
  refine scalar_ok rfl rfl (w := encA 0x09 d a b 0) (fun w hw => ?_)
  obtain ⟨hb, r4, r3, r2, r1, r0, _⟩ := encA_std (0x09) (d) (a) (b) (0) (by decide) (by decide)
  rw [← hw] at hb r4 r3 r2 r1 r0
  exact ⟨hb, fun _ => by simp [decodeScalar, decodeA, gAt, ifZero, r0, r1, r2, r3, r4]⟩
theorem or (d a b : GReg) : Statement (.or d a b) := by
  have := d.isLt; have := a.isLt; have := b.isLt
  refine scalar_ok rfl rfl (w := encA 0x0A d a b 0) (fun w hw => ?_)
  obtain ⟨hb, r4, r3, r2, r1, r0, _⟩ := encA_std (0x0A) (d) (a) (b) (0) (by decide) (by decide)
  rw [← hw] at hb r4 r3 r2 r1 r0
  exact ⟨hb, fun _ => by simp [decodeScalar, decodeA, gAt, ifZero, r0, r1, r2, r3, r4]⟩
theorem xor (d a b : GReg) : Statement (.xor d a b) := by
  have := d.isLt; have := a.isLt; have := b.isLt
  refine scalar_ok rfl rfl (w := encA 0x0B d a b 0) (fun w hw => ?_)
  obtain ⟨hb, r4, r3, r2, r1, r0, _⟩ := encA_std (0x0B) (d) (a) (b) (0) (by decide) (by decide)
  rw [← hw] at hb r4 r3 r2 r1 r0
  exact ⟨hb, fun _ => by simp [decodeScalar, decodeA, gAt, ifZero, r0, r1, r2, r3, r4]⟩
theorem andn (d a b : GReg) : Statement (.andn d a b) := by
  have := d.isLt; have := a.isLt; have := b.isLt
  refine scalar_ok rfl rfl (w := encA 0x0C d a b 0) (fun w hw => ?_)
  obtain ⟨hb, r4, r3, r2, r1, r0, _⟩ := encA_std (0x0C) (d) (a) (b) (0) (by decide) (by decide)
  rw [← hw] at hb r4 r3 r2 r1 r0
  exact ⟨hb, fun _ => by simp [decodeScalar, decodeA, gAt, ifZero, r0, r1, r2, r3, r4]⟩
theorem shl (d a b : GReg) : Statement (.shl d a b) := by
  have := d.isLt; have := a.isLt; have := b.isLt
  refine scalar_ok rfl rfl (w := encA 0x0D d a b 0) (fun w hw => ?_)
  obtain ⟨hb, r4, r3, r2, r1, r0, _⟩ := encA_std (0x0D) (d) (a) (b) (0) (by decide) (by decide)
  rw [← hw] at hb r4 r3 r2 r1 r0
  exact ⟨hb, fun _ => by simp [decodeScalar, decodeA, gAt, ifZero, r0, r1, r2, r3, r4]⟩
theorem shr (d a b : GReg) : Statement (.shr d a b) := by
  have := d.isLt; have := a.isLt; have := b.isLt
  refine scalar_ok rfl rfl (w := encA 0x0E d a b 0) (fun w hw => ?_)
  obtain ⟨hb, r4, r3, r2, r1, r0, _⟩ := encA_std (0x0E) (d) (a) (b) (0) (by decide) (by decide)
  rw [← hw] at hb r4 r3 r2 r1 r0
  exact ⟨hb, fun _ => by simp [decodeScalar, decodeA, gAt, ifZero, r0, r1, r2, r3, r4]⟩
theorem sha (d a b : GReg) : Statement (.sha d a b) := by
  have := d.isLt; have := a.isLt; have := b.isLt
  refine scalar_ok rfl rfl (w := encA 0x0F d a b 0) (fun w hw => ?_)
  obtain ⟨hb, r4, r3, r2, r1, r0, _⟩ := encA_std (0x0F) (d) (a) (b) (0) (by decide) (by decide)
  rw [← hw] at hb r4 r3 r2 r1 r0
  exact ⟨hb, fun _ => by simp [decodeScalar, decodeA, gAt, ifZero, r0, r1, r2, r3, r4]⟩
theorem min (d a b : GReg) : Statement (.min d a b) := by
  have := d.isLt; have := a.isLt; have := b.isLt
  refine scalar_ok rfl rfl (w := encA 0x10 d a b 0) (fun w hw => ?_)
  obtain ⟨hb, r4, r3, r2, r1, r0, _⟩ := encA_std (0x10) (d) (a) (b) (0) (by decide) (by decide)
  rw [← hw] at hb r4 r3 r2 r1 r0
  exact ⟨hb, fun _ => by simp [decodeScalar, decodeA, gAt, ifZero, r0, r1, r2, r3, r4]⟩
theorem max (d a b : GReg) : Statement (.max d a b) := by
  have := d.isLt; have := a.isLt; have := b.isLt
  refine scalar_ok rfl rfl (w := encA 0x11 d a b 0) (fun w hw => ?_)
  obtain ⟨hb, r4, r3, r2, r1, r0, _⟩ := encA_std (0x11) (d) (a) (b) (0) (by decide) (by decide)
  rw [← hw] at hb r4 r3 r2 r1 r0
  exact ⟨hb, fun _ => by simp [decodeScalar, decodeA, gAt, ifZero, r0, r1, r2, r3, r4]⟩
theorem minn (d a b : GReg) : Statement (.minn d a b) := by
  have := d.isLt; have := a.isLt; have := b.isLt
  refine scalar_ok rfl rfl (w := encA 0x12 d a b 0) (fun w hw => ?_)
  obtain ⟨hb, r4, r3, r2, r1, r0, _⟩ := encA_std (0x12) (d) (a) (b) (0) (by decide) (by decide)
  rw [← hw] at hb r4 r3 r2 r1 r0
  exact ⟨hb, fun _ => by simp [decodeScalar, decodeA, gAt, ifZero, r0, r1, r2, r3, r4]⟩
theorem maxn (d a b : GReg) : Statement (.maxn d a b) := by
  have := d.isLt; have := a.isLt; have := b.isLt
  refine scalar_ok rfl rfl (w := encA 0x13 d a b 0) (fun w hw => ?_)
  obtain ⟨hb, r4, r3, r2, r1, r0, _⟩ := encA_std (0x13) (d) (a) (b) (0) (by decide) (by decide)
  rw [← hw] at hb r4 r3 r2 r1 r0
  exact ⟨hb, fun _ => by simp [decodeScalar, decodeA, gAt, ifZero, r0, r1, r2, r3, r4]⟩
theorem clz (d a : GReg) : Statement (.clz d a) := by
  have := d.isLt; have := a.isLt
  refine scalar_ok rfl rfl (w := encA 0x14 d a 0 0) (fun w hw => ?_)
  obtain ⟨hb, r3, r2, r1, _, _, r0⟩ := encA_std (0x14) (d) (a) (0) (0) (by decide) (by decide)
  rw [← hw] at hb r3 r2 r1 r0
  exact ⟨hb, fun _ => by simp [decodeScalar, decodeA, gAt, ifZero, r0, r1, r2, r3]⟩
theorem ctz (d a : GReg) : Statement (.ctz d a) := by
  have := d.isLt; have := a.isLt
  refine scalar_ok rfl rfl (w := encA 0x15 d a 0 0) (fun w hw => ?_)
  obtain ⟨hb, r3, r2, r1, _, _, r0⟩ := encA_std (0x15) (d) (a) (0) (0) (by decide) (by decide)
  rw [← hw] at hb r3 r2 r1 r0
  exact ⟨hb, fun _ => by simp [decodeScalar, decodeA, gAt, ifZero, r0, r1, r2, r3]⟩
theorem popc (d a : GReg) : Statement (.popc d a) := by
  have := d.isLt; have := a.isLt
  refine scalar_ok rfl rfl (w := encA 0x16 d a 0 0) (fun w hw => ?_)
  obtain ⟨hb, r3, r2, r1, _, _, r0⟩ := encA_std (0x16) (d) (a) (0) (0) (by decide) (by decide)
  rw [← hw] at hb r3 r2 r1 r0
  exact ⟨hb, fun _ => by simp [decodeScalar, decodeA, gAt, ifZero, r0, r1, r2, r3]⟩
theorem addi (d a : GReg) (i : BitVec 15) : Statement (.addi d a i) := by
  have := d.isLt; have := a.isLt; have := i.isLt
  refine scalar_ok rfl rfl (w := encI 0x17 d a i.toNat) (fun w hw => ?_)
  obtain ⟨hb, r3, r2, r1, r0⟩ := encI_std (0x17) (d) (a) (i.toNat) (by decide) (by omega)
  rw [← hw] at hb r3 r2 r1 r0
  exact ⟨hb, fun _ => by simp [decodeScalar, decodeI, gAt, bAt, r0, r1, r2, r3]⟩
theorem andi (d a : GReg) (i : BitVec 15) : Statement (.andi d a i) := by
  have := d.isLt; have := a.isLt; have := i.isLt
  refine scalar_ok rfl rfl (w := encI 0x18 d a i.toNat) (fun w hw => ?_)
  obtain ⟨hb, r3, r2, r1, r0⟩ := encI_std (0x18) (d) (a) (i.toNat) (by decide) (by omega)
  rw [← hw] at hb r3 r2 r1 r0
  exact ⟨hb, fun _ => by simp [decodeScalar, decodeI, gAt, bAt, r0, r1, r2, r3]⟩
theorem ori (d a : GReg) (i : BitVec 15) : Statement (.ori d a i) := by
  have := d.isLt; have := a.isLt; have := i.isLt
  refine scalar_ok rfl rfl (w := encI 0x19 d a i.toNat) (fun w hw => ?_)
  obtain ⟨hb, r3, r2, r1, r0⟩ := encI_std (0x19) (d) (a) (i.toNat) (by decide) (by omega)
  rw [← hw] at hb r3 r2 r1 r0
  exact ⟨hb, fun _ => by simp [decodeScalar, decodeI, gAt, bAt, r0, r1, r2, r3]⟩
theorem xori (d a : GReg) (i : BitVec 15) : Statement (.xori d a i) := by
  have := d.isLt; have := a.isLt; have := i.isLt
  refine scalar_ok rfl rfl (w := encI 0x1A d a i.toNat) (fun w hw => ?_)
  obtain ⟨hb, r3, r2, r1, r0⟩ := encI_std (0x1A) (d) (a) (i.toNat) (by decide) (by omega)
  rw [← hw] at hb r3 r2 r1 r0
  exact ⟨hb, fun _ => by simp [decodeScalar, decodeI, gAt, bAt, r0, r1, r2, r3]⟩
theorem shli (d a : GReg) (i : BitVec 6) : Statement (.shli d a i) := by
  have := d.isLt; have := a.isLt; have := i.isLt
  refine scalar_ok rfl rfl (w := encI 0x1B d a i.toNat) (fun w hw => ?_)
  obtain ⟨hb, r4, r3, r2, _⟩ := encI_std (0x1B) (d) (a) (i.toNat) (by decide) (by omega)
  rw [← hw] at hb r4 r3 r2
  simp only [encI] at hw
  obtain ⟨r0, r1⟩ : fld w 0 6 = i.toNat ∧ fld w 6 9 = 0 := by
    simp only [fld]; omega
  exact ⟨hb, fun _ => by simp [decodeScalar, decodeI, gAt, bAt, ifZero, r0, r1, r2, r3, r4]⟩
theorem shri (d a : GReg) (i : BitVec 6) : Statement (.shri d a i) := by
  have := d.isLt; have := a.isLt; have := i.isLt
  refine scalar_ok rfl rfl (w := encI 0x1C d a i.toNat) (fun w hw => ?_)
  obtain ⟨hb, r4, r3, r2, _⟩ := encI_std (0x1C) (d) (a) (i.toNat) (by decide) (by omega)
  rw [← hw] at hb r4 r3 r2
  simp only [encI] at hw
  obtain ⟨r0, r1⟩ : fld w 0 6 = i.toNat ∧ fld w 6 9 = 0 := by
    simp only [fld]; omega
  exact ⟨hb, fun _ => by simp [decodeScalar, decodeI, gAt, bAt, ifZero, r0, r1, r2, r3, r4]⟩
theorem shai (d a : GReg) (i : BitVec 6) : Statement (.shai d a i) := by
  have := d.isLt; have := a.isLt; have := i.isLt
  refine scalar_ok rfl rfl (w := encI 0x1D d a i.toNat) (fun w hw => ?_)
  obtain ⟨hb, r4, r3, r2, _⟩ := encI_std (0x1D) (d) (a) (i.toNat) (by decide) (by omega)
  rw [← hw] at hb r4 r3 r2
  simp only [encI] at hw
  obtain ⟨r0, r1⟩ : fld w 0 6 = i.toNat ∧ fld w 6 9 = 0 := by
    simp only [fld]; omega
  exact ⟨hb, fun _ => by simp [decodeScalar, decodeI, gAt, bAt, ifZero, r0, r1, r2, r3, r4]⟩
theorem lui (d : GReg) (i : BitVec 15) : Statement (.lui d i) := by
  have := d.isLt; have := i.isLt
  refine scalar_ok rfl rfl (w := encI 0x1E d 0 i.toNat) (fun w hw => ?_)
  obtain ⟨hb, r3, r2, r1, r0⟩ := encI_std (0x1E) (d) (0) (i.toNat) (by decide) (by omega)
  rw [← hw] at hb r3 r2 r1 r0
  exact ⟨hb, fun _ => by simp [decodeScalar, decodeI, gAt, bAt, ifZero, r0, r1, r2, r3]⟩
theorem li (d : GReg) (i : BitVec 15) : Statement (.li d i) := by
  have := d.isLt; have := i.isLt
  refine scalar_ok rfl rfl (w := encI 0x1F d 0 i.toNat) (fun w hw => ?_)
  obtain ⟨hb, r3, r2, r1, r0⟩ := encI_std (0x1F) (d) (0) (i.toNat) (by decide) (by omega)
  rw [← hw] at hb r3 r2 r1 r0
  exact ⟨hb, fun _ => by simp [decodeScalar, decodeI, gAt, bAt, ifZero, r0, r1, r2, r3]⟩
theorem liLong (d : GReg) (i : BitVec 32) : Statement (.liLong d i) :=
  long_ok (op := 0x78) (d := d) (by decide) rfl rfl (fun w r0 r1 r2 => by
    simp [decodeLong, r0, r1, r2, gAt, bAt, ifZero, fld_all])
theorem luiLong (d : GReg) (i : BitVec 32) : Statement (.luiLong d i) :=
  long_ok (op := 0x79) (d := d) (by decide) rfl rfl (fun w r0 r1 r2 => by
    simp [decodeLong, r0, r1, r2, gAt, bAt, ifZero, fld_all])
theorem addiLong (d : GReg) (i : BitVec 32) : Statement (.addiLong d i) :=
  long_ok (op := 0x7A) (d := d) (by decide) rfl rfl (fun w r0 r1 r2 => by
    simp [decodeLong, r0, r1, r2, gAt, bAt, ifZero, fld_all])
theorem cmp (c : Cc) (p : PReg) (a b : GReg) : Statement (.cmp c p a b) := by
  have := cc_lt c; have := p.isLt; have := a.isLt; have := b.isLt
  refine scalar_ok rfl rfl (w := 0x20 * 2 ^ 25 + c.code * 2 ^ 22 + p.val * 2 ^ 15 + a.val * 2 ^ 10 + b.val * 2 ^ 5) (fun w hw => ?_)
  obtain ⟨r0, r1, r2, r3, r4, r5⟩ : fld w 0 5 = 0 ∧ fld w 5 5 = b.val ∧ fld w 10 5 = a.val ∧ fld w 15 7 = p.val ∧
      fld w 22 3 = c.code ∧ fld w 25 7 = 32 := by
    simp only [fld]; omega
  exact ⟨by omega, fun _ => by simp [decodeScalar, decodeP, gAt, pAt, ifZero, r0, r1, r2, r3, r4, r5]⟩
theorem cmpi (c : Cc) (p : PReg) (a : GReg) (i : BitVec 10) : Statement (.cmpi c p a i) := by
  have := cc_lt c; have := p.isLt; have := a.isLt; have := i.isLt
  refine scalar_ok rfl rfl (w := 0x21 * 2 ^ 25 + c.code * 2 ^ 22 + p.val * 2 ^ 15 + a.val * 2 ^ 10 + i.toNat) (fun w hw => ?_)
  obtain ⟨r0, r1, r2, r3, r4⟩ : fld w 0 10 = i.toNat ∧ fld w 10 5 = a.val ∧ fld w 15 7 = p.val ∧ fld w 22 3 = c.code ∧
      fld w 25 7 = 33 := by
    simp only [fld]; omega
  exact ⟨by omega, fun _ => by simp [decodeScalar, decodeP, gAt, pAt, bAt, r0, r1, r2, r3, r4]⟩
theorem pand (d a b : PReg) : Statement (.pand d a b) := by
  have := d.isLt; have := a.isLt; have := b.isLt
  refine scalar_ok rfl rfl (w := encP 0x22 0 d a b) (fun w hw => ?_)
  simp only [encP] at hw
  obtain ⟨r0, r1, r2, r3, r4, r5⟩ : fld w 0 1 = 0 ∧ fld w 1 7 = b.val ∧ fld w 8 7 = a.val ∧ fld w 15 7 = d.val ∧
      fld w 22 3 = 0 ∧ fld w 25 7 = 34 := by
    simp only [fld]; omega
  exact ⟨by omega, fun _ => by simp [decodeScalar, decodeP, pAt, ifZero, r0, r1, r2, r3, r4, r5]⟩
theorem por (d a b : PReg) : Statement (.por d a b) := by
  have := d.isLt; have := a.isLt; have := b.isLt
  refine scalar_ok rfl rfl (w := encP 0x23 0 d a b) (fun w hw => ?_)
  simp only [encP] at hw
  obtain ⟨r0, r1, r2, r3, r4, r5⟩ : fld w 0 1 = 0 ∧ fld w 1 7 = b.val ∧ fld w 8 7 = a.val ∧ fld w 15 7 = d.val ∧
      fld w 22 3 = 0 ∧ fld w 25 7 = 35 := by
    simp only [fld]; omega
  exact ⟨by omega, fun _ => by simp [decodeScalar, decodeP, pAt, ifZero, r0, r1, r2, r3, r4, r5]⟩
theorem pxor (d a b : PReg) : Statement (.pxor d a b) := by
  have := d.isLt; have := a.isLt; have := b.isLt
  refine scalar_ok rfl rfl (w := encP 0x24 0 d a b) (fun w hw => ?_)
  simp only [encP] at hw
  obtain ⟨r0, r1, r2, r3, r4, r5⟩ : fld w 0 1 = 0 ∧ fld w 1 7 = b.val ∧ fld w 8 7 = a.val ∧ fld w 15 7 = d.val ∧
      fld w 22 3 = 0 ∧ fld w 25 7 = 36 := by
    simp only [fld]; omega
  exact ⟨by omega, fun _ => by simp [decodeScalar, decodeP, pAt, ifZero, r0, r1, r2, r3, r4, r5]⟩
theorem pnot (d a : PReg) : Statement (.pnot d a) := by
  have := d.isLt; have := a.isLt
  refine scalar_ok rfl rfl (w := encP 0x25 0 d a 0) (fun w hw => ?_)
  simp only [encP] at hw
  obtain ⟨r0, r1, r2, r3, r4⟩ : fld w 0 8 = 0 ∧ fld w 8 7 = a.val ∧ fld w 15 7 = d.val ∧ fld w 22 3 = 0 ∧
      fld w 25 7 = 37 := by
    simp only [fld]; omega
  exact ⟨by omega, fun _ => by simp [decodeScalar, decodeP, pAt, ifZero, r0, r1, r2, r3, r4]⟩
theorem pmov (d a : PReg) : Statement (.pmov d a) := by
  have := d.isLt; have := a.isLt
  refine scalar_ok rfl rfl (w := encP 0x26 0 d a 0) (fun w hw => ?_)
  simp only [encP] at hw
  obtain ⟨r0, r1, r2, r3, r4⟩ : fld w 0 8 = 0 ∧ fld w 8 7 = a.val ∧ fld w 15 7 = d.val ∧ fld w 22 3 = 0 ∧
      fld w 25 7 = 38 := by
    simp only [fld]; omega
  exact ⟨by omega, fun _ => by simp [decodeScalar, decodeP, pAt, ifZero, r0, r1, r2, r3, r4]⟩
theorem pall (d a : PReg) : Statement (.pall d a) := by
  have := d.isLt; have := a.isLt
  refine scalar_ok rfl rfl (w := encP 0x27 0 d a 0) (fun w hw => ?_)
  simp only [encP] at hw
  obtain ⟨r0, r1, r2, r3, r4⟩ : fld w 0 8 = 0 ∧ fld w 8 7 = a.val ∧ fld w 15 7 = d.val ∧ fld w 22 3 = 0 ∧
      fld w 25 7 = 39 := by
    simp only [fld]; omega
  exact ⟨by omega, fun _ => by simp [decodeScalar, decodeP, pAt, ifZero, r0, r1, r2, r3, r4]⟩
theorem pany (d a : PReg) : Statement (.pany d a) := by
  have := d.isLt; have := a.isLt
  refine scalar_ok rfl rfl (w := encP 0x27 1 d a 0) (fun w hw => ?_)
  simp only [encP] at hw
  obtain ⟨r0, r1, r2, r3, r4⟩ : fld w 0 8 = 0 ∧ fld w 8 7 = a.val ∧ fld w 15 7 = d.val ∧ fld w 22 3 = 1 ∧
      fld w 25 7 = 39 := by
    simp only [fld]; omega
  exact ⟨by omega, fun _ => by simp [decodeScalar, decodeP, pAt, ifZero, r0, r1, r2, r3, r4]⟩
theorem br (off : BitVec 25) : Statement (.br off) := by
  have := off.isLt
  refine scalar_ok rfl rfl (w := 0x28 * 2 ^ 25 + off.toNat) (fun w hw => ?_)
  obtain ⟨r0, r1⟩ : fld w 0 25 = off.toNat ∧ fld w 25 7 = 40 := by
    simp only [fld]; omega
  exact ⟨by omega, fun _ => by simp [decodeScalar, decodeC, bAt, r0, r1]⟩
theorem bp (p : PReg) (neg : Bool) (off : BitVec 17) : Statement (.bp p neg off) := by
  have := p.isLt; have := b2n_lt neg; have := off.isLt
  refine scalar_ok rfl rfl (w := 0x29 * 2 ^ 25 + p.val * 2 ^ 18 + b2n neg * 2 ^ 17 + off.toNat) (fun w hw => ?_)
  obtain ⟨r0, r1, r2, r3⟩ : fld w 0 17 = off.toNat ∧ fld w 17 1 = b2n neg ∧ fld w 18 7 = p.val ∧ fld w 25 7 = 41 := by
    simp only [fld]; omega
  exact ⟨by omega, fun _ => by simp [decodeScalar, decodeC, pAt, bAt, flagAt, r0, r1, r2, r3]⟩
theorem call (off : BitVec 25) : Statement (.call off) := by
  have := off.isLt
  refine scalar_ok rfl rfl (w := 0x2A * 2 ^ 25 + off.toNat) (fun w hw => ?_)
  obtain ⟨r0, r1⟩ : fld w 0 25 = off.toNat ∧ fld w 25 7 = 42 := by
    simp only [fld]; omega
  exact ⟨by omega, fun _ => by simp [decodeScalar, decodeC, bAt, r0, r1]⟩
theorem ret (a : GReg) : Statement (.ret a) := by
  have := a.isLt
  refine scalar_ok rfl rfl (w := encA 0x2B 0 a 0 0) (fun w hw => ?_)
  obtain ⟨hb, r3, r2, r1, _, _, r0⟩ := encA_std (0x2B) (0) (a) (0) (0) (by decide) (by decide)
  rw [← hw] at hb r3 r2 r1 r0
  exact ⟨hb, fun _ => by simp [decodeScalar, decodeC, gAt, ifZero, r0, r1, r2, r3]⟩
theorem jr (d a : GReg) : Statement (.jr d a) := by
  have := d.isLt; have := a.isLt
  refine scalar_ok rfl rfl (w := encA 0x2C d a 0 0) (fun w hw => ?_)
  obtain ⟨hb, r3, r2, r1, _, _, r0⟩ := encA_std (0x2C) (d) (a) (0) (0) (by decide) (by decide)
  rw [← hw] at hb r3 r2 r1 r0
  exact ⟨hb, fun _ => by simp [decodeScalar, decodeC, gAt, ifZero, r0, r1, r2, r3]⟩
theorem loopn (d a : GReg) (i : BitVec 15) : Statement (.loopn d a i) := by
  have := d.isLt; have := a.isLt; have := i.isLt
  refine scalar_ok rfl rfl (w := encI 0x2D d a i.toNat) (fun w hw => ?_)
  obtain ⟨hb, r3, r2, r1, r0⟩ := encI_std (0x2D) (d) (a) (i.toNat) (by decide) (by omega)
  rw [← hw] at hb r3 r2 r1 r0
  exact ⟨hb, fun _ => by simp [decodeScalar, decodeC, gAt, bAt, r0, r1, r2, r3]⟩
theorem loope (p : PReg) : Statement (.loope p) := by
  have := p.isLt
  refine scalar_ok rfl rfl (w := 0x2E * 2 ^ 25 + p.val) (fun w hw => ?_)
  obtain ⟨r0, r1, r2⟩ : fld w 0 7 = p.val ∧ fld w 7 18 = 0 ∧ fld w 25 7 = 46 := by
    simp only [fld]; omega
  exact ⟨by omega, fun _ => by simp [decodeScalar, decodeC, pAt, ifZero, r0, r1, r2]⟩
theorem nop : Statement .nop := by
  refine scalar_ok rfl rfl (w := 0x2F * 2 ^ 25) (fun w hw => ?_)
  obtain ⟨r0, r1⟩ : fld w 0 25 = 0 ∧ fld w 25 7 = 47 := by
    simp only [fld]; omega
  exact ⟨by omega, fun _ => by simp [decodeScalar, decodeC, ifZero, r0, r1]⟩
theorem lds (d a : GReg) (sz : MSize) (sx : Bool) (i : BitVec 11) : Statement (.lds d a sz sx i) := by
  have := d.isLt; have := a.isLt; have := sz_lt sz; have := b2n_lt sx; have := i.isLt
  refine scalar_ok rfl rfl (w := encM 0x30 d a sz sx i) (fun w hw => ?_)
  simp only [encM] at hw
  obtain ⟨r0, r1, r2, r3, r4, r5⟩ : fld w 0 11 = i.toNat ∧ fld w 11 1 = b2n sx ∧ fld w 12 3 = sz.code ∧
      fld w 15 5 = a.val ∧ fld w 20 5 = d.val ∧ fld w 25 7 = 48 := by
    simp only [fld]; omega
  exact ⟨by omega, fun hwf => by
    cases sx <;> simp_all [Instr.wellFormed, decodeScalar, decodeM, gAt, bAt, flagAt]⟩
theorem sts (d a : GReg) (sz : MSize) (i : BitVec 11) : Statement (.sts d a sz i) := by
  have := d.isLt; have := a.isLt; have := sz_lt sz; have := i.isLt
  refine scalar_ok rfl rfl (w := encM 0x31 d a sz false i) (fun w hw => ?_)
  simp only [encM, b2n_false] at hw
  obtain ⟨r0, r1, r2, r3, r4, r5⟩ : fld w 0 11 = i.toNat ∧ fld w 11 1 = 0 ∧ fld w 12 3 = sz.code ∧
      fld w 15 5 = a.val ∧ fld w 20 5 = d.val ∧ fld w 25 7 = 49 := by
    simp only [fld]; omega
  exact ⟨by omega, fun _ => by simp [decodeScalar, decodeM, gAt, bAt, flagAt, r0, r1, r2, r3, r4, r5]⟩
theorem ldc (d a : GReg) (sz : MSize) (sx : Bool) (i : BitVec 11) : Statement (.ldc d a sz sx i) := by
  have := d.isLt; have := a.isLt; have := sz_lt sz; have := b2n_lt sx; have := i.isLt
  refine scalar_ok rfl rfl (w := encM 0x32 d a sz sx i) (fun w hw => ?_)
  simp only [encM] at hw
  obtain ⟨r0, r1, r2, r3, r4, r5⟩ : fld w 0 11 = i.toNat ∧ fld w 11 1 = b2n sx ∧ fld w 12 3 = sz.code ∧
      fld w 15 5 = a.val ∧ fld w 20 5 = d.val ∧ fld w 25 7 = 50 := by
    simp only [fld]; omega
  exact ⟨by omega, fun hwf => by
    cases sx <;> simp_all [Instr.wellFormed, decodeScalar, decodeM, gAt, bAt, flagAt]⟩
theorem stc (d a : GReg) (sz : MSize) (i : BitVec 11) : Statement (.stc d a sz i) := by
  have := d.isLt; have := a.isLt; have := sz_lt sz; have := i.isLt
  refine scalar_ok rfl rfl (w := encM 0x33 d a sz false i) (fun w hw => ?_)
  simp only [encM, b2n_false] at hw
  obtain ⟨r0, r1, r2, r3, r4, r5⟩ : fld w 0 11 = i.toNat ∧ fld w 11 1 = 0 ∧ fld w 12 3 = sz.code ∧
      fld w 15 5 = a.val ∧ fld w 20 5 = d.val ∧ fld w 25 7 = 51 := by
    simp only [fld]; omega
  exact ⟨by omega, fun _ => by simp [decodeScalar, decodeM, gAt, bAt, flagAt, r0, r1, r2, r3, r4, r5]⟩
theorem amo (op : AmoOp) (dbl rel acq : Bool) (d a b : GReg) : Statement (.amo op dbl rel acq d a b) := by
  have := amo_lt op; have := b2n_lt dbl; have := b2n_lt rel; have := b2n_lt acq; have := d.isLt; have := a.isLt; have := b.isLt
  refine scalar_ok rfl rfl (w := encA 0x38 d a b (b2n acq * 64 + b2n rel * 32 + b2n dbl * 16 + op.code)) (fun w hw => ?_)
  obtain ⟨hb, r8, r7, r6, r5, _, _⟩ := encA_std (0x38) (d) (a) (b) ((b2n acq * 64 + b2n rel * 32 + b2n dbl * 16 + op.code)) (by decide) (by omega)
  rw [← hw] at hb r8 r7 r6 r5
  simp only [encA] at hw
  obtain ⟨r0, r1, r2, r3, r4⟩ : fld w 0 4 = op.code ∧ fld w 4 1 = b2n dbl ∧ fld w 5 1 = b2n rel ∧
      fld w 6 1 = b2n acq ∧ fld w 7 3 = 0 := by
    simp only [fld]; omega
  exact ⟨hb, fun _ => by simp [decodeScalar, decodeX3, gAt, flagAt, ifZero, r0, r1, r2, r3, r4, r5, r6, r7, r8]⟩
theorem cas (dbl rel acq : Bool) (d a b : GReg) : Statement (.cas dbl rel acq d a b) := by
  have := b2n_lt dbl; have := b2n_lt rel; have := b2n_lt acq; have := d.isLt; have := a.isLt; have := b.isLt
  refine scalar_ok rfl rfl (w := encA 0x39 d a b (b2n acq * 64 + b2n rel * 32 + b2n dbl * 16)) (fun w hw => ?_)
  obtain ⟨hb, r8, r7, r6, r5, _, _⟩ := encA_std (0x39) (d) (a) (b) ((b2n acq * 64 + b2n rel * 32 + b2n dbl * 16)) (by decide) (by omega)
  rw [← hw] at hb r8 r7 r6 r5
  simp only [encA] at hw
  obtain ⟨r0, r1, r2, r3, r4⟩ : fld w 0 4 = 0 ∧ fld w 4 1 = b2n dbl ∧ fld w 5 1 = b2n rel ∧ fld w 6 1 = b2n acq ∧
      fld w 7 3 = 0 := by
    simp only [fld]; omega
  exact ⟨hb, fun _ => by simp [decodeScalar, decodeX3, gAt, flagAt, ifZero, r0, r1, r2, r3, r4, r5, r6, r7, r8]⟩
theorem rel : Statement .rel := by
  refine scalar_ok rfl rfl (w := 0x3A * 2 ^ 25) (fun w hw => ?_)
  obtain ⟨r0, r1⟩ : fld w 0 25 = 0 ∧ fld w 25 7 = 58 := by
    simp only [fld]; omega
  exact ⟨by omega, fun _ => by simp [decodeScalar, decodeX3, ifZero, r0, r1]⟩
theorem acq (a : GReg) : Statement (.acq a) := by
  have := a.isLt
  refine scalar_ok rfl rfl (w := encA 0x3B 0 a 0 0) (fun w hw => ?_)
  obtain ⟨hb, r4, r3, r2, r1, r0, _⟩ := encA_std (0x3B) (0) (a) (0) (0) (by decide) (by decide)
  rw [← hw] at hb r4 r3 r2 r1 r0
  exact ⟨hb, fun _ => by simp [decodeScalar, decodeX3, gAt, ifZero, r0, r1, r2, r3, r4]⟩
theorem acqPartition : Statement .acqPartition := by
  refine scalar_ok rfl rfl (w := encA 0x3B 0 0 0 1) (fun w hw => ?_)
  obtain ⟨hb, r2, _, _, _, r0, _⟩ := encA_std (0x3B) (0) (0) (0) (1) (by decide) (by decide)
  rw [← hw] at hb r2 r0
  simp only [encA] at hw
  have r1 : fld w 10 15 = 0 := by
    simp only [fld]; omega
  exact ⟨hb, fun _ => by simp [decodeScalar, decodeX3, ifZero, r0, r1, r2]⟩
theorem acqG (a : GReg) : Statement (.acqG a) := by
  have := a.isLt
  refine scalar_ok rfl rfl (w := encA 0x3C 0 a 0 0) (fun w hw => ?_)
  obtain ⟨hb, r3, r2, r1, _, _, r0⟩ := encA_std (0x3C) (0) (a) (0) (0) (by decide) (by decide)
  rw [← hw] at hb r3 r2 r1 r0
  exact ⟨hb, fun _ => by simp [decodeScalar, decodeX3, gAt, ifZero, r0, r1, r2, r3]⟩
theorem fenceSv : Statement .fenceSv := by
  refine scalar_ok rfl rfl (w := 0x3D * 2 ^ 25) (fun w hw => ?_)
  obtain ⟨r0, r1, r2, r3⟩ : fld w 0 7 = 0 ∧ fld w 7 3 = 0 ∧ fld w 10 15 = 0 ∧ fld w 25 7 = 61 := by
    simp only [fld]; omega
  exact ⟨by omega, fun _ => by simp [decodeScalar, decodeX3, ifZero, r0, r1, r2, r3]⟩
theorem fenceVs : Statement .fenceVs := by
  refine scalar_ok rfl rfl (w := 0x3D * 2 ^ 25 + 1 * 128) (fun w hw => ?_)
  obtain ⟨r0, r1, r2, r3⟩ : fld w 0 7 = 0 ∧ fld w 7 3 = 1 ∧ fld w 10 15 = 0 ∧ fld w 25 7 = 61 := by
    simp only [fld]; omega
  exact ⟨by omega, fun _ => by simp [decodeScalar, decodeX3, ifZero, r0, r1, r2, r3]⟩
theorem fenceVv : Statement .fenceVv := by
  refine scalar_ok rfl rfl (w := 0x3D * 2 ^ 25 + 2 * 128) (fun w hw => ?_)
  obtain ⟨r0, r1, r2, r3⟩ : fld w 0 7 = 0 ∧ fld w 7 3 = 2 ∧ fld w 10 15 = 0 ∧ fld w 25 7 = 61 := by
    simp only [fld]; omega
  exact ⟨by omega, fun _ => by simp [decodeScalar, decodeX3, ifZero, r0, r1, r2, r3]⟩
theorem fenceR (common : Bool) (a b : GReg) : Statement (.fenceR common a b) := by
  have := b2n_lt common; have := a.isLt; have := b.isLt
  refine scalar_ok rfl rfl (w := encA 0x3D 0 a b (3 * 128 + b2n common)) (fun w hw => ?_)
  obtain ⟨hb, r6, r5, r4, r3, _, _⟩ := encA_std (0x3D) (0) (a) (b) ((3 * 128 + b2n common)) (by decide) (by omega)
  rw [← hw] at hb r6 r5 r4 r3
  simp only [encA] at hw
  obtain ⟨r0, r1, r2⟩ : fld w 0 1 = b2n common ∧ fld w 1 6 = 0 ∧ fld w 7 3 = 3 := by
    simp only [fld]; omega
  exact ⟨hb, fun _ => by simp [decodeScalar, decodeX3, gAt, flagAt, ifZero, r0, r1, r2, r3, r4, r5, r6]⟩
theorem sbar (mask : BitVec 4) : Statement (.sbar mask) := by
  have := mask.isLt
  refine scalar_ok rfl rfl (w := 0x3E * 2 ^ 25 + mask.toNat) (fun w hw => ?_)
  obtain ⟨r0, r1, r2⟩ : fld w 0 4 = mask.toNat ∧ fld w 4 21 = 0 ∧ fld w 25 7 = 62 := by
    simp only [fld]; omega
  exact ⟨by omega, fun _ => by simp [decodeScalar, decodeX3, bAt, ifZero, r0, r1, r2]⟩
theorem wfe (d : GReg) : Statement (.wfe d) := by
  have := d.isLt
  refine scalar_ok rfl rfl (w := encA 0x3F d 0 0 0) (fun w hw => ?_)
  obtain ⟨hb, r3, r2, _, _, r0, _⟩ := encA_std (0x3F) (d) (0) (0) (0) (by decide) (by decide)
  rw [← hw] at hb r3 r2 r0
  simp only [encA] at hw
  have r1 : fld w 10 10 = 0 := by
    simp only [fld]; omega
  exact ⟨hb, fun _ => by simp [decodeScalar, decodeX3, gAt, ifZero, r0, r1, r2, r3]⟩
theorem wfeWatch (d a b : GReg) : Statement (.wfeWatch d a b) := by
  have := d.isLt; have := a.isLt; have := b.isLt
  refine scalar_ok rfl rfl (w := encA 0x3F d a b 1) (fun w hw => ?_)
  obtain ⟨hb, r4, r3, r2, r1, r0, _⟩ := encA_std (0x3F) (d) (a) (b) (1) (by decide) (by decide)
  rw [← hw] at hb r4 r3 r2 r1 r0
  exact ⟨hb, fun _ => by simp [decodeScalar, decodeX3, gAt, r0, r1, r2, r3, r4]⟩
theorem trap (code : BitVec 10) : Statement (.trap code) := by
  have := code.isLt
  refine scalar_ok rfl rfl (w := 0x40 * 2 ^ 25 + code.toNat) (fun w hw => ?_)
  obtain ⟨r0, r1, r2⟩ : fld w 0 10 = code.toNat ∧ fld w 10 15 = 0 ∧ fld w 25 7 = 64 := by
    simp only [fld]; omega
  exact ⟨by omega, fun _ => by simp [decodeScalar, decodeX4, bAt, ifZero, r0, r1, r2]⟩
theorem tret : Statement .tret := by
  refine scalar_ok rfl rfl (w := 0x41 * 2 ^ 25) (fun w hw => ?_)
  obtain ⟨r0, r1⟩ : fld w 0 25 = 0 ∧ fld w 25 7 = 65 := by
    simp only [fld]; omega
  exact ⟨by omega, fun _ => by simp [decodeScalar, decodeX4, ifZero, r0, r1]⟩
theorem uret : Statement .uret := by
  refine scalar_ok rfl rfl (w := 0x42 * 2 ^ 25) (fun w hw => ?_)
  obtain ⟨r0, r1⟩ : fld w 0 25 = 0 ∧ fld w 25 7 = 66 := by
    simp only [fld]; omega
  exact ⟨by omega, fun _ => by simp [decodeScalar, decodeX4, ifZero, r0, r1]⟩
theorem csrr (d : GReg) (csr : BitVec 12) : Statement (.csrr d csr) := by
  have := d.isLt; have := csr.isLt
  refine scalar_ok rfl rfl (w := encI 0x43 d 0 csr.toNat) (fun w hw => ?_)
  obtain ⟨hb, r3, r2, _, _⟩ := encI_std (0x43) (d) (0) (csr.toNat) (by decide) (by omega)
  rw [← hw] at hb r3 r2
  simp only [encI] at hw
  obtain ⟨r0, r1⟩ : fld w 0 12 = csr.toNat ∧ fld w 12 8 = 0 := by
    simp only [fld]; omega
  exact ⟨hb, fun _ => by simp [decodeScalar, decodeX4, gAt, bAt, ifZero, r0, r1, r2, r3]⟩
theorem csrw (d a : GReg) (csr : BitVec 12) : Statement (.csrw d a csr) := by
  have := d.isLt; have := a.isLt; have := csr.isLt
  refine scalar_ok rfl rfl (w := encI 0x44 d a csr.toNat) (fun w hw => ?_)
  obtain ⟨hb, r4, r3, r2, _⟩ := encI_std (0x44) (d) (a) (csr.toNat) (by decide) (by omega)
  rw [← hw] at hb r4 r3 r2
  simp only [encI] at hw
  obtain ⟨r0, r1⟩ : fld w 0 12 = csr.toNat ∧ fld w 12 3 = 0 := by
    simp only [fld]; omega
  exact ⟨hb, fun _ => by simp [decodeScalar, decodeX4, gAt, bAt, ifZero, r0, r1, r2, r3, r4]⟩
theorem csrs (d a : GReg) (csr : BitVec 12) : Statement (.csrs d a csr) := by
  have := d.isLt; have := a.isLt; have := csr.isLt
  refine scalar_ok rfl rfl (w := encI 0x45 d a csr.toNat) (fun w hw => ?_)
  obtain ⟨hb, r4, r3, r2, _⟩ := encI_std (0x45) (d) (a) (csr.toNat) (by decide) (by omega)
  rw [← hw] at hb r4 r3 r2
  simp only [encI] at hw
  obtain ⟨r0, r1⟩ : fld w 0 12 = csr.toNat ∧ fld w 12 3 = 0 := by
    simp only [fld]; omega
  exact ⟨hb, fun _ => by simp [decodeScalar, decodeX4, gAt, bAt, ifZero, r0, r1, r2, r3, r4]⟩
theorem csrc (d a : GReg) (csr : BitVec 12) : Statement (.csrc d a csr) := by
  have := d.isLt; have := a.isLt; have := csr.isLt
  refine scalar_ok rfl rfl (w := encI 0x46 d a csr.toNat) (fun w hw => ?_)
  obtain ⟨hb, r4, r3, r2, _⟩ := encI_std (0x46) (d) (a) (csr.toNat) (by decide) (by omega)
  rw [← hw] at hb r4 r3 r2
  simp only [encI] at hw
  obtain ⟨r0, r1⟩ : fld w 0 12 = csr.toNat ∧ fld w 12 3 = 0 := by
    simp only [fld]; omega
  exact ⟨hb, fun _ => by simp [decodeScalar, decodeX4, gAt, bAt, ifZero, r0, r1, r2, r3, r4]⟩
theorem yield (d : GReg) : Statement (.yield d) := by
  have := d.isLt
  refine scalar_ok rfl rfl (w := encA 0x47 d 0 0 0) (fun w hw => ?_)
  obtain ⟨hb, r2, r1, _, _, _, _⟩ := encA_std (0x47) (d) (0) (0) (0) (by decide) (by decide)
  rw [← hw] at hb r2 r1
  simp only [encA] at hw
  have r0 : fld w 0 20 = 0 := by
    simp only [fld]; omega
  exact ⟨hb, fun _ => by simp [decodeScalar, decodeX4, gAt, ifZero, r0, r1, r2]⟩
theorem vsaveq (d a : GReg) : Statement (.vsaveq d a) := by
  have := d.isLt; have := a.isLt
  refine scalar_ok rfl rfl (w := encA 0x48 d a 0 0) (fun w hw => ?_)
  obtain ⟨hb, r3, r2, r1, _, _, r0⟩ := encA_std (0x48) (d) (a) (0) (0) (by decide) (by decide)
  rw [← hw] at hb r3 r2 r1 r0
  exact ⟨hb, fun _ => by simp [decodeScalar, decodeX4, gAt, ifZero, r0, r1, r2, r3]⟩
theorem vrestq (d a : GReg) : Statement (.vrestq d a) := by
  have := d.isLt; have := a.isLt
  refine scalar_ok rfl rfl (w := encA 0x49 d a 0 0) (fun w hw => ?_)
  obtain ⟨hb, r3, r2, r1, _, _, r0⟩ := encA_std (0x49) (d) (a) (0) (0) (by decide) (by decide)
  rw [← hw] at hb r3 r2 r1 r0
  exact ⟨hb, fun _ => by simp [decodeScalar, decodeX4, gAt, ifZero, r0, r1, r2, r3]⟩
theorem pdrain (d a : GReg) : Statement (.pdrain d a) := by
  have := d.isLt; have := a.isLt
  refine scalar_ok rfl rfl (w := encA 0x4A d a 0 0) (fun w hw => ?_)
  obtain ⟨hb, r4, r3, r2, r1, r0, _⟩ := encA_std (0x4A) (d) (a) (0) (0) (by decide) (by decide)
  rw [← hw] at hb r4 r3 r2 r1 r0
  exact ⟨hb, fun _ => by simp [decodeScalar, decodeX4, gAt, ifZero, r0, r1, r2, r3, r4]⟩
theorem pdrainGo (d a : GReg) : Statement (.pdrainGo d a) := by
  have := d.isLt; have := a.isLt
  refine scalar_ok rfl rfl (w := encA 0x4A d a 0 1) (fun w hw => ?_)
  obtain ⟨hb, r4, r3, r2, r1, r0, _⟩ := encA_std (0x4A) (d) (a) (0) (1) (by decide) (by decide)
  rw [← hw] at hb r4 r3 r2 r1 r0
  exact ⟨hb, fun _ => by simp [decodeScalar, decodeX4, gAt, ifZero, r0, r1, r2, r3, r4]⟩
theorem preset (a : GReg) : Statement (.preset a) := by
  have := a.isLt
  refine scalar_ok rfl rfl (w := encA 0x4B 0 a 0 0) (fun w hw => ?_)
  obtain ⟨hb, r3, r2, r1, _, _, r0⟩ := encA_std (0x4B) (0) (a) (0) (0) (by decide) (by decide)
  rw [← hw] at hb r3 r2 r1 r0
  exact ⟨hb, fun _ => by simp [decodeScalar, decodeX4, gAt, ifZero, r0, r1, r2, r3]⟩
theorem rnew (d a : GReg) (named : Bool) (die : BitVec 2) : Statement (.rnew d a named die) := by
  have := d.isLt; have := a.isLt; have := b2n_lt named; have := die.isLt
  refine scalar_ok rfl rfl (w := encA 0x50 d a 0 (b2n named * 4 + die.toNat)) (fun w hw => ?_)
  obtain ⟨hb, r7, r6, r5, r4, _, _⟩ := encA_std (0x50) (d) (a) (0) ((b2n named * 4 + die.toNat)) (by decide) (by omega)
  rw [← hw] at hb r7 r6 r5 r4
  simp only [encA] at hw
  obtain ⟨r0, r1, r2, r3⟩ : fld w 0 2 = die.toNat ∧ fld w 2 1 = b2n named ∧ fld w 3 4 = 0 ∧ fld w 7 3 = 0 := by
    simp only [fld]; omega
  exact ⟨hb, fun _ => by simp [decodeScalar, decodeX5, gAt, bAt, flagAt, ifZero, r0, r1, r2, r3, r4, r5, r6, r7]⟩
theorem rseal (d a : GReg) : Statement (.rseal d a) := by
  have := d.isLt; have := a.isLt
  refine scalar_ok rfl rfl (w := encA 0x50 d a 0 (1 * 128)) (fun w hw => ?_)
  obtain ⟨hb, r5, r4, r3, r2, _, _⟩ := encA_std (0x50) (d) (a) (0) ((1 * 128)) (by decide) (by decide)
  rw [← hw] at hb r5 r4 r3 r2
  simp only [encA] at hw
  obtain ⟨r0, r1⟩ : fld w 0 7 = 0 ∧ fld w 7 3 = 1 := by
    simp only [fld]; omega
  exact ⟨hb, fun _ => by simp [decodeScalar, decodeX5, gAt, ifZero, r0, r1, r2, r3, r4, r5]⟩
theorem rfork (d a : GReg) : Statement (.rfork d a) := by
  have := d.isLt; have := a.isLt
  refine scalar_ok rfl rfl (w := encA 0x50 d a 0 (2 * 128)) (fun w hw => ?_)
  obtain ⟨hb, r5, r4, r3, r2, _, _⟩ := encA_std (0x50) (d) (a) (0) ((2 * 128)) (by decide) (by decide)
  rw [← hw] at hb r5 r4 r3 r2
  simp only [encA] at hw
  obtain ⟨r0, r1⟩ : fld w 0 7 = 0 ∧ fld w 7 3 = 2 := by
    simp only [fld]; omega
  exact ⟨hb, fun _ => by simp [decodeScalar, decodeX5, gAt, ifZero, r0, r1, r2, r3, r4, r5]⟩
theorem rdrop (a : GReg) : Statement (.rdrop a) := by
  have := a.isLt
  refine scalar_ok rfl rfl (w := encA 0x50 0 a 0 (3 * 128)) (fun w hw => ?_)
  obtain ⟨hb, r5, r4, r3, r2, _, _⟩ := encA_std (0x50) (0) (a) (0) ((3 * 128)) (by decide) (by decide)
  rw [← hw] at hb r5 r4 r3 r2
  simp only [encA] at hw
  obtain ⟨r0, r1⟩ : fld w 0 7 = 0 ∧ fld w 7 3 = 3 := by
    simp only [fld]; omega
  exact ⟨hb, fun _ => by simp [decodeScalar, decodeX5, gAt, ifZero, r0, r1, r2, r3, r4, r5]⟩
theorem rinfo (d a : GReg) (k : BitVec 2) : Statement (.rinfo d a k) := by
  have := d.isLt; have := a.isLt; have := k.isLt
  refine scalar_ok rfl rfl (w := encA 0x50 d a 0 (4 * 128 + k.toNat)) (fun w hw => ?_)
  obtain ⟨hb, r7, r6, r5, r4, _, _⟩ := encA_std (0x50) (d) (a) (0) ((4 * 128 + k.toNat)) (by decide) (by omega)
  rw [← hw] at hb r7 r6 r5 r4
  simp only [encA] at hw
  obtain ⟨r0, r1, r2, r3⟩ : fld w 0 2 = k.toNat ∧ fld w 2 1 = 0 ∧ fld w 3 4 = 0 ∧ fld w 7 3 = 4 := by
    simp only [fld]; omega
  exact ⟨hb, fun _ => by simp [decodeScalar, decodeX5, gAt, bAt, ifZero, r0, r1, r2, r3, r4, r5, r6, r7]⟩
theorem rinfoStream (d : GReg) (n k : BitVec 2) : Statement (.rinfoStream d n k) := by
  have := d.isLt; have := n.isLt; have := k.isLt
  refine scalar_ok rfl rfl (w := encA 0x50 d 0 0 (4 * 128 + n.toNat * 8 + 4 + k.toNat)) (fun w hw => ?_)
  obtain ⟨hb, r7, r6, _, _, _, _⟩ := encA_std (0x50) (d) (0) (0) ((4 * 128 + n.toNat * 8 + 4 + k.toNat)) (by decide) (by omega)
  rw [← hw] at hb r7 r6
  simp only [encA] at hw
  obtain ⟨r0, r1, r2, r3, r4, r5⟩ : fld w 0 2 = k.toNat ∧ fld w 2 1 = 1 ∧ fld w 3 2 = n.toNat ∧ fld w 5 2 = 0 ∧
      fld w 7 3 = 4 ∧ fld w 10 10 = 0 := by
    simp only [fld]; omega
  exact ⟨hb, fun _ => by simp [decodeScalar, decodeX5, gAt, bAt, ifZero, r0, r1, r2, r3, r4, r5, r6, r7]⟩
theorem ropenR (e a b : GReg) (n : BitVec 2) : Statement (.ropenR e a b n) := by
  have := e.isLt; have := a.isLt; have := b.isLt; have := n.isLt
  refine scalar_ok rfl rfl (w := encA 0x51 e a b n.toNat) (fun w hw => ?_)
  obtain ⟨hb, r6, r5, r4, r3, _, _⟩ := encA_std (0x51) (e) (a) (b) (n.toNat) (by decide) (by omega)
  rw [← hw] at hb r6 r5 r4 r3
  simp only [encA] at hw
  obtain ⟨r0, r1, r2⟩ : fld w 0 2 = n.toNat ∧ fld w 2 1 = 0 ∧ fld w 3 7 = 0 := by
    simp only [fld]; omega
  exact ⟨hb, fun _ => by simp [decodeScalar, decodeX5, gAt, bAt, ifZero, r0, r1, r2, r3, r4, r5, r6]⟩
theorem ropenA (a : GReg) (n : BitVec 2) : Statement (.ropenA a n) := by
  have := a.isLt; have := n.isLt
  refine scalar_ok rfl rfl (w := encA 0x51 0 a 0 (4 + n.toNat)) (fun w hw => ?_)
  obtain ⟨hb, r6, r5, r4, r3, _, _⟩ := encA_std (0x51) (0) (a) (0) ((4 + n.toNat)) (by decide) (by omega)
  rw [← hw] at hb r6 r5 r4 r3
  simp only [encA] at hw
  obtain ⟨r0, r1, r2⟩ : fld w 0 2 = n.toNat ∧ fld w 2 1 = 1 ∧ fld w 3 7 = 0 := by
    simp only [fld]; omega
  exact ⟨hb, fun _ => by simp [decodeScalar, decodeX5, gAt, bAt, ifZero, r0, r1, r2, r3, r4, r5, r6]⟩
theorem rclose (n : BitVec 2) : Statement (.rclose n) := by
  have := n.isLt
  refine scalar_ok rfl rfl (w := 0x52 * 2 ^ 25 + n.toNat) (fun w hw => ?_)
  obtain ⟨r0, r1, r2⟩ : fld w 0 2 = n.toNat ∧ fld w 2 23 = 0 ∧ fld w 25 7 = 82 := by
    simp only [fld]; omega
  exact ⟨by omega, fun _ => by simp [decodeScalar, decodeX5, bAt, ifZero, r0, r1, r2]⟩
theorem sortr (d a : GReg) (cb : BitVec 3) (kw : Bool) (tl : Fin 8) : Statement (.sortr d a cb kw tl) := by
  have := d.isLt; have := a.isLt; have := cb.isLt; have := b2n_lt kw; have := tl.isLt
  refine scalar_ok rfl rfl (w := encA 0x53 d a 0 (cb.toNat * 16 + b2n kw * 8 + tl.val)) (fun w hw => ?_)
  obtain ⟨hb, r6, r5, r4, _, _, _⟩ := encA_std (0x53) (d) (a) (0) ((cb.toNat * 16 + b2n kw * 8 + tl.val)) (by decide) (by omega)
  rw [← hw] at hb r6 r5 r4
  simp only [encA] at hw
  obtain ⟨r0, r1, r2, r3⟩ : fld w 0 3 = tl.val ∧ fld w 3 1 = b2n kw ∧ fld w 4 3 = cb.toNat ∧ fld w 7 8 = 0 := by
    simp only [fld]; omega
  exact ⟨hb, fun _ => by simp [decodeScalar, decodeX5, gAt, bAt, flagAt, tlAt, ifZero, r0, r1, r2, r3, r4, r5, r6]⟩
theorem mrgr (d a b : GReg) (cb : BitVec 3) (kw : Bool) (tl : Fin 8) : Statement (.mrgr d a b cb kw tl) := by
  have := d.isLt; have := a.isLt; have := b.isLt; have := cb.isLt; have := b2n_lt kw; have := tl.isLt
  refine scalar_ok rfl rfl (w := encA 0x54 d a b (cb.toNat * 16 + b2n kw * 8 + tl.val)) (fun w hw => ?_)
  obtain ⟨hb, r7, r6, r5, r4, _, _⟩ := encA_std (0x54) (d) (a) (b) ((cb.toNat * 16 + b2n kw * 8 + tl.val)) (by decide) (by omega)
  rw [← hw] at hb r7 r6 r5 r4
  simp only [encA] at hw
  obtain ⟨r0, r1, r2, r3⟩ : fld w 0 3 = tl.val ∧ fld w 3 1 = b2n kw ∧ fld w 4 3 = cb.toNat ∧ fld w 7 3 = 0 := by
    simp only [fld]; omega
  exact ⟨hb, fun _ => by simp [decodeScalar, decodeX5, gAt, bAt, flagAt, tlAt, ifZero, r0, r1, r2, r3, r4, r5, r6, r7]⟩
theorem joinr (d a b : GReg) (mode : BitVec 2) (kw : Bool) (tl : Fin 8) : Statement (.joinr d a b mode kw tl) := by
  have := d.isLt; have := a.isLt; have := b.isLt; have := mode.isLt; have := b2n_lt kw; have := tl.isLt
  refine scalar_ok rfl rfl (w := encA 0x55 d a b (mode.toNat * 16 + b2n kw * 8 + tl.val)) (fun w hw => ?_)
  obtain ⟨hb, r7, r6, r5, r4, _, _⟩ := encA_std (0x55) (d) (a) (b) ((mode.toNat * 16 + b2n kw * 8 + tl.val)) (by decide) (by omega)
  rw [← hw] at hb r7 r6 r5 r4
  simp only [encA] at hw
  obtain ⟨r0, r1, r2, r3⟩ : fld w 0 3 = tl.val ∧ fld w 3 1 = b2n kw ∧ fld w 4 2 = mode.toNat ∧ fld w 6 4 = 0 := by
    simp only [fld]; omega
  exact ⟨hb, fun _ => by simp [decodeScalar, decodeX5, gAt, bAt, flagAt, tlAt, ifZero, r0, r1, r2, r3, r4, r5, r6, r7]⟩
theorem cpy (a : GReg) (tl : Fin 8) : Statement (.cpy a tl) := by
  have := a.isLt; have := tl.isLt
  refine scalar_ok rfl rfl (w := encA 0x56 0 a 0 tl.val) (fun w hw => ?_)
  obtain ⟨hb, r4, r3, r2, _, _, _⟩ := encA_std (0x56) (0) (a) (0) (tl.val) (by decide) (by omega)
  rw [← hw] at hb r4 r3 r2
  simp only [encA] at hw
  obtain ⟨r0, r1⟩ : fld w 0 3 = tl.val ∧ fld w 3 12 = 0 := by
    simp only [fld]; omega
  exact ⟨hb, fun _ => by simp [decodeScalar, decodeX5, gAt, tlAt, ifZero, r0, r1, r2, r3, r4]⟩
theorem enqw (d a b : GReg) (tl : Fin 8) : Statement (.enqw d a b tl) := by
  have := d.isLt; have := a.isLt; have := b.isLt; have := tl.isLt
  refine scalar_ok rfl rfl (w := encA 0x57 d a b tl.val) (fun w hw => ?_)
  obtain ⟨hb, r5, r4, r3, r2, _, _⟩ := encA_std (0x57) (d) (a) (b) (tl.val) (by decide) (by omega)
  rw [← hw] at hb r5 r4 r3 r2
  simp only [encA] at hw
  obtain ⟨r0, r1⟩ : fld w 0 3 = tl.val ∧ fld w 3 7 = 0 := by
    simp only [fld]; omega
  exact ⟨hb, fun _ => by simp [decodeScalar, decodeX5, gAt, tlAt, ifZero, r0, r1, r2, r3, r4, r5]⟩
theorem rmig (d a b : GReg) (tier : BitVec 2) (tl : Fin 8) : Statement (.rmig d a b tier tl) := by
  have := d.isLt; have := a.isLt; have := b.isLt; have := tier.isLt; have := tl.isLt
  refine scalar_ok rfl rfl (w := encA 0x58 d a b (tier.toNat * 8 + tl.val)) (fun w hw => ?_)
  obtain ⟨hb, r6, r5, r4, r3, _, _⟩ := encA_std (0x58) (d) (a) (b) ((tier.toNat * 8 + tl.val)) (by decide) (by omega)
  rw [← hw] at hb r6 r5 r4 r3
  simp only [encA] at hw
  obtain ⟨r0, r1, r2⟩ : fld w 0 3 = tl.val ∧ fld w 3 2 = tier.toNat ∧ fld w 5 5 = 0 := by
    simp only [fld]; omega
  exact ⟨hb, fun _ => by simp [decodeScalar, decodeX5, gAt, bAt, tlAt, ifZero, r0, r1, r2, r3, r4, r5, r6]⟩
theorem stage (a : GReg) (tl : Fin 8) : Statement (.stage a tl) := by
  have := a.isLt; have := tl.isLt
  refine scalar_ok rfl rfl (w := encA 0x59 0 a 0 tl.val) (fun w hw => ?_)
  obtain ⟨hb, r4, r3, r2, _, _, _⟩ := encA_std (0x59) (0) (a) (0) (tl.val) (by decide) (by omega)
  rw [← hw] at hb r4 r3 r2
  simp only [encA] at hw
  obtain ⟨r0, r1⟩ : fld w 0 3 = tl.val ∧ fld w 3 12 = 0 := by
    simp only [fld]; omega
  exact ⟨hb, fun _ => by simp [decodeScalar, decodeX5, gAt, tlAt, ifZero, r0, r1, r2, r3, r4]⟩
theorem tlwait (a : GReg) (tl : Fin 8) : Statement (.tlwait a tl) := by
  have := a.isLt; have := tl.isLt
  refine scalar_ok rfl rfl (w := encA 0x5A 0 a 0 tl.val) (fun w hw => ?_)
  obtain ⟨hb, r5, r4, r3, _, _, _⟩ := encA_std (0x5A) (0) (a) (0) (tl.val) (by decide) (by omega)
  rw [← hw] at hb r5 r4 r3
  simp only [encA] at hw
  obtain ⟨r0, r1, r2⟩ : fld w 0 3 = tl.val ∧ fld w 3 1 = 0 ∧ fld w 4 11 = 0 := by
    simp only [fld]; omega
  exact ⟨hb, fun _ => by simp [decodeScalar, decodeX5, gAt, tlAt, ifZero, r0, r1, r2, r3, r4, r5]⟩
theorem tlwaitEv (a : GReg) (tl : Fin 8) : Statement (.tlwaitEv a tl) := by
  have := a.isLt; have := tl.isLt
  refine scalar_ok rfl rfl (w := encA 0x5A 0 a 0 (8 + tl.val)) (fun w hw => ?_)
  obtain ⟨hb, r5, r4, r3, _, _, _⟩ := encA_std (0x5A) (0) (a) (0) ((8 + tl.val)) (by decide) (by omega)
  rw [← hw] at hb r5 r4 r3
  simp only [encA] at hw
  obtain ⟨r0, r1, r2⟩ : fld w 0 3 = tl.val ∧ fld w 3 1 = 1 ∧ fld w 4 11 = 0 := by
    simp only [fld]; omega
  exact ⟨hb, fun _ => by simp [decodeScalar, decodeX5, gAt, tlAt, ifZero, r0, r1, r2, r3, r4, r5]⟩
theorem tlget (d : GReg) (clr : Bool) (word : BitVec 3) (tl : Fin 8) : Statement (.tlget d clr word tl) := by
  have := d.isLt; have := b2n_lt clr; have := word.isLt; have := tl.isLt
  refine scalar_ok rfl rfl (w := encA 0x5B d 0 0 (b2n clr * 64 + word.toNat * 8 + tl.val)) (fun w hw => ?_)
  obtain ⟨hb, r5, r4, _, _, _, _⟩ := encA_std (0x5B) (d) (0) (0) ((b2n clr * 64 + word.toNat * 8 + tl.val)) (by decide) (by omega)
  rw [← hw] at hb r5 r4
  simp only [encA] at hw
  obtain ⟨r0, r1, r2, r3⟩ : fld w 0 3 = tl.val ∧ fld w 3 3 = word.toNat ∧ fld w 6 1 = b2n clr ∧ fld w 7 13 = 0 := by
    simp only [fld]; omega
  exact ⟨hb, fun _ => by simp [decodeScalar, decodeX5, gAt, bAt, flagAt, tlAt, ifZero, r0, r1, r2, r3, r4, r5]⟩
theorem tlnotify (a : GReg) (stl tl : Fin 8) : Statement (.tlnotify a stl tl) := by
  have := a.isLt; have := stl.isLt; have := tl.isLt
  refine scalar_ok rfl rfl (w := encA 0x5C 0 a 0 (stl.val * 8 + tl.val)) (fun w hw => ?_)
  obtain ⟨hb, r5, r4, r3, _, _, _⟩ := encA_std (0x5C) (0) (a) (0) ((stl.val * 8 + tl.val)) (by decide) (by omega)
  rw [← hw] at hb r5 r4 r3
  simp only [encA] at hw
  obtain ⟨r0, r1, r2⟩ : fld w 0 3 = tl.val ∧ fld w 3 3 = stl.val ∧ fld w 6 9 = 0 := by
    simp only [fld]; omega
  exact ⟨hb, fun _ => by simp [decodeScalar, decodeX5, gAt, tlAt, ifZero, r0, r1, r2, r3, r4, r5]⟩
theorem barinit (a b : GReg) (n : Fin 16) : Statement (.barinit a b n) := by
  have := a.isLt; have := b.isLt; have := n.isLt
  refine scalar_ok rfl rfl (w := encA 0x5D 0 a b n.val) (fun w hw => ?_)
  obtain ⟨hb, r6, r5, r4, r3, _, _⟩ := encA_std (0x5D) (0) (a) (b) (n.val) (by decide) (by omega)
  rw [← hw] at hb r6 r5 r4 r3
  simp only [encA] at hw
  obtain ⟨r0, r1, r2⟩ : fld w 0 4 = n.val ∧ fld w 4 3 = 0 ∧ fld w 7 3 = 0 := by
    simp only [fld]; omega
  exact ⟨hb, fun _ => by simp [decodeScalar, decodeX6, gAt, ifZero, r0, r1, r2, r3, r4, r5, r6]⟩
theorem bararr (d : GReg) (n : Fin 16) : Statement (.bararr d n) := by
  have := d.isLt; have := n.isLt
  refine scalar_ok rfl rfl (w := encA 0x5D d 0 0 (1 * 128 + n.val)) (fun w hw => ?_)
  obtain ⟨hb, r5, r4, _, _, _, _⟩ := encA_std (0x5D) (d) (0) (0) ((1 * 128 + n.val)) (by decide) (by omega)
  rw [← hw] at hb r5 r4
  simp only [encA] at hw
  obtain ⟨r0, r1, r2, r3⟩ : fld w 0 4 = n.val ∧ fld w 4 3 = 0 ∧ fld w 7 3 = 1 ∧ fld w 10 10 = 0 := by
    simp only [fld]; omega
  exact ⟨hb, fun _ => by simp [decodeScalar, decodeX6, gAt, ifZero, r0, r1, r2, r3, r4, r5]⟩
theorem barwait (a : GReg) (n : Fin 16) : Statement (.barwait a n) := by
  have := a.isLt; have := n.isLt
  refine scalar_ok rfl rfl (w := encA 0x5D 0 a 0 (2 * 128 + n.val)) (fun w hw => ?_)
  obtain ⟨hb, r6, r5, r4, r3, _, _⟩ := encA_std (0x5D) (0) (a) (0) ((2 * 128 + n.val)) (by decide) (by omega)
  rw [← hw] at hb r6 r5 r4 r3
  simp only [encA] at hw
  obtain ⟨r0, r1, r2⟩ : fld w 0 4 = n.val ∧ fld w 4 3 = 0 ∧ fld w 7 3 = 2 := by
    simp only [fld]; omega
  exact ⟨hb, fun _ => by simp [decodeScalar, decodeX6, gAt, ifZero, r0, r1, r2, r3, r4, r5, r6]⟩
theorem baradd (a : GReg) (n : Fin 16) : Statement (.baradd a n) := by
  have := a.isLt; have := n.isLt
  refine scalar_ok rfl rfl (w := encA 0x5D 0 a 0 (3 * 128 + n.val)) (fun w hw => ?_)
  obtain ⟨hb, r6, r5, r4, r3, _, _⟩ := encA_std (0x5D) (0) (a) (0) ((3 * 128 + n.val)) (by decide) (by omega)
  rw [← hw] at hb r6 r5 r4 r3
  simp only [encA] at hw
  obtain ⟨r0, r1, r2⟩ : fld w 0 4 = n.val ∧ fld w 4 3 = 0 ∧ fld w 7 3 = 3 := by
    simp only [fld]; omega
  exact ⟨hb, fun _ => by simp [decodeScalar, decodeX6, gAt, ifZero, r0, r1, r2, r3, r4, r5, r6]⟩
theorem coll (a : GReg) (tl : Fin 8) : Statement (.coll a tl) := by
  have := a.isLt; have := tl.isLt
  refine scalar_ok rfl rfl (w := encA 0x5E 0 a 0 tl.val) (fun w hw => ?_)
  obtain ⟨hb, r4, r3, r2, _, _, _⟩ := encA_std (0x5E) (0) (a) (0) (tl.val) (by decide) (by omega)
  rw [← hw] at hb r4 r3 r2
  simp only [encA] at hw
  obtain ⟨r0, r1⟩ : fld w 0 3 = tl.val ∧ fld w 3 12 = 0 := by
    simp only [fld]; omega
  exact ⟨hb, fun _ => by simp [decodeScalar, decodeX6, gAt, tlAt, ifZero, r0, r1, r2, r3, r4]⟩
theorem panel (d a b : GReg) : Statement (.panel d a b) := by
  have := d.isLt; have := a.isLt; have := b.isLt
  refine scalar_ok rfl rfl (w := encA 0x60 d a b 0) (fun w hw => ?_)
  obtain ⟨hb, r5, r4, r3, r2, _, _⟩ := encA_std (0x60) (d) (a) (b) (0) (by decide) (by decide)
  rw [← hw] at hb r5 r4 r3 r2
  simp only [encA] at hw
  obtain ⟨r0, r1⟩ : fld w 0 7 = 0 ∧ fld w 7 3 = 0 := by
    simp only [fld]; omega
  exact ⟨hb, fun _ => by simp [decodeScalar, decodeX6, gAt, ifZero, r0, r1, r2, r3, r4, r5]⟩
theorem spawn (d a : GReg) : Statement (.spawn d a) := by
  have := d.isLt; have := a.isLt
  refine scalar_ok rfl rfl (w := encA 0x60 d a 0 (1 * 128)) (fun w hw => ?_)
  obtain ⟨hb, r5, r4, r3, r2, _, _⟩ := encA_std (0x60) (d) (a) (0) ((1 * 128)) (by decide) (by decide)
  rw [← hw] at hb r5 r4 r3 r2
  simp only [encA] at hw
  obtain ⟨r0, r1⟩ : fld w 0 7 = 0 ∧ fld w 7 3 = 1 := by
    simp only [fld]; omega
  exact ⟨hb, fun _ => by simp [decodeScalar, decodeX6, gAt, ifZero, r0, r1, r2, r3, r4, r5]⟩
theorem join (d a : GReg) : Statement (.join d a) := by
  have := d.isLt; have := a.isLt
  refine scalar_ok rfl rfl (w := encA 0x60 d a 0 (2 * 128)) (fun w hw => ?_)
  obtain ⟨hb, r5, r4, r3, r2, _, _⟩ := encA_std (0x60) (d) (a) (0) ((2 * 128)) (by decide) (by decide)
  rw [← hw] at hb r5 r4 r3 r2
  simp only [encA] at hw
  obtain ⟨r0, r1⟩ : fld w 0 7 = 0 ∧ fld w 7 3 = 2 := by
    simp only [fld]; omega
  exact ⟨hb, fun _ => by simp [decodeScalar, decodeX6, gAt, ifZero, r0, r1, r2, r3, r4, r5]⟩
theorem tdone : Statement .tdone := by
  refine scalar_ok rfl rfl (w := 0x60 * 2 ^ 25 + 3 * 128) (fun w hw => ?_)
  obtain ⟨r0, r1, r2, r3⟩ : fld w 0 7 = 0 ∧ fld w 7 3 = 3 ∧ fld w 10 15 = 0 ∧ fld w 25 7 = 96 := by
    simp only [fld]; omega
  exact ⟨by omega, fun _ => by simp [decodeScalar, decodeX6, ifZero, r0, r1, r2, r3]⟩
theorem wmset (n : BitVec 2) : Statement (.wmset n) := by
  have := n.isLt
  refine scalar_ok rfl rfl (w := 0x60 * 2 ^ 25 + 4 * 128 + n.toNat) (fun w hw => ?_)
  obtain ⟨r0, r1, r2, r3, r4⟩ : fld w 0 2 = n.toNat ∧ fld w 2 5 = 0 ∧ fld w 7 3 = 4 ∧ fld w 10 15 = 0 ∧
      fld w 25 7 = 96 := by
    simp only [fld]; omega
  exact ⟨by omega, fun _ => by simp [decodeScalar, decodeX6, bAt, ifZero, r0, r1, r2, r3, r4]⟩
theorem wmwait (d a b : GReg) : Statement (.wmwait d a b) := by
  have := d.isLt; have := a.isLt; have := b.isLt
  refine scalar_ok rfl rfl (w := encA 0x60 d a b (5 * 128)) (fun w hw => ?_)
  obtain ⟨hb, r5, r4, r3, r2, _, _⟩ := encA_std (0x60) (d) (a) (b) ((5 * 128)) (by decide) (by decide)
  rw [← hw] at hb r5 r4 r3 r2
  simp only [encA] at hw
  obtain ⟨r0, r1⟩ : fld w 0 7 = 0 ∧ fld w 7 3 = 5 := by
    simp only [fld]; omega
  exact ⟨hb, fun _ => by simp [decodeScalar, decodeX6, gAt, ifZero, r0, r1, r2, r3, r4, r5]⟩
theorem ctkill (d a : GReg) : Statement (.ctkill d a) := by
  have := d.isLt; have := a.isLt
  refine scalar_ok rfl rfl (w := encA 0x60 d a 0 (6 * 128)) (fun w hw => ?_)
  obtain ⟨hb, r5, r4, r3, r2, _, _⟩ := encA_std (0x60) (d) (a) (0) ((6 * 128)) (by decide) (by decide)
  rw [← hw] at hb r5 r4 r3 r2
  simp only [encA] at hw
  obtain ⟨r0, r1⟩ : fld w 0 7 = 0 ∧ fld w 7 3 = 6 := by
    simp only [fld]; omega
  exact ⟨hb, fun _ => by simp [decodeScalar, decodeX6, gAt, ifZero, r0, r1, r2, r3, r4, r5]⟩
theorem vsetvl (d a : GReg) (mask : BitVec 4) : Statement (.vsetvl d a mask) := by
  have := d.isLt; have := a.isLt; have := mask.isLt
  refine scalar_ok rfl rfl (w := encA 0x61 d a 0 mask.toNat) (fun w hw => ?_)
  obtain ⟨hb, r4, r3, r2, _, _, _⟩ := encA_std (0x61) (d) (a) (0) (mask.toNat) (by decide) (by omega)
  rw [← hw] at hb r4 r3 r2
  simp only [encA] at hw
  obtain ⟨r0, r1⟩ : fld w 0 4 = mask.toNat ∧ fld w 4 11 = 0 := by
    simp only [fld]; omega
  exact ⟨hb, fun _ => by simp [decodeScalar, decodeX6, gAt, bAt, ifZero, r0, r1, r2, r3, r4]⟩
theorem vsetf (d : GReg) (rsz : BitVec 6) (gap : BitVec 4) (ty : VTy) : Statement (.vsetf d rsz gap ty) := by
  have := d.isLt; have := rsz.isLt; have := gap.isLt; have := ty_lt ty
  refine scalar_ok rfl rfl (w := encI 0x62 d 0 (rsz.toNat * 256 + gap.toNat * 16 + ty.code)) (fun w hw => ?_)
  obtain ⟨hb, r5, r4, _, _⟩ := encI_std (0x62) (d) (0) ((rsz.toNat * 256 + gap.toNat * 16 + ty.code)) (by decide) (by omega)
  rw [← hw] at hb r5 r4
  simp only [encI] at hw
  obtain ⟨r0, r1, r2, r3⟩ : fld w 0 4 = ty.code ∧ fld w 4 4 = gap.toNat ∧ fld w 8 6 = rsz.toNat ∧ fld w 14 6 = 0 := by
    simp only [fld]; omega
  exact ⟨hb, fun _ => by simp [decodeScalar, decodeX6, gAt, bAt, ifZero, r0, r1, r2, r3, r4, r5]⟩
theorem vsetg (d : GReg) (grp : BitVec 2) : Statement (.vsetg d grp) := by
  have := d.isLt; have := grp.isLt
  refine scalar_ok rfl rfl (w := encI 0x63 d 0 grp.toNat) (fun w hw => ?_)
  obtain ⟨hb, r3, r2, _, _⟩ := encI_std (0x63) (d) (0) (grp.toNat) (by decide) (by omega)
  rw [← hw] at hb r3 r2
  simp only [encI] at hw
  obtain ⟨r0, r1⟩ : fld w 0 2 = grp.toNat ∧ fld w 2 18 = 0 := by
    simp only [fld]; omega
  exact ⟨hb, fun _ => by simp [decodeScalar, decodeX6, gAt, bAt, ifZero, r0, r1, r2, r3]⟩
theorem lift (a : GReg) (i : BitVec 15) : Statement (.lift a i) := by
  have := a.isLt; have := i.isLt
  refine scalar_ok rfl rfl (w := encI 0x64 0 a i.toNat) (fun w hw => ?_)
  obtain ⟨hb, r3, r2, r1, r0⟩ := encI_std (0x64) (0) (a) (i.toNat) (by decide) (by omega)
  rw [← hw] at hb r3 r2 r1 r0
  exact ⟨hb, fun _ => by simp [decodeScalar, decodeX6, gAt, bAt, ifZero, r0, r1, r2, r3]⟩
theorem lend : Statement .lend := by
  refine scalar_ok rfl rfl (w := 0x65 * 2 ^ 25) (fun w hw => ?_)
  obtain ⟨r0, r1, r2, r3⟩ : fld w 0 7 = 0 ∧ fld w 7 3 = 0 ∧ fld w 10 15 = 0 ∧ fld w 25 7 = 101 := by
    simp only [fld]; omega
  exact ⟨by omega, fun _ => by simp [decodeScalar, decodeX6, ifZero, r0, r1, r2, r3]⟩
theorem lidx (d : GReg) (k : BitVec 2) : Statement (.lidx d k) := by
  have := d.isLt; have := k.isLt
  refine scalar_ok rfl rfl (w := encA 0x65 d 0 0 (1 * 128 + k.toNat)) (fun w hw => ?_)
  obtain ⟨hb, r5, r4, _, _, _, _⟩ := encA_std (0x65) (d) (0) (0) ((1 * 128 + k.toNat)) (by decide) (by omega)
  rw [← hw] at hb r5 r4
  simp only [encA] at hw
  obtain ⟨r0, r1, r2, r3⟩ : fld w 0 2 = k.toNat ∧ fld w 2 5 = 0 ∧ fld w 7 3 = 1 ∧ fld w 10 10 = 0 := by
    simp only [fld]; omega
  exact ⟨hb, fun _ => by simp [decodeScalar, decodeX6, gAt, bAt, ifZero, r0, r1, r2, r3, r4, r5]⟩
theorem lred (d a : GReg) (op : LredOp) : Statement (.lred d a op) := by
  have := d.isLt; have := a.isLt; have := lred_lt op
  refine scalar_ok rfl rfl (w := encA 0x65 d a 0 (2 * 128 + op.code)) (fun w hw => ?_)
  obtain ⟨hb, r6, r5, r4, r3, _, _⟩ := encA_std (0x65) (d) (a) (0) ((2 * 128 + op.code)) (by decide) (by omega)
  rw [← hw] at hb r6 r5 r4 r3
  simp only [encA] at hw
  obtain ⟨r0, r1, r2⟩ : fld w 0 3 = op.code ∧ fld w 3 4 = 0 ∧ fld w 7 3 = 2 := by
    simp only [fld]; omega
  exact ⟨hb, fun _ => by simp [decodeScalar, decodeX6, gAt, ifZero, r0, r1, r2, r3, r4, r5, r6]⟩
theorem lpick (d a b : GReg) : Statement (.lpick d a b) := by
  have := d.isLt; have := a.isLt; have := b.isLt
  refine scalar_ok rfl rfl (w := encA 0x65 d a b (3 * 128)) (fun w hw => ?_)
  obtain ⟨hb, r5, r4, r3, r2, _, _⟩ := encA_std (0x65) (d) (a) (b) ((3 * 128)) (by decide) (by decide)
  rw [← hw] at hb r5 r4 r3 r2
  simp only [encA] at hw
  obtain ⟨r0, r1⟩ : fld w 0 7 = 0 ∧ fld w 7 3 = 3 := by
    simp only [fld]; omega
  exact ⟨hb, fun _ => by simp [decodeScalar, decodeX6, gAt, ifZero, r0, r1, r2, r3, r4, r5]⟩
theorem ltag (d : GReg) (file : Fin 3) (r : BitVec 7) : Statement (.ltag d file r) := by
  have := d.isLt; have := file.isLt; have := r.isLt
  refine scalar_ok rfl rfl (w := 0x65 * 2 ^ 25 + d.val * 2 ^ 20 + file.val * 2 ^ 10 + 4 * 128 + r.toNat) (fun w hw => ?_)
  obtain ⟨r0, r1, r2, r3, r4, r5⟩ : fld w 0 7 = r.toNat ∧ fld w 7 3 = 4 ∧ fld w 10 5 = file.val ∧ fld w 15 5 = 0 ∧
      fld w 20 5 = d.val ∧ fld w 25 7 = 101 := by
    simp only [fld]; omega
  exact ⟨by omega, fun _ => by simp [decodeScalar, decodeX6, gAt, bAt, ifZero, r0, r1, r2, r3, r4, r5]⟩
theorem lact (p : PReg) : Statement (.lact p) := by
  have := p.isLt
  refine scalar_ok rfl rfl (w := 0x65 * 2 ^ 25 + 5 * 128 + p.val) (fun w hw => ?_)
  obtain ⟨r0, r1, r2, r3⟩ : fld w 0 7 = p.val ∧ fld w 7 3 = 5 ∧ fld w 10 15 = 0 ∧ fld w 25 7 = 101 := by
    simp only [fld]; omega
  exact ⟨by omega, fun _ => by simp [decodeScalar, decodeX6, pAt, ifZero, r0, r1, r2, r3]⟩
theorem convoyHeader (h : ConvoyHdr) (words : List (BitVec 64)) : Statement (.convoyHeader h words) := convoy_ok h words
theorem convoyBind (core : Fin 32) : Statement (.convoyBind core) := event_ok rfl rfl
theorem vectorRetire (ct : CtId) : Statement (.vectorRetire ct) := event_ok rfl rfl
theorem stripCommit (ct : CtId) : Statement (.stripCommit ct) := event_ok rfl rfl
theorem vld (f : VFields) : Statement (.vld f) :=
  vec_ok (op := 0x00) (by decide) rfl rfl (fun w h0 h1 _ => by simp [decodeVec, decodeVMem, h0, h1])
theorem vlds (f : VFields) : Statement (.vlds f) :=
  vec_ok (op := 0x01) (by decide) rfl rfl (fun w h0 h1 _ => by simp [decodeVec, decodeVMem, h0, h1])
theorem vldx (f : VFields) : Statement (.vldx f) :=
  vec_ok (op := 0x02) (by decide) rfl rfl (fun w h0 h1 _ => by simp [decodeVec, decodeVMem, h0, h1])
theorem vldseg (f : VFields) : Statement (.vldseg f) :=
  vec_ok (op := 0x03) (by decide) rfl rfl (fun w h0 h1 _ => by simp [decodeVec, decodeVMem, h0, h1])
theorem vst (f : VFields) : Statement (.vst f) :=
  vec_ok (op := 0x04) (by decide) rfl rfl (fun w h0 h1 _ => by simp [decodeVec, decodeVMem, h0, h1])
theorem vsts (f : VFields) : Statement (.vsts f) :=
  vec_ok (op := 0x05) (by decide) rfl rfl (fun w h0 h1 _ => by simp [decodeVec, decodeVMem, h0, h1])
theorem vstx (f : VFields) : Statement (.vstx f) :=
  vec_ok (op := 0x06) (by decide) rfl rfl (fun w h0 h1 _ => by simp [decodeVec, decodeVMem, h0, h1])
theorem vstseg (f : VFields) : Statement (.vstseg f) :=
  vec_ok (op := 0x07) (by decide) rfl rfl (fun w h0 h1 _ => by simp [decodeVec, decodeVMem, h0, h1])
theorem vldc (f : VFields) : Statement (.vldc f) :=
  vec_ok (op := 0x08) (by decide) rfl rfl (fun w h0 h1 _ => by simp [decodeVec, decodeVMem, h0, h1])
theorem vstc (f : VFields) : Statement (.vstc f) :=
  vec_ok (op := 0x09) (by decide) rfl rfl (fun w h0 h1 _ => by simp [decodeVec, decodeVMem, h0, h1])
theorem vspill (f : VFields) : Statement (.vspill f) :=
  vec_ok (op := 0x0A) (by decide) rfl rfl (fun w h0 h1 _ => by simp [decodeVec, decodeVMem, h0, h1])
theorem vfill (f : VFields) : Statement (.vfill f) :=
  vec_ok (op := 0x0B) (by decide) rfl rfl (fun w h0 h1 _ => by simp [decodeVec, decodeVMem, h0, h1])
theorem rld (f : VFields) : Statement (.rld f) :=
  vec_ok (op := 0x0C) (by decide) rfl rfl (fun w h0 h1 _ => by simp [decodeVec, decodeVMem, h0, h1])
theorem rapp (f : VFields) : Statement (.rapp f) :=
  vec_ok (op := 0x0D) (by decide) rfl rfl (fun w h0 h1 _ => by simp [decodeVec, decodeVMem, h0, h1])
theorem vamo (f : VFields) : Statement (.vamo f) :=
  vec_ok (op := 0x0E) (by decide) rfl rfl (fun w h0 h1 _ => by simp [decodeVec, decodeVMem, h0, h1])
theorem vldb (f : VFields) : Statement (.vldb f) :=
  vec_ok (op := 0x0F) (by decide) rfl rfl (fun w h0 h1 _ => by simp [decodeVec, decodeVMem, h0, h1])
theorem vadd (f : VFields) : Statement (.vadd f) :=
  vec_ok (op := 0x20) (by decide) rfl rfl (fun w h0 h1 _ => by simp [decodeVec, decodeVInt, h0, h1])
theorem vsub (f : VFields) : Statement (.vsub f) :=
  vec_ok (op := 0x21) (by decide) rfl rfl (fun w h0 h1 _ => by simp [decodeVec, decodeVInt, h0, h1])
theorem vmul (f : VFields) : Statement (.vmul f) :=
  vec_ok (op := 0x22) (by decide) rfl rfl (fun w h0 h1 _ => by simp [decodeVec, decodeVInt, h0, h1])
theorem vmulh (f : VFields) : Statement (.vmulh f) :=
  vec_ok (op := 0x23) (by decide) rfl rfl (fun w h0 h1 _ => by simp [decodeVec, decodeVInt, h0, h1])
theorem vmacc (f : VFields) : Statement (.vmacc f) :=
  vec_ok (op := 0x24) (by decide) rfl rfl (fun w h0 h1 _ => by simp [decodeVec, decodeVInt, h0, h1])
theorem vwmul (f : VFields) : Statement (.vwmul f) :=
  vec_ok (op := 0x25) (by decide) rfl rfl (fun w h0 h1 _ => by simp [decodeVec, decodeVInt, h0, h1])
theorem vwmacc (f : VFields) : Statement (.vwmacc f) :=
  vec_ok (op := 0x26) (by decide) rfl rfl (fun w h0 h1 _ => by simp [decodeVec, decodeVInt, h0, h1])
theorem vsadd (f : VFields) : Statement (.vsadd f) :=
  vec_ok (op := 0x27) (by decide) rfl rfl (fun w h0 h1 _ => by simp [decodeVec, decodeVInt, h0, h1])
theorem vssub (f : VFields) : Statement (.vssub f) :=
  vec_ok (op := 0x28) (by decide) rfl rfl (fun w h0 h1 _ => by simp [decodeVec, decodeVInt, h0, h1])
theorem vand (f : VFields) : Statement (.vand f) :=
  vec_ok (op := 0x29) (by decide) rfl rfl (fun w h0 h1 _ => by simp [decodeVec, decodeVInt, h0, h1])
theorem vor (f : VFields) : Statement (.vor f) :=
  vec_ok (op := 0x2A) (by decide) rfl rfl (fun w h0 h1 _ => by simp [decodeVec, decodeVInt, h0, h1])
theorem vxor (f : VFields) : Statement (.vxor f) :=
  vec_ok (op := 0x2B) (by decide) rfl rfl (fun w h0 h1 _ => by simp [decodeVec, decodeVInt, h0, h1])
theorem vshl (f : VFields) : Statement (.vshl f) :=
  vec_ok (op := 0x2C) (by decide) rfl rfl (fun w h0 h1 _ => by simp [decodeVec, decodeVInt, h0, h1])
theorem vshr (f : VFields) : Statement (.vshr f) :=
  vec_ok (op := 0x2D) (by decide) rfl rfl (fun w h0 h1 _ => by simp [decodeVec, decodeVInt, h0, h1])
theorem vsha (f : VFields) : Statement (.vsha f) :=
  vec_ok (op := 0x2E) (by decide) rfl rfl (fun w h0 h1 _ => by simp [decodeVec, decodeVInt, h0, h1])
theorem vnshr (f : VFields) : Statement (.vnshr f) :=
  vec_ok (op := 0x2F) (by decide) rfl rfl (fun w h0 h1 _ => by simp [decodeVec, decodeVInt, h0, h1])
theorem vmin (f : VFields) : Statement (.vmin f) :=
  vec_ok (op := 0x30) (by decide) rfl rfl (fun w h0 h1 _ => by simp [decodeVec, decodeVInt, h0, h1])
theorem vmax (f : VFields) : Statement (.vmax f) :=
  vec_ok (op := 0x31) (by decide) rfl rfl (fun w h0 h1 _ => by simp [decodeVec, decodeVInt, h0, h1])
theorem vabs (f : VFields) : Statement (.vabs f) :=
  vec_ok (op := 0x32) (by decide) rfl rfl (fun w h0 h1 _ => by simp [decodeVec, decodeVInt, h0, h1])
theorem vcmp (f : VFields) : Statement (.vcmp f) :=
  vec_ok (op := 0x33) (by decide) rfl rfl (fun w h0 h1 _ => by simp [decodeVec, decodeVInt, h0, h1])
theorem vfadd (f : VFields) : Statement (.vfadd f) :=
  vec_ok (op := 0x40) (by decide) rfl rfl (fun w h0 h1 _ => by simp [decodeVec, decodeVFloat, h0, h1])
theorem vfsub (f : VFields) : Statement (.vfsub f) :=
  vec_ok (op := 0x41) (by decide) rfl rfl (fun w h0 h1 _ => by simp [decodeVec, decodeVFloat, h0, h1])
theorem vfmul (f : VFields) : Statement (.vfmul f) :=
  vec_ok (op := 0x42) (by decide) rfl rfl (fun w h0 h1 _ => by simp [decodeVec, decodeVFloat, h0, h1])
theorem vfma (f : VFields) : Statement (.vfma f) :=
  vec_ok (op := 0x43) (by decide) rfl rfl (fun w h0 h1 _ => by simp [decodeVec, decodeVFloat, h0, h1])
theorem vfnma (f : VFields) : Statement (.vfnma f) :=
  vec_ok (op := 0x44) (by decide) rfl rfl (fun w h0 h1 _ => by simp [decodeVec, decodeVFloat, h0, h1])
theorem vfdiv (f : VFields) : Statement (.vfdiv f) :=
  vec_ok (op := 0x45) (by decide) rfl rfl (fun w h0 h1 _ => by simp [decodeVec, decodeVFloat, h0, h1])
theorem vfmin (f : VFields) : Statement (.vfmin f) :=
  vec_ok (op := 0x46) (by decide) rfl rfl (fun w h0 h1 _ => by simp [decodeVec, decodeVFloat, h0, h1])
theorem vfmax (f : VFields) : Statement (.vfmax f) :=
  vec_ok (op := 0x47) (by decide) rfl rfl (fun w h0 h1 _ => by simp [decodeVec, decodeVFloat, h0, h1])
theorem vfabs (f : VFields) : Statement (.vfabs f) :=
  vec_ok (op := 0x48) (by decide) rfl rfl (fun w h0 h1 _ => by simp [decodeVec, decodeVFloat, h0, h1])
theorem vfneg (f : VFields) : Statement (.vfneg f) :=
  vec_ok (op := 0x49) (by decide) rfl rfl (fun w h0 h1 _ => by simp [decodeVec, decodeVFloat, h0, h1])
theorem vfcmp (f : VFields) : Statement (.vfcmp f) :=
  vec_ok (op := 0x4A) (by decide) rfl rfl (fun w h0 h1 _ => by simp [decodeVec, decodeVFloat, h0, h1])
theorem vcmpt (f : VFields) : Statement (.vcmpt f) :=
  vec_ok (op := 0x4B) (by decide) rfl rfl (fun w h0 h1 _ => by simp [decodeVec, decodeVFloat, h0, h1])
theorem vfsqrt (f : VFields) : Statement (.vfsqrt f) :=
  vec_ok (op := 0x4C) (by decide) rfl rfl (fun w h0 h1 _ => by simp [decodeVec, decodeVFloat, h0, h1])
theorem vsfu (f : VFields) : Statement (.vsfu f) :=
  vec_ok (op := 0x4D) (by decide) rfl rfl (fun w h0 h1 _ => by simp [decodeVec, decodeVFloat, h0, h1])
theorem vcvt (f : VFields) : Statement (.vcvt f) :=
  vec_ok (op := 0x60) (by decide) rfl rfl (fun w h0 h1 _ => by simp [decodeVec, decodeVConv, h0, h1])
theorem vrnd (f : VFields) : Statement (.vrnd f) :=
  vec_ok (op := 0x61) (by decide) rfl rfl (fun w h0 h1 _ => by simp [decodeVec, decodeVConv, h0, h1])
theorem vbscaleGet (f : VFields) : Statement (.vbscaleGet f) :=
  vec_ok (op := 0x62) (by decide) rfl rfl (fun w h0 h1 hwf => by simp_all [decodeVec, decodeVConv, Instr.wellFormed])
theorem vbscaleSet (f : VFields) : Statement (.vbscaleSet f) :=
  vec_ok (op := 0x62) (by decide) rfl rfl (fun w h0 h1 hwf => by simp_all [decodeVec, decodeVConv, Instr.wellFormed])
theorem vbquant (f : VFields) : Statement (.vbquant f) :=
  vec_ok (op := 0x63) (by decide) rfl rfl (fun w h0 h1 _ => by simp [decodeVec, decodeVConv, h0, h1])
theorem vexpnGet (f : VFields) : Statement (.vexpnGet f) :=
  vec_ok (op := 0x64) (by decide) rfl rfl (fun w h0 h1 hwf => by simp_all [decodeVec, decodeVConv, Instr.wellFormed])
theorem vexpnScl (f : VFields) : Statement (.vexpnScl f) :=
  vec_ok (op := 0x64) (by decide) rfl rfl (fun w h0 h1 hwf => by simp_all [decodeVec, decodeVConv, Instr.wellFormed])
theorem vtailGet (f : VFields) : Statement (.vtailGet f) :=
  vec_ok (op := 0x65) (by decide) rfl rfl (fun w h0 h1 hwf => by simp_all [decodeVec, decodeVConv, Instr.wellFormed])
theorem vtailSet (f : VFields) : Statement (.vtailSet f) :=
  vec_ok (op := 0x65) (by decide) rfl rfl (fun w h0 h1 hwf => by simp_all [decodeVec, decodeVConv, Instr.wellFormed])
theorem vtailClr (f : VFields) : Statement (.vtailClr f) :=
  vec_ok (op := 0x65) (by decide) rfl rfl (fun w h0 h1 hwf => by simp_all [decodeVec, decodeVConv, Instr.wellFormed])
theorem vmv (f : VFields) : Statement (.vmv f) :=
  vec_ok (op := 0x66) (by decide) rfl rfl (fun w h0 h1 _ => by simp [decodeVec, decodeVConv, h0, h1])
theorem vsel (f : VFields) : Statement (.vsel f) :=
  vec_ok (op := 0x67) (by decide) rfl rfl (fun w h0 h1 _ => by simp [decodeVec, decodeVConv, h0, h1])
theorem vbcast (f : VFields) : Statement (.vbcast f) :=
  vec_ok (op := 0x68) (by decide) rfl rfl (fun w h0 h1 _ => by simp [decodeVec, decodeVConv, h0, h1])
theorem vextr (f : VFields) : Statement (.vextr f) :=
  vec_ok (op := 0x69) (by decide) rfl rfl (fun w h0 h1 _ => by simp [decodeVec, decodeVConv, h0, h1])
theorem vins (f : VFields) : Statement (.vins f) :=
  vec_ok (op := 0x6A) (by decide) rfl rfl (fun w h0 h1 _ => by simp [decodeVec, decodeVConv, h0, h1])
theorem viota (f : VFields) : Statement (.viota f) :=
  vec_ok (op := 0x6B) (by decide) rfl rfl (fun w h0 h1 _ => by simp [decodeVec, decodeVConv, h0, h1])
theorem vcompress (f : VFields) : Statement (.vcompress f) :=
  vec_ok (op := 0x6C) (by decide) rfl rfl (fun w h0 h1 _ => by simp [decodeVec, decodeVConv, h0, h1])
theorem vexpand (f : VFields) : Statement (.vexpand f) :=
  vec_ok (op := 0x6D) (by decide) rfl rfl (fun w h0 h1 _ => by simp [decodeVec, decodeVConv, h0, h1])
theorem vperm (f : VFields) : Statement (.vperm f) :=
  vec_ok (op := 0x6E) (by decide) rfl rfl (fun w h0 h1 _ => by simp [decodeVec, decodeVConv, h0, h1])
theorem vpush (f : VFields) : Statement (.vpush f) :=
  vec_ok (op := 0x6F) (by decide) rfl rfl (fun w h0 h1 _ => by simp [decodeVec, decodeVConv, h0, h1])
theorem vslideup (f : VFields) : Statement (.vslideup f) :=
  vec_ok (op := 0x70) (by decide) rfl rfl (fun w h0 h1 _ => by simp [decodeVec, decodeVConv, h0, h1])
theorem vslidedn (f : VFields) : Statement (.vslidedn f) :=
  vec_ok (op := 0x71) (by decide) rfl rfl (fun w h0 h1 _ => by simp [decodeVec, decodeVConv, h0, h1])
theorem vrev (f : VFields) : Statement (.vrev f) :=
  vec_ok (op := 0x72) (by decide) rfl rfl (fun w h0 h1 _ => by simp [decodeVec, decodeVConv, h0, h1])
theorem vzip (f : VFields) : Statement (.vzip f) :=
  vec_ok (op := 0x73) (by decide) rfl rfl (fun w h0 h1 _ => by simp [decodeVec, decodeVConv, h0, h1])
theorem vunzip (f : VFields) : Statement (.vunzip f) :=
  vec_ok (op := 0x74) (by decide) rfl rfl (fun w h0 h1 _ => by simp [decodeVec, decodeVConv, h0, h1])
theorem vredsum (f : VFields) : Statement (.vredsum f) :=
  vec_ok (op := 0x75) (by decide) rfl rfl (fun w h0 h1 _ => by simp [decodeVec, decodeVConv, h0, h1])
theorem vfredsum (f : VFields) : Statement (.vfredsum f) :=
  vec_ok (op := 0x76) (by decide) rfl rfl (fun w h0 h1 _ => by simp [decodeVec, decodeVConv, h0, h1])
theorem vredmin (f : VFields) : Statement (.vredmin f) :=
  vec_ok (op := 0x77) (by decide) rfl rfl (fun w h0 h1 _ => by simp [decodeVec, decodeVConv, h0, h1])
theorem vredmax (f : VFields) : Statement (.vredmax f) :=
  vec_ok (op := 0x78) (by decide) rfl rfl (fun w h0 h1 _ => by simp [decodeVec, decodeVConv, h0, h1])
theorem vpopc (f : VFields) : Statement (.vpopc f) :=
  vec_ok (op := 0x79) (by decide) rfl rfl (fun w h0 h1 _ => by simp [decodeVec, decodeVConv, h0, h1])
theorem vfirst (f : VFields) : Statement (.vfirst f) :=
  vec_ok (op := 0x7A) (by decide) rfl rfl (fun w h0 h1 _ => by simp [decodeVec, decodeVConv, h0, h1])
theorem vpand (f : VFields) : Statement (.vpand f) :=
  vec_ok (op := 0x7B) (by decide) rfl rfl (fun w h0 h1 _ => by simp [decodeVec, decodeVConv, h0, h1])
theorem vpor (f : VFields) : Statement (.vpor f) :=
  vec_ok (op := 0x7C) (by decide) rfl rfl (fun w h0 h1 _ => by simp [decodeVec, decodeVConv, h0, h1])
theorem vpxor (f : VFields) : Statement (.vpxor f) :=
  vec_ok (op := 0x7D) (by decide) rfl rfl (fun w h0 h1 _ => by simp [decodeVec, decodeVConv, h0, h1])
theorem vpnot (f : VFields) : Statement (.vpnot f) :=
  vec_ok (op := 0x7E) (by decide) rfl rfl (fun w h0 h1 _ => by simp [decodeVec, decodeVConv, h0, h1])
theorem vpset (f : VFields) : Statement (.vpset f) :=
  vec_ok (op := 0x7F) (by decide) rfl rfl (fun w h0 h1 _ => by simp [decodeVec, decodeVConv, h0, h1])
theorem mld (f : VFields) : Statement (.mld f) :=
  vec_ok (op := 0x80) (by decide) rfl rfl (fun w h0 h1 _ => by simp [decodeVec, decodeVMatrix, h0, h1])
theorem mswap (f : VFields) : Statement (.mswap f) :=
  vec_ok (op := 0x81) (by decide) rfl rfl (fun w h0 h1 _ => by simp [decodeVec, decodeVMatrix, h0, h1])
theorem mxrO (f : VFields) : Statement (.mxrO f) :=
  vec_ok (op := 0x82) (by decide) rfl rfl (fun w h0 h1 _ => by simp [decodeVec, decodeVMatrix, h0, h1])
theorem mxrF (f : VFields) : Statement (.mxrF f) :=
  vec_ok (op := 0x83) (by decide) rfl rfl (fun w h0 h1 _ => by simp [decodeVec, decodeVMatrix, h0, h1])
theorem mstat (f : VFields) : Statement (.mstat f) :=
  vec_ok (op := 0x84) (by decide) rfl rfl (fun w h0 h1 _ => by simp [decodeVec, decodeVMatrix, h0, h1])
theorem vsort (f : VFields) : Statement (.vsort f) :=
  vec_ok (op := 0x90) (by decide) rfl rfl (fun w h0 h1 _ => by simp [decodeVec, decodeVSort, h0, h1])
theorem vsortk (f : VFields) : Statement (.vsortk f) :=
  vec_ok (op := 0x91) (by decide) rfl rfl (fun w h0 h1 _ => by simp [decodeVec, decodeVSort, h0, h1])
theorem vmrg (f : VFields) : Statement (.vmrg f) :=
  vec_ok (op := 0x92) (by decide) rfl rfl (fun w h0 h1 _ => by simp [decodeVec, decodeVSort, h0, h1])
theorem vsegred (f : VFields) : Statement (.vsegred f) :=
  vec_ok (op := 0x93) (by decide) rfl rfl (fun w h0 h1 _ => by simp [decodeVec, decodeVSort, h0, h1])
theorem vuniq (f : VFields) : Statement (.vuniq f) :=
  vec_ok (op := 0x94) (by decide) rfl rfl (fun w h0 h1 _ => by simp [decodeVec, decodeVSort, h0, h1])
theorem vtag (f : VFields) : Statement (.vtag f) :=
  vec_ok (op := 0x95) (by decide) rfl rfl (fun w h0 h1 _ => by simp [decodeVec, decodeVSort, h0, h1])
theorem vsplit (f : VFields) : Statement (.vsplit f) :=
  vec_ok (op := 0x96) (by decide) rfl rfl (fun w h0 h1 _ => by simp [decodeVec, decodeVSort, h0, h1])
theorem vsrch (f : VFields) : Statement (.vsrch f) :=
  vec_ok (op := 0x97) (by decide) rfl rfl (fun w h0 h1 _ => by simp [decodeVec, decodeVSort, h0, h1])
theorem engineCompletion (ag : Agent) (tl : Fin 8) (num : Nat) (peer : PeerAnswer) : Statement (.engineCompletion ag tl num peer) :=
  event_ok rfl rfl
theorem streamResume (ct : CtId) (n : Fin 4) : Statement (.streamResume ct n) := event_ok rfl rfl
theorem hwPublish (ct : CtId) (tail : Nat) : Statement (.hwPublish ct tail) := event_ok rfl rfl
theorem trailAppendResume (ct : CtId) : Statement (.trailAppendResume ct) := event_ok rfl rfl
theorem compaction (trail : CtId) : Statement (.compaction trail) := event_ok rfl rfl
theorem notificationArrival (ct : CtId) (tl : Fin 8) (src : NotifySrc) : Statement (.notificationArrival ct tl src) :=
  event_ok rfl rfl
theorem userEvent (ct : CtId) : Statement (.userEvent ct) := event_ok rfl rfl
theorem vectorAsync (ct : CtId) : Statement (.vectorAsync ct) := event_ok rfl rfl
theorem uncorrectableConsumed (ag : Agent) (loc : ErrLoc) : Statement (.uncorrectableConsumed ag loc) :=
  event_ok rfl rfl
theorem selfTestComplete (core : Fin 32) (unit : TestUnit) (passed retest : Bool) : Statement (.selfTestComplete core unit passed retest) :=
  event_ok rfl rfl
theorem watchdog (q : Nat) : Statement (.watchdog q) := event_ok rfl rfl
theorem preemption (ct : CtId) : Statement (.preemption ct) := event_ok rfl rfl
theorem contextRestore (ct : CtId) (readsBack : Bool) : Statement (.contextRestore ct readsBack) := event_ok rfl rfl
theorem sqDoorbell (q : Nat) (tail : BitVec 16) : Statement (.sqDoorbell q tail) := event_ok rfl rfl
theorem recordAccept (q : Nat) (r : LaunchRec) (cont : List Byte) : Statement (.recordAccept q r cont) :=
  event_ok rfl rfl
theorem cqHeadWrite (q : Nat) (head : BitVec 16) : Statement (.cqHeadWrite q head) := event_ok rfl rfl
theorem queueEnable (q : Nat) (word : W64) : Statement (.queueEnable q word) := event_ok rfl rfl
theorem phseq (q : Nat) (hseq : W64) : Statement (.phseq q hseq) := event_ok rfl rfl
theorem launchHead (q : Nat) : Statement (.launchHead q) := event_ok rfl rfl
theorem stagingComplete (q : Nat) : Statement (.stagingComplete q) := event_ok rfl rfl
theorem launchBind (q : Nat) : Statement (.launchBind q) := event_ok rfl rfl
theorem launchComplete (id : Nat) : Statement (.launchComplete id) := event_ok rfl rfl
theorem childBind (id : Nat) : Statement (.childBind id) := event_ok rfl rfl
theorem meridianPeriod : Statement .meridianPeriod := event_ok rfl rfl
theorem coreMove (core : Fin 32) : Statement (.coreMove core) := event_ok rfl rfl
theorem thermalSelfRefresh (stack : Fin 8) : Statement (.thermalSelfRefresh stack) := event_ok rfl rfl
theorem thermalHold (die : Fin 4) : Statement (.thermalHold die) := event_ok rfl rfl
theorem selfRefreshExit (stack : Fin 8) : Statement (.selfRefreshExit stack) := event_ok rfl rfl
theorem rowActivationThreshold (die : Fin 4) (row : Nat) : Statement (.rowActivationThreshold die row) :=
  event_ok rfl rfl
theorem powerCapPeriod (die : Fin 4) (temp power : Nat) : Statement (.powerCapPeriod die temp power) :=
  event_ok rfl rfl
theorem afterglowDump (die : Fin 4) (cause : BitVec 8) : Statement (.afterglowDump die cause) := event_ok rfl rfl
theorem coldReset (fw : Vector Firmware 4) : Statement (.coldReset fw) := event_ok rfl rfl
theorem warmReset (fw : Vector Firmware 4) (r : Restore) : Statement (.warmReset fw r) :=
  event_ok rfl rfl
theorem attestationRequest (die : Fin 4) (nonce : BitVec 256) : Statement (.attestationRequest die nonce) :=
  event_ok rfl rfl
theorem functionLevelReset (fn : Nat) : Statement (.functionLevelReset fn) := event_ok rfl rfl
theorem partitionCreate (num : Fin 32) (fn : Nat) (cores : BitVec 32) (desc : W64) : Statement (.partitionCreate num fn cores desc) :=
  event_ok rfl rfl
theorem apertureWrite (window off : Nat) (bytes : List Byte) : Statement (.apertureWrite window off bytes) :=
  event_ok rfl rfl
theorem runTableHostWrite (fn handle : Nat) : Statement (.runTableHostWrite fn handle) := event_ok rfl rfl
theorem poolTimeout (frame : Nat) : Statement (.poolTimeout frame) := event_ok rfl rfl
theorem lumenFlit (port : Fin 16) (vc : BitVec 2) (seq : BitVec 12) (cargo : Cargo) : Statement (.lumenFlit port vc seq cargo) :=
  event_ok rfl rfl
theorem lumenTimeout (at_ : Stuck) (chan : Fin 8) (num : Nat) : Statement (.lumenTimeout at_ chan num) := event_ok rfl rfl
theorem checkedModeWrite (part : Fin 32) (chk : Bool) : Statement (.checkedModeWrite part chk) := event_ok rfl rfl
theorem registerWrite (addr value : W64) : Statement (.registerWrite addr value) := event_ok rfl rfl
theorem wfeWake (ag : Agent) : Statement (.wfeWake ag) := event_ok rfl rfl
theorem migrationRefused (ag : Agent) (tl : Fin 8) (num : Nat) : Statement (.migrationRefused ag tl num) :=
  event_ok rfl rfl
theorem lumenLinkDown (port : Fin 16) : Statement (.lumenLinkDown port) := event_ok rfl rfl
theorem fusedMinimumRaise (die : Fin 4) : Statement (.fusedMinimumRaise die) := event_ok rfl rfl
theorem measurementExtend (die : Fin 4) (digest : BitVec 256) : Statement (.measurementExtend die digest) :=
  event_ok rfl rfl

end Sys2Proof.Laws.RoundTrip
end

