-- ==== Sys2Proof/Laws/State.lean ====
section
/-! SUPPORT. Reading a field after an update: one lemma for each field and each named update of `State` and of a control
thread, so that no later proof unfolds a record update. -/

namespace Sys2Proof.Machine

open Sys2Proof

/-- Reading a vector at a `Fin`. -/
theorem vget {α : Type} {n : Nat} (v : Vector α n) (i : Fin n) : v.get i = v[i.val] := rfl

/-! ### Updates of the package -/

@[simp] theorem State.setCt_cur (s : State) (ag : Agent) (c : CT) : (s.setCt ag c).cur = s.cur := rfl
@[simp] theorem State.setCt_cores (s : State) (ag : Agent) (c : CT) : (s.setCt ag c).cores = s.cores := rfl
@[simp] theorem State.setCt_dies (s : State) (ag : Agent) (c : CT) : (s.setCt ag c).dies = s.dies := rfl
@[simp] theorem State.setCt_parts (s : State) (ag : Agent) (c : CT) : (s.setCt ag c).parts = s.parts := rfl
@[simp] theorem State.setCt_runs (s : State) (ag : Agent) (c : CT) : (s.setCt ag c).runs = s.runs := rfl
@[simp] theorem State.setCt_frames (s : State) (ag : Agent) (c : CT) : (s.setCt ag c).frames = s.frames := rfl
@[simp] theorem State.setCt_pool (s : State) (ag : Agent) (c : CT) : (s.setCt ag c).pool = s.pool := rfl
@[simp] theorem State.setCt_poolBase (s : State) (ag : Agent) (c : CT) : (s.setCt ag c).poolBase = s.poolBase := rfl
@[simp] theorem State.setCt_poolSize (s : State) (ag : Agent) (c : CT) : (s.setCt ag c).poolSize = s.poolSize := rfl
@[simp] theorem State.setCt_windows (s : State) (ag : Agent) (c : CT) : (s.setCt ag c).windows = s.windows := rfl
@[simp] theorem State.setCt_newSkew (s : State) (ag : Agent) (c : CT) : (s.setCt ag c).newSkew = s.newSkew := rfl
@[simp] theorem State.setCt_poison (s : State) (ag : Agent) (c : CT) : (s.setCt ag c).poison = s.poison := rfl
@[simp] theorem State.setCt_poolBad (s : State) (ag : Agent) (c : CT) : (s.setCt ag c).poolBad = s.poolBad := rfl
@[simp] theorem State.setCt_homeStuck (s : State) (ag : Agent) (c : CT) : (s.setCt ag c).homeStuck = s.homeStuck := rfl
@[simp] theorem State.setCt_stuck (s : State) (ag : Agent) (c : CT) : (s.setCt ag c).stuck = s.stuck := rfl
@[simp] theorem State.setCt_flips (s : State) (ag : Agent) (c : CT) : (s.setCt ag c).flips = s.flips := rfl
@[simp] theorem State.setCt_queues (s : State) (ag : Agent) (c : CT) : (s.setCt ag c).queues = s.queues := rfl
@[simp] theorem State.setCt_launches (s : State) (ag : Agent) (c : CT) : (s.setCt ag c).launches = s.launches := rfl
@[simp] theorem State.setCt_nextLaunch (s : State) (ag : Agent) (c : CT) : (s.setCt ag c).nextLaunch = s.nextLaunch := rfl
@[simp] theorem State.setCt_counters (s : State) (ag : Agent) (c : CT) : (s.setCt ag c).counters = s.counters := rfl
@[simp] theorem State.setCt_images (s : State) (ag : Agent) (c : CT) : (s.setCt ag c).images = s.images := rfl
@[simp] theorem State.setCt_saved (s : State) (ag : Agent) (c : CT) : (s.setCt ag c).saved = s.saved := rfl
@[simp] theorem State.setCt_notices (s : State) (ag : Agent) (c : CT) : (s.setCt ag c).notices = s.notices := rfl
@[simp] theorem State.setCt_routes (s : State) (ag : Agent) (c : CT) : (s.setCt ag c).routes = s.routes := rfl
@[simp] theorem State.setCt_links (s : State) (ag : Agent) (c : CT) : (s.setCt ag c).links = s.links := rfl
@[simp] theorem State.setCt_device (s : State) (ag : Agent) (c : CT) : (s.setCt ag c).device = s.device := rfl
@[simp] theorem State.setCt_sched (s : State) (ag : Agent) (c : CT) : (s.setCt ag c).sched = s.sched := rfl
@[simp] theorem State.setCt_fresh (s : State) (ag : Agent) (c : CT) : (s.setCt ag c).fresh = s.fresh := rfl

@[simp] theorem State.updCt_cur (s : State) (ag : Agent) (f : CT → CT) : (s.updCt ag f).cur = s.cur := rfl
@[simp] theorem State.updCt_cores (s : State) (ag : Agent) (f : CT → CT) : (s.updCt ag f).cores = s.cores := rfl
@[simp] theorem State.updCt_dies (s : State) (ag : Agent) (f : CT → CT) : (s.updCt ag f).dies = s.dies := rfl
@[simp] theorem State.updCt_parts (s : State) (ag : Agent) (f : CT → CT) : (s.updCt ag f).parts = s.parts := rfl
@[simp] theorem State.updCt_runs (s : State) (ag : Agent) (f : CT → CT) : (s.updCt ag f).runs = s.runs := rfl
@[simp] theorem State.updCt_frames (s : State) (ag : Agent) (f : CT → CT) : (s.updCt ag f).frames = s.frames := rfl
@[simp] theorem State.updCt_pool (s : State) (ag : Agent) (f : CT → CT) : (s.updCt ag f).pool = s.pool := rfl
@[simp] theorem State.updCt_poolBase (s : State) (ag : Agent) (f : CT → CT) : (s.updCt ag f).poolBase = s.poolBase := rfl
@[simp] theorem State.updCt_poolSize (s : State) (ag : Agent) (f : CT → CT) : (s.updCt ag f).poolSize = s.poolSize := rfl
@[simp] theorem State.updCt_windows (s : State) (ag : Agent) (f : CT → CT) : (s.updCt ag f).windows = s.windows := rfl
@[simp] theorem State.updCt_newSkew (s : State) (ag : Agent) (f : CT → CT) : (s.updCt ag f).newSkew = s.newSkew := rfl
@[simp] theorem State.updCt_poison (s : State) (ag : Agent) (f : CT → CT) : (s.updCt ag f).poison = s.poison := rfl
@[simp] theorem State.updCt_poolBad (s : State) (ag : Agent) (f : CT → CT) : (s.updCt ag f).poolBad = s.poolBad := rfl
@[simp] theorem State.updCt_homeStuck (s : State) (ag : Agent) (f : CT → CT) : (s.updCt ag f).homeStuck = s.homeStuck := rfl
@[simp] theorem State.updCt_stuck (s : State) (ag : Agent) (f : CT → CT) : (s.updCt ag f).stuck = s.stuck := rfl
@[simp] theorem State.updCt_flips (s : State) (ag : Agent) (f : CT → CT) : (s.updCt ag f).flips = s.flips := rfl
@[simp] theorem State.updCt_queues (s : State) (ag : Agent) (f : CT → CT) : (s.updCt ag f).queues = s.queues := rfl
@[simp] theorem State.updCt_launches (s : State) (ag : Agent) (f : CT → CT) : (s.updCt ag f).launches = s.launches := rfl
@[simp] theorem State.updCt_nextLaunch (s : State) (ag : Agent) (f : CT → CT) : (s.updCt ag f).nextLaunch = s.nextLaunch := rfl
@[simp] theorem State.updCt_counters (s : State) (ag : Agent) (f : CT → CT) : (s.updCt ag f).counters = s.counters := rfl
@[simp] theorem State.updCt_images (s : State) (ag : Agent) (f : CT → CT) : (s.updCt ag f).images = s.images := rfl
@[simp] theorem State.updCt_saved (s : State) (ag : Agent) (f : CT → CT) : (s.updCt ag f).saved = s.saved := rfl
@[simp] theorem State.updCt_notices (s : State) (ag : Agent) (f : CT → CT) : (s.updCt ag f).notices = s.notices := rfl
@[simp] theorem State.updCt_routes (s : State) (ag : Agent) (f : CT → CT) : (s.updCt ag f).routes = s.routes := rfl
@[simp] theorem State.updCt_links (s : State) (ag : Agent) (f : CT → CT) : (s.updCt ag f).links = s.links := rfl
@[simp] theorem State.updCt_device (s : State) (ag : Agent) (f : CT → CT) : (s.updCt ag f).device = s.device := rfl
@[simp] theorem State.updCt_sched (s : State) (ag : Agent) (f : CT → CT) : (s.updCt ag f).sched = s.sched := rfl
@[simp] theorem State.updCt_fresh (s : State) (ag : Agent) (f : CT → CT) : (s.updCt ag f).fresh = s.fresh := rfl

@[simp] theorem State.upd_cur (s : State) (f : CT → CT) : (s.upd f).cur = s.cur := rfl
@[simp] theorem State.upd_cores (s : State) (f : CT → CT) : (s.upd f).cores = s.cores := rfl
@[simp] theorem State.upd_dies (s : State) (f : CT → CT) : (s.upd f).dies = s.dies := rfl
@[simp] theorem State.upd_parts (s : State) (f : CT → CT) : (s.upd f).parts = s.parts := rfl
@[simp] theorem State.upd_runs (s : State) (f : CT → CT) : (s.upd f).runs = s.runs := rfl
@[simp] theorem State.upd_frames (s : State) (f : CT → CT) : (s.upd f).frames = s.frames := rfl
@[simp] theorem State.upd_pool (s : State) (f : CT → CT) : (s.upd f).pool = s.pool := rfl
@[simp] theorem State.upd_poolBase (s : State) (f : CT → CT) : (s.upd f).poolBase = s.poolBase := rfl
@[simp] theorem State.upd_poolSize (s : State) (f : CT → CT) : (s.upd f).poolSize = s.poolSize := rfl
@[simp] theorem State.upd_windows (s : State) (f : CT → CT) : (s.upd f).windows = s.windows := rfl
@[simp] theorem State.upd_newSkew (s : State) (f : CT → CT) : (s.upd f).newSkew = s.newSkew := rfl
@[simp] theorem State.upd_poison (s : State) (f : CT → CT) : (s.upd f).poison = s.poison := rfl
@[simp] theorem State.upd_poolBad (s : State) (f : CT → CT) : (s.upd f).poolBad = s.poolBad := rfl
@[simp] theorem State.upd_homeStuck (s : State) (f : CT → CT) : (s.upd f).homeStuck = s.homeStuck := rfl
@[simp] theorem State.upd_stuck (s : State) (f : CT → CT) : (s.upd f).stuck = s.stuck := rfl
@[simp] theorem State.upd_flips (s : State) (f : CT → CT) : (s.upd f).flips = s.flips := rfl
@[simp] theorem State.upd_queues (s : State) (f : CT → CT) : (s.upd f).queues = s.queues := rfl
@[simp] theorem State.upd_launches (s : State) (f : CT → CT) : (s.upd f).launches = s.launches := rfl
@[simp] theorem State.upd_nextLaunch (s : State) (f : CT → CT) : (s.upd f).nextLaunch = s.nextLaunch := rfl
@[simp] theorem State.upd_counters (s : State) (f : CT → CT) : (s.upd f).counters = s.counters := rfl
@[simp] theorem State.upd_images (s : State) (f : CT → CT) : (s.upd f).images = s.images := rfl
@[simp] theorem State.upd_saved (s : State) (f : CT → CT) : (s.upd f).saved = s.saved := rfl
@[simp] theorem State.upd_notices (s : State) (f : CT → CT) : (s.upd f).notices = s.notices := rfl
@[simp] theorem State.upd_routes (s : State) (f : CT → CT) : (s.upd f).routes = s.routes := rfl
@[simp] theorem State.upd_links (s : State) (f : CT → CT) : (s.upd f).links = s.links := rfl
@[simp] theorem State.upd_device (s : State) (f : CT → CT) : (s.upd f).device = s.device := rfl
@[simp] theorem State.upd_sched (s : State) (f : CT → CT) : (s.upd f).sched = s.sched := rfl
@[simp] theorem State.upd_fresh (s : State) (f : CT → CT) : (s.upd f).fresh = s.fresh := rfl

@[simp] theorem State.updCore_cts (s : State) (k : Fin 32) (f : Core → Core) : (s.updCore k f).cts = s.cts := rfl
@[simp] theorem State.updCore_cur (s : State) (k : Fin 32) (f : Core → Core) : (s.updCore k f).cur = s.cur := rfl
@[simp] theorem State.updCore_dies (s : State) (k : Fin 32) (f : Core → Core) : (s.updCore k f).dies = s.dies := rfl
@[simp] theorem State.updCore_parts (s : State) (k : Fin 32) (f : Core → Core) : (s.updCore k f).parts = s.parts := rfl
@[simp] theorem State.updCore_runs (s : State) (k : Fin 32) (f : Core → Core) : (s.updCore k f).runs = s.runs := rfl
@[simp] theorem State.updCore_frames (s : State) (k : Fin 32) (f : Core → Core) : (s.updCore k f).frames = s.frames := rfl
@[simp] theorem State.updCore_pool (s : State) (k : Fin 32) (f : Core → Core) : (s.updCore k f).pool = s.pool := rfl
@[simp] theorem State.updCore_poolBase (s : State) (k : Fin 32) (f : Core → Core) : (s.updCore k f).poolBase = s.poolBase := rfl
@[simp] theorem State.updCore_poolSize (s : State) (k : Fin 32) (f : Core → Core) : (s.updCore k f).poolSize = s.poolSize := rfl
@[simp] theorem State.updCore_windows (s : State) (k : Fin 32) (f : Core → Core) : (s.updCore k f).windows = s.windows := rfl
@[simp] theorem State.updCore_newSkew (s : State) (k : Fin 32) (f : Core → Core) : (s.updCore k f).newSkew = s.newSkew := rfl
@[simp] theorem State.updCore_poison (s : State) (k : Fin 32) (f : Core → Core) : (s.updCore k f).poison = s.poison := rfl
@[simp] theorem State.updCore_poolBad (s : State) (k : Fin 32) (f : Core → Core) : (s.updCore k f).poolBad = s.poolBad := rfl
@[simp] theorem State.updCore_homeStuck (s : State) (k : Fin 32) (f : Core → Core) : (s.updCore k f).homeStuck = s.homeStuck := rfl
@[simp] theorem State.updCore_stuck (s : State) (k : Fin 32) (f : Core → Core) : (s.updCore k f).stuck = s.stuck := rfl
@[simp] theorem State.updCore_flips (s : State) (k : Fin 32) (f : Core → Core) : (s.updCore k f).flips = s.flips := rfl
@[simp] theorem State.updCore_queues (s : State) (k : Fin 32) (f : Core → Core) : (s.updCore k f).queues = s.queues := rfl
@[simp] theorem State.updCore_launches (s : State) (k : Fin 32) (f : Core → Core) : (s.updCore k f).launches = s.launches := rfl
@[simp] theorem State.updCore_nextLaunch (s : State) (k : Fin 32) (f : Core → Core) : (s.updCore k f).nextLaunch = s.nextLaunch := rfl
@[simp] theorem State.updCore_counters (s : State) (k : Fin 32) (f : Core → Core) : (s.updCore k f).counters = s.counters := rfl
@[simp] theorem State.updCore_images (s : State) (k : Fin 32) (f : Core → Core) : (s.updCore k f).images = s.images := rfl
@[simp] theorem State.updCore_saved (s : State) (k : Fin 32) (f : Core → Core) : (s.updCore k f).saved = s.saved := rfl
@[simp] theorem State.updCore_notices (s : State) (k : Fin 32) (f : Core → Core) : (s.updCore k f).notices = s.notices := rfl
@[simp] theorem State.updCore_routes (s : State) (k : Fin 32) (f : Core → Core) : (s.updCore k f).routes = s.routes := rfl
@[simp] theorem State.updCore_links (s : State) (k : Fin 32) (f : Core → Core) : (s.updCore k f).links = s.links := rfl
@[simp] theorem State.updCore_device (s : State) (k : Fin 32) (f : Core → Core) : (s.updCore k f).device = s.device := rfl
@[simp] theorem State.updCore_sched (s : State) (k : Fin 32) (f : Core → Core) : (s.updCore k f).sched = s.sched := rfl
@[simp] theorem State.updCore_fresh (s : State) (k : Fin 32) (f : Core → Core) : (s.updCore k f).fresh = s.fresh := rfl

@[simp] theorem State.updDie_cts (s : State) (k : Fin 4) (f : Die → Die) : (s.updDie k f).cts = s.cts := rfl
@[simp] theorem State.updDie_cur (s : State) (k : Fin 4) (f : Die → Die) : (s.updDie k f).cur = s.cur := rfl
@[simp] theorem State.updDie_cores (s : State) (k : Fin 4) (f : Die → Die) : (s.updDie k f).cores = s.cores := rfl
@[simp] theorem State.updDie_parts (s : State) (k : Fin 4) (f : Die → Die) : (s.updDie k f).parts = s.parts := rfl
@[simp] theorem State.updDie_runs (s : State) (k : Fin 4) (f : Die → Die) : (s.updDie k f).runs = s.runs := rfl
@[simp] theorem State.updDie_frames (s : State) (k : Fin 4) (f : Die → Die) : (s.updDie k f).frames = s.frames := rfl
@[simp] theorem State.updDie_pool (s : State) (k : Fin 4) (f : Die → Die) : (s.updDie k f).pool = s.pool := rfl
@[simp] theorem State.updDie_poolBase (s : State) (k : Fin 4) (f : Die → Die) : (s.updDie k f).poolBase = s.poolBase := rfl
@[simp] theorem State.updDie_poolSize (s : State) (k : Fin 4) (f : Die → Die) : (s.updDie k f).poolSize = s.poolSize := rfl
@[simp] theorem State.updDie_windows (s : State) (k : Fin 4) (f : Die → Die) : (s.updDie k f).windows = s.windows := rfl
@[simp] theorem State.updDie_newSkew (s : State) (k : Fin 4) (f : Die → Die) : (s.updDie k f).newSkew = s.newSkew := rfl
@[simp] theorem State.updDie_poison (s : State) (k : Fin 4) (f : Die → Die) : (s.updDie k f).poison = s.poison := rfl
@[simp] theorem State.updDie_poolBad (s : State) (k : Fin 4) (f : Die → Die) : (s.updDie k f).poolBad = s.poolBad := rfl
@[simp] theorem State.updDie_homeStuck (s : State) (k : Fin 4) (f : Die → Die) : (s.updDie k f).homeStuck = s.homeStuck := rfl
@[simp] theorem State.updDie_stuck (s : State) (k : Fin 4) (f : Die → Die) : (s.updDie k f).stuck = s.stuck := rfl
@[simp] theorem State.updDie_flips (s : State) (k : Fin 4) (f : Die → Die) : (s.updDie k f).flips = s.flips := rfl
@[simp] theorem State.updDie_queues (s : State) (k : Fin 4) (f : Die → Die) : (s.updDie k f).queues = s.queues := rfl
@[simp] theorem State.updDie_launches (s : State) (k : Fin 4) (f : Die → Die) : (s.updDie k f).launches = s.launches := rfl
@[simp] theorem State.updDie_nextLaunch (s : State) (k : Fin 4) (f : Die → Die) : (s.updDie k f).nextLaunch = s.nextLaunch := rfl
@[simp] theorem State.updDie_counters (s : State) (k : Fin 4) (f : Die → Die) : (s.updDie k f).counters = s.counters := rfl
@[simp] theorem State.updDie_images (s : State) (k : Fin 4) (f : Die → Die) : (s.updDie k f).images = s.images := rfl
@[simp] theorem State.updDie_saved (s : State) (k : Fin 4) (f : Die → Die) : (s.updDie k f).saved = s.saved := rfl
@[simp] theorem State.updDie_notices (s : State) (k : Fin 4) (f : Die → Die) : (s.updDie k f).notices = s.notices := rfl
@[simp] theorem State.updDie_routes (s : State) (k : Fin 4) (f : Die → Die) : (s.updDie k f).routes = s.routes := rfl
@[simp] theorem State.updDie_links (s : State) (k : Fin 4) (f : Die → Die) : (s.updDie k f).links = s.links := rfl
@[simp] theorem State.updDie_device (s : State) (k : Fin 4) (f : Die → Die) : (s.updDie k f).device = s.device := rfl
@[simp] theorem State.updDie_sched (s : State) (k : Fin 4) (f : Die → Die) : (s.updDie k f).sched = s.sched := rfl
@[simp] theorem State.updDie_fresh (s : State) (k : Fin 4) (f : Die → Die) : (s.updDie k f).fresh = s.fresh := rfl

@[simp] theorem State.updPart_cts (s : State) (k : Fin 32) (f : Partition → Partition) : (s.updPart k f).cts = s.cts := rfl
@[simp] theorem State.updPart_cur (s : State) (k : Fin 32) (f : Partition → Partition) : (s.updPart k f).cur = s.cur := rfl
@[simp] theorem State.updPart_cores (s : State) (k : Fin 32) (f : Partition → Partition) : (s.updPart k f).cores = s.cores := rfl
@[simp] theorem State.updPart_dies (s : State) (k : Fin 32) (f : Partition → Partition) : (s.updPart k f).dies = s.dies := rfl
@[simp] theorem State.updPart_runs (s : State) (k : Fin 32) (f : Partition → Partition) : (s.updPart k f).runs = s.runs := rfl
@[simp] theorem State.updPart_frames (s : State) (k : Fin 32) (f : Partition → Partition) : (s.updPart k f).frames = s.frames := rfl
@[simp] theorem State.updPart_pool (s : State) (k : Fin 32) (f : Partition → Partition) : (s.updPart k f).pool = s.pool := rfl
@[simp] theorem State.updPart_poolBase (s : State) (k : Fin 32) (f : Partition → Partition) : (s.updPart k f).poolBase = s.poolBase := rfl
@[simp] theorem State.updPart_poolSize (s : State) (k : Fin 32) (f : Partition → Partition) : (s.updPart k f).poolSize = s.poolSize := rfl
@[simp] theorem State.updPart_windows (s : State) (k : Fin 32) (f : Partition → Partition) : (s.updPart k f).windows = s.windows := rfl
@[simp] theorem State.updPart_newSkew (s : State) (k : Fin 32) (f : Partition → Partition) : (s.updPart k f).newSkew = s.newSkew := rfl
@[simp] theorem State.updPart_poison (s : State) (k : Fin 32) (f : Partition → Partition) : (s.updPart k f).poison = s.poison := rfl
@[simp] theorem State.updPart_poolBad (s : State) (k : Fin 32) (f : Partition → Partition) : (s.updPart k f).poolBad = s.poolBad := rfl
@[simp] theorem State.updPart_homeStuck (s : State) (k : Fin 32) (f : Partition → Partition) : (s.updPart k f).homeStuck = s.homeStuck := rfl
@[simp] theorem State.updPart_stuck (s : State) (k : Fin 32) (f : Partition → Partition) : (s.updPart k f).stuck = s.stuck := rfl
@[simp] theorem State.updPart_flips (s : State) (k : Fin 32) (f : Partition → Partition) : (s.updPart k f).flips = s.flips := rfl
@[simp] theorem State.updPart_queues (s : State) (k : Fin 32) (f : Partition → Partition) : (s.updPart k f).queues = s.queues := rfl
@[simp] theorem State.updPart_launches (s : State) (k : Fin 32) (f : Partition → Partition) : (s.updPart k f).launches = s.launches := rfl
@[simp] theorem State.updPart_nextLaunch (s : State) (k : Fin 32) (f : Partition → Partition) : (s.updPart k f).nextLaunch = s.nextLaunch := rfl
@[simp] theorem State.updPart_counters (s : State) (k : Fin 32) (f : Partition → Partition) : (s.updPart k f).counters = s.counters := rfl
@[simp] theorem State.updPart_images (s : State) (k : Fin 32) (f : Partition → Partition) : (s.updPart k f).images = s.images := rfl
@[simp] theorem State.updPart_saved (s : State) (k : Fin 32) (f : Partition → Partition) : (s.updPart k f).saved = s.saved := rfl
@[simp] theorem State.updPart_notices (s : State) (k : Fin 32) (f : Partition → Partition) : (s.updPart k f).notices = s.notices := rfl
@[simp] theorem State.updPart_routes (s : State) (k : Fin 32) (f : Partition → Partition) : (s.updPart k f).routes = s.routes := rfl
@[simp] theorem State.updPart_links (s : State) (k : Fin 32) (f : Partition → Partition) : (s.updPart k f).links = s.links := rfl
@[simp] theorem State.updPart_device (s : State) (k : Fin 32) (f : Partition → Partition) : (s.updPart k f).device = s.device := rfl
@[simp] theorem State.updPart_sched (s : State) (k : Fin 32) (f : Partition → Partition) : (s.updPart k f).sched = s.sched := rfl
@[simp] theorem State.updPart_fresh (s : State) (k : Fin 32) (f : Partition → Partition) : (s.updPart k f).fresh = s.fresh := rfl

@[simp] theorem State.updLaunch_cts (s : State) (id : Nat) (f : Launch → Launch) : (s.updLaunch id f).cts = s.cts := rfl
@[simp] theorem State.updLaunch_cur (s : State) (id : Nat) (f : Launch → Launch) : (s.updLaunch id f).cur = s.cur := rfl
@[simp] theorem State.updLaunch_cores (s : State) (id : Nat) (f : Launch → Launch) : (s.updLaunch id f).cores = s.cores := rfl
@[simp] theorem State.updLaunch_dies (s : State) (id : Nat) (f : Launch → Launch) : (s.updLaunch id f).dies = s.dies := rfl
@[simp] theorem State.updLaunch_parts (s : State) (id : Nat) (f : Launch → Launch) : (s.updLaunch id f).parts = s.parts := rfl
@[simp] theorem State.updLaunch_runs (s : State) (id : Nat) (f : Launch → Launch) : (s.updLaunch id f).runs = s.runs := rfl
@[simp] theorem State.updLaunch_frames (s : State) (id : Nat) (f : Launch → Launch) : (s.updLaunch id f).frames = s.frames := rfl
@[simp] theorem State.updLaunch_pool (s : State) (id : Nat) (f : Launch → Launch) : (s.updLaunch id f).pool = s.pool := rfl
@[simp] theorem State.updLaunch_poolBase (s : State) (id : Nat) (f : Launch → Launch) : (s.updLaunch id f).poolBase = s.poolBase := rfl
@[simp] theorem State.updLaunch_poolSize (s : State) (id : Nat) (f : Launch → Launch) : (s.updLaunch id f).poolSize = s.poolSize := rfl
@[simp] theorem State.updLaunch_windows (s : State) (id : Nat) (f : Launch → Launch) : (s.updLaunch id f).windows = s.windows := rfl
@[simp] theorem State.updLaunch_newSkew (s : State) (id : Nat) (f : Launch → Launch) : (s.updLaunch id f).newSkew = s.newSkew := rfl
@[simp] theorem State.updLaunch_poison (s : State) (id : Nat) (f : Launch → Launch) : (s.updLaunch id f).poison = s.poison := rfl
@[simp] theorem State.updLaunch_poolBad (s : State) (id : Nat) (f : Launch → Launch) : (s.updLaunch id f).poolBad = s.poolBad := rfl
@[simp] theorem State.updLaunch_homeStuck (s : State) (id : Nat) (f : Launch → Launch) : (s.updLaunch id f).homeStuck = s.homeStuck := rfl
@[simp] theorem State.updLaunch_stuck (s : State) (id : Nat) (f : Launch → Launch) : (s.updLaunch id f).stuck = s.stuck := rfl
@[simp] theorem State.updLaunch_flips (s : State) (id : Nat) (f : Launch → Launch) : (s.updLaunch id f).flips = s.flips := rfl
@[simp] theorem State.updLaunch_queues (s : State) (id : Nat) (f : Launch → Launch) : (s.updLaunch id f).queues = s.queues := rfl
@[simp] theorem State.updLaunch_nextLaunch (s : State) (id : Nat) (f : Launch → Launch) : (s.updLaunch id f).nextLaunch = s.nextLaunch := rfl
@[simp] theorem State.updLaunch_counters (s : State) (id : Nat) (f : Launch → Launch) : (s.updLaunch id f).counters = s.counters := rfl
@[simp] theorem State.updLaunch_images (s : State) (id : Nat) (f : Launch → Launch) : (s.updLaunch id f).images = s.images := rfl
@[simp] theorem State.updLaunch_saved (s : State) (id : Nat) (f : Launch → Launch) : (s.updLaunch id f).saved = s.saved := rfl
@[simp] theorem State.updLaunch_notices (s : State) (id : Nat) (f : Launch → Launch) : (s.updLaunch id f).notices = s.notices := rfl
@[simp] theorem State.updLaunch_routes (s : State) (id : Nat) (f : Launch → Launch) : (s.updLaunch id f).routes = s.routes := rfl
@[simp] theorem State.updLaunch_links (s : State) (id : Nat) (f : Launch → Launch) : (s.updLaunch id f).links = s.links := rfl
@[simp] theorem State.updLaunch_device (s : State) (id : Nat) (f : Launch → Launch) : (s.updLaunch id f).device = s.device := rfl
@[simp] theorem State.updLaunch_sched (s : State) (id : Nat) (f : Launch → Launch) : (s.updLaunch id f).sched = s.sched := rfl
@[simp] theorem State.updLaunch_fresh (s : State) (id : Nat) (f : Launch → Launch) : (s.updLaunch id f).fresh = s.fresh := rfl

@[simp] theorem State.updQueue_cts (s : State) (q : Nat) (f : Queue → Queue) : (s.updQueue q f).cts = s.cts := rfl
@[simp] theorem State.updQueue_cur (s : State) (q : Nat) (f : Queue → Queue) : (s.updQueue q f).cur = s.cur := rfl
@[simp] theorem State.updQueue_cores (s : State) (q : Nat) (f : Queue → Queue) : (s.updQueue q f).cores = s.cores := rfl
@[simp] theorem State.updQueue_dies (s : State) (q : Nat) (f : Queue → Queue) : (s.updQueue q f).dies = s.dies := rfl
@[simp] theorem State.updQueue_parts (s : State) (q : Nat) (f : Queue → Queue) : (s.updQueue q f).parts = s.parts := rfl
@[simp] theorem State.updQueue_runs (s : State) (q : Nat) (f : Queue → Queue) : (s.updQueue q f).runs = s.runs := rfl
@[simp] theorem State.updQueue_frames (s : State) (q : Nat) (f : Queue → Queue) : (s.updQueue q f).frames = s.frames := rfl
@[simp] theorem State.updQueue_pool (s : State) (q : Nat) (f : Queue → Queue) : (s.updQueue q f).pool = s.pool := rfl
@[simp] theorem State.updQueue_poolBase (s : State) (q : Nat) (f : Queue → Queue) : (s.updQueue q f).poolBase = s.poolBase := rfl
@[simp] theorem State.updQueue_poolSize (s : State) (q : Nat) (f : Queue → Queue) : (s.updQueue q f).poolSize = s.poolSize := rfl
@[simp] theorem State.updQueue_windows (s : State) (q : Nat) (f : Queue → Queue) : (s.updQueue q f).windows = s.windows := rfl
@[simp] theorem State.updQueue_newSkew (s : State) (q : Nat) (f : Queue → Queue) : (s.updQueue q f).newSkew = s.newSkew := rfl
@[simp] theorem State.updQueue_poison (s : State) (q : Nat) (f : Queue → Queue) : (s.updQueue q f).poison = s.poison := rfl
@[simp] theorem State.updQueue_poolBad (s : State) (q : Nat) (f : Queue → Queue) : (s.updQueue q f).poolBad = s.poolBad := rfl
@[simp] theorem State.updQueue_homeStuck (s : State) (q : Nat) (f : Queue → Queue) : (s.updQueue q f).homeStuck = s.homeStuck := rfl
@[simp] theorem State.updQueue_stuck (s : State) (q : Nat) (f : Queue → Queue) : (s.updQueue q f).stuck = s.stuck := rfl
@[simp] theorem State.updQueue_flips (s : State) (q : Nat) (f : Queue → Queue) : (s.updQueue q f).flips = s.flips := rfl
@[simp] theorem State.updQueue_launches (s : State) (q : Nat) (f : Queue → Queue) : (s.updQueue q f).launches = s.launches := rfl
@[simp] theorem State.updQueue_nextLaunch (s : State) (q : Nat) (f : Queue → Queue) : (s.updQueue q f).nextLaunch = s.nextLaunch := rfl
@[simp] theorem State.updQueue_counters (s : State) (q : Nat) (f : Queue → Queue) : (s.updQueue q f).counters = s.counters := rfl
@[simp] theorem State.updQueue_images (s : State) (q : Nat) (f : Queue → Queue) : (s.updQueue q f).images = s.images := rfl
@[simp] theorem State.updQueue_saved (s : State) (q : Nat) (f : Queue → Queue) : (s.updQueue q f).saved = s.saved := rfl
@[simp] theorem State.updQueue_notices (s : State) (q : Nat) (f : Queue → Queue) : (s.updQueue q f).notices = s.notices := rfl
@[simp] theorem State.updQueue_routes (s : State) (q : Nat) (f : Queue → Queue) : (s.updQueue q f).routes = s.routes := rfl
@[simp] theorem State.updQueue_links (s : State) (q : Nat) (f : Queue → Queue) : (s.updQueue q f).links = s.links := rfl
@[simp] theorem State.updQueue_device (s : State) (q : Nat) (f : Queue → Queue) : (s.updQueue q f).device = s.device := rfl
@[simp] theorem State.updQueue_sched (s : State) (q : Nat) (f : Queue → Queue) : (s.updQueue q f).sched = s.sched := rfl
@[simp] theorem State.updQueue_fresh (s : State) (q : Nat) (f : Queue → Queue) : (s.updQueue q f).fresh = s.fresh := rfl

/-! ### The control thread after an update -/

@[simp] theorem State.ct_setCt (s : State) (ag : Agent) (c : CT) : (s.setCt ag c).ct ag = c := by
  simp [State.ct, State.setCt, vget]
theorem State.ct_setCt_ne (s : State) {ag k : Agent} (c : CT) (h : k ≠ ag) : (s.setCt ag c).ct k = s.ct k := by
  have hne : ag.val ≠ k.val := fun e => h (Fin.ext e.symm)
  simp [State.ct, State.setCt, vget, hne]
@[simp] theorem State.ct_updCt (s : State) (ag : Agent) (f : CT → CT) : (s.updCt ag f).ct ag = f (s.ct ag) :=
  State.ct_setCt s ag _
theorem State.ct_updCt_ne (s : State) {ag k : Agent} (f : CT → CT) (h : k ≠ ag) : (s.updCt ag f).ct k = s.ct k :=
  State.ct_setCt_ne s _ h
@[simp] theorem State.me_upd (s : State) (f : CT → CT) : (s.upd f).me = f s.me := State.ct_updCt s s.cur f
theorem State.ct_upd_ne (s : State) {k : Agent} (f : CT → CT) (h : k ≠ s.cur) : (s.upd f).ct k = s.ct k :=
  State.ct_updCt_ne s f h
@[simp] theorem State.setCt_self (s : State) (ag : Agent) : s.setCt ag (s.ct ag) = s := by
  simp [State.setCt, State.ct, vget]
@[simp] theorem State.setCt_setCt (s : State) (ag : Agent) (c d : CT) : (s.setCt ag c).setCt ag d = s.setCt ag d := by
  simp [State.setCt]
@[simp] theorem State.upd_upd (s : State) (f g : CT → CT) : (s.upd f).upd g = s.upd (fun c => g (f c)) := by
  simp [State.upd, State.updCt]
@[simp] theorem State.updCt_updCt (s : State) (ag : Agent) (f g : CT → CT) :
    (s.updCt ag f).updCt ag g = s.updCt ag (fun c => g (f c)) := by
  simp [State.updCt]
theorem State.upd_id (s : State) (f : CT → CT) (h : f s.me = s.me) : s.upd f = s := by
  have h2 : f (s.ct s.cur) = s.ct s.cur := h
  rw [State.upd, State.updCt, h2, State.setCt_self]
theorem State.upd_congr (s : State) (f g : CT → CT) (h : f s.me = g s.me) : s.upd f = s.upd g := by
  have h2 : f (s.ct s.cur) = g (s.ct s.cur) := h
  rw [State.upd, State.upd, State.updCt, State.updCt, h2]

@[simp] theorem State.updCore_ct (s : State) (k : Fin 32) (f : Core → Core) (ag : Agent) : (s.updCore k f).ct ag = s.ct ag := rfl
@[simp] theorem State.updCore_me (s : State) (k : Fin 32) (f : Core → Core) : (s.updCore k f).me = s.me := rfl
@[simp] theorem State.updDie_ct (s : State) (k : Fin 4) (f : Die → Die) (ag : Agent) : (s.updDie k f).ct ag = s.ct ag := rfl
@[simp] theorem State.updDie_me (s : State) (k : Fin 4) (f : Die → Die) : (s.updDie k f).me = s.me := rfl
@[simp] theorem State.updPart_ct (s : State) (k : Fin 32) (f : Partition → Partition) (ag : Agent) : (s.updPart k f).ct ag = s.ct ag := rfl
@[simp] theorem State.updPart_me (s : State) (k : Fin 32) (f : Partition → Partition) : (s.updPart k f).me = s.me := rfl
@[simp] theorem State.updLaunch_ct (s : State) (id : Nat) (f : Launch → Launch) (ag : Agent) : (s.updLaunch id f).ct ag = s.ct ag := rfl
@[simp] theorem State.updLaunch_me (s : State) (id : Nat) (f : Launch → Launch) : (s.updLaunch id f).me = s.me := rfl
@[simp] theorem State.updQueue_ct (s : State) (q : Nat) (f : Queue → Queue) (ag : Agent) : (s.updQueue q f).ct ag = s.ct ag := rfl
@[simp] theorem State.updQueue_me (s : State) (q : Nat) (f : Queue → Queue) : (s.updQueue q f).me = s.me := rfl

/-! ### Updates of a control thread -/

@[simp] theorem CT.setG_gtag (c : CT) (r : GReg) (w : W64) : (c.setG r w).gtag = c.gtag := by unfold CT.setG; split <;> rfl
@[simp] theorem CT.setG_p (c : CT) (r : GReg) (w : W64) : (c.setG r w).p = c.p := by unfold CT.setG; split <;> rfl
@[simp] theorem CT.setG_ptag (c : CT) (r : GReg) (w : W64) : (c.setG r w).ptag = c.ptag := by unfold CT.setG; split <;> rfl
@[simp] theorem CT.setG_v (c : CT) (r : GReg) (w : W64) : (c.setG r w).v = c.v := by unfold CT.setG; split <;> rfl
@[simp] theorem CT.setG_vtag (c : CT) (r : GReg) (w : W64) : (c.setG r w).vtag = c.vtag := by unfold CT.setG; split <;> rfl
@[simp] theorem CT.setG_uBank (c : CT) (r : GReg) (w : W64) : (c.setG r w).uBank = c.uBank := by unfold CT.setG; split <;> rfl
@[simp] theorem CT.setG_sBank (c : CT) (r : GReg) (w : W64) : (c.setG r w).sBank = c.sBank := by unfold CT.setG; split <;> rfl
@[simp] theorem CT.setG_pc (c : CT) (r : GReg) (w : W64) : (c.setG r w).pc = c.pc := by unfold CT.setG; split <;> rfl
@[simp] theorem CT.setG_sup (c : CT) (r : GReg) (w : W64) : (c.setG r w).sup = c.sup := by unfold CT.setG; split <;> rfl
@[simp] theorem CT.setG_inUev (c : CT) (r : GReg) (w : W64) : (c.setG r w).inUev = c.inUev := by unfold CT.setG; split <;> rfl
@[simp] theorem CT.setG_inTrap (c : CT) (r : GReg) (w : W64) : (c.setG r w).inTrap = c.inTrap := by unfold CT.setG; split <;> rfl
@[simp] theorem CT.setG_status (c : CT) (r : GReg) (w : W64) : (c.setG r w).status = c.status := by unfold CT.setG; split <;> rfl
@[simp] theorem CT.setG_wasRun (c : CT) (r : GReg) (w : W64) : (c.setG r w).wasRun = c.wasRun := by unfold CT.setG; split <;> rfl
@[simp] theorem CT.setG_back (c : CT) (r : GReg) (w : W64) : (c.setG r w).back = c.back := by unfold CT.setG; split <;> rfl
@[simp] theorem CT.setG_faulting (c : CT) (r : GReg) (w : W64) : (c.setG r w).faulting = c.faulting := by unfold CT.setG; split <;> rfl
@[simp] theorem CT.setG_late (c : CT) (r : GReg) (w : W64) : (c.setG r w).late = c.late := by unfold CT.setG; split <;> rfl
@[simp] theorem CT.setG_frm (c : CT) (r : GReg) (w : W64) : (c.setG r w).frm = c.frm := by unfold CT.setG; split <;> rfl
@[simp] theorem CT.setG_fflags (c : CT) (r : GReg) (w : W64) : (c.setG r w).fflags = c.fflags := by unfold CT.setG; split <;> rfl
@[simp] theorem CT.setG_vl (c : CT) (r : GReg) (w : W64) : (c.setG r w).vl = c.vl := by unfold CT.setG; split <;> rfl
@[simp] theorem CT.setG_vtype (c : CT) (r : GReg) (w : W64) : (c.setG r w).vtype = c.vtype := by unfold CT.setG; split <;> rfl
@[simp] theorem CT.setG_vstart (c : CT) (r : GReg) (w : W64) : (c.setG r w).vstart = c.vstart := by unfold CT.setG; split <;> rfl
@[simp] theorem CT.setG_spset (c : CT) (r : GReg) (w : W64) : (c.setG r w).spset = c.spset := by unfold CT.setG; split <;> rfl
@[simp] theorem CT.setG_uevec (c : CT) (r : GReg) (w : W64) : (c.setG r w).uevec = c.uevec := by unfold CT.setG; split <;> rfl
@[simp] theorem CT.setG_uecause (c : CT) (r : GReg) (w : W64) : (c.setG r w).uecause = c.uecause := by unfold CT.setG; split <;> rfl
@[simp] theorem CT.setG_kparm (c : CT) (r : GReg) (w : W64) : (c.setG r w).kparm = c.kparm := by unfold CT.setG; split <;> rfl
@[simp] theorem CT.setG_bankwave (c : CT) (r : GReg) (w : W64) : (c.setG r w).bankwave = c.bankwave := by unfold CT.setG; split <;> rfl
@[simp] theorem CT.setG_vlcap (c : CT) (r : GReg) (w : W64) : (c.setG r w).vlcap = c.vlcap := by unfold CT.setG; split <;> rfl
@[simp] theorem CT.setG_ctweight (c : CT) (r : GReg) (w : W64) : (c.setG r w).ctweight = c.ctweight := by unfold CT.setG; split <;> rfl
@[simp] theorem CT.setG_tcause (c : CT) (r : GReg) (w : W64) : (c.setG r w).tcause = c.tcause := by unfold CT.setG; split <;> rfl
@[simp] theorem CT.setG_tval (c : CT) (r : GReg) (w : W64) : (c.setG r w).tval = c.tval := by unfold CT.setG; split <;> rfl
@[simp] theorem CT.setG_tpc (c : CT) (r : GReg) (w : W64) : (c.setG r w).tpc = c.tpc := by unfold CT.setG; split <;> rfl
@[simp] theorem CT.setG_loops (c : CT) (r : GReg) (w : W64) : (c.setG r w).loops = c.loops := by unfold CT.setG; split <;> rfl
@[simp] theorem CT.setG_lift (c : CT) (r : GReg) (w : W64) : (c.setG r w).lift = c.lift := by unfold CT.setG; split <;> rfl
@[simp] theorem CT.setG_strip (c : CT) (r : GReg) (w : W64) : (c.setG r w).strip = c.strip := by unfold CT.setG; split <;> rfl
@[simp] theorem CT.setG_again (c : CT) (r : GReg) (w : W64) : (c.setG r w).again = c.again := by unfold CT.setG; split <;> rfl
@[simp] theorem CT.setG_held (c : CT) (r : GReg) (w : W64) : (c.setG r w).held = c.held := by unfold CT.setG; split <;> rfl
@[simp] theorem CT.setG_loc (c : CT) (r : GReg) (w : W64) : (c.setG r w).loc = c.loc := by unfold CT.setG; split <;> rfl
@[simp] theorem CT.setG_locBad (c : CT) (r : GReg) (w : W64) : (c.setG r w).locBad = c.locBad := by unfold CT.setG; split <;> rfl
@[simp] theorem CT.setG_locStuck (c : CT) (r : GReg) (w : W64) : (c.setG r w).locStuck = c.locStuck := by unfold CT.setG; split <;> rfl
@[simp] theorem CT.setG_regBad (c : CT) (r : GReg) (w : W64) : (c.setG r w).regBad = c.regBad := by unfold CT.setG; split <;> rfl
@[simp] theorem CT.setG_trail (c : CT) (r : GReg) (w : W64) : (c.setG r w).trail = c.trail := by unfold CT.setG; split <;> rfl
@[simp] theorem CT.setG_trailStuck (c : CT) (r : GReg) (w : W64) : (c.setG r w).trailStuck = c.trailStuck := by unfold CT.setG; split <;> rfl
@[simp] theorem CT.setG_view (c : CT) (r : GReg) (w : W64) : (c.setG r w).view = c.view := by unfold CT.setG; split <;> rfl
@[simp] theorem CT.setG_viewStuck (c : CT) (r : GReg) (w : W64) : (c.setG r w).viewStuck = c.viewStuck := by unfold CT.setG; split <;> rfl
@[simp] theorem CT.setG_rp (c : CT) (r : GReg) (w : W64) : (c.setG r w).rp = c.rp := by unfold CT.setG; split <;> rfl
@[simp] theorem CT.setG_out (c : CT) (r : GReg) (w : W64) : (c.setG r w).out = c.out := by unfold CT.setG; split <;> rfl
@[simp] theorem CT.setG_marks (c : CT) (r : GReg) (w : W64) : (c.setG r w).marks = c.marks := by unfold CT.setG; split <;> rfl
@[simp] theorem CT.setG_early (c : CT) (r : GReg) (w : W64) : (c.setG r w).early = c.early := by unfold CT.setG; split <;> rfl
@[simp] theorem CT.setG_acqd (c : CT) (r : GReg) (w : W64) : (c.setG r w).acqd = c.acqd := by unfold CT.setG; split <;> rfl
@[simp] theorem CT.setG_delay (c : CT) (r : GReg) (w : W64) : (c.setG r w).delay = c.delay := by unfold CT.setG; split <;> rfl
@[simp] theorem CT.setG_slow (c : CT) (r : GReg) (w : W64) : (c.setG r w).slow = c.slow := by unfold CT.setG; split <;> rfl
@[simp] theorem CT.setG_owed (c : CT) (r : GReg) (w : W64) : (c.setG r w).owed = c.owed := by unfold CT.setG; split <;> rfl
@[simp] theorem CT.setG_putOff (c : CT) (r : GReg) (w : W64) : (c.setG r w).putOff = c.putOff := by unfold CT.setG; split <;> rfl
@[simp] theorem CT.setG_streams (c : CT) (r : GReg) (w : W64) : (c.setG r w).streams = c.streams := by unfold CT.setG; split <;> rfl
@[simp] theorem CT.setG_tls (c : CT) (r : GReg) (w : W64) : (c.setG r w).tls = c.tls := by unfold CT.setG; split <;> rfl
@[simp] theorem CT.setG_cmds (c : CT) (r : GReg) (w : W64) : (c.setG r w).cmds = c.cmds := by unfold CT.setG; split <;> rfl
@[simp] theorem CT.setG_children (c : CT) (r : GReg) (w : W64) : (c.setG r w).children = c.children := by unfold CT.setG; split <;> rfl
@[simp] theorem CT.setG_vq (c : CT) (r : GReg) (w : W64) : (c.setG r w).vq = c.vq := by unfold CT.setG; split <;> rfl
@[simp] theorem CT.setG_frozen (c : CT) (r : GReg) (w : W64) : (c.setG r w).frozen = c.frozen := by unfold CT.setG; split <;> rfl
@[simp] theorem CT.setG_deficit (c : CT) (r : GReg) (w : W64) : (c.setG r w).deficit = c.deficit := by unfold CT.setG; split <;> rfl
@[simp] theorem CT.setG_passed (c : CT) (r : GReg) (w : W64) : (c.setG r w).passed = c.passed := by unfold CT.setG; split <;> rfl
@[simp] theorem CT.setG_front (c : CT) (r : GReg) (w : W64) : (c.setG r w).front = c.front := by unfold CT.setG; split <;> rfl
@[simp] theorem CT.setG_shadow (c : CT) (r : GReg) (w : W64) : (c.setG r w).shadow = c.shadow := by unfold CT.setG; split <;> rfl
@[simp] theorem CT.setG_planesValid (c : CT) (r : GReg) (w : W64) : (c.setG r w).planesValid = c.planesValid := by unfold CT.setG; split <;> rfl
@[simp] theorem CT.setG_planesSaved (c : CT) (r : GReg) (w : W64) : (c.setG r w).planesSaved = c.planesSaved := by unfold CT.setG; split <;> rfl
@[simp] theorem CT.setG_pushFront (c : CT) (r : GReg) (w : W64) : (c.setG r w).pushFront = c.pushFront := by unfold CT.setG; split <;> rfl
@[simp] theorem CT.setG_pushShadow (c : CT) (r : GReg) (w : W64) : (c.setG r w).pushShadow = c.pushShadow := by unfold CT.setG; split <;> rfl
@[simp] theorem CT.setG_xfer (c : CT) (r : GReg) (w : W64) : (c.setG r w).xfer = c.xfer := by unfold CT.setG; split <;> rfl
@[simp] theorem CT.setG_kernel (c : CT) (r : GReg) (w : W64) : (c.setG r w).kernel = c.kernel := by unfold CT.setG; split <;> rfl
@[simp] theorem CT.setG_launch (c : CT) (r : GReg) (w : W64) : (c.setG r w).launch = c.launch := by unfold CT.setG; split <;> rfl
@[simp] theorem CT.setG_task (c : CT) (r : GReg) (w : W64) : (c.setG r w).task = c.task := by unfold CT.setG; split <;> rfl
@[simp] theorem CT.setG_imageIn (c : CT) (r : GReg) (w : W64) : (c.setG r w).imageIn = c.imageIn := by unfold CT.setG; split <;> rfl
@[simp] theorem CT.setG_col0 (c : CT) (r : GReg) (w : W64) : (c.setG r w).col0 = c.col0 := by unfold CT.setG; split <;> rfl
@[simp] theorem CT.setG_row0 (c : CT) (r : GReg) (w : W64) : (c.setG r w).row0 = c.row0 := by unfold CT.setG; split <;> rfl
@[simp] theorem CT.setG_band (c : CT) (r : GReg) (w : W64) : (c.setG r w).band = c.band := by unfold CT.setG; split <;> rfl
@[simp] theorem CT.setG_chk (c : CT) (r : GReg) (w : W64) : (c.setG r w).chk = c.chk := by unfold CT.setG; split <;> rfl
@[simp] theorem CT.setG_wfe (c : CT) (r : GReg) (w : W64) : (c.setG r w).wfe = c.wfe := by unfold CT.setG; split <;> rfl
@[simp] theorem CT.setG_ranOut (c : CT) (r : GReg) (w : W64) : (c.setG r w).ranOut = c.ranOut := by unfold CT.setG; split <;> rfl
@[simp] theorem CT.setG_barw (c : CT) (r : GReg) (w : W64) : (c.setG r w).barw = c.barw := by unfold CT.setG; split <;> rfl
@[simp] theorem CT.setG_preempt (c : CT) (r : GReg) (w : W64) : (c.setG r w).preempt = c.preempt := by unfold CT.setG; split <;> rfl

@[simp] theorem CT.setGTag_g (c : CT) (r : GReg) (t : Tag) : (c.setGTag r t).g = c.g := by unfold CT.setGTag; split <;> rfl
@[simp] theorem CT.setGTag_p (c : CT) (r : GReg) (t : Tag) : (c.setGTag r t).p = c.p := by unfold CT.setGTag; split <;> rfl
@[simp] theorem CT.setGTag_ptag (c : CT) (r : GReg) (t : Tag) : (c.setGTag r t).ptag = c.ptag := by unfold CT.setGTag; split <;> rfl
@[simp] theorem CT.setGTag_v (c : CT) (r : GReg) (t : Tag) : (c.setGTag r t).v = c.v := by unfold CT.setGTag; split <;> rfl
@[simp] theorem CT.setGTag_vtag (c : CT) (r : GReg) (t : Tag) : (c.setGTag r t).vtag = c.vtag := by unfold CT.setGTag; split <;> rfl
@[simp] theorem CT.setGTag_uBank (c : CT) (r : GReg) (t : Tag) : (c.setGTag r t).uBank = c.uBank := by unfold CT.setGTag; split <;> rfl
@[simp] theorem CT.setGTag_sBank (c : CT) (r : GReg) (t : Tag) : (c.setGTag r t).sBank = c.sBank := by unfold CT.setGTag; split <;> rfl
@[simp] theorem CT.setGTag_pc (c : CT) (r : GReg) (t : Tag) : (c.setGTag r t).pc = c.pc := by unfold CT.setGTag; split <;> rfl
@[simp] theorem CT.setGTag_sup (c : CT) (r : GReg) (t : Tag) : (c.setGTag r t).sup = c.sup := by unfold CT.setGTag; split <;> rfl
@[simp] theorem CT.setGTag_inUev (c : CT) (r : GReg) (t : Tag) : (c.setGTag r t).inUev = c.inUev := by unfold CT.setGTag; split <;> rfl
@[simp] theorem CT.setGTag_inTrap (c : CT) (r : GReg) (t : Tag) : (c.setGTag r t).inTrap = c.inTrap := by unfold CT.setGTag; split <;> rfl
@[simp] theorem CT.setGTag_status (c : CT) (r : GReg) (t : Tag) : (c.setGTag r t).status = c.status := by unfold CT.setGTag; split <;> rfl
@[simp] theorem CT.setGTag_wasRun (c : CT) (r : GReg) (t : Tag) : (c.setGTag r t).wasRun = c.wasRun := by unfold CT.setGTag; split <;> rfl
@[simp] theorem CT.setGTag_back (c : CT) (r : GReg) (t : Tag) : (c.setGTag r t).back = c.back := by unfold CT.setGTag; split <;> rfl
@[simp] theorem CT.setGTag_faulting (c : CT) (r : GReg) (t : Tag) : (c.setGTag r t).faulting = c.faulting := by unfold CT.setGTag; split <;> rfl
@[simp] theorem CT.setGTag_late (c : CT) (r : GReg) (t : Tag) : (c.setGTag r t).late = c.late := by unfold CT.setGTag; split <;> rfl
@[simp] theorem CT.setGTag_frm (c : CT) (r : GReg) (t : Tag) : (c.setGTag r t).frm = c.frm := by unfold CT.setGTag; split <;> rfl
@[simp] theorem CT.setGTag_fflags (c : CT) (r : GReg) (t : Tag) : (c.setGTag r t).fflags = c.fflags := by unfold CT.setGTag; split <;> rfl
@[simp] theorem CT.setGTag_vl (c : CT) (r : GReg) (t : Tag) : (c.setGTag r t).vl = c.vl := by unfold CT.setGTag; split <;> rfl
@[simp] theorem CT.setGTag_vtype (c : CT) (r : GReg) (t : Tag) : (c.setGTag r t).vtype = c.vtype := by unfold CT.setGTag; split <;> rfl
@[simp] theorem CT.setGTag_vstart (c : CT) (r : GReg) (t : Tag) : (c.setGTag r t).vstart = c.vstart := by unfold CT.setGTag; split <;> rfl
@[simp] theorem CT.setGTag_spset (c : CT) (r : GReg) (t : Tag) : (c.setGTag r t).spset = c.spset := by unfold CT.setGTag; split <;> rfl
@[simp] theorem CT.setGTag_uevec (c : CT) (r : GReg) (t : Tag) : (c.setGTag r t).uevec = c.uevec := by unfold CT.setGTag; split <;> rfl
@[simp] theorem CT.setGTag_uecause (c : CT) (r : GReg) (t : Tag) : (c.setGTag r t).uecause = c.uecause := by unfold CT.setGTag; split <;> rfl
@[simp] theorem CT.setGTag_kparm (c : CT) (r : GReg) (t : Tag) : (c.setGTag r t).kparm = c.kparm := by unfold CT.setGTag; split <;> rfl
@[simp] theorem CT.setGTag_bankwave (c : CT) (r : GReg) (t : Tag) : (c.setGTag r t).bankwave = c.bankwave := by unfold CT.setGTag; split <;> rfl
@[simp] theorem CT.setGTag_vlcap (c : CT) (r : GReg) (t : Tag) : (c.setGTag r t).vlcap = c.vlcap := by unfold CT.setGTag; split <;> rfl
@[simp] theorem CT.setGTag_ctweight (c : CT) (r : GReg) (t : Tag) : (c.setGTag r t).ctweight = c.ctweight := by unfold CT.setGTag; split <;> rfl
@[simp] theorem CT.setGTag_tcause (c : CT) (r : GReg) (t : Tag) : (c.setGTag r t).tcause = c.tcause := by unfold CT.setGTag; split <;> rfl
@[simp] theorem CT.setGTag_tval (c : CT) (r : GReg) (t : Tag) : (c.setGTag r t).tval = c.tval := by unfold CT.setGTag; split <;> rfl
@[simp] theorem CT.setGTag_tpc (c : CT) (r : GReg) (t : Tag) : (c.setGTag r t).tpc = c.tpc := by unfold CT.setGTag; split <;> rfl
@[simp] theorem CT.setGTag_loops (c : CT) (r : GReg) (t : Tag) : (c.setGTag r t).loops = c.loops := by unfold CT.setGTag; split <;> rfl
@[simp] theorem CT.setGTag_lift (c : CT) (r : GReg) (t : Tag) : (c.setGTag r t).lift = c.lift := by unfold CT.setGTag; split <;> rfl
@[simp] theorem CT.setGTag_strip (c : CT) (r : GReg) (t : Tag) : (c.setGTag r t).strip = c.strip := by unfold CT.setGTag; split <;> rfl
@[simp] theorem CT.setGTag_again (c : CT) (r : GReg) (t : Tag) : (c.setGTag r t).again = c.again := by unfold CT.setGTag; split <;> rfl
@[simp] theorem CT.setGTag_held (c : CT) (r : GReg) (t : Tag) : (c.setGTag r t).held = c.held := by unfold CT.setGTag; split <;> rfl
@[simp] theorem CT.setGTag_loc (c : CT) (r : GReg) (t : Tag) : (c.setGTag r t).loc = c.loc := by unfold CT.setGTag; split <;> rfl
@[simp] theorem CT.setGTag_locBad (c : CT) (r : GReg) (t : Tag) : (c.setGTag r t).locBad = c.locBad := by unfold CT.setGTag; split <;> rfl
@[simp] theorem CT.setGTag_locStuck (c : CT) (r : GReg) (t : Tag) : (c.setGTag r t).locStuck = c.locStuck := by unfold CT.setGTag; split <;> rfl
@[simp] theorem CT.setGTag_regBad (c : CT) (r : GReg) (t : Tag) : (c.setGTag r t).regBad = c.regBad := by unfold CT.setGTag; split <;> rfl
@[simp] theorem CT.setGTag_trail (c : CT) (r : GReg) (t : Tag) : (c.setGTag r t).trail = c.trail := by unfold CT.setGTag; split <;> rfl
@[simp] theorem CT.setGTag_trailStuck (c : CT) (r : GReg) (t : Tag) : (c.setGTag r t).trailStuck = c.trailStuck := by unfold CT.setGTag; split <;> rfl
@[simp] theorem CT.setGTag_view (c : CT) (r : GReg) (t : Tag) : (c.setGTag r t).view = c.view := by unfold CT.setGTag; split <;> rfl
@[simp] theorem CT.setGTag_viewStuck (c : CT) (r : GReg) (t : Tag) : (c.setGTag r t).viewStuck = c.viewStuck := by unfold CT.setGTag; split <;> rfl
@[simp] theorem CT.setGTag_rp (c : CT) (r : GReg) (t : Tag) : (c.setGTag r t).rp = c.rp := by unfold CT.setGTag; split <;> rfl
@[simp] theorem CT.setGTag_out (c : CT) (r : GReg) (t : Tag) : (c.setGTag r t).out = c.out := by unfold CT.setGTag; split <;> rfl
@[simp] theorem CT.setGTag_marks (c : CT) (r : GReg) (t : Tag) : (c.setGTag r t).marks = c.marks := by unfold CT.setGTag; split <;> rfl
@[simp] theorem CT.setGTag_early (c : CT) (r : GReg) (t : Tag) : (c.setGTag r t).early = c.early := by unfold CT.setGTag; split <;> rfl
@[simp] theorem CT.setGTag_acqd (c : CT) (r : GReg) (t : Tag) : (c.setGTag r t).acqd = c.acqd := by unfold CT.setGTag; split <;> rfl
@[simp] theorem CT.setGTag_delay (c : CT) (r : GReg) (t : Tag) : (c.setGTag r t).delay = c.delay := by unfold CT.setGTag; split <;> rfl
@[simp] theorem CT.setGTag_slow (c : CT) (r : GReg) (t : Tag) : (c.setGTag r t).slow = c.slow := by unfold CT.setGTag; split <;> rfl
@[simp] theorem CT.setGTag_owed (c : CT) (r : GReg) (t : Tag) : (c.setGTag r t).owed = c.owed := by unfold CT.setGTag; split <;> rfl
@[simp] theorem CT.setGTag_putOff (c : CT) (r : GReg) (t : Tag) : (c.setGTag r t).putOff = c.putOff := by unfold CT.setGTag; split <;> rfl
@[simp] theorem CT.setGTag_streams (c : CT) (r : GReg) (t : Tag) : (c.setGTag r t).streams = c.streams := by unfold CT.setGTag; split <;> rfl
@[simp] theorem CT.setGTag_tls (c : CT) (r : GReg) (t : Tag) : (c.setGTag r t).tls = c.tls := by unfold CT.setGTag; split <;> rfl
@[simp] theorem CT.setGTag_cmds (c : CT) (r : GReg) (t : Tag) : (c.setGTag r t).cmds = c.cmds := by unfold CT.setGTag; split <;> rfl
@[simp] theorem CT.setGTag_children (c : CT) (r : GReg) (t : Tag) : (c.setGTag r t).children = c.children := by unfold CT.setGTag; split <;> rfl
@[simp] theorem CT.setGTag_vq (c : CT) (r : GReg) (t : Tag) : (c.setGTag r t).vq = c.vq := by unfold CT.setGTag; split <;> rfl
@[simp] theorem CT.setGTag_frozen (c : CT) (r : GReg) (t : Tag) : (c.setGTag r t).frozen = c.frozen := by unfold CT.setGTag; split <;> rfl
@[simp] theorem CT.setGTag_deficit (c : CT) (r : GReg) (t : Tag) : (c.setGTag r t).deficit = c.deficit := by unfold CT.setGTag; split <;> rfl
@[simp] theorem CT.setGTag_passed (c : CT) (r : GReg) (t : Tag) : (c.setGTag r t).passed = c.passed := by unfold CT.setGTag; split <;> rfl
@[simp] theorem CT.setGTag_front (c : CT) (r : GReg) (t : Tag) : (c.setGTag r t).front = c.front := by unfold CT.setGTag; split <;> rfl
@[simp] theorem CT.setGTag_shadow (c : CT) (r : GReg) (t : Tag) : (c.setGTag r t).shadow = c.shadow := by unfold CT.setGTag; split <;> rfl
@[simp] theorem CT.setGTag_planesValid (c : CT) (r : GReg) (t : Tag) : (c.setGTag r t).planesValid = c.planesValid := by unfold CT.setGTag; split <;> rfl
@[simp] theorem CT.setGTag_planesSaved (c : CT) (r : GReg) (t : Tag) : (c.setGTag r t).planesSaved = c.planesSaved := by unfold CT.setGTag; split <;> rfl
@[simp] theorem CT.setGTag_pushFront (c : CT) (r : GReg) (t : Tag) : (c.setGTag r t).pushFront = c.pushFront := by unfold CT.setGTag; split <;> rfl
@[simp] theorem CT.setGTag_pushShadow (c : CT) (r : GReg) (t : Tag) : (c.setGTag r t).pushShadow = c.pushShadow := by unfold CT.setGTag; split <;> rfl
@[simp] theorem CT.setGTag_xfer (c : CT) (r : GReg) (t : Tag) : (c.setGTag r t).xfer = c.xfer := by unfold CT.setGTag; split <;> rfl
@[simp] theorem CT.setGTag_kernel (c : CT) (r : GReg) (t : Tag) : (c.setGTag r t).kernel = c.kernel := by unfold CT.setGTag; split <;> rfl
@[simp] theorem CT.setGTag_launch (c : CT) (r : GReg) (t : Tag) : (c.setGTag r t).launch = c.launch := by unfold CT.setGTag; split <;> rfl
@[simp] theorem CT.setGTag_task (c : CT) (r : GReg) (t : Tag) : (c.setGTag r t).task = c.task := by unfold CT.setGTag; split <;> rfl
@[simp] theorem CT.setGTag_imageIn (c : CT) (r : GReg) (t : Tag) : (c.setGTag r t).imageIn = c.imageIn := by unfold CT.setGTag; split <;> rfl
@[simp] theorem CT.setGTag_col0 (c : CT) (r : GReg) (t : Tag) : (c.setGTag r t).col0 = c.col0 := by unfold CT.setGTag; split <;> rfl
@[simp] theorem CT.setGTag_row0 (c : CT) (r : GReg) (t : Tag) : (c.setGTag r t).row0 = c.row0 := by unfold CT.setGTag; split <;> rfl
@[simp] theorem CT.setGTag_band (c : CT) (r : GReg) (t : Tag) : (c.setGTag r t).band = c.band := by unfold CT.setGTag; split <;> rfl
@[simp] theorem CT.setGTag_chk (c : CT) (r : GReg) (t : Tag) : (c.setGTag r t).chk = c.chk := by unfold CT.setGTag; split <;> rfl
@[simp] theorem CT.setGTag_wfe (c : CT) (r : GReg) (t : Tag) : (c.setGTag r t).wfe = c.wfe := by unfold CT.setGTag; split <;> rfl
@[simp] theorem CT.setGTag_ranOut (c : CT) (r : GReg) (t : Tag) : (c.setGTag r t).ranOut = c.ranOut := by unfold CT.setGTag; split <;> rfl
@[simp] theorem CT.setGTag_barw (c : CT) (r : GReg) (t : Tag) : (c.setGTag r t).barw = c.barw := by unfold CT.setGTag; split <;> rfl
@[simp] theorem CT.setGTag_preempt (c : CT) (r : GReg) (t : Tag) : (c.setGTag r t).preempt = c.preempt := by unfold CT.setGTag; split <;> rfl

@[simp] theorem CT.setP_g (c : CT) (r : PReg) (w : PBits) : (c.setP r w).g = c.g := by unfold CT.setP; split <;> rfl
@[simp] theorem CT.setP_gtag (c : CT) (r : PReg) (w : PBits) : (c.setP r w).gtag = c.gtag := by unfold CT.setP; split <;> rfl
@[simp] theorem CT.setP_ptag (c : CT) (r : PReg) (w : PBits) : (c.setP r w).ptag = c.ptag := by unfold CT.setP; split <;> rfl
@[simp] theorem CT.setP_v (c : CT) (r : PReg) (w : PBits) : (c.setP r w).v = c.v := by unfold CT.setP; split <;> rfl
@[simp] theorem CT.setP_vtag (c : CT) (r : PReg) (w : PBits) : (c.setP r w).vtag = c.vtag := by unfold CT.setP; split <;> rfl
@[simp] theorem CT.setP_uBank (c : CT) (r : PReg) (w : PBits) : (c.setP r w).uBank = c.uBank := by unfold CT.setP; split <;> rfl
@[simp] theorem CT.setP_sBank (c : CT) (r : PReg) (w : PBits) : (c.setP r w).sBank = c.sBank := by unfold CT.setP; split <;> rfl
@[simp] theorem CT.setP_pc (c : CT) (r : PReg) (w : PBits) : (c.setP r w).pc = c.pc := by unfold CT.setP; split <;> rfl
@[simp] theorem CT.setP_sup (c : CT) (r : PReg) (w : PBits) : (c.setP r w).sup = c.sup := by unfold CT.setP; split <;> rfl
@[simp] theorem CT.setP_inUev (c : CT) (r : PReg) (w : PBits) : (c.setP r w).inUev = c.inUev := by unfold CT.setP; split <;> rfl
@[simp] theorem CT.setP_inTrap (c : CT) (r : PReg) (w : PBits) : (c.setP r w).inTrap = c.inTrap := by unfold CT.setP; split <;> rfl
@[simp] theorem CT.setP_status (c : CT) (r : PReg) (w : PBits) : (c.setP r w).status = c.status := by unfold CT.setP; split <;> rfl
@[simp] theorem CT.setP_wasRun (c : CT) (r : PReg) (w : PBits) : (c.setP r w).wasRun = c.wasRun := by unfold CT.setP; split <;> rfl
@[simp] theorem CT.setP_back (c : CT) (r : PReg) (w : PBits) : (c.setP r w).back = c.back := by unfold CT.setP; split <;> rfl
@[simp] theorem CT.setP_faulting (c : CT) (r : PReg) (w : PBits) : (c.setP r w).faulting = c.faulting := by unfold CT.setP; split <;> rfl
@[simp] theorem CT.setP_late (c : CT) (r : PReg) (w : PBits) : (c.setP r w).late = c.late := by unfold CT.setP; split <;> rfl
@[simp] theorem CT.setP_frm (c : CT) (r : PReg) (w : PBits) : (c.setP r w).frm = c.frm := by unfold CT.setP; split <;> rfl
@[simp] theorem CT.setP_fflags (c : CT) (r : PReg) (w : PBits) : (c.setP r w).fflags = c.fflags := by unfold CT.setP; split <;> rfl
@[simp] theorem CT.setP_vl (c : CT) (r : PReg) (w : PBits) : (c.setP r w).vl = c.vl := by unfold CT.setP; split <;> rfl
@[simp] theorem CT.setP_vtype (c : CT) (r : PReg) (w : PBits) : (c.setP r w).vtype = c.vtype := by unfold CT.setP; split <;> rfl
@[simp] theorem CT.setP_vstart (c : CT) (r : PReg) (w : PBits) : (c.setP r w).vstart = c.vstart := by unfold CT.setP; split <;> rfl
@[simp] theorem CT.setP_spset (c : CT) (r : PReg) (w : PBits) : (c.setP r w).spset = c.spset := by unfold CT.setP; split <;> rfl
@[simp] theorem CT.setP_uevec (c : CT) (r : PReg) (w : PBits) : (c.setP r w).uevec = c.uevec := by unfold CT.setP; split <;> rfl
@[simp] theorem CT.setP_uecause (c : CT) (r : PReg) (w : PBits) : (c.setP r w).uecause = c.uecause := by unfold CT.setP; split <;> rfl
@[simp] theorem CT.setP_kparm (c : CT) (r : PReg) (w : PBits) : (c.setP r w).kparm = c.kparm := by unfold CT.setP; split <;> rfl
@[simp] theorem CT.setP_bankwave (c : CT) (r : PReg) (w : PBits) : (c.setP r w).bankwave = c.bankwave := by unfold CT.setP; split <;> rfl
@[simp] theorem CT.setP_vlcap (c : CT) (r : PReg) (w : PBits) : (c.setP r w).vlcap = c.vlcap := by unfold CT.setP; split <;> rfl
@[simp] theorem CT.setP_ctweight (c : CT) (r : PReg) (w : PBits) : (c.setP r w).ctweight = c.ctweight := by unfold CT.setP; split <;> rfl
@[simp] theorem CT.setP_tcause (c : CT) (r : PReg) (w : PBits) : (c.setP r w).tcause = c.tcause := by unfold CT.setP; split <;> rfl
@[simp] theorem CT.setP_tval (c : CT) (r : PReg) (w : PBits) : (c.setP r w).tval = c.tval := by unfold CT.setP; split <;> rfl
@[simp] theorem CT.setP_tpc (c : CT) (r : PReg) (w : PBits) : (c.setP r w).tpc = c.tpc := by unfold CT.setP; split <;> rfl
@[simp] theorem CT.setP_loops (c : CT) (r : PReg) (w : PBits) : (c.setP r w).loops = c.loops := by unfold CT.setP; split <;> rfl
@[simp] theorem CT.setP_lift (c : CT) (r : PReg) (w : PBits) : (c.setP r w).lift = c.lift := by unfold CT.setP; split <;> rfl
@[simp] theorem CT.setP_strip (c : CT) (r : PReg) (w : PBits) : (c.setP r w).strip = c.strip := by unfold CT.setP; split <;> rfl
@[simp] theorem CT.setP_again (c : CT) (r : PReg) (w : PBits) : (c.setP r w).again = c.again := by unfold CT.setP; split <;> rfl
@[simp] theorem CT.setP_held (c : CT) (r : PReg) (w : PBits) : (c.setP r w).held = c.held := by unfold CT.setP; split <;> rfl
@[simp] theorem CT.setP_loc (c : CT) (r : PReg) (w : PBits) : (c.setP r w).loc = c.loc := by unfold CT.setP; split <;> rfl
@[simp] theorem CT.setP_locBad (c : CT) (r : PReg) (w : PBits) : (c.setP r w).locBad = c.locBad := by unfold CT.setP; split <;> rfl
@[simp] theorem CT.setP_locStuck (c : CT) (r : PReg) (w : PBits) : (c.setP r w).locStuck = c.locStuck := by unfold CT.setP; split <;> rfl
@[simp] theorem CT.setP_regBad (c : CT) (r : PReg) (w : PBits) : (c.setP r w).regBad = c.regBad := by unfold CT.setP; split <;> rfl
@[simp] theorem CT.setP_trail (c : CT) (r : PReg) (w : PBits) : (c.setP r w).trail = c.trail := by unfold CT.setP; split <;> rfl
@[simp] theorem CT.setP_trailStuck (c : CT) (r : PReg) (w : PBits) : (c.setP r w).trailStuck = c.trailStuck := by unfold CT.setP; split <;> rfl
@[simp] theorem CT.setP_view (c : CT) (r : PReg) (w : PBits) : (c.setP r w).view = c.view := by unfold CT.setP; split <;> rfl
@[simp] theorem CT.setP_viewStuck (c : CT) (r : PReg) (w : PBits) : (c.setP r w).viewStuck = c.viewStuck := by unfold CT.setP; split <;> rfl
@[simp] theorem CT.setP_rp (c : CT) (r : PReg) (w : PBits) : (c.setP r w).rp = c.rp := by unfold CT.setP; split <;> rfl
@[simp] theorem CT.setP_out (c : CT) (r : PReg) (w : PBits) : (c.setP r w).out = c.out := by unfold CT.setP; split <;> rfl
@[simp] theorem CT.setP_marks (c : CT) (r : PReg) (w : PBits) : (c.setP r w).marks = c.marks := by unfold CT.setP; split <;> rfl
@[simp] theorem CT.setP_early (c : CT) (r : PReg) (w : PBits) : (c.setP r w).early = c.early := by unfold CT.setP; split <;> rfl
@[simp] theorem CT.setP_acqd (c : CT) (r : PReg) (w : PBits) : (c.setP r w).acqd = c.acqd := by unfold CT.setP; split <;> rfl
@[simp] theorem CT.setP_delay (c : CT) (r : PReg) (w : PBits) : (c.setP r w).delay = c.delay := by unfold CT.setP; split <;> rfl
@[simp] theorem CT.setP_slow (c : CT) (r : PReg) (w : PBits) : (c.setP r w).slow = c.slow := by unfold CT.setP; split <;> rfl
@[simp] theorem CT.setP_owed (c : CT) (r : PReg) (w : PBits) : (c.setP r w).owed = c.owed := by unfold CT.setP; split <;> rfl
@[simp] theorem CT.setP_putOff (c : CT) (r : PReg) (w : PBits) : (c.setP r w).putOff = c.putOff := by unfold CT.setP; split <;> rfl
@[simp] theorem CT.setP_streams (c : CT) (r : PReg) (w : PBits) : (c.setP r w).streams = c.streams := by unfold CT.setP; split <;> rfl
@[simp] theorem CT.setP_tls (c : CT) (r : PReg) (w : PBits) : (c.setP r w).tls = c.tls := by unfold CT.setP; split <;> rfl
@[simp] theorem CT.setP_cmds (c : CT) (r : PReg) (w : PBits) : (c.setP r w).cmds = c.cmds := by unfold CT.setP; split <;> rfl
@[simp] theorem CT.setP_children (c : CT) (r : PReg) (w : PBits) : (c.setP r w).children = c.children := by unfold CT.setP; split <;> rfl
@[simp] theorem CT.setP_vq (c : CT) (r : PReg) (w : PBits) : (c.setP r w).vq = c.vq := by unfold CT.setP; split <;> rfl
@[simp] theorem CT.setP_frozen (c : CT) (r : PReg) (w : PBits) : (c.setP r w).frozen = c.frozen := by unfold CT.setP; split <;> rfl
@[simp] theorem CT.setP_deficit (c : CT) (r : PReg) (w : PBits) : (c.setP r w).deficit = c.deficit := by unfold CT.setP; split <;> rfl
@[simp] theorem CT.setP_passed (c : CT) (r : PReg) (w : PBits) : (c.setP r w).passed = c.passed := by unfold CT.setP; split <;> rfl
@[simp] theorem CT.setP_front (c : CT) (r : PReg) (w : PBits) : (c.setP r w).front = c.front := by unfold CT.setP; split <;> rfl
@[simp] theorem CT.setP_shadow (c : CT) (r : PReg) (w : PBits) : (c.setP r w).shadow = c.shadow := by unfold CT.setP; split <;> rfl
@[simp] theorem CT.setP_planesValid (c : CT) (r : PReg) (w : PBits) : (c.setP r w).planesValid = c.planesValid := by unfold CT.setP; split <;> rfl
@[simp] theorem CT.setP_planesSaved (c : CT) (r : PReg) (w : PBits) : (c.setP r w).planesSaved = c.planesSaved := by unfold CT.setP; split <;> rfl
@[simp] theorem CT.setP_pushFront (c : CT) (r : PReg) (w : PBits) : (c.setP r w).pushFront = c.pushFront := by unfold CT.setP; split <;> rfl
@[simp] theorem CT.setP_pushShadow (c : CT) (r : PReg) (w : PBits) : (c.setP r w).pushShadow = c.pushShadow := by unfold CT.setP; split <;> rfl
@[simp] theorem CT.setP_xfer (c : CT) (r : PReg) (w : PBits) : (c.setP r w).xfer = c.xfer := by unfold CT.setP; split <;> rfl
@[simp] theorem CT.setP_kernel (c : CT) (r : PReg) (w : PBits) : (c.setP r w).kernel = c.kernel := by unfold CT.setP; split <;> rfl
@[simp] theorem CT.setP_launch (c : CT) (r : PReg) (w : PBits) : (c.setP r w).launch = c.launch := by unfold CT.setP; split <;> rfl
@[simp] theorem CT.setP_task (c : CT) (r : PReg) (w : PBits) : (c.setP r w).task = c.task := by unfold CT.setP; split <;> rfl
@[simp] theorem CT.setP_imageIn (c : CT) (r : PReg) (w : PBits) : (c.setP r w).imageIn = c.imageIn := by unfold CT.setP; split <;> rfl
@[simp] theorem CT.setP_col0 (c : CT) (r : PReg) (w : PBits) : (c.setP r w).col0 = c.col0 := by unfold CT.setP; split <;> rfl
@[simp] theorem CT.setP_row0 (c : CT) (r : PReg) (w : PBits) : (c.setP r w).row0 = c.row0 := by unfold CT.setP; split <;> rfl
@[simp] theorem CT.setP_band (c : CT) (r : PReg) (w : PBits) : (c.setP r w).band = c.band := by unfold CT.setP; split <;> rfl
@[simp] theorem CT.setP_chk (c : CT) (r : PReg) (w : PBits) : (c.setP r w).chk = c.chk := by unfold CT.setP; split <;> rfl
@[simp] theorem CT.setP_wfe (c : CT) (r : PReg) (w : PBits) : (c.setP r w).wfe = c.wfe := by unfold CT.setP; split <;> rfl
@[simp] theorem CT.setP_ranOut (c : CT) (r : PReg) (w : PBits) : (c.setP r w).ranOut = c.ranOut := by unfold CT.setP; split <;> rfl
@[simp] theorem CT.setP_barw (c : CT) (r : PReg) (w : PBits) : (c.setP r w).barw = c.barw := by unfold CT.setP; split <;> rfl
@[simp] theorem CT.setP_preempt (c : CT) (r : PReg) (w : PBits) : (c.setP r w).preempt = c.preempt := by unfold CT.setP; split <;> rfl

@[simp] theorem CT.setPTag_g (c : CT) (r : PReg) (t : Tag) : (c.setPTag r t).g = c.g := by unfold CT.setPTag; split <;> rfl
@[simp] theorem CT.setPTag_gtag (c : CT) (r : PReg) (t : Tag) : (c.setPTag r t).gtag = c.gtag := by unfold CT.setPTag; split <;> rfl
@[simp] theorem CT.setPTag_p (c : CT) (r : PReg) (t : Tag) : (c.setPTag r t).p = c.p := by unfold CT.setPTag; split <;> rfl
@[simp] theorem CT.setPTag_v (c : CT) (r : PReg) (t : Tag) : (c.setPTag r t).v = c.v := by unfold CT.setPTag; split <;> rfl
@[simp] theorem CT.setPTag_vtag (c : CT) (r : PReg) (t : Tag) : (c.setPTag r t).vtag = c.vtag := by unfold CT.setPTag; split <;> rfl
@[simp] theorem CT.setPTag_uBank (c : CT) (r : PReg) (t : Tag) : (c.setPTag r t).uBank = c.uBank := by unfold CT.setPTag; split <;> rfl
@[simp] theorem CT.setPTag_sBank (c : CT) (r : PReg) (t : Tag) : (c.setPTag r t).sBank = c.sBank := by unfold CT.setPTag; split <;> rfl
@[simp] theorem CT.setPTag_pc (c : CT) (r : PReg) (t : Tag) : (c.setPTag r t).pc = c.pc := by unfold CT.setPTag; split <;> rfl
@[simp] theorem CT.setPTag_sup (c : CT) (r : PReg) (t : Tag) : (c.setPTag r t).sup = c.sup := by unfold CT.setPTag; split <;> rfl
@[simp] theorem CT.setPTag_inUev (c : CT) (r : PReg) (t : Tag) : (c.setPTag r t).inUev = c.inUev := by unfold CT.setPTag; split <;> rfl
@[simp] theorem CT.setPTag_inTrap (c : CT) (r : PReg) (t : Tag) : (c.setPTag r t).inTrap = c.inTrap := by unfold CT.setPTag; split <;> rfl
@[simp] theorem CT.setPTag_status (c : CT) (r : PReg) (t : Tag) : (c.setPTag r t).status = c.status := by unfold CT.setPTag; split <;> rfl
@[simp] theorem CT.setPTag_wasRun (c : CT) (r : PReg) (t : Tag) : (c.setPTag r t).wasRun = c.wasRun := by unfold CT.setPTag; split <;> rfl
@[simp] theorem CT.setPTag_back (c : CT) (r : PReg) (t : Tag) : (c.setPTag r t).back = c.back := by unfold CT.setPTag; split <;> rfl
@[simp] theorem CT.setPTag_faulting (c : CT) (r : PReg) (t : Tag) : (c.setPTag r t).faulting = c.faulting := by unfold CT.setPTag; split <;> rfl
@[simp] theorem CT.setPTag_late (c : CT) (r : PReg) (t : Tag) : (c.setPTag r t).late = c.late := by unfold CT.setPTag; split <;> rfl
@[simp] theorem CT.setPTag_frm (c : CT) (r : PReg) (t : Tag) : (c.setPTag r t).frm = c.frm := by unfold CT.setPTag; split <;> rfl
@[simp] theorem CT.setPTag_fflags (c : CT) (r : PReg) (t : Tag) : (c.setPTag r t).fflags = c.fflags := by unfold CT.setPTag; split <;> rfl
@[simp] theorem CT.setPTag_vl (c : CT) (r : PReg) (t : Tag) : (c.setPTag r t).vl = c.vl := by unfold CT.setPTag; split <;> rfl
@[simp] theorem CT.setPTag_vtype (c : CT) (r : PReg) (t : Tag) : (c.setPTag r t).vtype = c.vtype := by unfold CT.setPTag; split <;> rfl
@[simp] theorem CT.setPTag_vstart (c : CT) (r : PReg) (t : Tag) : (c.setPTag r t).vstart = c.vstart := by unfold CT.setPTag; split <;> rfl
@[simp] theorem CT.setPTag_spset (c : CT) (r : PReg) (t : Tag) : (c.setPTag r t).spset = c.spset := by unfold CT.setPTag; split <;> rfl
@[simp] theorem CT.setPTag_uevec (c : CT) (r : PReg) (t : Tag) : (c.setPTag r t).uevec = c.uevec := by unfold CT.setPTag; split <;> rfl
@[simp] theorem CT.setPTag_uecause (c : CT) (r : PReg) (t : Tag) : (c.setPTag r t).uecause = c.uecause := by unfold CT.setPTag; split <;> rfl
@[simp] theorem CT.setPTag_kparm (c : CT) (r : PReg) (t : Tag) : (c.setPTag r t).kparm = c.kparm := by unfold CT.setPTag; split <;> rfl
@[simp] theorem CT.setPTag_bankwave (c : CT) (r : PReg) (t : Tag) : (c.setPTag r t).bankwave = c.bankwave := by unfold CT.setPTag; split <;> rfl
@[simp] theorem CT.setPTag_vlcap (c : CT) (r : PReg) (t : Tag) : (c.setPTag r t).vlcap = c.vlcap := by unfold CT.setPTag; split <;> rfl
@[simp] theorem CT.setPTag_ctweight (c : CT) (r : PReg) (t : Tag) : (c.setPTag r t).ctweight = c.ctweight := by unfold CT.setPTag; split <;> rfl
@[simp] theorem CT.setPTag_tcause (c : CT) (r : PReg) (t : Tag) : (c.setPTag r t).tcause = c.tcause := by unfold CT.setPTag; split <;> rfl
@[simp] theorem CT.setPTag_tval (c : CT) (r : PReg) (t : Tag) : (c.setPTag r t).tval = c.tval := by unfold CT.setPTag; split <;> rfl
@[simp] theorem CT.setPTag_tpc (c : CT) (r : PReg) (t : Tag) : (c.setPTag r t).tpc = c.tpc := by unfold CT.setPTag; split <;> rfl
@[simp] theorem CT.setPTag_loops (c : CT) (r : PReg) (t : Tag) : (c.setPTag r t).loops = c.loops := by unfold CT.setPTag; split <;> rfl
@[simp] theorem CT.setPTag_lift (c : CT) (r : PReg) (t : Tag) : (c.setPTag r t).lift = c.lift := by unfold CT.setPTag; split <;> rfl
@[simp] theorem CT.setPTag_strip (c : CT) (r : PReg) (t : Tag) : (c.setPTag r t).strip = c.strip := by unfold CT.setPTag; split <;> rfl
@[simp] theorem CT.setPTag_again (c : CT) (r : PReg) (t : Tag) : (c.setPTag r t).again = c.again := by unfold CT.setPTag; split <;> rfl
@[simp] theorem CT.setPTag_held (c : CT) (r : PReg) (t : Tag) : (c.setPTag r t).held = c.held := by unfold CT.setPTag; split <;> rfl
@[simp] theorem CT.setPTag_loc (c : CT) (r : PReg) (t : Tag) : (c.setPTag r t).loc = c.loc := by unfold CT.setPTag; split <;> rfl
@[simp] theorem CT.setPTag_locBad (c : CT) (r : PReg) (t : Tag) : (c.setPTag r t).locBad = c.locBad := by unfold CT.setPTag; split <;> rfl
@[simp] theorem CT.setPTag_locStuck (c : CT) (r : PReg) (t : Tag) : (c.setPTag r t).locStuck = c.locStuck := by unfold CT.setPTag; split <;> rfl
@[simp] theorem CT.setPTag_regBad (c : CT) (r : PReg) (t : Tag) : (c.setPTag r t).regBad = c.regBad := by unfold CT.setPTag; split <;> rfl
@[simp] theorem CT.setPTag_trail (c : CT) (r : PReg) (t : Tag) : (c.setPTag r t).trail = c.trail := by unfold CT.setPTag; split <;> rfl
@[simp] theorem CT.setPTag_trailStuck (c : CT) (r : PReg) (t : Tag) : (c.setPTag r t).trailStuck = c.trailStuck := by unfold CT.setPTag; split <;> rfl
@[simp] theorem CT.setPTag_view (c : CT) (r : PReg) (t : Tag) : (c.setPTag r t).view = c.view := by unfold CT.setPTag; split <;> rfl
@[simp] theorem CT.setPTag_viewStuck (c : CT) (r : PReg) (t : Tag) : (c.setPTag r t).viewStuck = c.viewStuck := by unfold CT.setPTag; split <;> rfl
@[simp] theorem CT.setPTag_rp (c : CT) (r : PReg) (t : Tag) : (c.setPTag r t).rp = c.rp := by unfold CT.setPTag; split <;> rfl
@[simp] theorem CT.setPTag_out (c : CT) (r : PReg) (t : Tag) : (c.setPTag r t).out = c.out := by unfold CT.setPTag; split <;> rfl
@[simp] theorem CT.setPTag_marks (c : CT) (r : PReg) (t : Tag) : (c.setPTag r t).marks = c.marks := by unfold CT.setPTag; split <;> rfl
@[simp] theorem CT.setPTag_early (c : CT) (r : PReg) (t : Tag) : (c.setPTag r t).early = c.early := by unfold CT.setPTag; split <;> rfl
@[simp] theorem CT.setPTag_acqd (c : CT) (r : PReg) (t : Tag) : (c.setPTag r t).acqd = c.acqd := by unfold CT.setPTag; split <;> rfl
@[simp] theorem CT.setPTag_delay (c : CT) (r : PReg) (t : Tag) : (c.setPTag r t).delay = c.delay := by unfold CT.setPTag; split <;> rfl
@[simp] theorem CT.setPTag_slow (c : CT) (r : PReg) (t : Tag) : (c.setPTag r t).slow = c.slow := by unfold CT.setPTag; split <;> rfl
@[simp] theorem CT.setPTag_owed (c : CT) (r : PReg) (t : Tag) : (c.setPTag r t).owed = c.owed := by unfold CT.setPTag; split <;> rfl
@[simp] theorem CT.setPTag_putOff (c : CT) (r : PReg) (t : Tag) : (c.setPTag r t).putOff = c.putOff := by unfold CT.setPTag; split <;> rfl
@[simp] theorem CT.setPTag_streams (c : CT) (r : PReg) (t : Tag) : (c.setPTag r t).streams = c.streams := by unfold CT.setPTag; split <;> rfl
@[simp] theorem CT.setPTag_tls (c : CT) (r : PReg) (t : Tag) : (c.setPTag r t).tls = c.tls := by unfold CT.setPTag; split <;> rfl
@[simp] theorem CT.setPTag_cmds (c : CT) (r : PReg) (t : Tag) : (c.setPTag r t).cmds = c.cmds := by unfold CT.setPTag; split <;> rfl
@[simp] theorem CT.setPTag_children (c : CT) (r : PReg) (t : Tag) : (c.setPTag r t).children = c.children := by unfold CT.setPTag; split <;> rfl
@[simp] theorem CT.setPTag_vq (c : CT) (r : PReg) (t : Tag) : (c.setPTag r t).vq = c.vq := by unfold CT.setPTag; split <;> rfl
@[simp] theorem CT.setPTag_frozen (c : CT) (r : PReg) (t : Tag) : (c.setPTag r t).frozen = c.frozen := by unfold CT.setPTag; split <;> rfl
@[simp] theorem CT.setPTag_deficit (c : CT) (r : PReg) (t : Tag) : (c.setPTag r t).deficit = c.deficit := by unfold CT.setPTag; split <;> rfl
@[simp] theorem CT.setPTag_passed (c : CT) (r : PReg) (t : Tag) : (c.setPTag r t).passed = c.passed := by unfold CT.setPTag; split <;> rfl
@[simp] theorem CT.setPTag_front (c : CT) (r : PReg) (t : Tag) : (c.setPTag r t).front = c.front := by unfold CT.setPTag; split <;> rfl
@[simp] theorem CT.setPTag_shadow (c : CT) (r : PReg) (t : Tag) : (c.setPTag r t).shadow = c.shadow := by unfold CT.setPTag; split <;> rfl
@[simp] theorem CT.setPTag_planesValid (c : CT) (r : PReg) (t : Tag) : (c.setPTag r t).planesValid = c.planesValid := by unfold CT.setPTag; split <;> rfl
@[simp] theorem CT.setPTag_planesSaved (c : CT) (r : PReg) (t : Tag) : (c.setPTag r t).planesSaved = c.planesSaved := by unfold CT.setPTag; split <;> rfl
@[simp] theorem CT.setPTag_pushFront (c : CT) (r : PReg) (t : Tag) : (c.setPTag r t).pushFront = c.pushFront := by unfold CT.setPTag; split <;> rfl
@[simp] theorem CT.setPTag_pushShadow (c : CT) (r : PReg) (t : Tag) : (c.setPTag r t).pushShadow = c.pushShadow := by unfold CT.setPTag; split <;> rfl
@[simp] theorem CT.setPTag_xfer (c : CT) (r : PReg) (t : Tag) : (c.setPTag r t).xfer = c.xfer := by unfold CT.setPTag; split <;> rfl
@[simp] theorem CT.setPTag_kernel (c : CT) (r : PReg) (t : Tag) : (c.setPTag r t).kernel = c.kernel := by unfold CT.setPTag; split <;> rfl
@[simp] theorem CT.setPTag_launch (c : CT) (r : PReg) (t : Tag) : (c.setPTag r t).launch = c.launch := by unfold CT.setPTag; split <;> rfl
@[simp] theorem CT.setPTag_task (c : CT) (r : PReg) (t : Tag) : (c.setPTag r t).task = c.task := by unfold CT.setPTag; split <;> rfl
@[simp] theorem CT.setPTag_imageIn (c : CT) (r : PReg) (t : Tag) : (c.setPTag r t).imageIn = c.imageIn := by unfold CT.setPTag; split <;> rfl
@[simp] theorem CT.setPTag_col0 (c : CT) (r : PReg) (t : Tag) : (c.setPTag r t).col0 = c.col0 := by unfold CT.setPTag; split <;> rfl
@[simp] theorem CT.setPTag_row0 (c : CT) (r : PReg) (t : Tag) : (c.setPTag r t).row0 = c.row0 := by unfold CT.setPTag; split <;> rfl
@[simp] theorem CT.setPTag_band (c : CT) (r : PReg) (t : Tag) : (c.setPTag r t).band = c.band := by unfold CT.setPTag; split <;> rfl
@[simp] theorem CT.setPTag_chk (c : CT) (r : PReg) (t : Tag) : (c.setPTag r t).chk = c.chk := by unfold CT.setPTag; split <;> rfl
@[simp] theorem CT.setPTag_wfe (c : CT) (r : PReg) (t : Tag) : (c.setPTag r t).wfe = c.wfe := by unfold CT.setPTag; split <;> rfl
@[simp] theorem CT.setPTag_ranOut (c : CT) (r : PReg) (t : Tag) : (c.setPTag r t).ranOut = c.ranOut := by unfold CT.setPTag; split <;> rfl
@[simp] theorem CT.setPTag_barw (c : CT) (r : PReg) (t : Tag) : (c.setPTag r t).barw = c.barw := by unfold CT.setPTag; split <;> rfl
@[simp] theorem CT.setPTag_preempt (c : CT) (r : PReg) (t : Tag) : (c.setPTag r t).preempt = c.preempt := by unfold CT.setPTag; split <;> rfl

@[simp] theorem CT.setV_g (c : CT) (r : Nat) (x : VReg) : (c.setV r x).g = c.g := by unfold CT.setV; split <;> rfl
@[simp] theorem CT.setV_gtag (c : CT) (r : Nat) (x : VReg) : (c.setV r x).gtag = c.gtag := by unfold CT.setV; split <;> rfl
@[simp] theorem CT.setV_p (c : CT) (r : Nat) (x : VReg) : (c.setV r x).p = c.p := by unfold CT.setV; split <;> rfl
@[simp] theorem CT.setV_ptag (c : CT) (r : Nat) (x : VReg) : (c.setV r x).ptag = c.ptag := by unfold CT.setV; split <;> rfl
@[simp] theorem CT.setV_vtag (c : CT) (r : Nat) (x : VReg) : (c.setV r x).vtag = c.vtag := by unfold CT.setV; split <;> rfl
@[simp] theorem CT.setV_uBank (c : CT) (r : Nat) (x : VReg) : (c.setV r x).uBank = c.uBank := by unfold CT.setV; split <;> rfl
@[simp] theorem CT.setV_sBank (c : CT) (r : Nat) (x : VReg) : (c.setV r x).sBank = c.sBank := by unfold CT.setV; split <;> rfl
@[simp] theorem CT.setV_pc (c : CT) (r : Nat) (x : VReg) : (c.setV r x).pc = c.pc := by unfold CT.setV; split <;> rfl
@[simp] theorem CT.setV_sup (c : CT) (r : Nat) (x : VReg) : (c.setV r x).sup = c.sup := by unfold CT.setV; split <;> rfl
@[simp] theorem CT.setV_inUev (c : CT) (r : Nat) (x : VReg) : (c.setV r x).inUev = c.inUev := by unfold CT.setV; split <;> rfl
@[simp] theorem CT.setV_inTrap (c : CT) (r : Nat) (x : VReg) : (c.setV r x).inTrap = c.inTrap := by unfold CT.setV; split <;> rfl
@[simp] theorem CT.setV_status (c : CT) (r : Nat) (x : VReg) : (c.setV r x).status = c.status := by unfold CT.setV; split <;> rfl
@[simp] theorem CT.setV_wasRun (c : CT) (r : Nat) (x : VReg) : (c.setV r x).wasRun = c.wasRun := by unfold CT.setV; split <;> rfl
@[simp] theorem CT.setV_back (c : CT) (r : Nat) (x : VReg) : (c.setV r x).back = c.back := by unfold CT.setV; split <;> rfl
@[simp] theorem CT.setV_faulting (c : CT) (r : Nat) (x : VReg) : (c.setV r x).faulting = c.faulting := by unfold CT.setV; split <;> rfl
@[simp] theorem CT.setV_late (c : CT) (r : Nat) (x : VReg) : (c.setV r x).late = c.late := by unfold CT.setV; split <;> rfl
@[simp] theorem CT.setV_frm (c : CT) (r : Nat) (x : VReg) : (c.setV r x).frm = c.frm := by unfold CT.setV; split <;> rfl
@[simp] theorem CT.setV_fflags (c : CT) (r : Nat) (x : VReg) : (c.setV r x).fflags = c.fflags := by unfold CT.setV; split <;> rfl
@[simp] theorem CT.setV_vl (c : CT) (r : Nat) (x : VReg) : (c.setV r x).vl = c.vl := by unfold CT.setV; split <;> rfl
@[simp] theorem CT.setV_vtype (c : CT) (r : Nat) (x : VReg) : (c.setV r x).vtype = c.vtype := by unfold CT.setV; split <;> rfl
@[simp] theorem CT.setV_vstart (c : CT) (r : Nat) (x : VReg) : (c.setV r x).vstart = c.vstart := by unfold CT.setV; split <;> rfl
@[simp] theorem CT.setV_spset (c : CT) (r : Nat) (x : VReg) : (c.setV r x).spset = c.spset := by unfold CT.setV; split <;> rfl
@[simp] theorem CT.setV_uevec (c : CT) (r : Nat) (x : VReg) : (c.setV r x).uevec = c.uevec := by unfold CT.setV; split <;> rfl
@[simp] theorem CT.setV_uecause (c : CT) (r : Nat) (x : VReg) : (c.setV r x).uecause = c.uecause := by unfold CT.setV; split <;> rfl
@[simp] theorem CT.setV_kparm (c : CT) (r : Nat) (x : VReg) : (c.setV r x).kparm = c.kparm := by unfold CT.setV; split <;> rfl
@[simp] theorem CT.setV_bankwave (c : CT) (r : Nat) (x : VReg) : (c.setV r x).bankwave = c.bankwave := by unfold CT.setV; split <;> rfl
@[simp] theorem CT.setV_vlcap (c : CT) (r : Nat) (x : VReg) : (c.setV r x).vlcap = c.vlcap := by unfold CT.setV; split <;> rfl
@[simp] theorem CT.setV_ctweight (c : CT) (r : Nat) (x : VReg) : (c.setV r x).ctweight = c.ctweight := by unfold CT.setV; split <;> rfl
@[simp] theorem CT.setV_tcause (c : CT) (r : Nat) (x : VReg) : (c.setV r x).tcause = c.tcause := by unfold CT.setV; split <;> rfl
@[simp] theorem CT.setV_tval (c : CT) (r : Nat) (x : VReg) : (c.setV r x).tval = c.tval := by unfold CT.setV; split <;> rfl
@[simp] theorem CT.setV_tpc (c : CT) (r : Nat) (x : VReg) : (c.setV r x).tpc = c.tpc := by unfold CT.setV; split <;> rfl
@[simp] theorem CT.setV_loops (c : CT) (r : Nat) (x : VReg) : (c.setV r x).loops = c.loops := by unfold CT.setV; split <;> rfl
@[simp] theorem CT.setV_lift (c : CT) (r : Nat) (x : VReg) : (c.setV r x).lift = c.lift := by unfold CT.setV; split <;> rfl
@[simp] theorem CT.setV_strip (c : CT) (r : Nat) (x : VReg) : (c.setV r x).strip = c.strip := by unfold CT.setV; split <;> rfl
@[simp] theorem CT.setV_again (c : CT) (r : Nat) (x : VReg) : (c.setV r x).again = c.again := by unfold CT.setV; split <;> rfl
@[simp] theorem CT.setV_held (c : CT) (r : Nat) (x : VReg) : (c.setV r x).held = c.held := by unfold CT.setV; split <;> rfl
@[simp] theorem CT.setV_loc (c : CT) (r : Nat) (x : VReg) : (c.setV r x).loc = c.loc := by unfold CT.setV; split <;> rfl
@[simp] theorem CT.setV_locBad (c : CT) (r : Nat) (x : VReg) : (c.setV r x).locBad = c.locBad := by unfold CT.setV; split <;> rfl
@[simp] theorem CT.setV_locStuck (c : CT) (r : Nat) (x : VReg) : (c.setV r x).locStuck = c.locStuck := by unfold CT.setV; split <;> rfl
@[simp] theorem CT.setV_regBad (c : CT) (r : Nat) (x : VReg) : (c.setV r x).regBad = c.regBad := by unfold CT.setV; split <;> rfl
@[simp] theorem CT.setV_trail (c : CT) (r : Nat) (x : VReg) : (c.setV r x).trail = c.trail := by unfold CT.setV; split <;> rfl
@[simp] theorem CT.setV_trailStuck (c : CT) (r : Nat) (x : VReg) : (c.setV r x).trailStuck = c.trailStuck := by unfold CT.setV; split <;> rfl
@[simp] theorem CT.setV_view (c : CT) (r : Nat) (x : VReg) : (c.setV r x).view = c.view := by unfold CT.setV; split <;> rfl
@[simp] theorem CT.setV_viewStuck (c : CT) (r : Nat) (x : VReg) : (c.setV r x).viewStuck = c.viewStuck := by unfold CT.setV; split <;> rfl
@[simp] theorem CT.setV_rp (c : CT) (r : Nat) (x : VReg) : (c.setV r x).rp = c.rp := by unfold CT.setV; split <;> rfl
@[simp] theorem CT.setV_out (c : CT) (r : Nat) (x : VReg) : (c.setV r x).out = c.out := by unfold CT.setV; split <;> rfl
@[simp] theorem CT.setV_marks (c : CT) (r : Nat) (x : VReg) : (c.setV r x).marks = c.marks := by unfold CT.setV; split <;> rfl
@[simp] theorem CT.setV_early (c : CT) (r : Nat) (x : VReg) : (c.setV r x).early = c.early := by unfold CT.setV; split <;> rfl
@[simp] theorem CT.setV_acqd (c : CT) (r : Nat) (x : VReg) : (c.setV r x).acqd = c.acqd := by unfold CT.setV; split <;> rfl
@[simp] theorem CT.setV_delay (c : CT) (r : Nat) (x : VReg) : (c.setV r x).delay = c.delay := by unfold CT.setV; split <;> rfl
@[simp] theorem CT.setV_slow (c : CT) (r : Nat) (x : VReg) : (c.setV r x).slow = c.slow := by unfold CT.setV; split <;> rfl
@[simp] theorem CT.setV_owed (c : CT) (r : Nat) (x : VReg) : (c.setV r x).owed = c.owed := by unfold CT.setV; split <;> rfl
@[simp] theorem CT.setV_putOff (c : CT) (r : Nat) (x : VReg) : (c.setV r x).putOff = c.putOff := by unfold CT.setV; split <;> rfl
@[simp] theorem CT.setV_streams (c : CT) (r : Nat) (x : VReg) : (c.setV r x).streams = c.streams := by unfold CT.setV; split <;> rfl
@[simp] theorem CT.setV_tls (c : CT) (r : Nat) (x : VReg) : (c.setV r x).tls = c.tls := by unfold CT.setV; split <;> rfl
@[simp] theorem CT.setV_cmds (c : CT) (r : Nat) (x : VReg) : (c.setV r x).cmds = c.cmds := by unfold CT.setV; split <;> rfl
@[simp] theorem CT.setV_children (c : CT) (r : Nat) (x : VReg) : (c.setV r x).children = c.children := by unfold CT.setV; split <;> rfl
@[simp] theorem CT.setV_vq (c : CT) (r : Nat) (x : VReg) : (c.setV r x).vq = c.vq := by unfold CT.setV; split <;> rfl
@[simp] theorem CT.setV_frozen (c : CT) (r : Nat) (x : VReg) : (c.setV r x).frozen = c.frozen := by unfold CT.setV; split <;> rfl
@[simp] theorem CT.setV_deficit (c : CT) (r : Nat) (x : VReg) : (c.setV r x).deficit = c.deficit := by unfold CT.setV; split <;> rfl
@[simp] theorem CT.setV_passed (c : CT) (r : Nat) (x : VReg) : (c.setV r x).passed = c.passed := by unfold CT.setV; split <;> rfl
@[simp] theorem CT.setV_front (c : CT) (r : Nat) (x : VReg) : (c.setV r x).front = c.front := by unfold CT.setV; split <;> rfl
@[simp] theorem CT.setV_shadow (c : CT) (r : Nat) (x : VReg) : (c.setV r x).shadow = c.shadow := by unfold CT.setV; split <;> rfl
@[simp] theorem CT.setV_planesValid (c : CT) (r : Nat) (x : VReg) : (c.setV r x).planesValid = c.planesValid := by unfold CT.setV; split <;> rfl
@[simp] theorem CT.setV_planesSaved (c : CT) (r : Nat) (x : VReg) : (c.setV r x).planesSaved = c.planesSaved := by unfold CT.setV; split <;> rfl
@[simp] theorem CT.setV_pushFront (c : CT) (r : Nat) (x : VReg) : (c.setV r x).pushFront = c.pushFront := by unfold CT.setV; split <;> rfl
@[simp] theorem CT.setV_pushShadow (c : CT) (r : Nat) (x : VReg) : (c.setV r x).pushShadow = c.pushShadow := by unfold CT.setV; split <;> rfl
@[simp] theorem CT.setV_xfer (c : CT) (r : Nat) (x : VReg) : (c.setV r x).xfer = c.xfer := by unfold CT.setV; split <;> rfl
@[simp] theorem CT.setV_kernel (c : CT) (r : Nat) (x : VReg) : (c.setV r x).kernel = c.kernel := by unfold CT.setV; split <;> rfl
@[simp] theorem CT.setV_launch (c : CT) (r : Nat) (x : VReg) : (c.setV r x).launch = c.launch := by unfold CT.setV; split <;> rfl
@[simp] theorem CT.setV_task (c : CT) (r : Nat) (x : VReg) : (c.setV r x).task = c.task := by unfold CT.setV; split <;> rfl
@[simp] theorem CT.setV_imageIn (c : CT) (r : Nat) (x : VReg) : (c.setV r x).imageIn = c.imageIn := by unfold CT.setV; split <;> rfl
@[simp] theorem CT.setV_col0 (c : CT) (r : Nat) (x : VReg) : (c.setV r x).col0 = c.col0 := by unfold CT.setV; split <;> rfl
@[simp] theorem CT.setV_row0 (c : CT) (r : Nat) (x : VReg) : (c.setV r x).row0 = c.row0 := by unfold CT.setV; split <;> rfl
@[simp] theorem CT.setV_band (c : CT) (r : Nat) (x : VReg) : (c.setV r x).band = c.band := by unfold CT.setV; split <;> rfl
@[simp] theorem CT.setV_chk (c : CT) (r : Nat) (x : VReg) : (c.setV r x).chk = c.chk := by unfold CT.setV; split <;> rfl
@[simp] theorem CT.setV_wfe (c : CT) (r : Nat) (x : VReg) : (c.setV r x).wfe = c.wfe := by unfold CT.setV; split <;> rfl
@[simp] theorem CT.setV_ranOut (c : CT) (r : Nat) (x : VReg) : (c.setV r x).ranOut = c.ranOut := by unfold CT.setV; split <;> rfl
@[simp] theorem CT.setV_barw (c : CT) (r : Nat) (x : VReg) : (c.setV r x).barw = c.barw := by unfold CT.setV; split <;> rfl
@[simp] theorem CT.setV_preempt (c : CT) (r : Nat) (x : VReg) : (c.setV r x).preempt = c.preempt := by unfold CT.setV; split <;> rfl

@[simp] theorem CT.setVTag_g (c : CT) (r : Nat) (t : Tag) : (c.setVTag r t).g = c.g := by unfold CT.setVTag; split <;> rfl
@[simp] theorem CT.setVTag_gtag (c : CT) (r : Nat) (t : Tag) : (c.setVTag r t).gtag = c.gtag := by unfold CT.setVTag; split <;> rfl
@[simp] theorem CT.setVTag_p (c : CT) (r : Nat) (t : Tag) : (c.setVTag r t).p = c.p := by unfold CT.setVTag; split <;> rfl
@[simp] theorem CT.setVTag_ptag (c : CT) (r : Nat) (t : Tag) : (c.setVTag r t).ptag = c.ptag := by unfold CT.setVTag; split <;> rfl
@[simp] theorem CT.setVTag_v (c : CT) (r : Nat) (t : Tag) : (c.setVTag r t).v = c.v := by unfold CT.setVTag; split <;> rfl
@[simp] theorem CT.setVTag_uBank (c : CT) (r : Nat) (t : Tag) : (c.setVTag r t).uBank = c.uBank := by unfold CT.setVTag; split <;> rfl
@[simp] theorem CT.setVTag_sBank (c : CT) (r : Nat) (t : Tag) : (c.setVTag r t).sBank = c.sBank := by unfold CT.setVTag; split <;> rfl
@[simp] theorem CT.setVTag_pc (c : CT) (r : Nat) (t : Tag) : (c.setVTag r t).pc = c.pc := by unfold CT.setVTag; split <;> rfl
@[simp] theorem CT.setVTag_sup (c : CT) (r : Nat) (t : Tag) : (c.setVTag r t).sup = c.sup := by unfold CT.setVTag; split <;> rfl
@[simp] theorem CT.setVTag_inUev (c : CT) (r : Nat) (t : Tag) : (c.setVTag r t).inUev = c.inUev := by unfold CT.setVTag; split <;> rfl
@[simp] theorem CT.setVTag_inTrap (c : CT) (r : Nat) (t : Tag) : (c.setVTag r t).inTrap = c.inTrap := by unfold CT.setVTag; split <;> rfl
@[simp] theorem CT.setVTag_status (c : CT) (r : Nat) (t : Tag) : (c.setVTag r t).status = c.status := by unfold CT.setVTag; split <;> rfl
@[simp] theorem CT.setVTag_wasRun (c : CT) (r : Nat) (t : Tag) : (c.setVTag r t).wasRun = c.wasRun := by unfold CT.setVTag; split <;> rfl
@[simp] theorem CT.setVTag_back (c : CT) (r : Nat) (t : Tag) : (c.setVTag r t).back = c.back := by unfold CT.setVTag; split <;> rfl
@[simp] theorem CT.setVTag_faulting (c : CT) (r : Nat) (t : Tag) : (c.setVTag r t).faulting = c.faulting := by unfold CT.setVTag; split <;> rfl
@[simp] theorem CT.setVTag_late (c : CT) (r : Nat) (t : Tag) : (c.setVTag r t).late = c.late := by unfold CT.setVTag; split <;> rfl
@[simp] theorem CT.setVTag_frm (c : CT) (r : Nat) (t : Tag) : (c.setVTag r t).frm = c.frm := by unfold CT.setVTag; split <;> rfl
@[simp] theorem CT.setVTag_fflags (c : CT) (r : Nat) (t : Tag) : (c.setVTag r t).fflags = c.fflags := by unfold CT.setVTag; split <;> rfl
@[simp] theorem CT.setVTag_vl (c : CT) (r : Nat) (t : Tag) : (c.setVTag r t).vl = c.vl := by unfold CT.setVTag; split <;> rfl
@[simp] theorem CT.setVTag_vtype (c : CT) (r : Nat) (t : Tag) : (c.setVTag r t).vtype = c.vtype := by unfold CT.setVTag; split <;> rfl
@[simp] theorem CT.setVTag_vstart (c : CT) (r : Nat) (t : Tag) : (c.setVTag r t).vstart = c.vstart := by unfold CT.setVTag; split <;> rfl
@[simp] theorem CT.setVTag_spset (c : CT) (r : Nat) (t : Tag) : (c.setVTag r t).spset = c.spset := by unfold CT.setVTag; split <;> rfl
@[simp] theorem CT.setVTag_uevec (c : CT) (r : Nat) (t : Tag) : (c.setVTag r t).uevec = c.uevec := by unfold CT.setVTag; split <;> rfl
@[simp] theorem CT.setVTag_uecause (c : CT) (r : Nat) (t : Tag) : (c.setVTag r t).uecause = c.uecause := by unfold CT.setVTag; split <;> rfl
@[simp] theorem CT.setVTag_kparm (c : CT) (r : Nat) (t : Tag) : (c.setVTag r t).kparm = c.kparm := by unfold CT.setVTag; split <;> rfl
@[simp] theorem CT.setVTag_bankwave (c : CT) (r : Nat) (t : Tag) : (c.setVTag r t).bankwave = c.bankwave := by unfold CT.setVTag; split <;> rfl
@[simp] theorem CT.setVTag_vlcap (c : CT) (r : Nat) (t : Tag) : (c.setVTag r t).vlcap = c.vlcap := by unfold CT.setVTag; split <;> rfl
@[simp] theorem CT.setVTag_ctweight (c : CT) (r : Nat) (t : Tag) : (c.setVTag r t).ctweight = c.ctweight := by unfold CT.setVTag; split <;> rfl
@[simp] theorem CT.setVTag_tcause (c : CT) (r : Nat) (t : Tag) : (c.setVTag r t).tcause = c.tcause := by unfold CT.setVTag; split <;> rfl
@[simp] theorem CT.setVTag_tval (c : CT) (r : Nat) (t : Tag) : (c.setVTag r t).tval = c.tval := by unfold CT.setVTag; split <;> rfl
@[simp] theorem CT.setVTag_tpc (c : CT) (r : Nat) (t : Tag) : (c.setVTag r t).tpc = c.tpc := by unfold CT.setVTag; split <;> rfl
@[simp] theorem CT.setVTag_loops (c : CT) (r : Nat) (t : Tag) : (c.setVTag r t).loops = c.loops := by unfold CT.setVTag; split <;> rfl
@[simp] theorem CT.setVTag_lift (c : CT) (r : Nat) (t : Tag) : (c.setVTag r t).lift = c.lift := by unfold CT.setVTag; split <;> rfl
@[simp] theorem CT.setVTag_strip (c : CT) (r : Nat) (t : Tag) : (c.setVTag r t).strip = c.strip := by unfold CT.setVTag; split <;> rfl
@[simp] theorem CT.setVTag_again (c : CT) (r : Nat) (t : Tag) : (c.setVTag r t).again = c.again := by unfold CT.setVTag; split <;> rfl
@[simp] theorem CT.setVTag_held (c : CT) (r : Nat) (t : Tag) : (c.setVTag r t).held = c.held := by unfold CT.setVTag; split <;> rfl
@[simp] theorem CT.setVTag_loc (c : CT) (r : Nat) (t : Tag) : (c.setVTag r t).loc = c.loc := by unfold CT.setVTag; split <;> rfl
@[simp] theorem CT.setVTag_locBad (c : CT) (r : Nat) (t : Tag) : (c.setVTag r t).locBad = c.locBad := by unfold CT.setVTag; split <;> rfl
@[simp] theorem CT.setVTag_locStuck (c : CT) (r : Nat) (t : Tag) : (c.setVTag r t).locStuck = c.locStuck := by unfold CT.setVTag; split <;> rfl
@[simp] theorem CT.setVTag_regBad (c : CT) (r : Nat) (t : Tag) : (c.setVTag r t).regBad = c.regBad := by unfold CT.setVTag; split <;> rfl
@[simp] theorem CT.setVTag_trail (c : CT) (r : Nat) (t : Tag) : (c.setVTag r t).trail = c.trail := by unfold CT.setVTag; split <;> rfl
@[simp] theorem CT.setVTag_trailStuck (c : CT) (r : Nat) (t : Tag) : (c.setVTag r t).trailStuck = c.trailStuck := by unfold CT.setVTag; split <;> rfl
@[simp] theorem CT.setVTag_view (c : CT) (r : Nat) (t : Tag) : (c.setVTag r t).view = c.view := by unfold CT.setVTag; split <;> rfl
@[simp] theorem CT.setVTag_viewStuck (c : CT) (r : Nat) (t : Tag) : (c.setVTag r t).viewStuck = c.viewStuck := by unfold CT.setVTag; split <;> rfl
@[simp] theorem CT.setVTag_rp (c : CT) (r : Nat) (t : Tag) : (c.setVTag r t).rp = c.rp := by unfold CT.setVTag; split <;> rfl
@[simp] theorem CT.setVTag_out (c : CT) (r : Nat) (t : Tag) : (c.setVTag r t).out = c.out := by unfold CT.setVTag; split <;> rfl
@[simp] theorem CT.setVTag_marks (c : CT) (r : Nat) (t : Tag) : (c.setVTag r t).marks = c.marks := by unfold CT.setVTag; split <;> rfl
@[simp] theorem CT.setVTag_early (c : CT) (r : Nat) (t : Tag) : (c.setVTag r t).early = c.early := by unfold CT.setVTag; split <;> rfl
@[simp] theorem CT.setVTag_acqd (c : CT) (r : Nat) (t : Tag) : (c.setVTag r t).acqd = c.acqd := by unfold CT.setVTag; split <;> rfl
@[simp] theorem CT.setVTag_delay (c : CT) (r : Nat) (t : Tag) : (c.setVTag r t).delay = c.delay := by unfold CT.setVTag; split <;> rfl
@[simp] theorem CT.setVTag_slow (c : CT) (r : Nat) (t : Tag) : (c.setVTag r t).slow = c.slow := by unfold CT.setVTag; split <;> rfl
@[simp] theorem CT.setVTag_owed (c : CT) (r : Nat) (t : Tag) : (c.setVTag r t).owed = c.owed := by unfold CT.setVTag; split <;> rfl
@[simp] theorem CT.setVTag_putOff (c : CT) (r : Nat) (t : Tag) : (c.setVTag r t).putOff = c.putOff := by unfold CT.setVTag; split <;> rfl
@[simp] theorem CT.setVTag_streams (c : CT) (r : Nat) (t : Tag) : (c.setVTag r t).streams = c.streams := by unfold CT.setVTag; split <;> rfl
@[simp] theorem CT.setVTag_tls (c : CT) (r : Nat) (t : Tag) : (c.setVTag r t).tls = c.tls := by unfold CT.setVTag; split <;> rfl
@[simp] theorem CT.setVTag_cmds (c : CT) (r : Nat) (t : Tag) : (c.setVTag r t).cmds = c.cmds := by unfold CT.setVTag; split <;> rfl
@[simp] theorem CT.setVTag_children (c : CT) (r : Nat) (t : Tag) : (c.setVTag r t).children = c.children := by unfold CT.setVTag; split <;> rfl
@[simp] theorem CT.setVTag_vq (c : CT) (r : Nat) (t : Tag) : (c.setVTag r t).vq = c.vq := by unfold CT.setVTag; split <;> rfl
@[simp] theorem CT.setVTag_frozen (c : CT) (r : Nat) (t : Tag) : (c.setVTag r t).frozen = c.frozen := by unfold CT.setVTag; split <;> rfl
@[simp] theorem CT.setVTag_deficit (c : CT) (r : Nat) (t : Tag) : (c.setVTag r t).deficit = c.deficit := by unfold CT.setVTag; split <;> rfl
@[simp] theorem CT.setVTag_passed (c : CT) (r : Nat) (t : Tag) : (c.setVTag r t).passed = c.passed := by unfold CT.setVTag; split <;> rfl
@[simp] theorem CT.setVTag_front (c : CT) (r : Nat) (t : Tag) : (c.setVTag r t).front = c.front := by unfold CT.setVTag; split <;> rfl
@[simp] theorem CT.setVTag_shadow (c : CT) (r : Nat) (t : Tag) : (c.setVTag r t).shadow = c.shadow := by unfold CT.setVTag; split <;> rfl
@[simp] theorem CT.setVTag_planesValid (c : CT) (r : Nat) (t : Tag) : (c.setVTag r t).planesValid = c.planesValid := by unfold CT.setVTag; split <;> rfl
@[simp] theorem CT.setVTag_planesSaved (c : CT) (r : Nat) (t : Tag) : (c.setVTag r t).planesSaved = c.planesSaved := by unfold CT.setVTag; split <;> rfl
@[simp] theorem CT.setVTag_pushFront (c : CT) (r : Nat) (t : Tag) : (c.setVTag r t).pushFront = c.pushFront := by unfold CT.setVTag; split <;> rfl
@[simp] theorem CT.setVTag_pushShadow (c : CT) (r : Nat) (t : Tag) : (c.setVTag r t).pushShadow = c.pushShadow := by unfold CT.setVTag; split <;> rfl
@[simp] theorem CT.setVTag_xfer (c : CT) (r : Nat) (t : Tag) : (c.setVTag r t).xfer = c.xfer := by unfold CT.setVTag; split <;> rfl
@[simp] theorem CT.setVTag_kernel (c : CT) (r : Nat) (t : Tag) : (c.setVTag r t).kernel = c.kernel := by unfold CT.setVTag; split <;> rfl
@[simp] theorem CT.setVTag_launch (c : CT) (r : Nat) (t : Tag) : (c.setVTag r t).launch = c.launch := by unfold CT.setVTag; split <;> rfl
@[simp] theorem CT.setVTag_task (c : CT) (r : Nat) (t : Tag) : (c.setVTag r t).task = c.task := by unfold CT.setVTag; split <;> rfl
@[simp] theorem CT.setVTag_imageIn (c : CT) (r : Nat) (t : Tag) : (c.setVTag r t).imageIn = c.imageIn := by unfold CT.setVTag; split <;> rfl
@[simp] theorem CT.setVTag_col0 (c : CT) (r : Nat) (t : Tag) : (c.setVTag r t).col0 = c.col0 := by unfold CT.setVTag; split <;> rfl
@[simp] theorem CT.setVTag_row0 (c : CT) (r : Nat) (t : Tag) : (c.setVTag r t).row0 = c.row0 := by unfold CT.setVTag; split <;> rfl
@[simp] theorem CT.setVTag_band (c : CT) (r : Nat) (t : Tag) : (c.setVTag r t).band = c.band := by unfold CT.setVTag; split <;> rfl
@[simp] theorem CT.setVTag_chk (c : CT) (r : Nat) (t : Tag) : (c.setVTag r t).chk = c.chk := by unfold CT.setVTag; split <;> rfl
@[simp] theorem CT.setVTag_wfe (c : CT) (r : Nat) (t : Tag) : (c.setVTag r t).wfe = c.wfe := by unfold CT.setVTag; split <;> rfl
@[simp] theorem CT.setVTag_ranOut (c : CT) (r : Nat) (t : Tag) : (c.setVTag r t).ranOut = c.ranOut := by unfold CT.setVTag; split <;> rfl
@[simp] theorem CT.setVTag_barw (c : CT) (r : Nat) (t : Tag) : (c.setVTag r t).barw = c.barw := by unfold CT.setVTag; split <;> rfl
@[simp] theorem CT.setVTag_preempt (c : CT) (r : Nat) (t : Tag) : (c.setVTag r t).preempt = c.preempt := by unfold CT.setVTag; split <;> rfl

/-! ### Registers after an update -/

@[simp] theorem CT.getG_zero (c : CT) : c.getG 0 = 0 := rfl
@[simp] theorem CT.getP_zero (c : CT) : c.getP 0 = BitVec.allOnes 2048 := rfl
@[simp] theorem CT.getGTag_zero (c : CT) : c.getGTag 0 = 0 := rfl
@[simp] theorem CT.getPTag_zero (c : CT) : c.getPTag 0 = 0 := rfl
@[simp] theorem CT.setG_zero (c : CT) (w : W64) : c.setG 0 w = c := rfl
@[simp] theorem CT.setP_zero (c : CT) (w : PBits) : c.setP 0 w = c := rfl
theorem CT.getG_setG (c : CT) {r : GReg} (w : W64) (h : r ≠ 0) : (c.setG r w).getG r = w := by
  simp [CT.getG, CT.setG, h, vget]
theorem CT.getG_setG_ne (c : CT) {r k : GReg} (w : W64) (h : k ≠ r) : (c.setG r w).getG k = c.getG k := by
  have hne : r.val ≠ k.val := fun e => h (Fin.ext e.symm)
  unfold CT.getG CT.setG
  by_cases hr : r = 0 <;> simp [hr, vget, hne]
theorem CT.getP_setP (c : CT) {r : PReg} (w : PBits) (h : r ≠ 0) : (c.setP r w).getP r = w := by
  simp [CT.getP, CT.setP, h, vget]
theorem CT.getP_setP_ne (c : CT) {r k : PReg} (w : PBits) (h : k ≠ r) : (c.setP r w).getP k = c.getP k := by
  have hne : r.val ≠ k.val := fun e => h (Fin.ext e.symm)
  unfold CT.getP CT.setP
  by_cases hr : r = 0 <;> simp [hr, vget, hne]
theorem CT.getV_setV (c : CT) {r : Nat} (x : VReg) (h : r < 48) : (c.setV r x).getV r = x := by
  simp [CT.getV, CT.setV, h]
theorem CT.getV_setV_ne (c : CT) {r k : Nat} (x : VReg) (h : k ≠ r) : (c.setV r x).getV k = c.getV k := by
  unfold CT.getV CT.setV
  by_cases hk : k < 48 <;> by_cases hr : r < 48 <;> simp [hk, hr, h.symm]

@[simp] theorem CT.getG_setP_other (c : CT) (r : PReg) (w : PBits) (k : GReg) : (c.setP r w).getG k = c.getG k := by simp [CT.getG]
@[simp] theorem CT.getG_setV_other (c : CT) (r : Nat) (x : VReg) (k : GReg) : (c.setV r x).getG k = c.getG k := by simp [CT.getG]
@[simp] theorem CT.getG_setGTag_other (c : CT) (r : GReg) (t : Tag) (k : GReg) : (c.setGTag r t).getG k = c.getG k := by simp [CT.getG]
@[simp] theorem CT.getG_setPTag_other (c : CT) (r : PReg) (t : Tag) (k : GReg) : (c.setPTag r t).getG k = c.getG k := by simp [CT.getG]
@[simp] theorem CT.getG_setVTag_other (c : CT) (r : Nat) (t : Tag) (k : GReg) : (c.setVTag r t).getG k = c.getG k := by simp [CT.getG]
@[simp] theorem CT.getP_setG_other (c : CT) (r : GReg) (w : W64) (k : PReg) : (c.setG r w).getP k = c.getP k := by simp [CT.getP]
@[simp] theorem CT.getP_setV_other (c : CT) (r : Nat) (x : VReg) (k : PReg) : (c.setV r x).getP k = c.getP k := by simp [CT.getP]
@[simp] theorem CT.getP_setGTag_other (c : CT) (r : GReg) (t : Tag) (k : PReg) : (c.setGTag r t).getP k = c.getP k := by simp [CT.getP]
@[simp] theorem CT.getP_setPTag_other (c : CT) (r : PReg) (t : Tag) (k : PReg) : (c.setPTag r t).getP k = c.getP k := by simp [CT.getP]
@[simp] theorem CT.getP_setVTag_other (c : CT) (r : Nat) (t : Tag) (k : PReg) : (c.setVTag r t).getP k = c.getP k := by simp [CT.getP]
@[simp] theorem CT.getV_setG_other (c : CT) (r : GReg) (w : W64) (k : Nat) : (c.setG r w).getV k = c.getV k := by simp [CT.getV]
@[simp] theorem CT.getV_setP_other (c : CT) (r : PReg) (w : PBits) (k : Nat) : (c.setP r w).getV k = c.getV k := by simp [CT.getV]
@[simp] theorem CT.getV_setGTag_other (c : CT) (r : GReg) (t : Tag) (k : Nat) : (c.setGTag r t).getV k = c.getV k := by simp [CT.getV]
@[simp] theorem CT.getV_setPTag_other (c : CT) (r : PReg) (t : Tag) (k : Nat) : (c.setPTag r t).getV k = c.getV k := by simp [CT.getV]
@[simp] theorem CT.getV_setVTag_other (c : CT) (r : Nat) (t : Tag) (k : Nat) : (c.setVTag r t).getV k = c.getV k := by simp [CT.getV]
@[simp] theorem CT.getGTag_setG_other (c : CT) (r : GReg) (w : W64) (k : GReg) : (c.setG r w).getGTag k = c.getGTag k := by simp [CT.getGTag]
@[simp] theorem CT.getGTag_setP_other (c : CT) (r : PReg) (w : PBits) (k : GReg) : (c.setP r w).getGTag k = c.getGTag k := by simp [CT.getGTag]
@[simp] theorem CT.getGTag_setV_other (c : CT) (r : Nat) (x : VReg) (k : GReg) : (c.setV r x).getGTag k = c.getGTag k := by simp [CT.getGTag]
@[simp] theorem CT.getGTag_setPTag_other (c : CT) (r : PReg) (t : Tag) (k : GReg) : (c.setPTag r t).getGTag k = c.getGTag k := by simp [CT.getGTag]
@[simp] theorem CT.getGTag_setVTag_other (c : CT) (r : Nat) (t : Tag) (k : GReg) : (c.setVTag r t).getGTag k = c.getGTag k := by simp [CT.getGTag]
@[simp] theorem CT.getPTag_setG_other (c : CT) (r : GReg) (w : W64) (k : PReg) : (c.setG r w).getPTag k = c.getPTag k := by simp [CT.getPTag]
@[simp] theorem CT.getPTag_setP_other (c : CT) (r : PReg) (w : PBits) (k : PReg) : (c.setP r w).getPTag k = c.getPTag k := by simp [CT.getPTag]
@[simp] theorem CT.getPTag_setV_other (c : CT) (r : Nat) (x : VReg) (k : PReg) : (c.setV r x).getPTag k = c.getPTag k := by simp [CT.getPTag]
@[simp] theorem CT.getPTag_setGTag_other (c : CT) (r : GReg) (t : Tag) (k : PReg) : (c.setGTag r t).getPTag k = c.getPTag k := by simp [CT.getPTag]
@[simp] theorem CT.getPTag_setVTag_other (c : CT) (r : Nat) (t : Tag) (k : PReg) : (c.setVTag r t).getPTag k = c.getPTag k := by simp [CT.getPTag]
@[simp] theorem CT.getVTag_setG_other (c : CT) (r : GReg) (w : W64) (k : Nat) : (c.setG r w).getVTag k = c.getVTag k := by simp [CT.getVTag]
@[simp] theorem CT.getVTag_setP_other (c : CT) (r : PReg) (w : PBits) (k : Nat) : (c.setP r w).getVTag k = c.getVTag k := by simp [CT.getVTag]
@[simp] theorem CT.getVTag_setV_other (c : CT) (r : Nat) (x : VReg) (k : Nat) : (c.setV r x).getVTag k = c.getVTag k := by simp [CT.getVTag]
@[simp] theorem CT.getVTag_setGTag_other (c : CT) (r : GReg) (t : Tag) (k : Nat) : (c.setGTag r t).getVTag k = c.getVTag k := by simp [CT.getVTag]
@[simp] theorem CT.getVTag_setPTag_other (c : CT) (r : PReg) (t : Tag) (k : Nat) : (c.setPTag r t).getVTag k = c.getVTag k := by simp [CT.getVTag]

/-- Setting the tag a register already has changes nothing. -/
theorem CT.setGTag_same (c : CT) (r : GReg) (h : c.getGTag r = 0) : c.setGTag r 0 = c := by
  unfold CT.setGTag
  split
  · rfl
  · have h2 : c.gtag[r.val] = 0 := by simpa [CT.getGTag, *, vget] using h
    rw [← h2, Vector.set_getElem_self]
theorem CT.setPTag_same (c : CT) (r : PReg) (h : c.getPTag r = 0) : c.setPTag r 0 = c := by
  unfold CT.setPTag
  split
  · rfl
  · have h2 : c.ptag[r.val] = 0 := by simpa [CT.getPTag, *, vget] using h
    rw [← h2, Vector.set_getElem_self]
theorem CT.setVTag_same (c : CT) (r : Nat) (h : c.getVTag r = 0) : c.setVTag r 0 = c := by
  unfold CT.setVTag
  split
  · rename_i hr
    have h2 : c.vtag[r] = 0 := by simpa [CT.getVTag, hr] using h
    rw [← h2, Vector.set_getElem_self]
  · rfl

end Sys2Proof.Machine
end

