-- ==== Sys2Proof/Laws/Scalar.lean ====
section
/-! SUPPORT. What the frame of scalar instructions does (R419, R270): the one lemma that instructions cite instead of
unfolding it. -/

namespace Sys2Proof.Machine

open Sys2Proof

theorem overNumber_none {ns : List (Nat × Nat)} (h : ∀ q ∈ ns, q.1 < q.2) : overNumber ns = none := by
  have : ns.filter (fun q => decide (q.2 ≤ q.1)) = [] := by
    rw [List.filter_eq_nil_iff]
    intro q hq
    have := h q hq
    simp only [decide_eq_true_eq]
    omega
  simp [overNumber, this]

theorem foldl_keep {α β : Type} (f : β → α → β) (xs : List α) (c : β) (h : ∀ x ∈ xs, f c x = c) : xs.foldl f c = c := by
  induction xs with
  | nil => rfl
  | cons x xs ih =>
    rw [List.foldl_cons, h x (by simp)]
    exact ih (fun y hy => h y (by simp [hy]))

theorem foldl_or_zero {α : Type} (f : α → Tag) (xs : List α) (h : ∀ x ∈ xs, f x = 0) :
    xs.foldl (fun t x => t ||| f x) (0 : Tag) = 0 := by
  apply foldl_keep
  intro x hx
  rw [h x hx]; rfl

theorem mask_zero {c : CT} (h : c.lift.regions = []) : c.mask = 0 := by simp [CT.mask, h]

theorem readTags_zero {c : CT} {m : Shape} (hr : c.lift.regions = []) (ht : ∀ x ∈ m.reads ++ m.writes, c.refTag x = 0) :
    readTags c m = 0 := by
  unfold readTags
  rw [mask_zero hr]
  exact foldl_or_zero _ _ (fun x hx => ht x (by simp [hx]))

theorem copyTag_zero {c : CT} {m : Shape} (hr : c.lift.regions = []) (ht : ∀ x ∈ m.reads ++ m.writes, c.refTag x = 0)
    (hon : ∀ t, m.rule = .on t → t = 0) : copyTag c m = 0 := by
  unfold copyTag
  simp only [mask_zero hr]
  cases h : m.rule with
  | on t => simpa using hon t h
  | once => rfl
  | unmasked => rfl
  | copies => simpa using readTags_zero hr ht
  | unbatched => simpa using readTags_zero hr ht

theorem indirectTag_zero {c : CT} {m : Shape} (hr : c.lift.regions = [])
    (ht : ∀ x ∈ m.reads ++ m.writes, c.refTag x = 0) : indirectTag c m = 0 := by
  unfold indirectTag
  cases h : m.rule <;> simp [mask_zero hr, readTags_zero hr ht]

theorem clean_nil {c : CT} (xs : List BadReg) (h : c.regBad = []) : c.clean xs = c := by simp [CT.clean, h]

theorem badOperand_false {c : CT} (m : Shape) (h : c.regBad = []) : badOperand c m = false := by simp [badOperand, h]

theorem setTags_zero {c : CT} {m : Shape} (ht : ∀ x ∈ m.writes, c.refTag x = 0) (hb : c.regBad = []) :
    setTags c m 0 = c := by
  unfold setTags
  rw [foldl_keep _ _ c, clean_nil _ hb]
  intro x hx
  have h := ht x hx
  cases x with
  | g r => exact CT.setGTag_same c r h
  | p r => exact CT.setPTag_same c r h
  | v r w => exact CT.setVTag_same c r h

theorem settleFrame_none {s : State} {ag : Agent} (h : (s.ct ag).strip = none) : settleFrame s ag = s := by
  simp [settleFrame, h]

theorem commitStrip_none {s : State} {ag : Agent} (h : (s.ct ag).strip = none) : commitStrip s ag = .done s := by
  simp [commitStrip, h]

@[simp] theorem CT.setIndex_strip (c : CT) (r : GReg) (w : W64) : (c.setIndex r w).strip = c.strip := by
  unfold CT.setIndex
  cases markQueue r w c.vq <;> simp

@[simp] theorem loopTest_strip (c : CT) (pc : W64) (n fuel : Nat) : (loopTest c pc n fuel).strip = c.strip := by
  induction fuel generalizing c with
  | zero => rfl
  | succ k ih =>
    unfold loopTest
    split
    · rfl
    · simp only
      split
      · split
        · split
          · rfl
          · simp
        · rw [ih]
      · rfl

@[simp] theorem advance_strip (c : CT) (n : Nat) : (advance c n).strip = c.strip := by
  unfold advance
  simp only
  split <;> simp

@[simp] theorem CT.proceed_strip (c : CT) (n : Nat) : (c.proceed n).strip = c.strip := by
  have : (c.proceed n).strip = (advance c n).strip := rfl
  rw [this, advance_strip]
@[simp] theorem CT.landAt_strip (c : CT) (p : W64) : (c.landAt p).strip = c.strip := rfl

/-- An instruction whose registers are unbatched reads no copy, so no poisoned one. -/
theorem badCopy_none {c : CT} {m : Shape} (ht : ∀ x ∈ m.reads ++ m.writes, c.refTag x = 0) (t : Tag) (b : Nat) :
    badCopy c m t b = none := by
  unfold badCopy
  split
  · rfl
  · rw [List.findSome?_eq_none_iff]
    intro x hx
    simp [ht x (by simp [hx])]

/-- An undisturbed scalar instruction runs its body once, on the state as it stands; a normal end advances the thread,
a transfer sets its program counter, and a trap or a wait is the body's own. -/
theorem scalar_quiet {s : State} {m : Shape} {body : Nat → State → Res} (hp : m.priv = true → s.me.sup = true)
    (hd : ∀ q ∈ shapeNumbers s.me m, q.1 < q.2) (ht : ∀ x ∈ m.reads ++ m.writes, s.me.refTag x = 0)
    (hr : s.me.lift.regions = []) (hq : s.me.vq = []) (hs : s.me.strip = none)
    (hon : ∀ t, m.rule = .on t → t = 0)
    (hg : m.fault = none) (hb : s.me.regBad = []) :
    scalar s m body =
      match body ((s.me.lift.active.head?).getD 0) s with
      | .ok s2 => finish s m (.ok (s2.upd (fun c => setTags c m 0)))
      | .jump p s2 => finish s m (.jump p (s2.upd (fun c => setTags c m 0)))
      | r => finish s m r := by
  have hpriv : (m.priv && !s.me.sup) = false := by
    cases h : m.priv with
    | false => rfl
    | true => simp [hp h]
  have hqm : queueMeets s.me m.reads m.writes = false := by simp [queueMeets, hq]
  have haq : s.me.acqQueued = false := by simp [CT.acqQueued, hq]
  have hfh : frameHolds s.me m = false := by simp [frameHolds, queueHolds, hq]
  have hload : s.upd (fun c => m.reads.foldl (fun c x =>
      if c.refTag x = 0 then c
      else c.loadRef (lanes s s.cur) x (c.copyBytes x (c.refTag x) ((s.me.lift.active.head?).getD 0))) c) = s := by
    apply State.upd_id
    apply foldl_keep
    intro x hx
    rw [ht x (by simp [hx])]
    simp
  have hbody : runBody s m body =
      match body ((s.me.lift.active.head?).getD 0) s with
      | .ok s2 => finish s m (.ok (s2.upd (fun c => setTags c m 0)))
      | .jump p s2 => finish s m (.jump p (s2.upd (fun c => setTags c m 0)))
      | r => finish s m r := by
    unfold runBody
    simp only [indirectTag_zero hr ht, copyTag_zero hr ht hon]
    unfold runOnce
    simp only [hload]
    rewrite [if_neg (by simp), if_pos trivial]
    simp only [badCopy_none ht]
    all_goals (cases body ((s.me.lift.active.head?).getD 0) s <;> rfl)
  unfold scalar
  simp only [hpriv, overNumber_none hd, hg, hqm, haq, hfh, badOperand_false m hb, hq, hs, Option.isSome_none, Bool.and_false, Bool.or_false, ne_eq,
    not_true_eq_false, decide_false, commitStrip_none hs, hbody]
  cases m.commits <;> simp

theorem quiet_numbers {s : State} {m : Shape} (h : Quiet s m.reads m.writes) (hn : ∀ q ∈ m.numbers, q.1 < q.2) :
    ∀ q ∈ shapeNumbers s.me m, q.1 < q.2 := by
  intro q hq
  unfold shapeNumbers at hq
  rcases List.mem_append.mp hq with hq | hq
  · exact h.declared q (by unfold shapeNumbers; exact List.mem_append_left _ hq)
  · exact hn q hq

/-- An undisturbed instruction whose body ends normally with the current control thread changed by `f`. -/
theorem quiet_ok {s : State} {m : Shape} {body : Nat → State → Res} (f : CT → CT) (h : Quiet s m.reads m.writes)
    (hp : m.priv = true → s.me.sup = true) (hn : ∀ q ∈ m.numbers, q.1 < q.2) (hon : ∀ t, m.rule = .on t → t = 0) (hg : m.fault = none)
    (hb : body ((s.me.lift.active.head?).getD 0) s = .ok (s.upd f)) (hf : ∀ x ∈ m.writes, (f s.me).refTag x = 0)
    (hst : (f s.me).strip = none)
    (hc : (f s.me).regBad = []) :
    scalar s m body = .next (settled s m.size f) := by
  rw [scalar_quiet hp (quiet_numbers h hn) h.tags h.regions h.queue h.strip hon hg h.sound, hb]
  simp only [State.upd_upd, finish]
  have e2 : s.upd (fun c => (setTags (f c) m 0).proceed m.size) = settled s m.size f :=
    State.upd_congr s _ _ (by rw [setTags_zero hf hc])
  rw [e2, settleFrame_none]
  have : ((settled s m.size f).me).strip = none := by simp [settled, hst]
  exact this

/-- An undisturbed instruction whose body ends normally in a state of its own making. -/
theorem quiet_done {s s2 : State} {m : Shape} {body : Nat → State → Res} (h : Quiet s m.reads m.writes)
    (hp : m.priv = true → s.me.sup = true) (hn : ∀ q ∈ m.numbers, q.1 < q.2) (hon : ∀ t, m.rule = .on t → t = 0) (hg : m.fault = none)
    (hb : body ((s.me.lift.active.head?).getD 0) s = .ok s2) (hc : s2.cur = s.cur)
    (hf : ∀ x ∈ m.writes, s2.me.refTag x = 0) (hst : s2.me.strip = none)
    (hbad : s2.me.regBad = []) :
    scalar s m body = .next (settled s2 m.size id) := by
  rw [scalar_quiet hp (quiet_numbers h hn) h.tags h.regions h.queue h.strip hon hg h.sound, hb]
  simp only [State.upd_upd, finish]
  have e2 : s2.upd (fun c => (setTags c m 0).proceed m.size) = settled s2 m.size id :=
    State.upd_congr s2 _ _ (by rw [setTags_zero hf hbad]; rfl)
  rw [e2, ← hc, settleFrame_none]
  have : ((settled s2 m.size id).me).strip = none := by simp [settled, hst]
  exact this

/-- An undisturbed instruction whose body transfers control, with the current control thread changed by `f`. -/
theorem quiet_jump {s : State} {m : Shape} {body : Nat → State → Res} (f : CT → CT) (p : W64)
    (h : Quiet s m.reads m.writes) (hp : m.priv = true → s.me.sup = true) (hn : ∀ q ∈ m.numbers, q.1 < q.2)
    (hon : ∀ t, m.rule = .on t → t = 0) (hg : m.fault = none) (hb : body ((s.me.lift.active.head?).getD 0) s = .jump p (s.upd f))
    (hf : ∀ x ∈ m.writes, (f s.me).refTag x = 0) (hst : (f s.me).strip = none)
    (hc : (f s.me).regBad = []) :
    scalar s m body = .next (jumped s p f) := by
  rw [scalar_quiet hp (quiet_numbers h hn) h.tags h.regions h.queue h.strip hon hg h.sound, hb]
  simp only [State.upd_upd, finish]
  have e2 : s.upd (fun c => (setTags (f c) m 0).landAt p) = jumped s p f :=
    State.upd_congr s _ _ (by rw [setTags_zero hf hc])
  rw [e2, settleFrame_none]
  have : ((jumped s p f).me).strip = none := by simp [jumped, hst]
  exact this

/-- An undisturbed instruction whose body neither ends normally nor transfers control. -/
theorem quiet_other {s : State} {m : Shape} {body : Nat → State → Res} {r : Res}
    (h : Quiet s m.reads m.writes) (hp : m.priv = true → s.me.sup = true) (hn : ∀ q ∈ m.numbers, q.1 < q.2)
    (hon : ∀ t, m.rule = .on t → t = 0) (hg : m.fault = none) (hb : body ((s.me.lift.active.head?).getD 0) s = r)
    (h1 : ∀ t, r ≠ .ok t) (h2 : ∀ p t, r ≠ .jump p t) :
    scalar s m body = finish s m r := by
  rw [scalar_quiet hp (quiet_numbers h hn) h.tags h.regions h.queue h.strip hon hg h.sound, hb]
  cases r with
  | ok t => exact absurd rfl (h1 t)
  | jump p t => exact absurd rfl (h2 p t)
  | _ => rfl

end Sys2Proof.Machine
end

