-- ==== Sys2Proof/Tests/Slice0.lean ====
section
/-! SUPPORT. Tests of the model: words of the spec's encoding tables decode to the instructions they stand for, ill-formed
terms are refused, worked examples of the spec come out, and every hypothesis of a statement is met by some state. -/

namespace Sys2Proof.Tests

open Sys2Proof Sys2Proof.Machine

set_option maxRecDepth 100000

/-! ### Decoding (10_encoding_and_opcode_map.md and the encoding tables of the instruction files) -/

/-- Whether each list of parcels decodes to its instruction, and to as many parcels as it has. -/
def decodesTo (l : List (List (BitVec 32) × Instr)) : Bool :=
  l.all (fun e => (decode e.1).toOption == some (e.2, e.1.length))

/-- Whether each word decodes to its vector instruction. -/
def vecTo (l : List (Nat × Instr)) : Bool := l.all (fun e => (decodeVec e.1).toOption == some e.2)

/-- The fields of a vector instruction with no modifier. -/
def vf (vd va vb vc : BitVec 6) (t1 t2 : VTy) (fn : BitVec 9) : VFields :=
  ⟨vd, va, vb, vc, 0, false, t1, t2, 0, 0, false, fn⟩

-- Tables 10.3, 11.4, 15.3 and 18.3, and the programs of files 10, 16, 18 and 23
theorem test_decode_integer : decodesTo [([0x2E217FC0], .addi 2 2 0x7FC0), ([0x38B58005], .shri 11 11 5),
    ([0x04B5C800], .mul 11 11 18), ([0x29528000], .clz 21 5), ([0x3091807F], .andi 9 3 127), ([0x3E500003], .li 5 3),
    ([0xF0F00000, 0x00007FC0], .liLong 15 0x7FC0), ([0xF0700000, 0x00878684], .liLong 7 0x878684)] = true := by decide
theorem test_decode_predicate : decodesTo [([0x4080A500], .cmp .lt 1 9 8), ([0x42409801], .cmpi .ne 1 6 1),
    ([0x4240A400], .cmpi .ne 1 9 0)] = true := by decide
theorem test_decode_control : decodesTo [([0x5400000A], .call 10), ([0x51FFFFFE], .br 0x1FFFFFE),
    ([0x520A0003], .bp 2 true 3), ([0x5209FFD0], .bp 2 false 0x1FFD0), ([0x58108000], .jr 1 1),
    ([0x56008000], .ret 1)] = true := by decide
theorem test_decode_scalar_memory : decodesTo [([0x60522802], .lds 5 4 .w true 2), ([0x63602006], .sts 22 0 .w 6),
    ([0x62F72200], .sts 15 14 .w 512), ([0x64961108], .ldc 9 12 .h false 264)] = true := by decide
-- Tables 20.1, 20.3 (whose word for `wmwait` has the form of `spawn`; notes/assumptions/28.md) and 20.6
theorem test_decode_atomics : decodesTo [([0x70063438], .amo .swap true true false 0 12 13),
    ([0x70F70052], .amo .or true false true 15 14 0), ([0x70074030], .amo .add true true false 0 14 16),
    ([0x72729850], .cas true false true 7 5 6)] = true := by decide
theorem test_decode_ordering : decodesTo [([0x74000000], .rel), ([0x76000001], .acqPartition), ([0x76030000], .acq 6),
    ([0x78028000], .acqG 5), ([0x7C000003], .sbar 3), ([0x7E829C01], .wfeWatch 8 5 7)] = true := by decide
theorem test_decode_tasks : decodesTo [([0xC0A5B000], .panel 10 11 12), ([0xC0530080], .spawn 5 6),
    ([0xC0728100], .join 7 5), ([0xC0000180], .tdone), ([0xC0000201], .wmset 1), ([0xC09ADA80], .wmwait 9 21 22),
    ([0xC0530300], .ctkill 5 6)] = true := by decide
theorem test_decode_system : decodesTo [([0x80000005], .trap 5), ([0x82000000], .tret), ([0x84000000], .uret),
    ([0x86500001], .csrr 5 1), ([0x8C030001], .csrc 0 6 1), ([0x8E500000], .yield 5), ([0x90530000], .vsaveq 5 6),
    ([0x94530000], .pdrain 5 6), ([0x96030000], .preset 6), ([0x960D8000], .preset 27)] = true := by decide
-- Tables 18.3 and 19.3
theorem test_decode_engines : decodesTo [([0xAC000000], .cpy 0 0), ([0xA7078000], .sortr 16 15 0 false 0),
    ([0xAAE65800], .joinr 14 12 22 0 false 0), ([0xAAB51810], .joinr 11 10 6 1 false 0),
    ([0xA915C010], .mrgr 17 11 16 1 false 0), ([0xB40C8000], .tlwait 25 0), ([0xB7000018], .tlget 16 false 3 0),
    ([0xA0A80000], .rnew 10 16 false 0), ([0xA2050004], .ropenA 10 0)] = true := by decide
theorem test_decode_barriers : decodesTo [([0xBA028000], .barinit 5 0 0), ([0xBAF00080], .bararr 15 0),
    ([0xBA078100], .barwait 15 0)] = true := by decide
-- Tables 12.1, 15.3 and 16.7
theorem test_decode_configuration : decodesTo [([0xC2848007], .vsetvl 8 9 7), ([0xC450003C], .vsetf 5 0 3 .ds4),
    ([0xC460070F], .vsetf 6 7 0 .record), ([0xC6000001], .vsetg 0 1), ([0xC4000007], .vsetf 0 0 0 .bf16)] = true := by
  decide
theorem test_decode_lift : decodesTo [([0xC8028004], .lift 5 4), ([0xCA000000], .lend), ([0xCA600080], .lidx 6 0),
    ([0xCA838100], .lred 8 7 .add), ([0xCA83A580], .lpick 8 7 9), ([0xCAB00207], .ltag 11 0 7),
    ([0xCA000284], .lact 4)] = true := by decide
-- the PS convoy of Table 19.3 with the `vtag` word of that table, its lower half first
theorem test_decode_convoy : decodesTo [([0xE3800000, 0x00600000, 0x95040200],
    .convoyHeader ⟨1, 6, 0, 0, 0, 0, 0, false⟩ [0x9504020000600000])] = true := by decide
-- Tables 18.3 and 19.3, the example after Table 12.2 and the listing of file 10
theorem test_decode_vector_memory : vecTo [(0x0004400000900000, .vld (vf 1 4 0 0 .f32 .none 0)),
    (0x040C600000900000, .vst (vf 3 6 0 0 .f32 .none 0)), (0x0304400300600000, .vldseg (vf 1 4 0 3 .n32 .none 0)),
    (0x0714600300600000, .vstseg (vf 5 6 0 3 .n32 .none 0)), (0x0D08000000000000, .rapp (vf 2 0 0 0 .none .none 0)),
    (0x011841C006700002, .vlds ⟨6, 4, 7, 0, 3, false, .bf16, .none, 0, 0, false, 2⟩)] = true := by decide
-- Table 13.5
theorem test_decode_vector_integer : vecTo [
    (0x2014108006100200, .vadd ⟨5, 1, 2, 0, 3, false, .i8, .none, 0, 0, true, 0⟩),
    (0x200C330000500040, .vadd (vf 3 3 12 0 .n16 .none 0x40)),
    (0x2F1C40C000122280, .vnshr ⟨7, 4, 3, 0, 0, false, .i8, .i16, 1, 0, true, 0x80⟩),
    (0x3318824000300102, .vcmp (vf 6 8 9 0 .i32 .none 0x102))] = true := by decide
theorem test_decode_vector_floating : vecTo [(0x4308118200970000, .vfma (vf 2 1 6 2 .f32 .bf16 0)),
    (0x4A24108000900002, .vfcmp (vf 9 1 2 0 .f32 .none 2)), (0x4D0C100000700004, .vsfu (vf 3 1 0 0 .bf16 .none 4))] =
    true := by decide
-- Table 14.5 and Table 15.3
theorem test_decode_vector_moves : vecTo [(0x6014300000A90000, .vcvt (vf 5 3 0 0 .e4m3 .f32 0)),
    (0x6118600000702200, .vrnd ⟨6, 6, 0, 0, 0, false, .bf16, .none, 1, 0, true, 0⟩),
    (0x6810200000900002, .vbcast (vf 4 2 0 0 .f32 .none 2)), (0x6E1C108400960001, .vperm (vf 7 1 2 4 .f32 .n32 1)),
    (0x6F20108500600001, .vpush (vf 8 1 2 5 .n32 .none 1)), (0x7624224000970001, .vfredsum (vf 9 2 9 0 .f32 .bf16 1)),
    (0x7B0C108000000000, .vpand (vf 3 1 2 0 .none .none 0)), (0x7914600000000080, .vpopc (vf 5 6 0 0 .none .none 0x80)),
    (0x62081000004E0000, .vbscaleGet (vf 2 1 0 0 .n8 .mx4 0)), (0x6428A24000720001, .vexpnScl (vf 10 10 9 0 .bf16 .i16 1)),
    (0x7314310000400000, .vzip (vf 5 3 4 0 .n8 .none 0))] = true := by decide
-- Table 16.4
theorem test_decode_matrix : vecTo [(0x8001E00000A00000, .mld (vf 0 30 0 0 .e4m3 .none 0)),
    (0x8000400000DE0001, .mld (vf 0 4 0 0 .ds8 .mx4 1)), (0x8100000000000000, .mswap (vf 0 0 0 0 .none .none 0)),
    (0x8208100000A00000, .mxrO (vf 2 1 0 0 .e4m3 .none 0)), (0x8314100000A00007, .mxrF (vf 5 1 0 0 .e4m3 .none 7)),
    (0x841C000000000000, .mstat (vf 7 0 0 0 .none .none 0))] = true := by decide
-- Table 19.3
theorem test_decode_vector_sort : vecTo [(0x9504020000600000, .vtag (vf 1 0 8 0 .n32 .none 0)),
    (0x9108100300F00000, .vsortk (vf 2 1 0 3 .record .none 0))] = true := by decide
-- Tables 10.2 and 10.3: every other integer opcode
theorem test_decode_integer_map : decodesTo [([0x02531C00], .sub 5 6 7), ([0x06531C00], .mulh 5 6 7),
    ([0x08531C00], .mulhn 5 6 7), ([0x0A531C00], .div 5 6 7), ([0x0C531C00], .divn 5 6 7),
    ([0x0E531C00], .rem 5 6 7), ([0x10531C00], .remn 5 6 7), ([0x12531C00], .and 5 6 7), ([0x16531C00], .xor 5 6 7),
    ([0x18531C00], .andn 5 6 7), ([0x1A531C00], .shl 5 6 7), ([0x1C531C00], .shr 5 6 7), ([0x1E531C00], .sha 5 6 7),
    ([0x20531C00], .min 5 6 7), ([0x22531C00], .max 5 6 7), ([0x24531C00], .minn 5 6 7),
    ([0x26531C00], .maxn 5 6 7), ([0x2A530000], .ctz 5 6), ([0x2C530000], .popc 5 6),
    ([0x32537FFF], .ori 5 6 0x7FFF), ([0x34530009], .xori 5 6 9), ([0x3653003F], .shli 5 6 63),
    ([0x3A530020], .shai 5 6 32), ([0x3C504001], .lui 5 0x4001), ([0xF2500000, 0x01234567], .luiLong 5 0x01234567),
    ([0xF4500000, 0xFFFFFFFC], .addiLong 5 0xFFFFFFFC)] = true := by decide
-- Tables 10.2 and 10.3: predicate, control-flow and memory opcodes
theorem test_decode_control_map : decodesTo [([0x44018104], .pand 3 1 2), ([0x463F8104], .por 127 1 2),
    ([0x4801C004], .pxor 3 64 2), ([0x4A018100], .pnot 3 1), ([0x4C018100], .pmov 3 1), ([0x4E020300], .pall 4 3),
    ([0x4E420300], .pany 4 3), ([0x5A530007], .loopn 5 6 7), ([0x5C000005], .loope 5), ([0x5E000000], .nop),
    ([0x66532003], .stc 5 6 .w 3)] = true := by decide
-- Tables 10.3 and 10.5: ordering, system and engine opcodes with their form codes
theorem test_decode_system_map : decodesTo [([0x7A000000], .fenceSv), ([0x7A000080], .fenceVs),
    ([0x7A000100], .fenceVv), ([0x7A031D81], .fenceR true 6 7), ([0x7E500000], .wfe 5),
    ([0x88530103], .csrw 5 6 0x103), ([0x8A530103], .csrs 5 6 0x103), ([0x92530000], .vrestq 5 6),
    ([0x94530001], .pdrainGo 5 6), ([0xA0530080], .rseal 5 6), ([0xA0530100], .rfork 5 6), ([0xA0030180], .rdrop 6),
    ([0xA0530202], .rinfo 5 6 2), ([0xA050021D], .rinfoStream 5 3 1), ([0xA2531C02], .ropenR 5 6 7 2),
    ([0xA4000003], .rclose 3), ([0xAE531C04], .enqw 5 6 7 4), ([0xB0531C14], .rmig 5 6 7 2 4),
    ([0xB2030004], .stage 6 4), ([0xB403000C], .tlwaitEv 6 4), ([0xB803001C], .tlnotify 6 3 4),
    ([0xBA030189], .baradd 6 9), ([0xBC030004], .coll 6 4)] = true := by decide
-- Tables 10.7 and 10.10: vector memory, stream and sort opcodes
theorem test_decode_memory_map : vecTo [(0x0204408000900000, .vldx (vf 1 4 2 0 .f32 .none 0)),
    (0x050441C000900000, .vsts (vf 1 4 7 0 .f32 .none 0)), (0x0604408000900000, .vstx (vf 1 4 2 0 .f32 .none 0)),
    (0x0804400000900000, .vldc (vf 1 4 0 0 .f32 .none 0)), (0x0904400000900000, .vstc (vf 1 4 0 0 .f32 .none 0)),
    (0x0A04400000000000, .vspill (vf 1 4 0 0 .none .none 0)),
    (0x0B04400000000000, .vfill (vf 1 4 0 0 .none .none 0)), (0x0C08000000000003, .rld (vf 2 0 0 0 .none .none 3)),
    (0x0E04408000600000, .vamo (vf 1 4 2 0 .n32 .none 0)), (0x0F04400000900000, .vldb (vf 1 4 0 0 .f32 .none 0)),
    (0x9008100000F00000, .vsort (vf 2 1 0 0 .record .none 0)),
    (0x920810C000F00000, .vmrg (vf 2 1 3 0 .record .none 0)),
    (0x930810C000F00000, .vsegred (vf 2 1 3 0 .record .none 0)),
    (0x940810C000F00000, .vuniq (vf 2 1 3 0 .record .none 0)),
    (0x960810C000F00000, .vsplit (vf 2 1 3 0 .record .none 0)),
    (0x970810C000F00000, .vsrch (vf 2 1 3 0 .record .none 0))] = true := by decide
-- Table 10.10: vector integer opcodes
theorem test_decode_integer_lane_map : vecTo [(0x210C108000300000, .vsub (vf 3 1 2 0 .i32 .none 0)),
    (0x220C108000300000, .vmul (vf 3 1 2 0 .i32 .none 0)), (0x230C108000300000, .vmulh (vf 3 1 2 0 .i32 .none 0)),
    (0x240C108000300000, .vmacc (vf 3 1 2 0 .i32 .none 0)), (0x250C108000300000, .vwmul (vf 3 1 2 0 .i32 .none 0)),
    (0x260C108000300000, .vwmacc (vf 3 1 2 0 .i32 .none 0)), (0x270C108000300000, .vsadd (vf 3 1 2 0 .i32 .none 0)),
    (0x280C108000300000, .vssub (vf 3 1 2 0 .i32 .none 0)), (0x290C108000300000, .vand (vf 3 1 2 0 .i32 .none 0)),
    (0x2A0C108000300000, .vor (vf 3 1 2 0 .i32 .none 0)), (0x2B0C108000300000, .vxor (vf 3 1 2 0 .i32 .none 0)),
    (0x2C0C108000300000, .vshl (vf 3 1 2 0 .i32 .none 0)), (0x2D0C108000300000, .vshr (vf 3 1 2 0 .i32 .none 0)),
    (0x2E0C108000300000, .vsha (vf 3 1 2 0 .i32 .none 0)), (0x300C108000500000, .vmin (vf 3 1 2 0 .n16 .none 0)),
    (0x310C108000500000, .vmax (vf 3 1 2 0 .n16 .none 0)), (0x320C100000200000, .vabs (vf 3 1 0 0 .i16 .none 0))] = true := by decide
-- Table 10.10: vector floating opcodes
theorem test_decode_float_lane_map : vecTo [(0x400C108000900000, .vfadd (vf 3 1 2 0 .f32 .none 0)),
    (0x410C108000900000, .vfsub (vf 3 1 2 0 .f32 .none 0)), (0x420C108000900000, .vfmul (vf 3 1 2 0 .f32 .none 0)),
    (0x440C108400900000, .vfnma (vf 3 1 2 4 .f32 .none 0)), (0x450C108000900000, .vfdiv (vf 3 1 2 0 .f32 .none 0)),
    (0x460C108000900000, .vfmin (vf 3 1 2 0 .f32 .none 0)), (0x470C108000900000, .vfmax (vf 3 1 2 0 .f32 .none 0)),
    (0x480C100000900000, .vfabs (vf 3 1 0 0 .f32 .none 0)), (0x490C100000900000, .vfneg (vf 3 1 0 0 .f32 .none 0)),
    (0x4B24108000900005, .vcmpt (vf 9 1 2 0 .f32 .none 5)), (0x4C0C100000900000, .vfsqrt (vf 3 1 0 0 .f32 .none 0))] = true := by decide
-- Table 10.10: conversion, permutation, reduction and predicate opcodes
theorem test_decode_move_map : vecTo [(0x6310800000C90000, .vbquant (vf 4 8 0 0 .ds4 .f32 0)),
    (0x660C100000000000, .vmv (vf 3 1 0 0 .none .none 0)), (0x670C108400900000, .vsel (vf 3 1 2 4 .f32 .none 0)),
    (0x690C108000900000, .vextr (vf 3 1 2 0 .f32 .none 0)), (0x6A0C108000900000, .vins (vf 3 1 2 0 .f32 .none 0)),
    (0x6B0C000000600000, .viota (vf 3 0 0 0 .n32 .none 0)),
    (0x6C0C100400900000, .vcompress (vf 3 1 0 4 .f32 .none 0)),
    (0x6D0C100400900000, .vexpand (vf 3 1 0 4 .f32 .none 0)),
    (0x700C108000900000, .vslideup (vf 3 1 2 0 .f32 .none 0)),
    (0x710C108000900000, .vslidedn (vf 3 1 2 0 .f32 .none 0)),
    (0x720C100000900000, .vrev (vf 3 1 0 0 .f32 .none 0)), (0x740C108000400000, .vunzip (vf 3 1 2 0 .n8 .none 0)),
    (0x750C108000300000, .vredsum (vf 3 1 2 0 .i32 .none 0)),
    (0x770C108000300000, .vredmin (vf 3 1 2 0 .i32 .none 0)),
    (0x780C108000900000, .vredmax (vf 3 1 2 0 .f32 .none 0)),
    (0x7A0C100000000000, .vfirst (vf 3 1 0 0 .none .none 0)),
    (0x7C0C108000000000, .vpor (vf 3 1 2 0 .none .none 0)), (0x7D0C108000000000, .vpxor (vf 3 1 2 0 .none .none 0)),
    (0x7E0C100000000000, .vpnot (vf 3 1 0 0 .none .none 0)),
    (0x7F0C000000000000, .vpset (vf 3 0 0 0 .none .none 0))] = true := by decide
-- R170 and R172: reserved opcodes, and bits that must be zero, decode to nothing
theorem test_decode_reserved : ([0x00000001, 0x68000000, 0x6A000000, 0x74000001, 0xCA000001, 0xD0000000, 0xE2000001] : List (BitVec 32)).all
    (fun w => (decode [w]).toOption == none) = true := by decide
theorem test_decode_truncated : ([[], [0xF0F00000], [0xE3800000, 0x00600000]] : List (List (BitVec 32))).all
    (fun ps => (decode ps).toOption == none) = true := by decide
theorem test_encode_long : encode (.liLong 7 0x878684) = [0xF0700000, 0x00878684] := by decide
theorem test_decode_table_word : decodeTableWord 32 0x2E217FC0 = some (.addi 2 2 0x7FC0) := by decide

/-! ### Well-formed terms: one ill-formed term for each check -/

theorem test_ill_formed_sign_of_8_bytes : (Instr.lds 1 2 .d true 0).wellFormed = false ∧
    (Instr.ldc 1 2 .d true 0).wellFormed = false := by decide
theorem test_ill_formed_convoy_length :
    (Instr.convoyHeader ⟨2, 0, 1, 0, 0, 0, 0, false⟩ [0]).wellFormed = false := by decide
theorem test_ill_formed_shared_opcode : ([.vbscaleGet (vf 0 0 0 0 .n8 .mx4 1), .vbscaleSet (vf 0 0 0 0 .n8 .mx4 0),
    .vexpnGet (vf 0 0 0 0 .i16 .bf16 1), .vexpnScl (vf 0 0 0 0 .bf16 .i16 0), .vtailGet (vf 0 0 0 0 .n16 .f16 1),
    .vtailSet (vf 0 0 0 0 .f16 .n16 0), .vtailClr (vf 0 0 0 0 .f16 .none 1)] : List Instr).all (fun i => !i.wellFormed) =
    true := by decide
theorem test_ill_formed_queue : ([.sqDoorbell 6160 0, .cqHeadWrite 6160 0, .queueEnable 6160 1, .phseq 6160 0,
    .launchHead 6160, .stagingComplete 6160, .launchBind 6160, .watchdog 6160] : List Instr).all (fun i => !i.wellFormed) =
    true := by decide
theorem test_ill_formed_function : (Instr.functionLevelReset 0).wellFormed = false ∧
    (Instr.functionLevelReset 385).wellFormed = false ∧ (Instr.partitionCreate 0 385 1 0).wellFormed = false ∧
    (Instr.runTableHostWrite 385 0).wellFormed = false ∧ (Instr.runTableHostWrite 0 (2 ^ 20)).wellFormed = false := by
  decide

/-! ### Small states -/

/-- The declarations of the tests' kernel. -/
def kern : Kernel :=
  let registers := { Kernel.none with vregs := 48, gregs := 32, pregs := 128 }
  let memory := { registers with loc := 2 ^ 18, com := 2 ^ 16, lift := 2 ^ 16 }
  { memory with code := 1, nbar := 2, ngrp := 1, nst := 2, ntl := 2 }

/-- A launch record. -/
def rec0 : LaunchRec :=
  { hseq := 1, kern := 9, npar := 0, tasks := 4, width := 1, cond := false, sense := false, npred := 0, limg := 0, caddr := 0
    rows := 3, cols := 5, pbase := 0, preds := [], gaddr := 0, stride := 0, zeroOk := true }

/-- A launch that runs on control threads 0 and 1, whose group 0 holds both; barrier 0 expects two. -/
def launch0 : Launch :=
  { lrec := rec0, params := [], fn := 0, part := 0, q := 0, parent := none, depth := 1, state := .running, kernel := kern, pval := 0
    bound := [0, 1], blocks := [], groups := [3], bars := Vector.replicate 16 ⟨2, 0, 0, 0, 0, false⟩, dealt := true, ended := 0, ok := 0
    cause := 0, flt := false, kil := false, firstKill := false, runs := [] }

/-- Partition 0, of core 0, with the word 5 at common address 8. -/
def part0 : Partition :=
  { fn := 0, locw := 4, coms := 1, trsz := 0, crep := false, chk := false, common := [0], home := [(8, 5)], homeBad := [], grans := []
    conflict := Conflict.zero, drained := false, stopDispatch := false, floor := 0, ceil := 8, target := 1, prog := 0, lastQ := []
    turns := [] }

/-- A run of one page on a frame. -/
def run0 (state : RunState) (recsz length wmark streams frame : Nat) : Run :=
  ⟨state, false, false, recsz, 40 + frame, 0, length, wmark, streams, [], false, [⟨frame, 0, false, 0⟩], []⟩

/-- Control thread 0 in its task. -/
def ct0 : CT := { CT.reset with pc := 8, status := .running, kernel := kern, launch := some 7, task := some 0 }

/-- A thread with values in registers. -/
def withG (l : List (GReg × W64)) (c : CT) : CT := l.foldl (fun c x => c.setG x.1 x.2) c

/-- The package with one partition and one launch, control thread 0 about to run: code run 1 of 1,024 bytes; run 2 open
with records to publish, 3 truncated, 4 sealed, 5 open and empty, 6 sealed of 16-byte records. -/
def base : State :=
  { State.reset with
    cur := 0
    cts := (State.reset.cts.set 0 ct0).set 1 { ct0 with task := some 1 }
    cores := State.reset.cores.set 0 { Core.reset with part := some 0 }
    dies := Vector.replicate 4 { Die.reset with up := true }
    parts := State.reset.parts.set 0 (some part0)
    runs := [(1, run0 .sealed 64 16 16 0 5),
      (2, { run0 .open_ 64 4 2 1 6 with ranges := [⟨2, 2, .stream 0 0, false⟩] }),
      (3, run0 .truncated 64 4 4 0 7), (4, run0 .sealed 64 4 4 1 8), (5, run0 .open_ 16 0 0 0 9), (6, run0 .sealed 16 4 4 0 10)]
    frames := [(5, ⟨1, [], []⟩), (6, ⟨1, [], []⟩), (7, ⟨1, [], []⟩), (8, ⟨1, [], []⟩), (9, ⟨1, [], []⟩), (10, ⟨1, [], []⟩)]
    launches := [(7, launch0)]
    nextLaunch := 8 }

/-- The package with control thread 0 changed. -/
def st (f : CT → CT) : State := base.upd f

/-- Whether `Clear` holds. -/
def clearB (s : State) (reads writes : List RegRef) : Bool :=
  (shapeNumbers s.me { reads := reads, writes := writes }).all (fun q => decide (q.1 < q.2)) &&
    (reads ++ writes).all (fun x => s.me.refTag x == 0) && s.me.lift.regions.isEmpty && s.me.vq.isEmpty &&
    s.me.regBad.isEmpty

theorem clear_of {s : State} {reads writes : List RegRef} (h : clearB s reads writes = true) : Clear s reads writes := by
  simp only [clearB, Bool.and_eq_true, List.all_eq_true, decide_eq_true_eq, beq_iff_eq, List.isEmpty_iff] at h
  exact ⟨h.1.1.1.1, h.1.1.1.2, h.1.1.2, h.1.2, h.2⟩

/-- Whether `Quiet` holds. -/
def quietB (s : State) (reads writes : List RegRef) : Bool :=
  clearB s reads writes && s.me.strip.isNone && s.me.held.isEmpty && s.me.out.isEmpty && s.me.marks.isEmpty

theorem quiet_of {s : State} {reads writes : List RegRef} (h : quietB s reads writes = true) : Quiet s reads writes := by
  simp only [quietB, Bool.and_eq_true, Option.isNone_iff_eq_none, List.isEmpty_iff] at h
  exact ⟨clear_of h.1.1.1.1, h.1.1.1.2, h.1.1.2, h.1.2, h.2⟩

/-- Whether the rest of `VQuiet` holds. -/
def vquietB (s : State) (i : Instr) (m : Form) (f : VFields) : Bool :=
  isUser s.cur && bitsOk m f && (instrNumbers s.me (lanes s s.cur) ⟨i, m, f, s.me.pc⟩).all (fun q => decide (q.1 < q.2)) &&
    vtypeOk s.me (lanes s s.cur) ⟨i, m, f, s.me.pc⟩ &&
    (singles s.me.vtype s.me.vl (lanes s s.cur) (vecReads m f ++ vecWrites m f)).all (fun x => s.me.refTag x == 0) &&
    s.me.lift.regions.isEmpty && s.me.vq.isEmpty && s.me.frozen.isNone && s.me.regBad.isEmpty && s.me.out.isEmpty &&
    s.me.marks.isEmpty && s.me.held.isEmpty && !s.me.spilling && s.me.lift.resume.isNone && (s.cores.get (coreOf s.cur)).upset.isNone

theorem vquiet_of {s : State} {i : Instr} {m : Form} {f : VFields} (hm : formOf i = some m) (hf : fieldsOf i = some f)
    (h : vquietB s i m f = true) : VQuiet s i m f := by
  simp only [vquietB, Bool.and_eq_true, List.all_eq_true, decide_eq_true_eq, beq_iff_eq, List.isEmpty_iff,
    Option.isNone_iff_eq_none, Bool.not_eq_true'] at h
  obtain ⟨⟨⟨⟨⟨⟨⟨⟨⟨⟨⟨⟨⟨⟨h1, h2⟩, h3⟩, h4⟩, h5⟩, h6⟩, h7⟩, h8⟩, h9⟩, h10⟩, h11⟩, h12⟩, h13⟩, h14⟩, h15⟩ := h
  exact ⟨h1, hm, hf, h2, h3, h4, h5, h6, h7, h8, h9, h10, h11, h12, h13, h14, h15⟩

/-! ### Some state meets the hypotheses of each statement -/

theorem sound_nil (a n : Nat) : Sound [] a n := fun _ _ => rfl

theorem witness_integer_results :
    (∃ w, integerResult (st id).me (.add 5 6 7) = some (5, [.g 6, .g 7], 1, w)) ∧ Quiet (st id) [.g 6, .g 7] [.g 5] ∧
      (∃ w, integerResult (st id).me (.li 0 1) = some (0, [], 1, w)) ∧ Quiet (st id) [] [.g 0] :=
  ⟨⟨_, rfl⟩, quiet_of (by decide), ⟨_, rfl⟩, quiet_of (by decide)⟩
theorem witness_bit_counts : Quiet (st id) [.g 31] [.g 0] := quiet_of (by decide)
theorem witness_predicate_results :
    (∃ b, predicateResult (st id).me (.cmp .lt 127 6 7) = some (127, [.g 6, .g 7], b)) ∧
      Quiet (st id) [.g 6, .g 7] [.p 127] := ⟨⟨_, rfl⟩, quiet_of (by decide)⟩
/-- Registers that hold addresses: 8, 1020, 1024, 3 and 9. -/
def stA : State := st (withG [(6, 8), (7, 1020), (8, 1024), (9, 3), (1, 12)])
theorem witness_branch_results :
    (Quiet stA [] [] ∧ (stA.me.pc + BitVec.ofInt 64 (4 * (253#25).toInt)).toNat < codeBytes stA stA.cur) ∧
    (Quiet stA [.p 0] [] ∧ (stA.me.getP 0).getLsbD 0 ≠ false ∧
      (stA.me.pc + BitVec.ofInt 64 (4 * (253#17).toInt)).toNat < codeBytes stA stA.cur ∧
      (stA.me.getP 0).getLsbD 0 = true) ∧ Quiet stA [] [.g 1] ∧
    (Quiet stA [.g 7] [] ∧ (stA.me.getG 7).toNat % 4 = 0 ∧ (stA.me.getG 7).toNat < codeBytes stA stA.cur) ∧
    Quiet stA [.g 7] [.g 0] :=
  ⟨⟨quiet_of (by decide), by decide⟩, ⟨quiet_of (by decide), by decide, by decide, by decide⟩, quiet_of (by decide),
    ⟨quiet_of (by decide), by decide, by decide⟩, quiet_of (by decide)⟩
theorem witness_branch_traps : isUser stA.cur = true ∧ stA.me.sup = false ∧
    (Quiet stA [] [] ∧ codeBytes stA stA.cur ≤ (stA.me.pc + BitVec.ofInt 64 (4 * (254#25).toInt)).toNat) ∧
    Quiet stA [] [.g 1] ∧ (Quiet stA [.g 9] [.g 1] ∧ (stA.me.getG 9).toNat % 4 ≠ 0) ∧
    (Quiet stA [.g 8] [.g 1] ∧ (stA.me.getG 8).toNat % 4 = 0 ∧ codeBytes stA stA.cur ≤ (stA.me.getG 8).toNat) :=
  ⟨by decide, by decide, ⟨quiet_of (by decide), by decide⟩, quiet_of (by decide), ⟨quiet_of (by decide), by decide⟩,
    quiet_of (by decide), by decide, by decide⟩
theorem witness_branch_traps_taken : isUser stA.cur = true ∧ stA.me.sup = false ∧ Quiet stA [.p 0] [] ∧
    (stA.me.getP 0).getLsbD 0 ≠ false ∧ codeBytes stA stA.cur ≤ (stA.me.pc + BitVec.ofInt 64 (4 * (254#17).toInt)).toNat :=
  ⟨by decide, by decide, quiet_of (by decide), by decide, by decide⟩
/-- In the body of one loop level, at its end. -/
def stL (left : Nat) : State := st (fun c => { c with loops := [⟨3, left, 0, 8, 9⟩] })
theorem witness_loop_results :
    (Quiet stA [.g 9] [.g 5] ∧ 0 < (1#15).toInt ∧ (∀ l ∈ stA.me.loops.head?, 12 ≤ l.stop.toNat) ∧ stA.me.getG 0 = 0 ∧
      Quiet stA [.g 0] [.g 5] ∧ stA.me.getG 9 ≠ 0 ∧ stA.me.loops.length < 6) ∧
    (Quiet (stL 2) [.p 0] [] ∧ (∃ l ls, (stL 2).me.loops = l :: ls) ∧ ((stL 2).me.getP 0).getLsbD 0 = true) ∧
    (Quiet stA [.p 1] [] ∧ stA.me.loops = [] ∧ (stA.me.getP 1).getLsbD 0 = false) :=
  ⟨⟨quiet_of (by decide), by decide, by decide, by decide, quiet_of (by decide), by decide, by decide⟩,
    ⟨quiet_of (by decide), ⟨_, _, rfl⟩, by decide⟩, quiet_of (by decide), by decide, by decide⟩
/-- In six levels, the innermost of which ends at byte 8. -/
def stSix : State := st (fun c => { withG [(9, 4)] c with pc := 0, loops := List.replicate 6 ⟨3, 2, 0, 8, 9⟩ })
theorem witness_loop_traps :
    (Quiet stA [.g 9] [.g 5] ∧ isUser stA.cur = true ∧ stA.me.sup = false ∧ (0#15).toInt ≤ 0 ∧ (0x7FFF#15).toInt ≤ 0) ∧
    (Quiet (stL 2) [.g 0] [.g 5] ∧ ∃ l ∈ (stL 2).me.loops.head?, l.stop.toNat < ((stL 2).me.pc + BitVec.ofInt 64 (4 * 1)).toNat) ∧
    (Quiet stSix [.g 9] [.g 5] ∧ stSix.me.getG 9 ≠ 0 ∧ 6 ≤ stSix.me.loops.length ∧
      ¬ ∃ l ∈ stSix.me.loops.head?, l.stop.toNat < (stSix.me.pc + BitVec.ofInt 64 (4 * 1)).toNat) :=
  ⟨⟨quiet_of (by decide), by decide, by decide, by decide, by decide⟩, ⟨quiet_of (by decide), by decide⟩,
    quiet_of (by decide), by decide, by decide, by decide⟩
theorem witness_loop_end : (∀ left ∈ [1, 2], Quiet (stL left) [] [] ∧ (stL left).me.inUev = false ∧
    (stL left).me.inTrap = false ∧ (stL left).me.loops = [⟨3, left, 0, 8, 9⟩]) ∧ (stL 2).me.pc.toNat ≤ 8 ∧
    8 < (stL 2).me.pc.toNat + 4 := by
  refine ⟨fun left h => ?_, by decide, by decide⟩
  have h : left = 1 ∨ left = 2 := by simpa using h
  rcases h with rfl | rfl <;> exact ⟨quiet_of (by decide), by decide, by decide, rfl⟩
theorem witness_system_call : Quiet (st id) [] [] ∧ isUser (st id).cur = true ∧ (st id).me.sup = false :=
  ⟨quiet_of (by decide), by decide, by decide⟩
/-- In a trap, in supervisor mode. -/
def stT : State := st (fun c => { c with sup := true, inTrap := true })
/-- In a user-event handler. -/
def stU : State := st (fun c => { c with inUev := true })
theorem witness_returns : (Quiet stT [] [] ∧ isUser stT.cur = true ∧ stT.me.sup = true ∧ stT.me.inTrap = true) ∧
    (Quiet stU [] [] ∧ stU.me.inUev = true) ∧ Quiet (st id) [] [] ∧ (st id).me.inUev = false :=
  ⟨⟨quiet_of (by decide), by decide, by decide, by decide⟩, ⟨quiet_of (by decide), by decide⟩, quiet_of (by decide), by decide⟩
/-- In the handler of a vector fault that has been taken, a convoy still in the queue; the trap came from user mode or not. -/
def stFz (nested : Bool) : State := stT.upd (fun c => { c with
  tcause := if nested then 0x10018 else 0x18, frozen := some ⟨.localBounds, 3, false, 8, 0, true⟩
  vq := [⟨[⟨.vadd (vf 3 4 5 0 .i32 .none 0), c.pushCtx 0, [], [], none, 0, false, none⟩], false, true, 0, false⟩] })
theorem witness_returns_frozen : ∀ b, isUser (stFz b).cur = true ∧ (stFz b).me.sup = true ∧ (stFz b).me.inTrap = true ∧
    (stFz b).me.vq ≠ [] ∧ (stFz b).me.frozen ≠ none ∧ (stFz b).me.tcause.getLsbD 16 = b ∧ stT.me.vq = [] := by decide
theorem witness_returns_sound : stT.me.regBad = [] ∧ ∀ b, (stFz b).me.regBad = [] := by decide
theorem witness_trap_round_trip : isUser (st id).cur = true ∧ (st id).me.sup = false ∧ (st id).me.inTrap = false ∧
    (st id).me.lift.resume = none := by decide
/-- Eight scalar registers declared. -/
def st8 : State := st (fun c => { c with kernel := { kern with gregs := 8 } })
theorem witness_issue_traps : isUser st8.cur = true ∧ st8.me.sup = false ∧ st8.me.vq = [] ∧ st8.me.strip = none ∧
    (∀ i ∈ [Instr.tret, .vsaveq 5 6, .vrestq 5 6, .rmig 1 2 3 1 0, .pdrain 5 6, .pdrainGo 5 6, .preset 6],
      (encodeScalar i).isSome = true) ∧
    (∃ w, integerResult st8.me (.add 8 6 7) = some (8, [.g 6, .g 7], 1, w)) ∧ st8.me.kernel.gregs ≤ (8 : GReg).val :=
  ⟨by decide, by decide, by decide, by decide, by decide, ⟨_, rfl⟩, by decide⟩
/-- In supervisor mode outside a trap. -/
def stS : State := st (fun c => { c with sup := true })
theorem witness_csr_reads : (∀ n ∈ [0x000, 0x001, 0x008, 0x009, 0x00A, 0x00B, 0x00C, 0x00D, 0x010, 0x011, 0x022, 0x023, 0x024,
      0x025, 0x026, 0x100, 0x101, 0x102, 0x103, 0x104],
      BitVec.ofNat 12 n ≠ 0x020 ∧ BitVec.ofNat 12 n ≠ 0x021 ∧ (n < 0x100 ∨ stS.me.sup = true)) ∧
    Quiet stS [] [.g 5] := ⟨by decide, quiet_of (by decide)⟩
theorem witness_csr_writes : Quiet stS [.g 6] [.g 5] ∧ stS.me.sup = true := ⟨quiet_of (by decide), by decide⟩
theorem witness_conflict_writes : Quiet (st id) [.g 6] [.g 5] ∧ partNo (st id) (st id).cur = some 0 ∧
    (st id).parts.get 0 = some part0 := ⟨quiet_of (by decide), by decide, by decide⟩
theorem witness_csr_traps : isUser (st id).cur = true ∧ (st id).me.sup = false ∧ (st id).me.vq = [] ∧
    (st id).me.strip = none ∧ (∀ n ∈ [0x100, 0x1FF], 0x100 ≤ (BitVec.ofNat 12 n).toNat ∧ (BitVec.ofNat 12 n).toNat < 0x200) ∧
    (∀ n ∈ [0x002, 0x0FF], (BitVec.ofNat 12 n).toNat < 0x100 ∧ (BitVec.ofNat 12 n).toNat ∉ csrNumbers) :=
  ⟨by decide, by decide, by decide, by decide, by decide, by decide⟩
/-- Registers that hold the last words of both spaces, an address beyond them and one that is not aligned. -/
def stM : State := st (withG [(6, 262136), (7, 65528), (8, 262144), (9, 65536), (10, 2), (11, 8), (12, 77)])
theorem witness_local_access : isUser stM.cur = true ∧ (memAddr stM.me 6 8 0).toNat % 8 = 0 ∧
    (memAddr stM.me 6 8 0).toNat + 8 ≤ stM.me.kernel.loc ∧ Sound stM.me.locBad (memAddr stM.me 6 8 0).toNat 8 ∧
    Quiet stM [.g 6] [.g 5] ∧ Quiet stM [.g 6, .g 5] [] :=
  ⟨by decide, by decide, by decide, sound_nil _ _, quiet_of (by decide), quiet_of (by decide)⟩
/-- A state whose next load meets a single-symbol error, and one whose does not. -/
theorem witness_corrected_read : tabGet stM.flips stM.cur.val = none ∧
    (∀ src ∈ [3, 7], tabGet { stM with flips := [(stM.cur.val, ⟨src, 0, 0, 0, 0, 8⟩, none)] }.flips stM.cur.val =
      some (⟨src, 0, 0, 0, 0, 8⟩, none)) := by decide
/-- In an open strip. -/
def stR : State := st (fun c => { c with strip := some ⟨⟨4, false, false, false, VType.reset, 0, []⟩, [.com 16 [9]], false, false, [], []⟩ })
theorem witness_strip_store : isUser stR.cur = true ∧ Clear stR [.g 0, .g 5] [] ∧
    (∃ p, stR.me.strip = some p ∧ p.overflow = false ∧ bufLocal p.writes + 8 ≤ Config.stripLocalCap ∧
      bufTrail p.writes ≤ Config.stripTrailCap) ∧
    (memAddr stR.me 0 8 1).toNat % 8 = 0 ∧ (memAddr stR.me 0 8 1).toNat + 8 ≤ stR.me.kernel.loc :=
  ⟨by decide, clear_of (by decide), ⟨_, rfl, by decide, by decide, by decide⟩, by decide, by decide⟩
/-- A trail with no room for another entry: 2,048 entries of 32 bytes. -/
def stF : State := st (fun c => { c with
  trail := { c.trail with entries := List.replicate 2048 (dataEntry 0 [1] []) } })
theorem full_trail : trailUsed stF.me.trail = 65536 := by
  have h : stF.me.trail = ⟨List.replicate 2048 (dataEntry 0 [1] []), 0, 0, 0, []⟩ := rfl
  rw [h, trailUsed, List.drop_zero, List.map_replicate, List.sum_replicate_nat]
  rfl
theorem witness_common_access : (memAddr stM.me 7 8 0).toNat % 8 = 0 ∧
    (memAddr stM.me 7 8 0).toNat + 8 ≤ stM.me.kernel.com ∧ SoundCom stM stM.cur (memAddr stM.me 7 8 0).toNat 8 ∧
    Quiet stM [.g 7] [.g 5] ∧ Quiet stM [.g 7, .g 5] [] ∧
    trailUsed stM.me.trail + 32 ≤ trailSize stM stM.cur ∧ stM.me.trail.done ≤ stM.me.trail.entries.length ∧
    (memAddr stF.me 0 8 1).toNat % 8 = 0 ∧ (memAddr stF.me 0 8 1).toNat + 8 ≤ stF.me.kernel.com ∧
    Quiet stF [.g 0, .g 5] [] ∧
    ¬ (trailUsed stF.me.trail + 32 ≤ trailSize stF stF.cur) :=
  ⟨by decide, by decide, by unfold SoundCom; decide, quiet_of (by decide), quiet_of (by decide), by decide, by decide, by decide, by decide,
    quiet_of (by decide), by
      rw [full_trail, show trailSize stF stF.cur = 65536 by decide]; decide⟩
/-- Whose next access of common memory is put off. -/
def stDl : State := stM.upd (fun c => { c with delay := true })
/-- With an access of 8 bytes at byte 16 put off, of g5. -/
def stSl (k : SlowKind) : State := stM.upd (fun c => { c with slow := some ⟨4, 5, 16, 8, k⟩ })
theorem witness_delayed_load : Delays stDl.me ∧ ¬ Delays stM.me ∧ Quiet stDl [.g 7] [.g 5] ∧ (memAddr stDl.me 7 8 0).toNat % 8 = 0 ∧
    (memAddr stDl.me 7 8 0).toNat + 8 ≤ stDl.me.kernel.com ∧ SoundCom stDl stDl.cur (memAddr stDl.me 7 8 0).toNat 8 ∧
    (∀ sx, (stSl (.load sx)).me.slow = some ⟨4, 5, 16, 8, .load sx⟩ ∧ (partNo (stSl (.load sx)) (stSl (.load sx)).cur).isSome = true ∧
      (memAddr (stSl (.load sx)).me 0 8 2).toNat = 16 ∧ SoundCom (stSl (.load sx)) (stSl (.load sx)).cur 16 8) := by
  refine ⟨by unfold Delays; decide, by unfold Delays; decide, quiet_of (by decide), by decide, by decide, by unfold SoundCom; decide, fun sx => ?_⟩
  cases sx <;> exact ⟨rfl, by decide, by decide, by unfold SoundCom; decide⟩
/-- One entry of the thread's own trail, one byte of its view. -/
def stV : State := st (fun c => { c with
  trail := { c.trail with entries := [dataEntry 16 [7] []] }, view := [(24, ⟨3, 1, 0, 0, false⟩)] })
theorem witness_common_read_order :
    (∃ p, (stR.ct 0).strip = some p ∧ stripCom p.writes 16 = some 9) ∧
    ((stV.ct 0).strip = none ∧ (stV.ct 0).trail.entries[0]? = some (dataEntry 16 [7] []) ∧
      entryByte (dataEntry 16 [7] []) 16 = some 7) ∧
    (entryByte (dataEntry 16 [7] []) 24 = none ∧ tabGet (stV.ct 0).view 24 = some ⟨3, 1, 0, 0, false⟩) ∧
    tabGet (stV.ct 0).view 8 = none :=
  ⟨⟨_, rfl, by decide⟩, by decide, by decide, by decide⟩
theorem witness_memory_traps : isUser stM.cur = true ∧ stM.me.sup = false ∧ Quiet stM [.g 10] [.g 5] ∧
    (memAddr stM.me 10 8 0).toNat % 8 ≠ 0 ∧ Quiet stM [.g 8] [.g 5] ∧ (memAddr stM.me 8 8 0).toNat % 8 = 0 ∧
    stM.me.kernel.loc < (memAddr stM.me 8 8 0).toNat + 8 ∧ (memAddr stM.me 9 8 0).toNat % 8 = 0 ∧
    stM.me.kernel.com < (memAddr stM.me 9 8 0).toNat + 8 ∧ Quiet stM [.g 8, .g 5] [] ∧ Quiet stM [.g 9, .g 12] [.g 5] ∧
    (partNo stM stM.cur).isSome = true ∧ stM.me.kernel.com < (stM.me.getG 9).toNat + 8 ∧ (stM.me.getG 10).toNat % 4 ≠ 0 :=
  ⟨by decide, by decide, quiet_of (by decide), by decide, quiet_of (by decide), by decide, by decide, by decide, by decide,
    quiet_of (by decide), quiet_of (by decide), by decide, by decide, by decide⟩
/-- A view that holds the byte at 8, with g11 naming it. -/
def stW : State := st (fun c => { withG [(11, 8)] c with view := [(8, ⟨3, 1, 0, 0, false⟩)] })
theorem witness_atomic_waits : Quiet stW [.g 11, .g 12] [.g 5] ∧ (stW.me.getG 11).toNat % 8 = 0 ∧
    (stW.me.getG 11).toNat + 8 ≤ stW.me.kernel.com ∧ stW.me.trail.done = stW.me.trail.entries.length ∧
    (∃ k < 8, (tabGet stW.me.view ((stW.me.getG 11).toNat + k)).isSome = true) :=
  ⟨quiet_of (by decide), by decide, by decide, by decide, 0, by decide, by decide⟩
theorem atHome_of {s : State} {a n : Nat} (h : s.me.trail.entries = [] ∧ s.me.view = [])
    (hr : outOfReach s s.cur a n = false) : AtHome s a n := by
  refine ⟨fun j e _ he _ => ?_, fun k _ => ?_, hr⟩
  · simp [h.1] at he
  · simp [h.2, tabGet]
theorem witness_atomic_results : partNo stM stM.cur = some 0 ∧ (stM.me.getG 7).toNat % 8 = 0 ∧
    (stM.me.getG 7).toNat + 8 ≤ stM.me.kernel.com ∧ AtHome stM (stM.me.getG 7).toNat 8 ∧
    homePoisoned stM 0 (stM.me.getG 7).toNat 8 = false ∧ Quiet stM [.g 7, .g 12] [.g 5] ∧ Quiet stM [.g 7, .g 12, .g 5] [.g 5] ∧
    (∀ op ∈ [AmoOp.add, .and, .or, .xor, .min, .max, .minn, .maxn, .swap], (amoResult op 8 5 77).isSome = true) :=
  ⟨by decide, by decide, by decide, atHome_of (by decide) (by decide), by decide, quiet_of (by decide), quiet_of (by decide), by decide⟩
theorem witness_delayed_atomic : Delays stDl.me ∧ Quiet stDl [.g 7, .g 12] [.g 5] ∧ Quiet stDl [.g 7, .g 12, .g 5] [.g 5] ∧
    partNo stDl stDl.cur = some 0 ∧ (stDl.me.getG 7).toNat % 8 = 0 ∧ (stDl.me.getG 7).toNat + 8 ≤ stDl.me.kernel.com ∧
    AtHome stDl (stDl.me.getG 7).toNat 8 ∧ homePoisoned stDl 0 (stDl.me.getG 7).toNat 8 = false ∧
    (∀ k ∈ [SlowKind.amo .add 3, .cas 0 3], let s := (stSl k).upd (withG [(6, 16)])
      s.me.slow = some ⟨4, 5, (s.me.getG 6).toNat, 8, k⟩ ∧ partNo s s.cur = some 0 ∧ AtHome s 16 8 ∧ homePoisoned s 0 16 8 = false) ∧
    (amoResult .add 8 0 3).isSome = true := by
  refine ⟨by unfold Delays; decide, quiet_of (by decide), quiet_of (by decide), by decide, by decide, by decide,
    atHome_of (by decide) (by decide), by decide, fun k h => ?_, by decide⟩
  have h : k = SlowKind.amo .add 3 ∨ k = .cas 0 3 := by simpa using h
  rcases h with rfl | rfl <;> exact ⟨by decide, by decide, atHome_of (by decide) (by decide), by decide⟩
theorem witness_release : Quiet (st id) [] [] ∧ (∃ r, tabGet (st id).runs 2 = some r ∧ r.state = .open_) ∧
    (∃ r, tabGet (st id).runs 1 = some r ∧ r.state ≠ .open_) :=
  ⟨quiet_of (by decide), ⟨_, rfl, by decide⟩, _, rfl, by decide⟩
/-- Whose next `rel` publishes later. -/
def stPo : State := { st (fun c => { c with putOff := true }) with runs := [] }
theorem witness_release_later : Quiet stPo [] [] ∧ stPo.me.putOff = true ∧ hasUnpublished stPo stPo.cur = false ∧
    (st id).me.putOff = false := ⟨quiet_of (by decide), by decide, by decide, by decide⟩
/-- Thread ids in registers: 1 of the partition, 127 outside it. -/
def stQ : State := st (withG [(6, 1), (7, 127)])
theorem witness_acquires : (Quiet stQ [.g 6] [] ∧ (stQ.me.getG 6).toNat % 128 = 1 ∧ partNo stQ stQ.cur = some 0 ∧
      partNo stQ (ctAgent 1) = some 0 ∧ ∃ u, acquireMarks stQ stQ.cur [markEntry 1 0 0] = .ok u) ∧
    (Quiet stQ [.g 7] [] ∧ (stQ.me.getG 7).toNat % 128 = 127 ∧ isUser stQ.cur = true ∧ stQ.me.sup = false ∧
      partNo stQ (ctAgent 127) = none) ∧
    (∃ u, acquireMarks stQ stQ.cur ((partCts stQ 0).map (fun t => markEntry t.val 0 0)) = .ok u) ∧
    (Quiet stQ [.g 0] [] ∧ 0 < stQ.me.kernel.ngrp ∧ stQ.me.launch = some 7 ∧ tabGet stQ.launches 7 = some launch0 ∧
      (List.finRange 128).filter (fun t => (launch0.groups[0]?.getD 0).getLsbD t.val) = [0, 1]) :=
  ⟨⟨quiet_of (by decide), by decide, by decide, by decide, _, rfl⟩,
    ⟨quiet_of (by decide), by decide, by decide, by decide, by decide⟩, ⟨_, rfl⟩,
    quiet_of (by decide), by decide, by decide, rfl, by decide⟩
/-- Control thread 1 has published an entry. -/
def stP : State := (st id).updCt 1 (fun c => { c with trail := ⟨[dataEntry 16 [7] []], 0, 1, 0, []⟩ })
theorem witness_acquire_shows : stP.me.strip = none ∧ stP.me.held = [] ∧ ctAgent 1 ≠ stP.cur ∧ (stP.dies.get (dieOf (ctAgent 1))).stopped = false ∧
    (stP.ct 1).trail.pub ≤ (stP.ct 1).trail.entries.length ∧
    (∀ e ∈ (stP.ct 1).trail.entries, e.kind ≠ EntryKind.marker) ∧ tabGet stP.me.rp 1 = none ∧
    stP.me.readsQueued = false ∧ stP.me.vq = [] ∧ stP.me.out = [] ∧ stP.me.marks = [] ∧ 0 < (stP.ct 1).trail.pub ∧ stP.me.view.length + (((stP.ct 1).trail.entries.take (stP.ct 1).trail.pub).map
      (fun e => e.bytes.length)).sum ≤ Config.viewCapacity ∧
    trailUsed stP.me.trail + 16 ≤ trailSize stP stP.cur ∧ entryByte (dataEntry 16 [7] []) 16 = some 7 := by decide
/-- A command in flight that reads local bytes 0 to 63. -/
def stC : State := st (fun c => { withG [(6, 63), (7, 64), (8, 1)] c with
  cmds := [⟨0, 1, .stage 1 1, [⟨false, 0, 64⟩], [], none, Progress.start 0, 8, none⟩] })
theorem witness_ordering_results :
    (Quiet stC [.g 7, .g 8] [] ∧ ¬ (stC.me.getG 8 ≠ 0 ∧ ∃ c ∈ stC.me.cmds, ∃ x ∈ c.reads ++ c.writes,
        x.common = false ∧ x.lo < x.hi ∧
        x.lo < (stC.me.getG 7).toNat + (stC.me.getG 8).toNat ∧ (stC.me.getG 7).toNat < x.hi)) ∧
    (Quiet stC [.g 6, .g 8] [] ∧ stC.me.getG 8 ≠ 0 ∧ ∃ c ∈ stC.me.cmds, ∃ x ∈ c.reads ++ c.writes,
        x.common = false ∧ x.lo < x.hi ∧
        x.lo < (stC.me.getG 6).toNat + (stC.me.getG 8).toNat ∧ (stC.me.getG 6).toNat < x.hi) ∧
    (Quiet stC [] [] ∧ (∀ k < 4, (3#4).getLsbD k = true → k < stC.me.kernel.nst)) ∧
    (isUser stC.cur = true ∧ stC.me.sup = false ∧ ∃ k < 4, (4#4).getLsbD k = true ∧ stC.me.kernel.nst ≤ k) :=
  ⟨⟨quiet_of (by decide), by decide⟩, ⟨quiet_of (by decide), by decide⟩, ⟨quiet_of (by decide), by decide⟩, by decide, by decide,
    2, by decide⟩
theorem witness_wfe : (Quiet (st id) [] [.g 5] ∧ b2n (eventPending (st id).me) = 0 ∧
      (wfeNow (st id).me none false).tln = false ∧ (st id).me.preempt = false) ∧
    (Quiet (st fun c => { c with preempt := true }) [] [.g 5] ∧ (st fun c => { c with preempt := true }).me.preempt = true) ∧
    (Quiet stM [.g 11, .g 0] [.g 5] ∧ (stM.me.getG 11).toNat % 8 = 0 ∧ (stM.me.getG 11).toNat + 8 ≤ stM.me.kernel.com ∧
      AtHome stM (stM.me.getG 11).toNat 8 ∧ (∀ x ∈ stM.me.wfe, x.level = stM.me.level → x.pc ≠ stM.me.pc) ∧
      leNat (homeRead stM stM.cur (stM.me.getG 11).toNat 8) ≠ (stM.me.getG 0).toNat) :=
  ⟨⟨quiet_of (by decide), by decide, by decide, by decide⟩, ⟨quiet_of (by decide), by decide⟩, quiet_of (by decide), by decide,
    by decide, atHome_of (by decide) (by decide), by decide, by decide⟩
/-- A frame with a good check word. -/
def frame0 : List Byte :=
  let head := leBytes 4 32 ++ leBytes 4 Config.stepping.toNat ++ leBytes 16 0
  head ++ leBytes 8 (Config.frameCheck (head ++ leBytes 8 0)).toNat
/-- Supervisor mode, with the frame at local byte 0 and its record. -/
def stK : State :=
  { st (fun c => { c with sup := true, loc := memWrite [] 0 frame0 }) with saved := [⟨frame0, [], none⟩] }
theorem frame0_ok : frameOk frame0 = true := by
  have h1 : (frame0.drop 4).take 4 = leBytes 4 Config.stepping.toNat := rfl
  have h2 : (frame0.drop 24).take 8 = leBytes 8 (Config.frameCheck
    (leBytes 4 32 ++ leBytes 4 Config.stepping.toNat ++ leBytes 16 0 ++ leBytes 8 0)).toNat := rfl
  have h3 : frame0.take 24 ++ leBytes 8 0 ++ frame0.drop 32 =
    leBytes 4 32 ++ leBytes 4 Config.stepping.toNat ++ leBytes 16 0 ++ leBytes 8 0 := rfl
  simp only [frameOk, h1, h2, h3, leNat_leBytes, Bool.and_eq_true, decide_eq_true_eq]
  exact ⟨Nat.mod_eq_of_lt Config.stepping.isLt, Nat.mod_eq_of_lt (BitVec.isLt _)⟩
theorem frame0_read : memRead stK.me.loc 0 32 = frame0 ∧ leNat (memRead stK.me.loc 0 4) = 32 := by
  have h : stK.me.loc = memWrite [] 0 frame0 := rfl
  refine ⟨by rw [h]; exact memRead_memWrite frame0 [] 0, ?_⟩
  have h2 : memRead stK.me.loc 0 4 = leBytes 4 32 := by
    rw [h]
    apply List.ext_getElem
    · rfl
    · intro k h1 _
      have hk : k < 4 := by simpa [memRead] using h1
      simp only [memRead, List.getElem_map, List.getElem_range, memGet_memWrite]
      rw [dif_pos ⟨by omega, by show 0 + k < 0 + 32; omega⟩]
      match k, hk with
      | 0, _ => rfl
      | 1, _ => rfl
      | 2, _ => rfl
      | 3, _ => rfl
  rw [h2]; decide
theorem witness_queue_frames : stK.me.sup = true ∧ (stK.me.getG 0).toNat % 16 = 0 ∧
    (stK.me.getG 0).toNat + 16384 ≤ stK.me.kernel.loc ∧
    (overNumber (shapeNumbers stK.me { reads := [.g 0], writes := [.g 5] }) = none ∧
      (∀ x ∈ [RegRef.g 0, .g 5], stK.me.refTag x = 0) ∧ stK.me.lift.regions = [] ∧ stK.me.strip = none ∧ stK.me.regBad = [] ∧
      queueMeets stK.me [.g 0] [.g 5] = false ∧ stK.me.acqQueued = false ∧ stK.me.atConvoy = true) ∧
    Quiet stK [.g 0] [.g 5] ∧ stK.me.late = false ∧ stK.me.locBad = [] ∧ 32 ≤ leNat (memRead stK.me.loc 0 4) ∧
    (frameOk (memRead stK.me.loc 0 32) = true ∧
      stK.saved.find? (fun q => q.bytes = memRead stK.me.loc 0 32) = some ⟨frame0, [], none⟩) ∧
    (∀ q ∈ stS.saved, q.bytes ≠ memRead stS.me.loc 0 (leNat (memRead stS.me.loc 0 4))) := by
  refine ⟨by decide, by decide, by decide, by decide, quiet_of (by decide), by decide, by decide, Nat.le_of_eq frame0_read.2.symm,
    ?_, ?_⟩
  · rw [frame0_read.1]
    refine ⟨frame0_ok, ?_⟩
    show [SavedQueue.mk frame0 [] none].find? _ = _
    simp
  · intro q h; exact absurd h (List.not_mem_nil)
/-- A frame with a poisoned byte. -/
theorem witness_queue_frame_poisoned :
    let s := stS.upd (fun c => { c with locBad := [(0, 1)] })
    s.me.sup = true ∧ (s.me.getG 0).toNat % 16 = 0 ∧ (s.me.getG 0).toNat + 16384 ≤ s.me.kernel.loc ∧ s.me.late = false ∧
      Quiet s [.g 0] [.g 5] ∧ badAt s.me.locBad ((s.me.getG 0).toNat + 0) = true ∧ Sound s.me.locBad (s.me.getG 0).toNat 0 :=
  ⟨by decide, by decide, by decide, by decide, quiet_of (by decide), by decide, fun k h => absurd h (Nat.not_lt_zero k)⟩
/-- System control thread 0 of die 0 names partition 0. -/
def stY (q : Partition) (f : CT → CT) : State :=
  { st f with
    cur := 128
    cts := ((st f).cts.set 1 CT.reset).set 128 CT.resetSystem
    parts := (st f).parts.set 0 (some q) }
theorem witness_partition_control :
    isUser (stY part0 id).cur = false ∧ (stY part0 id).me.sup = true ∧ (stY part0 id).parts.get 0 = some part0 ∧
    (0 : Fin 32).val = ((stY part0 id).me.getG 0).toNat % 32 ∧ partOnDie (stY part0 id) 0 (dieOf (stY part0 id).cur) = true ∧
    Quiet (stY part0 id) [.g 0] [.g 5] ∧ part0.drained = false ∧ allStand (drainStep (stY part0 id) 0) 0 = true ∧
    (let q := { part0 with drained := true }
      let s := stY q (fun c => { c with status := .halted, wasRun := .running })
      s.parts.get 0 = some q ∧ Quiet s [.g 0] [.g 5] ∧ Quiet s [.g 0] [] ∧ q.drained = true ∧ allStand s 0 = true ∧
        ∀ ct ∈ partCts s 0, max (s.ct (ctAgent ct)).trail.pub (s.ct (ctAgent ct)).owed ≤ (s.ct (ctAgent ct)).trail.done) :=
  ⟨by decide, by decide, by decide, by decide, by decide, quiet_of (by decide), by decide, by decide, by decide,
    quiet_of (by decide), quiet_of (by decide), by decide, by decide, by decide⟩
/-- Registers that hold handles 1 to 6 and a record size. -/
def stH : State := st (withG [(1, 1), (2, 2), (3, 3), (4, 4), (5, 5), (6, 6), (7, 64)])
theorem witness_run_lifecycle :
    (Quiet stH [.g 7] [.g 9] ∧ (stH.me.getG 7).toNat % 4 = 0 ∧ 4 ≤ (stH.me.getG 7).toNat ∧ (stH.me.getG 7).toNat ≤ 16384 ∧
      (stH.runs.filter (fun e => e.1 / 2 ^ 20 = 0)).length < 2 ^ 20 - 1 ∧ (usedPlaces stH 0).length < 2 ^ 21) ∧
    (∃ r, findRun stH (fnOf stH stH.cur) (stH.me.getG 5) = some (5, r) ∧ r.state = .open_ ∧ r.wmark = r.length ∧
      r.ranges = [] ∧ r.streams = 0) ∧
    (∃ r, findRun stH (fnOf stH stH.cur) (stH.me.getG 4) = some (4, r) ∧ r.state = .sealed ∧ r.streams ≠ 0) ∧
    (∃ r, findRun stH (fnOf stH stH.cur) (stH.me.getG 3) = some (3, r) ∧ r.state = .truncated) ∧
    Quiet stH [.g 5] [.g 9] ∧ Quiet stH [.g 5] [] ∧ Quiet stH [] [.g 9] ∧ (1#2).toNat < stH.me.kernel.nst :=
  ⟨⟨quiet_of (by decide), by decide, by decide, by decide, by decide, by decide⟩, ⟨_, rfl, by decide⟩, ⟨_, rfl, by decide⟩,
    ⟨_, rfl, by decide⟩, quiet_of (by decide), quiet_of (by decide), quiet_of (by decide), by decide⟩
/-- Die 0, where every frame lies, has stopped; run 5 is dropped, and stream 0 has it open or not. -/
def stStop (opened : Bool) : State := (updRun stH 5 (fun r => if opened then { r with dpend := true, streams := 1 } else r)).updDie 0
  (fun d => { d with stopped := true }) |>.upd (fun c => if opened then
    { c with streams := c.streams.set 0 { Stream.closed with run := 5, mode := .append } } else c)
theorem witness_run_stopped : ((stStop false).dies.get (Fin.ofNat 4 (dieOf (stStop false).cur).val)).stopped = true ∧
    (∃ r, findRun (stStop false) 0 ((stStop false).me.getG 5) = some (5, r) ∧ r.streams = 0 ∧ runStopped (stStop false) r = true) ∧
    Quiet (stStop false) [.g 7] [.g 9] ∧ Quiet (stStop false) [.g 5] [.g 9] ∧ Quiet (stStop false) [.g 5] [] ∧
    (∃ r, tabGet (stStop true).runs (runKey 0 ((stStop true).me.streams.get 0).run) = some r ∧ r.dpend = true ∧
      runStopped (stStop true) r = true) ∧ ((stStop true).me.streams.get 0).mode ≠ .closed ∧
    closeWaits (stStop true) (List.finRange 4) = true ∧ closeWaits (st id) (List.finRange 4) = false ∧ Quiet (stStop true) [] [] ∧
    (stStop true).me.task = some 0 ∧ (stStop true).me.status ≠ .halted :=
  ⟨by decide, ⟨_, rfl, by decide⟩, quiet_of (by decide), quiet_of (by decide), quiet_of (by decide), ⟨_, rfl, by decide⟩, by decide,
    by decide, by decide, quiet_of (by decide), by decide, by decide⟩
/-- Run 2 with the range that is not published the issuer's, or another thread's. -/
def stSeal (ag : Nat) : State := updRun stH 2 (fun r => { r with ranges := [⟨2, 2, .stream ag 0, false⟩] })
theorem witness_seal :
    (∃ r, findRun (stSeal 0) 0 ((stSeal 0).me.getG 2) = some (2, r) ∧ r.state = .open_ ∧
      (publishRun r (anyStream (stSeal 0).cur)).wmark = r.length ∧ r.ranges = [] ++ [⟨2, 2, .stream 0 0, false⟩] ∧
      (∀ x ∈ r.ranges, anyStream (stSeal 0).cur x.by_ = true) ∧ 2 + 2 = r.length) ∧
    (∃ r, findRun (stSeal 1) 0 ((stSeal 1).me.getG 2) = some (2, r) ∧ r.state = .open_ ∧
      (publishRun r (anyStream (stSeal 1).cur)).wmark ≠ r.length ∧ r.ranges = ⟨2, 2, .stream 1 0, false⟩ :: [] ∧
      anyStream (stSeal 1).cur (.stream 1 0) = false) ∧
    Quiet (stSeal 0) [.g 2] [.g 9] ∧ Quiet (stSeal 1) [.g 2] [.g 9] :=
  ⟨⟨_, rfl, by decide⟩, ⟨_, rfl, by decide⟩, quiet_of (by decide), quiet_of (by decide)⟩
/-- Handles from 0 up in use. -/
def manyRuns (n : Nat) : Tab Run := (List.range n).map (fun k => (k, run0 .sealed 64 4 4 0 7))
theorem manyRuns_all {n : Nat} (h : n ≤ 2 ^ 20) : (manyRuns n).filter (fun e => e.1 / 2 ^ 20 = 0) = manyRuns n := by
  rw [List.filter_eq_self]
  intro e he
  obtain ⟨k, hk, rfl⟩ := List.mem_map.mp he
  have := List.mem_range.mp hk
  simp only [decide_eq_true_eq]; omega
theorem manyRuns_length (n : Nat) : (manyRuns n).length = n := by simp [manyRuns]
/-- The handles from 0 up in use. -/
def stFull (n : Nat) : State := { stH with runs := manyRuns n }
theorem quiet_full (n : Nat) : Quiet (stFull n) [.g 7] [.g 9] := quiet_of rfl
theorem witness_no_handle : ∃ n, 2 ^ 20 - 1 ≤ ((stFull n).runs.filter (fun e => e.1 / 2 ^ 20 = 0)).length ∧
    Quiet (stFull n) [.g 7] [.g 9] := by
  obtain ⟨n, hn⟩ : ∃ n, n = 2 ^ 20 := ⟨_, rfl⟩
  refine ⟨n, ?_, quiet_full n⟩
  have h : ((stFull n).runs.filter (fun e => e.1 / 2 ^ 20 = 0)).length = n :=
    (congrArg List.length (manyRuns_all (by omega))).trans (manyRuns_length n)
  omega
theorem forkRun_some {s u : State} {k h root : Nat} {r : Run}
    (hf : pagesFull s ((List.range (sharedPages r)).map (leafAt r)) = false)
    (hp : pickHandle s (k / 2 ^ 20) = some h) (hd : dirFrames (sharedPages r) = 0)
    (ht : takeFrames s r.die 1 = some ([root], u)) : ∃ h u, forkRun s k r = some (h, u) := by
  refine ⟨h, forkInto u k r h root [], ?_⟩
  rw [forkRun, if_neg (by simp [hf]), hp, hd, Nat.add_zero, ht]
theorem witness_run_fork : Quiet stH [.g 4] [.g 9] ∧
    (∃ r, findRun stH (fnOf stH stH.cur) (stH.me.getG 4) = some (4, r) ∧ ∃ h u, forkRun stH 4 r = some (h, u)) ∧
    (let s := { stH with frames := [(8, ⟨2 ^ 32 - 1, [], []⟩)] }
      ∃ r, findRun s (fnOf s s.cur) (s.me.getG 4) = some (4, r) ∧ forkRun s 4 r = none) := by
  refine ⟨quiet_of (by decide), ⟨run0 .sealed 64 4 4 1 8, rfl, ?_⟩, ⟨run0 .sealed 64 4 4 1 8, rfl, ?_⟩⟩
  · have ⟨h, hp⟩ : ∃ h, pickHandle stH (4 / 2 ^ 20) = some h := by
      unfold pickHandle
      rw [if_pos (by decide)]
      dsimp only
      split <;> exact ⟨_, rfl⟩
    have ⟨f, hf⟩ : ∃ f, pickFrame stH 0 = some f := by
      unfold pickFrame
      dsimp only
      rw [if_pos (by decide)]
      split <;> exact ⟨_, rfl⟩
    refine forkRun_some (by decide) hp (by decide) (root := f)
      (u := { stH with frames := tabSet stH.frames f ⟨1, [], []⟩, fresh := stH.fresh + 1 }) ?_
    have ht : takeFrame stH 0 [] [] = some (f, { stH with frames := tabSet stH.frames f ⟨1, [], []⟩, fresh := stH.fresh + 1 }) := by
      unfold takeFrame; rw [hf]; rfl
    show takeFrames stH 0 1 = _
    rw [takeFrames, ht]
    rfl
  · exact if_pos (by decide)
/-- Stream 0 in append mode on run 2; where asked, that run dropped with this its last stream. -/
def stG (dropped : Bool) : State :=
  let s := st (fun c => { c with streams := c.streams.set 0 { Stream.closed with run := 2, mode := .append } })
  updRun s 2 (fun r => { r with dpend := dropped })
theorem witness_streams : (0#2).toNat < stH.me.kernel.nst ∧ (stH.me.streams.get 0).mode = .closed ∧
    (Quiet stH [.g 0, .g 4, .g 7] [] ∧ ∃ r, findRun stH (fnOf stH stH.cur) (stH.me.getG 4) = some (4, r) ∧ r.state ≠ .open_) ∧
    (Quiet stH [.g 5] [] ∧ ∃ r, findRun stH (fnOf stH stH.cur) (stH.me.getG 5) = some (5, r) ∧ r.state = .open_) ∧
    Quiet stH [] [] ∧ isUser stH.cur = true ∧ stH.me.sup = false ∧
    (∀ b, Quiet (stG b) [] [] ∧ ((stG b).me.streams.get 0).mode ≠ .closed ∧
      ∃ r, tabGet (stG b).runs (runKey (fnOf (stG b) (stG b).cur) ((stG b).me.streams.get 0).run) = some r ∧
        r.dpend = b ∧ r.streams ≤ 1 ∧ r.state = .open_) := by
  refine ⟨by decide, by decide, ⟨quiet_of (by decide), _, rfl, by decide⟩, ⟨quiet_of (by decide), _, rfl, by decide⟩,
    quiet_of (by decide), by decide, by decide, fun b => ?_⟩
  cases b <;> exact ⟨quiet_of (by decide), by decide,
    { run0 .open_ 64 4 2 1 6 with ranges := [⟨2, 2, .stream 0 0, false⟩], dpend := _ }, by decide, rfl, by decide, by decide⟩
theorem issuable_of {s : State} {tl : Fin 8} (h : decide (tl.val < s.me.kernel.ntl) &&
    decide ((s.me.tls.get tl).issued < 2 ^ 64 - 1) && decide (s.me.cmds.length < 64) && s.me.marks.isEmpty = true) : Issuable s tl := by
  simp only [Bool.and_eq_true, decide_eq_true_eq, List.isEmpty_iff] at h
  exact ⟨h.1.1.1, h.1.1.2, h.1.2, h.2⟩
/-- `stH` with bytes at local byte 0. -/
def stB (bs : List Byte) : State := stH.upd (fun c => { c with loc := memWrite [] 0 bs })
theorem witness_engine_sort : Issuable stH 1 ∧ Quiet stH [.g 5, .g 6] [] ∧
    (∃ o i, findRun stH 0 (stH.me.getG 5) = some (5, o) ∧ findRun stH 0 (stH.me.getG 6) = some (6, i) ∧ o.state = .open_ ∧
      cbOk stH.me 0 = true ∧ o.recsz = i.recsz ∧ 16 ≤ o.recsz ∧ i.recsz ≤ (stH.dies.get (dieOf stH.cur)).formB) :=
  ⟨issuable_of (by decide), quiet_of (by decide), _, _, rfl, rfl, by decide, by decide, by decide, by decide, by decide⟩
theorem witness_engine_merge : Quiet stH [.g 5, .g 6, .g 6] [] ∧ (6 : GReg) ≠ 0 ∧
    (∃ k r, findRun stH 0 (stH.me.getG 6) = some (k, r) ∧ k ≠ 5 ∧ r.recsz = 16) ∧
    (let s := stB (leBytes 4 2 ++ leBytes 4 6 ++ leBytes 4 6);
      Quiet s [.g 5, .g 0, .g 0] [] ∧ leNat (memRead s.me.loc (s.me.getG 0).toNat 4) = 2 ∧
        (s.me.getG 0).toNat + 4 + 4 * 2 ≤ s.me.kernel.loc ∧
        (List.range 2).map (fun j => w64 (leNat (memRead s.me.loc ((s.me.getG 0).toNat + 4 + 4 * j) 4))) = [6, 6]) :=
  ⟨quiet_of (by decide), by decide, ⟨_, _, rfl, by decide⟩, quiet_of (by decide), by decide, by decide, by decide⟩
/-- Runs whose record sizes fit a join: 24 for inner and left joins of 12 and 16 by 8-byte keys, 16 for a semi-join. -/
def stJ : State := { stH with runs :=
  [(2, run0 .sealed 12 4 4 0 7), (4, run0 .open_ 24 0 0 0 6), (5, run0 .open_ 16 0 0 0 9), (6, run0 .sealed 16 4 4 0 10)] }
theorem witness_engine_join : Quiet stJ [.g 4, .g 2, .g 6] [] ∧
    (∃ o l r, findRun stJ 0 (stJ.me.getG 4) = some (4, o) ∧ findRun stJ 0 (stJ.me.getG 2) = some (2, l) ∧
      findRun stJ 0 (stJ.me.getG 6) = some (6, r) ∧ o.state = .open_ ∧ 8 ≤ l.recsz ∧ 8 ≤ r.recsz ∧
      o.recsz + 8 = l.recsz + r.recsz + 4) ∧ Quiet stJ [.g 5, .g 6, .g 2] [] ∧
    (∃ o l, findRun stJ 0 (stJ.me.getG 5) = some (5, o) ∧ findRun stJ 0 (stJ.me.getG 6) = some (6, l) ∧
      o.state = .open_ ∧ o.recsz + 8 = l.recsz + 8) :=
  ⟨quiet_of (by decide), ⟨_, _, _, rfl, rfl, rfl, by decide⟩, quiet_of (by decide), _, _, rfl, rfl, by decide⟩
/-- A block that copies two 8-byte elements from local byte 0 to run 5. -/
def copyBytes0 : List Byte :=
  leBytes 8 (1 + 3 * 16 + 2 * 1024) ++ leBytes 8 0 ++ leBytes 8 0 ++ leBytes 4 0 ++ leBytes 4 5 ++ leBytes 4 2 ++
    leBytes 20 0 ++ leBytes 4 8 ++ leBytes 44 0
theorem witness_engine_copy :
    let s := stB copyBytes0
    Quiet s [.g 0] [] ∧ (s.me.getG 0).toNat % 8 = 0 ∧ (s.me.getG 0).toNat + 104 ≤ s.me.kernel.loc ∧
      (let bs := memRead s.me.loc (s.me.getG 0).toNat 104;
        let c := copyBlockOf bs;
        copyWordOk (blockField bs 0 8) c = true ∧ copyOver s.me c = none ∧ c.count * c.esz = 16 ∧ c.ssp = 0 ∧ c.dsp = 2 ∧
          (∃ k r, findRun s 0 (w64 c.dhdl) = some (k, r) ∧ r.state = .open_ ∧ 16 % r.recsz = 0) ∧
          (∀ x ∈ c.sources, x % (c.esz : Int) = 0 ∧ 0 ≤ x ∧ x + c.esz ≤ spaceSize s.me c.ssp)) :=
  ⟨quiet_of (by decide), by decide, by decide, by decide, rfl, by decide, by decide, by decide, ⟨_, _, rfl, by decide⟩, by decide⟩
theorem witness_engine_rest :
    (let s := stH.upd (withG [(7, 16)]);
      Quiet s [.g 5, .g 0, .g 7] [] ∧ 0 < (s.me.getG 7).toNat ∧ (s.me.getG 0).toNat + 16 ≤ s.me.kernel.loc ∧
      ∃ r, findRun s 0 (s.me.getG 5) = some (5, r) ∧ r.state = .open_ ∧ (s.me.getG 7).toNat % r.recsz = 0) ∧
    (let s := stH.upd (fun c => { c with sup := true });
      Quiet s [.g 6, .g 0, .g 0] [] ∧ s.me.sup = true ∧
        ∃ r, findRun s 0 (s.me.getG 6) = some (6, r) ∧ (s.me.getG 0).toNat < r.leaves.length) ∧
    Quiet stH [.g 6] [] ∧
    (Quiet stH [.g 1] [] ∧ stH.me.getG 1 = w64 (1 : CtId).val ∧ partNo stH stH.cur = some 0 ∧
      partNo stH (ctAgent 1) = some 0) :=
  ⟨⟨quiet_of (by decide), by decide, by decide, _, rfl, by decide⟩, ⟨quiet_of (by decide), by decide, _, rfl, by decide⟩,
    quiet_of (by decide), quiet_of (by decide), by decide, by decide, by decide⟩
theorem witness_engine_collective :
    let s := stB (leBytes 8 128 ++ leBytes 4 6 ++ leBytes 4 5 ++ leBytes 64 0)
    Quiet s [.g 0] [] ∧ (s.me.getG 0).toNat % 8 = 0 ∧ (s.me.getG 0).toNat + 80 ≤ s.me.kernel.loc ∧
      (let bs := memRead s.me.loc (s.me.getG 0).toNat 80;
        let c := collBlockOf bs;
        c.mode ≠ 3 ∧ fld (blockField bs 0 8) 19 45 = 0 ∧ c.m = 2 ∧ cbOk s.me c.cb = true ∧
          ∃ o i, findRun s 0 (w64 c.out) = some (5, o) ∧ findRun s 0 (w64 c.inp) = some (6, i) ∧ o.state = .open_ ∧
            o.recsz = i.recsz ∧ 8 ≤ o.recsz) :=
  ⟨quiet_of (by decide), by decide, by decide, by decide, by decide, by decide, by decide, _, _, rfl, rfl, by decide⟩
/-- Run 6 dropped while streams are open; g10 beyond every handle, g11 a free one. -/
def stX : State := updRun (stH.upd (withG [(10, 2 ^ 20), (11, 9)])) 6 (fun r => { r with dpend := true })
theorem witness_run_checks : isUser stX.cur = true ∧ stX.me.sup = false ∧ stX.me.getG 0 = 0 ∧
    2 ^ 20 ≤ (stX.me.getG 10).toNat ∧ tabGet stX.runs (runKey 0 (stX.me.getG 11).toNat) = none ∧
    (∃ r, tabGet stX.runs (runKey 0 (stX.me.getG 6).toNat) = some r ∧ r.dpend = true) ∧
    Quiet stX [.g 10] [.g 9] ∧ Quiet stX [.g 11] [] ∧ Quiet stX [.g 5, .g 4] [] ∧ stX.me.kernel.ntl ≤ (2 : Fin 8).val ∧
    (1 : Fin 8).val < stX.me.kernel.ntl ∧ findRun stX 0 (stX.me.getG 11) = none ∧
    (∃ o, findRun stX 0 (stX.me.getG 5) = some (5, o)) ∧
    (∃ o, findRun stX 0 (stX.me.getG 4) = some (4, o) ∧ o.state ≠ .open_) :=
  ⟨by decide, by decide, by decide, by decide, by decide, ⟨_, rfl, by decide⟩, quiet_of (by decide), quiet_of (by decide),
    quiet_of (by decide), by decide, by decide, by decide, ⟨_, rfl⟩, _, rfl, by decide⟩
/-- Numbers on a timeline: 2^32, and one beyond the range. -/
def stN : State := st (withG [(6, 2 ^ 32), (7, 2 ^ 32 + 1)])
theorem witness_timeline_results : (1 : Fin 8).val < stN.me.kernel.ntl ∧ Quiet stN [.g 0] [] ∧
    (stN.me.getG 0).toNat ≤ (stN.me.tls.get 1).done ∧ (stN.me.tls.get 1).notes = [] ∧
    stN.me.view.length ≤ Config.viewCapacity ∧ (∃ u, acquireMarks stN stN.cur [] = .ok u) ∧
    (stN.me.tls.get 1).done < (stN.me.getG 6).toNat ∧ (stN.me.getG 6).toNat ≤ (stN.me.tls.get 1).done + 2 ^ 32 ∧
    (stN.me.tls.get 1).done + 2 ^ 32 < (stN.me.getG 7).toNat ∧ isUser stN.cur = true ∧ stN.me.sup = false ∧
    Quiet stN [] [.g 5] ∧ (5#3).toNat < 6 :=
  ⟨by decide, quiet_of (by decide), by decide, by decide, by decide, ⟨_, rfl⟩, by decide, by decide, by decide, by decide,
    by decide, quiet_of (by decide), by decide⟩
theorem witness_timeline_notes :
    let s := st (fun c => { c with tls := c.tls.set 1 { Timeline.zero with done := 1, issued := 1, notes := [⟨1, 1, 0, 0⟩] } })
    Quiet s [.g 0] [] ∧ (s.me.getG 0).toNat ≤ (s.me.tls.get 1).done ∧ (s.me.tls.get 1).notes ≠ [] ∧
      ∃ u, acquireMarks s s.cur (((s.me.tls.get 1).notes.filter (fun m => m.num ≤ 1)).map
        (fun m => markEntry m.from_ m.tail m.gen)) = .ok u := ⟨quiet_of (by decide), by decide, by decide, _, rfl⟩
/-- The launch with barrier 0 changed, and registers for its operands. -/
def stZ (b : Barrier) (groups : List (BitVec 128)) : State :=
  { st (withG [(5, 2), (6, 1), (7, 2 ^ 36)]) with
    launches := [(7, { launch0 with bars := launch0.bars.set 0 b, groups := groups })] }
theorem witness_barrier_results :
    let s := stZ ⟨2, 0, 0, 0, 0, false⟩ [3]
    (0 : Fin 16).val < s.me.kernel.nbar ∧ s.me.launch = some 7 ∧ isUser s.cur = true ∧
    (∃ l, tabGet s.launches 7 = some l ∧ (l.bars.get 0).arrived = 0 ∧ (l.bars.get 0).err = false ∧
      (l.bars.get 0).arrived < (l.bars.get 0).expect ∧ ((l.groups[0]?.getD 0).getLsbD s.cur.val = true) ∧
      (l.bars.get 0).phase = (s.me.getG 0).setWidth 16 ∧ (l.bars.get 0).phase ≠ (s.me.getG 6).setWidth 16 ∧ s.me.barw = [] ∧
      (l.bars.get 0).pending + (s.me.getG 6).toNat < 2 ^ 36 ∧
      ∃ u, acquireTrails s s.cur ((List.finRange 128).filter (fun t => (l.groups[0]?.getD 0).getLsbD t.val)) = .ok u) ∧
    Quiet s [.g 5, .g 0] [] ∧ (s.me.getG 0).toNat < s.me.kernel.ngrp ∧ 1 ≤ (s.me.getG 5).toNat ∧
    (s.me.getG 5).toNat ≤ 128 ∧ Quiet s [] [.g 9] ∧ Quiet s [.g 0] [] ∧ Quiet s [.g 6] [] :=
  ⟨by decide, by decide, by decide, ⟨_, rfl, by refine ⟨?_, ?_, ?_, ?_, ?_, ?_, ?_, ?_, _, rfl⟩ <;> decide⟩, quiet_of (by decide), by decide,
    by decide, by decide, quiet_of (by decide), quiet_of (by decide), quiet_of (by decide)⟩
/-- A thread whose `barwait` on barrier 0 waits, has been released, or has met an error. -/
def stBw (fate : BarFate) : State :=
  (stZ ⟨2, 0, 0, 1, 0, false⟩ [3]).upd (fun c => { c with barw := [⟨8, 0, 0, 0, fate⟩] })
theorem witness_barrier_waits (fate : BarFate) : let s := stBw fate
    s.me.barw = [⟨8, 0, 0, 0, fate⟩] ∧ s.me.pc = 8 ∧ (s.me.getG 0).setWidth 16 = (0 : BitVec 16) ∧ Quiet s [.g 0] [] ∧
      ∃ u, acquireTrails s s.cur [0, 1] = .ok u :=
  by cases fate <;> exact ⟨rfl, by decide, by decide, quiet_of (by decide), _, rfl⟩
theorem witness_barrier_traps :
    let s := stZ ⟨2, 2, 0, 0, 0, true⟩ [3]
    let out := stZ ⟨2, 0, 0, 0, 0, false⟩ [2]
    s.me.launch = some 7 ∧ isUser s.cur = true ∧ s.me.sup = false ∧ s.me.kernel.nbar ≤ (2 : Fin 16).val ∧
    (∃ l, tabGet s.launches 7 = some l ∧ (l.bars.get 0).arrived ≠ 0 ∧ (l.bars.get 0).err = true ∧
      (l.bars.get 0).expect ≤ (l.bars.get 0).arrived ∧ ((l.groups[0]?.getD 0).getLsbD s.cur.val = true) ∧
      2 ^ 36 ≤ (l.bars.get 0).pending + (s.me.getG 7).toNat) ∧ s.me.getG 0 = 0 ∧ (s.me.getG 0).toNat < s.me.kernel.ngrp ∧
    Quiet s [.g 0, .g 0] [] ∧ Quiet s [] [.g 9] ∧ Quiet s [.g 7] [] ∧
    (∃ l, tabGet out.launches 7 = some l ∧ ¬ ((l.groups[(l.bars.get 0).group]?.getD 0).getLsbD out.cur.val = true)) :=
  ⟨by decide, by decide, by decide, by decide, ⟨_, rfl, by decide, by decide, by decide, by decide, by decide⟩, by decide, by decide,
    quiet_of (by decide), quiet_of (by decide), quiet_of (by decide), _, rfl, by decide⟩
theorem witness_barrier_group :
    let s := stZ ⟨2, 0, 0, 0, 0, false⟩ [2]
    (0 : Fin 16).val < s.me.kernel.nbar ∧ s.me.kernel.nbar ≤ (2 : Fin 16).val ∧ s.me.kernel.ngrp ≤ (s.me.getG 6).toNat ∧
      (s.me.getG 0).toNat < s.me.kernel.ngrp ∧ 1 ≤ (s.me.getG 5).toNat ∧ (s.me.getG 5).toNat ≤ 128 ∧ s.me.barw = [] ∧
      (∃ l, tabGet s.launches 7 = some l ∧ (l.bars.get 0).arrived = 0 ∧
        ¬ ((l.groups[(s.me.getG 0).toNat]?.getD 0).getLsbD s.cur.val = true)) ∧
      Quiet s [.g 5, .g 6] [] ∧ Quiet s [.g 5, .g 0] [] ∧ Quiet s [] [.g 9] ∧ Quiet s [.g 0] [] :=
  ⟨by decide, by decide, by decide, by decide, by decide, by decide, by decide, ⟨_, rfl, by decide, by decide⟩,
    quiet_of (by decide), quiet_of (by decide), quiet_of (by decide), quiet_of (by decide)⟩
theorem witness_panel_results : Quiet (st id) [.g 5, .g 6] [.g 9] ∧ (st id).me.launch = some 7 ∧
    tabGet (st id).launches 7 = some launch0 ∧ (st id).me.row0 < launch0.lrec.rows ∧
    launch0.lrec.rows ≤ (st fun c => { c with row0 := 3 }).me.row0 :=
  ⟨quiet_of (by decide), by decide, rfl, by decide, by decide⟩
/-- A record of one task at local byte 0; child 3 runs, child 4 has completed. -/
def stCh : State := st (fun c => { withG [(3, 3), (4, 4)] c with
  loc := memWrite [] 0 (leBytes 12 0 ++ leBytes 4 1 ++ leBytes 48 0)
  children := [(3, ⟨9, none, false⟩), (4, ⟨10, some 1, false⟩)] })
theorem witness_child_results : Quiet stCh [.g 0] [.g 9] ∧ partNo stCh stCh.cur = some 0 ∧ stCh.me.launch = some 7 ∧
    tabGet stCh.launches 7 = some launch0 ∧ (stCh.me.getG 0).toNat % 8 = 0 ∧
    (let r := recordOf (memRead stCh.me.loc (stCh.me.getG 0).toNat 64);
      (stCh.me.getG 0).toNat + 64 + 64 * r.npar ≤ stCh.me.kernel.loc ∧ 0 < r.tasks ∧ r.tasks < 2 ^ 24) ∧
    tabGet stCh.me.children 0 = none ∧ launch0.depth < 8 ∧ Quiet stCh [.g 3] [.g 9] ∧
    (∃ q, tabGet stCh.me.children ((stCh.me.getG 3).toNat % 16) = some q ∧ q.status = none) ∧
    (∃ q w, tabGet stCh.me.children ((stCh.me.getG 4).toNat % 16) = some q ∧ q.status = some w) ∧
    ∃ u, acquireTrails stCh stCh.cur (partCts stCh 0) = .ok u :=
  ⟨quiet_of (by decide), by decide, by decide, rfl, by decide, by decide, by decide, by decide, quiet_of (by decide),
    ⟨_, rfl, rfl⟩, ⟨_, _, rfl, rfl⟩, _, rfl⟩
theorem witness_task_end : Quiet (st id) [] [] ∧ isUser (st id).cur = true ∧ (st id).me.task = some 0 ∧
    (st id).me.status ≠ .halted ∧ (st id).me.launch = some 7 ∧ tabGet (st id).launches 7 = some launch0 ∧
    (st id).me.children = [] :=
  ⟨quiet_of (by decide), by decide, by decide, by decide, by decide, rfl, by decide⟩
/-- Targets of a watermark: 4, which run 4 has, and 5. -/
def stWm : State := stH.upd (withG [(8, 4), (9, 5)])
theorem witness_watermark : (0#2).toNat < (stG false).me.kernel.nst ∧ Quiet (stG false) [] [] ∧
    ((stG false).me.streams.get 0).mode = .append ∧ (stH.me.streams.get 0).mode ≠ .append ∧
    Quiet stWm [.g 4, .g 8] [.g 10] ∧
    (∃ r, findRun stWm 0 (stWm.me.getG 4) = some (4, r) ∧ (stWm.me.getG 8).toNat ≤ r.wmark ∧
      r.wmark < (stWm.me.getG 9).toNat ∧ r.state ≠ .open_) ∧
    (∃ r, findRun stWm 0 (stWm.me.getG 5) = some (5, r) ∧ r.wmark < (stWm.me.getG 9).toNat ∧ r.state = .open_ ∧
      r.ended = false) :=
  ⟨by decide, quiet_of (by decide), by decide, by decide, quiet_of (by decide), ⟨_, rfl, by decide⟩, _, rfl, by decide⟩
theorem witness_watermark_over : let s := stWm.upd (fun c => { c with ranOut := [(c.level, c.pc)] })
    (s.me.level, s.me.pc) ∈ s.me.ranOut ∧ Quiet s [.g 4, .g 8] [.g 10] ∧ (∃ r, findRun s (fnOf s s.cur) (s.me.getG 4) = some (4, r)) ∧
      isUser s.cur = true ∧ s.me.sup = false ∧ (stWm.me.level, stWm.me.pc) ∉ stWm.me.ranOut :=
  ⟨by decide, quiet_of (by decide), ⟨_, rfl⟩, by decide, by decide, by decide⟩
theorem witness_kill : Quiet stQ [.g 6] [.g 9] ∧ isUser stQ.cur = true ∧ stQ.me.sup = false ∧ stQ.me.inTrap = false ∧
    (sameKernel stQ stQ.cur (agentOf ((stQ.me.getG 6).toNat % 128)) = true ∧
      agentOf ((stQ.me.getG 6).toNat % 128) ≠ stQ.cur) ∧
    (sameKernel stQ stQ.cur (agentOf ((stQ.me.getG 0).toNat % 128)) = true ∧
      agentOf ((stQ.me.getG 0).toNat % 128) = stQ.cur) ∧
    sameKernel stQ stQ.cur (agentOf ((stQ.me.getG 7).toNat % 128)) = false :=
  ⟨quiet_of (by decide), by decide, by decide, by decide, by decide, by decide, by decide⟩
theorem witness_vector_types : Quiet (st id) [] [.g 9] ∧ isUser (st id).cur = true ∧ (st id).me.sup = false ∧
    ¬ ((15#4 : BitVec 4) ≠ 0 ∧ VTy.ds8 ≠ .ds4 ∧ VTy.ds8 ≠ .ds8) ∧ ((1#4 : BitVec 4) ≠ 0 ∧ VTy.mx4 ≠ .ds4 ∧ VTy.mx4 ≠ .ds8) ∧
    ((63#6 : BitVec 6) ≠ 0 ∧ VTy.f32 ≠ .record) ∧ (2#2 : BitVec 2) ≠ 3 :=
  ⟨quiet_of (by decide), by decide⟩
/-- Strip pointers g4 (elements of 4 bytes) and g5 (of 1). -/
def stSp : State := st (fun c => { withG [(6, 100)] c with spset := 0x0544 })
theorem witness_strip_opening : isUser stSp.cur = true ∧ stripPointers stSp.me 3 = [(4, 2), (5, 0)] ∧
    Quiet stSp [.g 6, .g 4, .g 5] [.g 7, .g 4, .g 5] ∧ ([4, 5] : List GReg).Nodup :=
  ⟨by decide, by decide, quiet_of (by decide), by decide⟩
/-- Extents 256 and 257. -/
def stE : State := st (withG [(5, 256), (6, 257)])
/-- In a lift of four examples at depth 1, with g6 batched. -/
def stLift : State := st (fun c => { c with
  lift := { Lift.empty with levels := [⟨4, 100, [0]⟩], active := [0, 1, 2, 3] }, gtag := c.gtag.set 6 1 })
/-- What `LiftResults` asks of an extent. -/
def liftFits (s : State) (a : GReg) : Bool :=
  let e := (s.me.getG a).toNat
  let es := s.me.extents ++ [e]
  let slots := ((List.range es.length).map (fun k => (es.take (k + 1)).foldl (· * ·) 1)).sum
  1 ≤ e && e ≤ 256 && s.me.lift.levels.length != 3 && es.foldl (· * ·) 1 ≤ 4096 && s.me.slotBytes * slots ≤ s.me.kernel.lift
/-- A lift frame with room for 256 slots. -/
def stFit : State := stE.upd (fun c => { c with kernel := { kern with lift := c.slotBytes * 256 } })
theorem witness_lift_results : Quiet stFit [.g 5] [] ∧ liftFits stFit 5 = true ∧
    (stFit.me.pc + BitVec.ofInt 64 (4 * (1#15).toInt)).toNat < codeBytes stFit stFit.cur ∧
    Quiet stE [.g 6] [] ∧ liftFits stE 6 = false ∧ liftFits stE 0 = false ∧ isUser stE.cur = true ∧ stE.me.sup = false ∧
    (∃ l, stLift.me.lift.levels.getLast? = some l ∧ stLift.me.locBad = []) ∧ Quiet stLift [] [] ∧ stE.me.lift.levels = [] :=
  ⟨quiet_of (by decide), by decide, by decide, quiet_of (by decide), by decide, by decide, by decide, by decide,
    ⟨_, rfl, by decide⟩, quiet_of (by decide), by decide⟩
theorem tags_of {c : CT} (hg : (List.finRange 32).all (fun r => c.getGTag r == 0 || c.getGTag r == 1) = true)
    (hp : c.ptag = CT.reset.ptag) (hv : c.vtag = CT.reset.vtag) : ∀ x, c.refTag x = 0 ∨ c.refTag x = 1 := by
  intro x
  cases x with
  | g r => simpa [CT.refTag] using List.all_eq_true.mp hg r (List.mem_finRange r)
  | p r => exact .inl (by simp [CT.refTag, CT.getPTag, hp, CT.reset, Vector.get])
  | v r w => exact .inl (by simp [CT.refTag, CT.getVTag, hv, CT.reset])
theorem witness_lift_queries :
    ((stLift.me.lift.levels = [⟨4, 100, [0]⟩] ∧ (9 : GReg) ≠ 0 ∧ (1 : PReg) ≠ 0) ∧
      (9 : GReg).val < stLift.me.kernel.gregs ∧ (1 : PReg).val < stLift.me.kernel.pregs ∧ stLift.me.kernel.gregs ≤ 32 ∧
      stLift.me.sup = false ∧ stLift.me.lift.regions = [] ∧ stLift.me.lift.resume = none ∧ stLift.me.vq = [] ∧
      stLift.me.strip = none ∧ stLift.me.loops = [] ∧ stLift.me.regBad = [] ∧ stLift.me.locBad = [] ∧ (∀ n ∈ stLift.me.lift.active, n < 4) ∧ stLift.me.lift.active.Nodup ∧
      stLift.me.lift.active ≠ [] ∧ stLift.me.getGTag 5 = 0) ∧ (∀ x, stLift.me.refTag x = 0 ∨ stLift.me.refTag x = 1) ∧
    Quiet (st id) [.g 6] [.g 9] ∧ (st id).me.lift.levels = [] ∧ isUser (st id).cur = true ∧ (st id).me.vq = [] ∧
    (st id).me.strip = none :=
  ⟨by decide, tags_of (by decide) rfl rfl, quiet_of (by decide), by decide⟩
theorem witness_batched_results : stLift.me.lift.levels = [⟨4, 100, [0]⟩] ∧ (9 : GReg) ≠ 0 ∧ (9 : GReg) ≠ 6 ∧ (9 : GReg) ≠ 5 ∧
    stLift.me.sup = false ∧ (∀ r ∈ ([9, 6, 5] : List GReg), r.val < stLift.me.kernel.gregs) ∧ stLift.me.kernel.gregs ≤ 32 ∧
    stLift.me.lift.regions = [] ∧ stLift.me.lift.resume = none ∧ stLift.me.vq = [] ∧ stLift.me.strip = none ∧
    stLift.me.loops = [] ∧ stLift.me.regBad = [] ∧ stLift.me.locBad = [] ∧ (∀ n ∈ stLift.me.lift.active, n < 4) ∧
    stLift.me.lift.active.Nodup ∧ stLift.me.getGTag 6 = 1 ∧ stLift.me.getGTag 5 = 0 ∧
    stLift.me.getGTag 9 = 0 := by decide
/-- Vectors of sixteen 4-byte elements. -/
def stVec : State := st (fun c => { withG [(4, 64), (5, 4), (6, 65534), (7, 65520), (8, 262128)] c with
  vl := 16, vtype := ⟨.i32, 0, 0, 0⟩, streams := c.streams.set 0 { Stream.closed with run := 4, mode := .read, stop := 9 } })
/-- Records of 8 bytes. -/
def stRec : State := st (fun c => { c with vl := 4, vtype := ⟨.record, 0, 0, 1⟩ })
theorem witness_vector_computes :
    (∃ m core, VQuiet stVec (.vperm (vf 7 1 2 0 .f32 .n32 0)) m (vf 7 1 2 0 .f32 .n32 0) ∧
      coreOp (.vperm (vf 7 1 2 0 .f32 .n32 0)) = some (vf 7 1 2 0 .f32 .n32 0, core)) ∧
    (∃ m core, VQuiet stRec (.vsort (vf 2 1 0 0 .record .none 0)) m (vf 2 1 0 0 .record .none 0) ∧
      sortOp (.vsort (vf 2 1 0 0 .record .none 0)) = some (vf 2 1 0 0 .record .none 0, core)) :=
  ⟨⟨_, _, vquiet_of rfl rfl (by decide), rfl⟩, _, _, vquiet_of rfl rfl (by decide), rfl⟩
/-- A computing instruction of `stVec` that nothing stands in the way of. -/
def Computes (i : Instr) (f : VFields) : Prop := ∃ m core, VQuiet stVec i m f ∧ coreOp i = some (f, core)
theorem computes_of {i : Instr} {f : VFields} (hf : fieldsOf i = some f) (hc : (coreOp i).map (·.1) = some f)
    (h : (formOf i).any (fun m => vquietB stVec i m f) = true) : Computes i f := by
  cases hm : formOf i with
  | none => simp [hm] at h
  | some m =>
    cases hx : coreOp i with
    | none => simp [hx] at hc
    | some q =>
      obtain ⟨g, core⟩ := q
      obtain rfl : g = f := by simpa [hx] using hc
      exact ⟨m, core, vquiet_of hm hf (by simpa [hm] using h), hx⟩
/-- Whether the statement of an instruction's elements says which it writes: those of the first list, and not the second. -/
def writesB (i : Instr) (f : VFields) (on off : List Nat) : Bool :=
  match formOf i with
  | none => false
  | some m => match vectorElement stVec.me 256 (pushedCtx stVec i m f) i f with
    | none => false
    | some q => on.all q.1 && off.all (fun e => !q.1 e)
theorem witness_vector_values : lanes stVec stVec.cur = 256 ∧ (15 + 1) * 32 ≤ 32 * lanes stVec stVec.cur * groupRegs stVec.me.vtype 32 ∧
    (Computes (.vfadd (vf 3 1 2 0 .f32 .none 0)) (vf 3 1 2 0 .f32 .none 0) ∧
      writesB (.vfadd (vf 3 1 2 0 .f32 .none 0)) (vf 3 1 2 0 .f32 .none 0) [0, 15] [16] = true) ∧
    (Computes (.vcvt (vf 3 1 0 0 .f32 .bf16 0)) (vf 3 1 0 0 .f32 .bf16 0) ∧
      writesB (.vcvt (vf 3 1 0 0 .f32 .bf16 0)) (vf 3 1 0 0 .f32 .bf16 0) [0, 15] [16] = true) ∧
    (Computes (.vrev (vf 3 1 0 0 .f32 .none 0)) (vf 3 1 0 0 .f32 .none 0) ∧
      writesB (.vrev (vf 3 1 0 0 .f32 .none 0)) (vf 3 1 0 0 .f32 .none 0) [0, 15] [16] = true) ∧
    (Computes (.vredmax (vf 3 1 2 0 .f32 .none 0)) (vf 3 1 2 0 .f32 .none 0) ∧
      writesB (.vredmax (vf 3 1 2 0 .f32 .none 0)) (vf 3 1 2 0 .f32 .none 0) [0] [1] = true) :=
  ⟨by decide, by decide, ⟨computes_of rfl rfl (by decide), by decide⟩, ⟨computes_of rfl rfl (by decide), by decide⟩,
    ⟨computes_of rfl rfl (by decide), by decide⟩, computes_of rfl rfl (by decide), by decide⟩
theorem witness_vector_bits :
    (Computes (.vfcmp (vf 8 1 2 0 .f32 .none 2)) (vf 8 1 2 0 .f32 .none 2) ∧ predNo (vf 8 1 2 0 .f32 .none 2) 8 8 ≠ 0 ∧
      (formOf (.vfcmp (vf 8 1 2 0 .f32 .none 2))).any (fun m => (vectorBit stVec.me 256
        (pushedCtx stVec (.vfcmp (vf 8 1 2 0 .f32 .none 2)) m (vf 8 1 2 0 .f32 .none 2))
        (.vfcmp (vf 8 1 2 0 .f32 .none 2)) (vf 8 1 2 0 .f32 .none 2)).isSome) = true) ∧
    (Computes (.vpopc (vf 5 6 0 0 .none .none 0)) (vf 5 6 0 0 .none .none 0) ∧ Fin.ofNat 32 (5#6).toNat ≠ 0 ∧
      (formOf (.vpopc (vf 5 6 0 0 .none .none 0))).any (fun m => (vectorScalar stVec.me 256
        (pushedCtx stVec (.vpopc (vf 5 6 0 0 .none .none 0)) m (vf 5 6 0 0 .none .none 0))
        (.vpopc (vf 5 6 0 0 .none .none 0)) (vf 5 6 0 0 .none .none 0)).isSome) = true) :=
  ⟨⟨computes_of rfl rfl (by decide), by decide, by decide⟩, computes_of rfl rfl (by decide), by decide, by decide⟩
theorem witness_vector_integers :
    (∃ m op, VQuiet stVec (.vadd (vf 3 3 12 0 .i32 .none 0x40)) m (vf 3 3 12 0 .i32 .none 0x40) ∧
      vectorInteger (.vadd (vf 3 3 12 0 .i32 .none 0x40)) = some (vf 3 3 12 0 .i32 .none 0x40, op)) ∧
    lanes stVec stVec.cur ≤ 256 ∧ (0 + 1) * 32 ≤ 32 * lanes stVec stVec.cur * groupRegs stVec.me.vtype 32 ∧
    Active stVec.me (vf 3 3 12 0 .i32 .none 0x40) 15 ∧ ¬ Active stVec.me (vf 3 3 12 0 .i32 .none 0x40) 16 ∧
    (∃ m op, VQuiet stVec (.vadd (vf 3 4 5 0 .n8 .none 8)) m (vf 3 4 5 0 .n8 .none 8) ∧
      vectorInteger (.vadd (vf 3 4 5 0 .n8 .none 8)) = some (vf 3 4 5 0 .n8 .none 8, op)) :=
  ⟨⟨_, _, vquiet_of rfl rfl (by decide), rfl⟩, by decide, by decide, by unfold Active; decide, by unfold Active; decide,
    _, _, vquiet_of rfl rfl (by decide), rfl⟩
/-- A load or store whose checks and poison marks let it through: whether it is one of the given form. -/
def passesB (s : State) (i : Instr) (f : VFields) (store : Bool) (form : VForm) : Bool :=
  match formOf i, accessOf i with
  | some m, some acc =>
    let x := pushedCtx s i m f
    vquietB s i m f && acc.store == store && acc.form.resolved (x.ty1 f) == form &&
      (memoryFault acc f x (if acc.common then s.me.kernel.com else s.me.kernel.loc)).isNone &&
      (loadPoison s s.cur (alone s i m f)).isNone && (!acc.common || !loadStalled f x s) &&
      (acc.form != .indexed || (gatherFrom (lanes s s.cur) f x (s.me.actives f x) s.me).2.isNone &&
        (indexedFault s.me (lanes s s.cur) f x).isNone)
  | _, _ => false
/-- What the statements ask of a load or a store. -/
def Passes (s : State) (i : Instr) (f : VFields) (store : Bool) (form : VForm) : Prop :=
  ∃ m acc, VQuiet s i m f ∧ accessOf i = some acc ∧ acc.store = store ∧
    let x := pushedCtx s i m f
    acc.form.resolved (x.ty1 f) = form ∧
      memoryFault acc f x (if acc.common then s.me.kernel.com else s.me.kernel.loc) = none ∧
      loadPoison s s.cur (alone s i m f) = none ∧ (acc.common = true → loadStalled f x s = false) ∧
      (acc.form = .indexed → (gatherFrom (lanes s s.cur) f x (s.me.actives f x) s.me).2 = none ∧
        indexedFault s.me (lanes s s.cur) f x = none)
theorem passes_of {s : State} {i : Instr} {f : VFields} {store : Bool} {form : VForm} (hf : fieldsOf i = some f)
    (h : passesB s i f store form = true) : Passes s i f store form := by
  unfold passesB at h
  cases hm : formOf i with
  | none => simp [hm] at h
  | some m =>
    cases ha : accessOf i with
    | none => simp [hm, ha] at h
    | some acc =>
      simp only [hm, ha, Bool.and_eq_true, beq_iff_eq, Option.isNone_iff_eq_none, Bool.or_eq_true, Bool.not_eq_true',
        bne_iff_ne, ne_eq] at h
      obtain ⟨⟨⟨⟨⟨⟨h1, h2⟩, h3⟩, h4⟩, h5⟩, h6⟩, h7⟩ := h
      exact ⟨m, acc, vquiet_of hm hf h1, ha, h2, h3, h4, h5, fun hc => h6.resolve_left (by simp [hc]),
        fun hi => h7.resolve_left (by simp [hi])⟩
/-- Two blocks of ds8. -/
def stBl : State := st (fun c => { withG [(4, 64)] c with vl := 64, vtype := ⟨.ds8, 0, 0, 0⟩ })
/-- Ten 6-bit fields, widened to bf16. -/
def stF6 : State := st (fun c => { withG [(4, 64)] c with vl := 10, vtype := ⟨.bf16, 0, 0, 0⟩ })
/-- A vector of 6-bit fields. -/
def f6 : VFields := { vf 1 4 0 0 .bf16 .none 0 with smod := 3 }
theorem witness_vector_loads : stVec.me.strip = none ∧ lanes stVec stVec.cur ≤ 256 ∧
    Passes stVec (.vld (vf 1 4 0 0 .i32 .none 0)) (vf 1 4 0 0 .i32 .none 0) false .unit ∧
    Passes stVec (.vlds (vf 1 4 5 0 .i32 .none 0)) (vf 1 4 5 0 .i32 .none 0) false .strided ∧
    Passes stVec (.vldx (vf 1 4 2 0 .i32 .n32 0)) (vf 1 4 2 0 .i32 .n32 0) false .indexed ∧
    Passes stVec (.vldseg (vf 1 4 0 3 .n32 .none 0)) (vf 1 4 0 3 .n32 .none 0) false .segment ∧
    Passes stVec (.vldb (vf 1 4 0 0 .i32 .none 0)) (vf 1 4 0 0 .i32 .none 0) false .broadcast ∧
    Passes stVec (.vldc (vf 1 4 0 0 .i32 .none 0)) (vf 1 4 0 0 .i32 .none 0) false .unit ∧
    Passes stVec (.vfill (vf 1 4 0 0 .none .none 0)) (vf 1 4 0 0 .none .none 0) false .image ∧
    Passes stBl (.vld (vf 1 4 0 0 .ds8 .none 0)) (vf 1 4 0 0 .ds8 .none 0) false .blocks ∧
    Passes stF6 (.vld f6) f6 false .fields6 ∧
    (groupRegs stVec.me.vtype 32 = 1 ∧ Active stVec.me (vf 1 4 0 0 .i32 .none 0) 15 ∧ ¬ Active stVec.me (vf 1 4 0 0 .i32 .none 0) 16) ∧
    (stBl.me.vstart.toNat / 32 ≤ 1 ∧ 1 < stBl.me.vl / 32 ∧ ¬ 2 < stBl.me.vl / 32) :=
  ⟨by decide, by decide, passes_of rfl (by decide), passes_of rfl (by decide), passes_of rfl (by decide), passes_of rfl (by decide),
    passes_of rfl (by decide), passes_of rfl (by decide), passes_of rfl (by decide), passes_of rfl (by decide),
    passes_of rfl (by decide), by unfold Active; decide, by decide⟩
theorem witness_vector_stores : stVec.me.strip = none ∧ stVec.me.trail.done ≤ stVec.me.trail.entries.length ∧
    Passes stVec (.vst (vf 1 4 0 0 .i32 .none 0)) (vf 1 4 0 0 .i32 .none 0) true .unit ∧
    Passes stVec (.vsts (vf 1 4 5 0 .i32 .none 0)) (vf 1 4 5 0 .i32 .none 0) true .strided ∧
    Passes stVec (.vstx (vf 1 4 2 0 .i32 .n32 0)) (vf 1 4 2 0 .i32 .n32 0) true .indexed ∧
    Passes stVec (.vstseg (vf 5 4 0 3 .n32 .none 0)) (vf 5 4 0 3 .n32 .none 0) true .segment ∧
    Passes stVec (.vstc (vf 1 4 0 0 .i32 .none 0)) (vf 1 4 0 0 .i32 .none 0) true .unit ∧
    Passes stVec (.vst (vf 1 4 0 0 .bf16 .f32 0)) (vf 1 4 0 0 .bf16 .f32 0) true .unit ∧
    Passes stVec (.vspill (vf 1 4 0 0 .none .none 0)) (vf 1 4 0 0 .none .none 0) true .image ∧
    Passes stBl (.vst (vf 1 4 0 0 .ds8 .none 0)) (vf 1 4 0 0 .ds8 .none 0) true .blocks ∧
    Passes stF6 (.vst f6) f6 true .fields6 :=
  ⟨by decide, by decide, passes_of rfl (by decide), passes_of rfl (by decide), passes_of rfl (by decide), passes_of rfl (by decide),
    passes_of rfl (by decide), passes_of rfl (by decide), passes_of rfl (by decide), passes_of rfl (by decide), passes_of rfl (by decide)⟩
/-- What a push finds of an access: its fault, and the first of its places that lies beyond the space. -/
def atPush (i : Instr) (f : VFields) : Option (Bool × Option (Nat × Nat)) :=
  match formOf i, accessOf i with
  | some m, some acc =>
    let x := pushedCtx stVec i m f
    let t := x.ty1 f
    let size := if acc.common then stVec.me.kernel.com else stVec.me.kernel.loc
    some (vquietB stVec i m f && (vBase f x).toNat % accessAlign (acc.form.resolved t) (elemBits stVec.me.vtype t / 8) t == 0,
      ((touched (acc.form.resolved t) f x t).find? (fun q => decide (size < q.1.toNat + q.2))).map (fun q => (q.1.toNat, q.2)))
  | _, _ => none
theorem witness_vector_memory_traps : stVec.me.sup = false ∧ stVec.me.strip = none ∧
    (∃ m, VQuiet stVec (.vld (vf 1 6 0 0 .i32 .none 0)) m (vf 1 6 0 0 .i32 .none 0) ∧ (stVec.me.getG 6).toNat % 4 ≠ 0) ∧
    (∃ m, VQuiet stVec (.vlds (vf 1 4 6 0 .i32 .none 0)) m (vf 1 4 6 0 .i32 .none 0) ∧ (stVec.me.getG 4).toNat % 4 = 0 ∧
      (stVec.me.getG 6).toNat % 4 ≠ 0) ∧
    (∃ m, VQuiet stVec (.vldc (vf 1 7 0 0 .i32 .none 0)) m (vf 1 7 0 0 .i32 .none 0)) ∧
    (∃ m, VQuiet stVec (.vlds (vf 1 4 7 0 .i32 .none 0)) m (vf 1 4 7 0 .i32 .none 0)) ∧
    (∃ m, VQuiet stVec (.vldseg (vf 1 8 0 3 .n32 .none 0)) m (vf 1 8 0 3 .n32 .none 0)) ∧
    (∃ m, VQuiet stVec (.vfill (vf 1 8 0 0 .none .none 0)) m (vf 1 8 0 0 .none .none 0)) ∧
    atPush (.vldc (vf 1 7 0 0 .i32 .none 0)) (vf 1 7 0 0 .i32 .none 0) = some (true, some (65536, 4)) ∧
    atPush (.vlds (vf 1 4 7 0 .i32 .none 0)) (vf 1 4 7 0 .i32 .none 0) = some (true, some (262144, 4)) ∧
    atPush (.vldseg (vf 1 8 0 3 .n32 .none 0)) (vf 1 8 0 3 .n32 .none 0) = some (true, some (262144, 4)) ∧
    atPush (.vfill (vf 1 8 0 0 .none .none 0)) (vf 1 8 0 0 .none .none 0) = some (true, some (262128, 1536)) ∧
    0 < stVec.me.vl ∧ stVec.me.vstart = 0 ∧ (stVec.me.getG 7).toNat + 16 * 4 < 2 ^ 64 ∧
    stVec.me.kernel.com < (stVec.me.getG 7).toNat + 16 * 4 :=
  ⟨by decide, by decide, ⟨_, vquiet_of rfl rfl (by decide), by decide⟩, ⟨_, vquiet_of rfl rfl (by decide), by decide⟩,
    ⟨_, vquiet_of rfl rfl (by decide)⟩, ⟨_, vquiet_of rfl rfl (by decide)⟩, ⟨_, vquiet_of rfl rfl (by decide)⟩,
    ⟨_, vquiet_of rfl rfl (by decide)⟩, by decide, by decide, by decide, by decide, by decide, by decide, by decide, by decide⟩
/-- Indices of which that of element 1 is not aligned, or lies beyond the window. -/
def stIx (index : Nat) : State :=
  stVec.upd (fun c => { c with v := c.v.set 2 ⟨BitVec.ofNat 8192 (index * 2 ^ 32), 0⟩ })
theorem witness_indexed_traps : ∀ store : Bool,
    let i := if store then Instr.vstx (vf 1 4 2 0 .i32 .n32 0) else .vldx (vf 1 4 2 0 .i32 .n32 0)
    (∀ index ∈ [1, 2 ^ 18], (∃ m acc, VQuiet (stIx index) i m (vf 1 4 2 0 .i32 .n32 0) ∧ accessOf i = some acc ∧
      acc.form = .indexed ∧ acc.store = store ∧ loadPoison (stIx index) 0 (alone (stIx index) i m (vf 1 4 2 0 .i32 .n32 0)) = none)) ∧
    lanes (stIx 1) 0 ≤ 256 ∧ Active (stIx 1).me (vf 1 4 2 0 .i32 .n32 0) 1 ∧
    fieldOf (stIx 1).me 256 2 1 32 0 = 0 ∧ fieldOf (stIx 1).me 256 2 1 32 1 = 1 ∧
    fieldOf (stIx (2 ^ 18)).me 256 2 1 32 1 = 2 ^ 18 ∧ (stIx 1).me.kernel.loc < 64 + 2 ^ 18 + 4 := by
  intro store
  cases store <;> refine ⟨fun index h => ?_, by decide, by unfold Active; decide, by decide, by decide, by decide, by decide⟩ <;>
    (have h : index = 1 ∨ index = 2 ^ 18 := by simpa using h) <;> rcases h with rfl | rfl <;>
    exact ⟨_, _, vquiet_of rfl rfl (by decide), rfl, rfl, rfl, by decide⟩
theorem witness_stream_read :
    ∃ m r, VQuiet stVec (.rld (vf 2 0 0 0 .i32 .none 0)) m (vf 2 0 0 0 .i32 .none 0) ∧ lanes stVec stVec.cur ≤ 256 ∧
      (stVec.me.streams.get 0).mode = .read ∧ tabGet stVec.runs (runKey 0 (stVec.me.streams.get 0).run) = some r ∧
      recsPoisoned stVec r 0 1 = none ∧ 0 < r.recsz ∧ stVec.me.vl * 4 = 1 * r.recsz ∧ (stVec.me.streams.get 0).next + 1 ≤ r.wmark ∧
      (stVec.me.streams.get 0).next + 1 ≤ (stVec.me.streams.get 0).stop ∧ recordHeld stVec r 0 = false ∧
      (runRecord stVec r 0).isSome = true :=
  ⟨_, _, vquiet_of rfl rfl (by decide), by decide, by decide, rfl, by decide, by decide, by decide, by decide, by decide,
    by decide, by decide⟩
/-- Stream 0 in append mode on run 2, outside a strip or in one. -/
def stAp (strip : Option Strip) : State := st (fun c => { c with
  vl := 16, vtype := ⟨.i32, 0, 0, 0⟩, strip := strip
  streams := c.streams.set 0 { Stream.closed with run := 2, mode := .append } })
theorem witness_stream_append :
    (∃ m r, VQuiet (stAp none) (.rapp (vf 2 0 0 0 .i32 .none 0)) m (vf 2 0 0 0 .i32 .none 0) ∧
      ((stAp none).me.streams.get 0).mode = .append ∧
      tabGet (stAp none).runs (runKey 0 ((stAp none).me.streams.get 0).run) = some r ∧ r.state = .open_ ∧ 0 < r.recsz ∧
      (stAp none).me.vl * 4 % r.recsz = 0 ∧
      (let bs := (appendBytes (vf 2 0 0 0 .i32 .none 0)
          (pushedCtx (stAp none) (.rapp (vf 2 0 0 0 .i32 .none 0)) m (vf 2 0 0 0 .i32 .none 0)) (stAp none)).1;
        bs ≠ [])) ∧
    (∃ m p, VQuiet (stAp (some ⟨⟨4, false, false, false, VType.reset, 0, []⟩, [], false, false, [], []⟩)) (.rapp (vf 2 0 0 0 .i32 .none 0)) m
        (vf 2 0 0 0 .i32 .none 0) ∧
      (stAp (some ⟨⟨4, false, false, false, VType.reset, 0, []⟩, [], false, false, [], []⟩)).me.strip = some p ∧ p.overflow = false ∧
      bufLocal p.writes ≤ Config.stripLocalCap ∧ bufTrail p.writes + 64 ≤ Config.stripTrailCap) :=
  ⟨⟨_, _, vquiet_of rfl rfl (by decide), by decide, rfl, by decide, by decide, by decide, by decide⟩,
    _, _, vquiet_of rfl rfl (by decide), rfl, by decide⟩
theorem stream_append_goes : ∃ u, streamAppend (stAp none) (stAp none).cur 0 (List.replicate 64 0) = .ok u := ⟨_, rfl⟩
/-- One element. -/
def stOne : State := st (fun c => { withG [(4, 8)] c with vl := 1, vtype := ⟨.i32, 0, 0, 0⟩ })
theorem witness_vector_atomic :
    ∃ m, VQuiet stOne (.vamo (vf 2 4 5 6 .i32 .none 0)) m (vf 2 4 5 6 .i32 .none 0) ∧ stOne.me.strip = none ∧
      stOne.me.held = [] ∧ partNo stOne stOne.cur = some 0 ∧ amoOf 0 = some .add ∧
      (∀ j, Active stOne.me (vf 2 4 5 6 .i32 .none 0) j ↔ j = 0) ∧ (stOne.me.getG 4).toNat % 4 = 0 ∧
      AtHome stOne (stOne.me.getG 4).toNat 4 ∧ homePoisoned stOne 0 (stOne.me.getG 4).toNat 4 = false ∧ fieldOf stOne.me 256 5 1 32 0 = 0 ∧ (amoResult .add 4 5 0).isSome = true := by
  refine ⟨_, vquiet_of rfl rfl (by decide), by decide, by decide, by decide, by decide, fun j => ?_, by decide,
    atHome_of (by decide) (by decide), by decide, by decide, by decide⟩
  constructor
  · intro h
    have h2 := h.2.1
    have : stOne.me.vl = 1 := rfl
    omega
  · intro h; subst h; unfold Active; decide
/-- Control thread 1 owns the array and has planes; thread 0 has an e4m3 plane pushed to the front. -/
def stMx : State :=
  (((st fun c => { withG [(4, 0)] c with pushFront := .e4m3 }).updCore 0 (fun k => { k with owner := some 1 })).updCt 1
    (fun c => { c with planesValid := true }))
theorem witness_matrix_results :
    (∃ m, VQuiet stMx (.mstat (vf 7 0 0 0 .none .none 0)) m (vf 7 0 0 0 .none .none 0)) ∧ lanes stMx stMx.cur = 256 ∧
    (stMx.cores.get (coreOf stMx.cur)).arrayFailed = false ∧ Config.planeSaveBytes ≤ stMx.me.kernel.loc ∧
    (stMx.cores.get (coreOf stMx.cur)).owner = some 1 ∧ (1 : Fin 4) ≠ ctIndex stMx.cur ∧ (stMx.ct (agentOf 1)).planesValid = true ∧
    (∃ m, VQuiet stMx (.mld (vf 0 4 0 0 .e4m3 .none 0)) m (vf 0 4 0 0 .e4m3 .none 0)) ∧ stMx.me.strip = none ∧
    stMx.me.planesSaved = false ∧ (stMx.me.getG 4).toNat % 16 = 0 ∧ (stMx.me.getG 4).toNat + mldBytes (vf 0 4 0 0 .e4m3 .none 0) ≤ stMx.me.kernel.loc ∧ stMx.me.locBad = [] ∧
    (∃ m, VQuiet stMx (.mswap (vf 0 0 0 0 .none .none 0)) m (vf 0 0 0 0 .none .none 0)) ∧
    (∃ m, VQuiet stMx (.mxrO (vf 2 1 0 0 .e4m3 .none 0)) m (vf 2 1 0 0 .e4m3 .none 0)) ∧
    (∃ m, VQuiet stMx (.mxrF (vf 2 1 0 0 .e4m3 .none 7)) m (vf 2 1 0 0 .e4m3 .none 7)) ∧
    rowFits .e4m3 stMx.me.pushFront = true :=
  ⟨⟨_, vquiet_of rfl rfl (by decide)⟩, by decide, by decide, by decide, by decide, by decide, by decide,
    ⟨_, vquiet_of rfl rfl (by decide)⟩, by decide, by decide, by decide, by decide, by decide, ⟨_, vquiet_of rfl rfl (by decide)⟩,
    ⟨_, vquiet_of rfl rfl (by decide)⟩, ⟨_, vquiet_of rfl rfl (by decide)⟩, by decide⟩
/-- A convoy of one `vadd` at the head of the queue, bound or not; an empty strip to commit. -/
def stCv (bound : Bool) : State := stVec.upd (fun c => { c with
  vq := [⟨[⟨.vadd (vf 3 4 5 0 .i32 .none 0), c.pushCtx 0, [], [], none, 0, false, none⟩], false, bound, 0, false⟩] })
/-- An empty strip that a pre-emption is about to commit. -/
def stSc : State := st (fun c => { c with strip := some ⟨⟨4, false, false, false, VType.reset, 0, []⟩, [], false, false, [], []⟩, preempt := true })
theorem witness_convoys :
    (∃ vs p, headerOk ⟨1, 0, 0, 0, 0, 0, 0, false⟩ = true ∧ isUser stVec.cur = true ∧
      checkConvoy stVec ⟨1, 0, 0, 0, 0, 0, 0, false⟩ [encVec 0x20 (vf 3 4 5 0 .i32 .none 0)] = .ok vs ∧
      operandPends stVec.me vs = false ∧ stVec.me.vq.length < Config.vqDepth ∧ stVec.me.strip = none ∧ stVec.me.marks = [] ∧
      stVec.me.regBad = [] ∧ pushAll stVec vs ⟨stVec.me, [], []⟩ = .ok p ∧ stVec.me.lift.regions = [] ∧ stVec.me.lift.resume = none) ∧
    (∃ v, readyHead (stCv false) 0 = some v ∧ (∀ k ∈ coreCts 0, k ≠ 0 → ((stCv false).ct k).vq = []) ∧
      ((stCv false).cores.get 0).tests = []) ∧
    (∃ v e f core, ((stCv true).ct 0).vq = [v] ∧ v.entries = [e] ∧ ((stCv true).ct 0).frozen = none ∧ v.bound = true ∧
      e.ctx.copy = none ∧ e.late = none ∧ e.fenced = false ∧ coreOp e.instr = some (f, core) ∧ ((stCv true).ct 0).out = [] ∧
      ((stCv true).ct 0).marks = [] ∧ ((stCv true).ct 0).held = [] ∧ ((stCv true).ct 0).spilling = false ∧
      ((stCv true).ct 0).regBad = [] ∧ ((stCv true).cores.get (coreOf 0)).upset = none) ∧
    (∃ v, ((stCv false).ct 0).vq = [v] ∧ v.bound = false) ∧
    (∃ p, (stSc.ct 0).strip = some p ∧ p.writes = [] ∧ (stSc.ct 0).held = [] ∧ (stSc.ct 0).vq = [] ∧
      commitDue stSc 0 = true) :=
  ⟨⟨_, _, by decide, by decide, rfl, by decide, by decide, by decide, by decide, by decide, rfl, by decide⟩, ⟨_, rfl, by decide⟩,
    ⟨_, _, _, _, rfl, rfl, by decide, rfl, rfl, rfl, rfl, rfl, by decide⟩, ⟨_, rfl, rfl⟩, _, rfl, by decide⟩
/-- A strip that holds a local write and an entry of the trail, with an append to run 2 or without, and is due to commit. -/
def stBuf (appends : Bool) : State := (stAp none).upd (fun c => { c with
  preempt := true
  strip := some ⟨⟨4, false, false, false, VType.reset, 0, []⟩, (if appends then [.app 0 4 (List.replicate 64 1)] else []) ++ [.com 16 [9], .loc 8 [7] []],
    false, false, [], []⟩ })
theorem witness_strip_commit : (∀ b, ∃ p, ((stBuf b).ct 0).strip = some p ∧ ((stBuf b).ct 0).held = [] ∧ ((stBuf b).ct 0).out = [] ∧
      ((stBuf b).ct 0).marks = [] ∧ ((stBuf b).ct 0).vq = [] ∧ commitDue (stBuf b) 0 = true ∧ bufEntries p.writes ≠ [] ∧
      trailUsed ((stBuf b).ct 0).trail + ((bufEntries p.writes ++ [commitEntry 2]).map entryBytes).sum ≤ trailSize (stBuf b) 0 ∧
      Memory.wf ((stBuf b).ct 0).loc = true ∧ ((stBuf b).ct 0).trailStuck = [] ∧
      bufAppends p.writes = if b then [.app 0 4 (List.replicate 64 1)] else []) ∧
    ∃ v, streamAppend (stBuf true) 0 0 (List.replicate 64 1) = .ok v :=
  ⟨fun b => by cases b <;> exact ⟨_, rfl, by decide⟩, _, rfl⟩
/-- The package with an agent changed. -/
def stTwo (f g : CT → CT) : State := (st f).updCt 1 g
theorem witness_trail_events :
    (1 ≤ (stP.ct (ctAgent 1)).trail.entries.length ∧ splitsGroup (stP.ct (ctAgent 1)).trail 1 = false) ∧
    trailUsed (stP.ct (ctAgent 1)).trail < trailSize stP (ctAgent 1) ∧
    (let tr := (stP.ct (ctAgent 1)).trail;
      tr.entries[tr.done]? = some (dataEntry 16 [7] []) ∧ (dataEntry 16 [7] []).kind = EntryKind.data ∧ tr.done < tr.pub ∧
        unitEnd tr tr.done = tr.done ∧ partNo stP (ctAgent 1) = some 0 ∧ stP.parts.get 0 = some part0 ∧
        unitStalled stP 1 [dataEntry 16 [7] []] = false) := by decide
/-- Control thread 0 has acquired the trail of thread 1 and has a load put off. -/
theorem witness_compaction_settles : let s := stP.upd (fun c => { c with acqd := [1], slow := some ⟨4, 5, 16, 8, .load false⟩ })
    canCompact s 1 = true ∧ (0 : Agent) ∈ acquirers s (1 : CtId).val ∧ (s.ct 0).slow = some ⟨4, 5, 16, 8, .load false⟩ ∧
      (∀ ag ∈ acquirers stP (1 : CtId).val, (stP.ct ag).slow = none) := by decide
/-- Stream 0 stalled on a run at a record. -/
def stStall (run next : Nat) : State := st (fun c => { c with
  streams := c.streams.set 0 { Stream.closed with run := run, mode := .read, stall := true, next := next } })
/-- Run 2 of the package. -/
def run2 : Run := { run0 .open_ 64 4 2 1 6 with ranges := [⟨2, 2, .stream 0 0, false⟩] }
theorem witness_stream_resume_at : ∃ r, tabGet (stStall 2 1).runs (runKey (fnOf (stStall 2 1) (ctAgent 0)) 2) = some r ∧
    (((stStall 2 1).ct (ctAgent 0)).streams.get 0).stall = true ∧ neededRecord (stStall 2 1) (ctAgent 0) 0 < r.wmark := ⟨run2, by decide, by decide, by decide⟩
theorem witness_stream_resume_past : ∃ r, tabGet (stStall 2 2).runs (runKey (fnOf (stStall 2 2) (ctAgent 0)) 2) = some r ∧
    (((stStall 2 2).ct (ctAgent 0)).streams.get 0).stall = true ∧ r.wmark ≤ neededRecord (stStall 2 2) (ctAgent 0) 0 ∧ r.state = .open_ ∧ r.ended = false :=
  ⟨run2, by decide, by decide, by decide, by decide, by decide⟩
theorem witness_wfe_wake : ∃ w, ((st fun c => { c with wfe := [⟨0, 8, none, false, false, false⟩] }).ct 0).wfe = [w] := ⟨_, rfl⟩
/-- Control thread 1 notifies timeline 1 of control thread 0. -/
def stNote : State := stTwo id (fun c => { c with cmds := [⟨0, 1, .notify 0 1 none 0 0, [], [], none, Progress.start 0, 8, none⟩] })
theorem witness_notification : (stNote.ct (ctAgent 0)).task.isSome = true ∧
    (1 : Fin 8).val < (stNote.ct (ctAgent 0)).kernel.ntl ∧ ((stNote.ct (ctAgent 0)).tls.get 1).fin = [] ∧
    ((stNote.ct (ctAgent 0)).tls.get 1).done = ((stNote.ct (ctAgent 0)).tls.get 1).issued ∧ (1 : CtId) ≠ 0 ∧
    (stNote.ct (ctAgent 1)).cmds = [⟨0, 1, .notify 0 1 none 0 0, [], [], none, Progress.start 0, 8, none⟩] ∧
    (stNote.dies.get (dieOf (ctAgent 1))).stopped = false ∧ (stNote.dies.get (dieOf (ctAgent 0))).stopped = false := by decide
/-- Link 0 with flits in its buffers. -/
def stFl (bufs : List Flit) (s : State) : State := updLink s 0 (fun l => { l with bufs := bufs })
theorem witness_remote_notification :
    let f : Flit := ⟨1, 0, true, 0, .notify 5 0 1 1 0 1⟩
    let s := { stFl [f] (st id) with routes := [(5, 4)] }
    (s.links.get 0).onChannel 1 = [f] ∧ (∀ q, q ≠ 0 → (s.links.get q).onChannel 1 = []) ∧ (s.links.get 0).halted.getLsbD 1 = false ∧ f.dest.toNat = s.device ∧
      routeTo s 5 = some 4 ∧ (s.links.get 4).stopped.getLsbD 1 = false := by decide
/-- A staging command, one that is suspended and one to another device. -/
def stCmd (susp : Option (Nat × Nat × Nat)) (kind : CmdKind) : State :=
  st (fun c => { c with cmds := [⟨0, 1, kind, [], [], susp, Progress.start 0, 8, none⟩] })
theorem witness_completion :
    (∃ m u x, findCmd (stCmd none (.stage 1 1)) 0 0 1 = some m ∧
      ((stCmd none (.stage 1 1)).dies.get (dieOf 0)).stopped = false ∧
      heldBack ((stCmd none (.stage 1 1)).ct 0) m = false ∧ m.susp = none ∧ m.doom = none ∧
      runCmd (stCmd none (.stage 1 1)) 0 m .none none = .done u x) ∧
    (∃ m, findCmd (stCmd (some (1, 0, 0)) (.stage 1 1)) 0 0 1 = some m ∧ m.susp.isSome = true ∧
      cmdStopped (stCmd (some (1, 0, 0)) (.stage 1 1)) 0 m = false ∧
      ((stCmd (some (1, 0, 0)) (.stage 1 1)).dies.get (dieOf 0)).stopped = false) ∧
    (∃ m, findCmd (stCmd none (.notify 0 0 (some 3) 0 0)) 0 0 1 = some m ∧ onLumen m.kind = true) :=
  ⟨⟨_, _, _, rfl, by decide, by decide, rfl, rfl, rfl⟩, ⟨_, rfl, rfl, by decide, by decide⟩, _, rfl, rfl⟩
/-- Two records of 8 bytes with a formation size of two. -/
theorem witness_sort_passes : (Progress.start 16).pass = 0 ∧ ∃ t p,
    sortPasses (st id) 0 none 8 2 [leBytes 8 2, leBytes 8 1] 3 (Progress.start 16) = (t, p, .ready) := ⟨rfl, _, _, rfl⟩
/-- User event 1 due. -/
def stEv : State := st (fun c => { c with tls := c.tls.set 1 { Timeline.zero with arm := true, armv := 0 } })
theorem witness_user_event : (stEv.ct 0).sup = false ∧ (stEv.ct 0).inUev = false ∧ (stEv.ct 0).inTrap = false ∧
    (stEv.ct 0).lift.levels = [] ∧ (stEv.ct 0).task.isSome = true ∧ (stEv.ct 0).status ≠ .halted ∧ (stEv.ct 0).strip = none ∧ (stEv.ct 0).frozen = none ∧ (stEv.ct 0).preempt = false ∧ BadReg.csr 0x010 ∉ (stEv.ct 0).regBad ∧
    ((stEv.ct 0).tls.get 1).arm = true ∧ ((stEv.ct 0).tls.get 1).armv ≤ ((stEv.ct 0).tls.get 1).done ∧
    (∀ k < (1 : Fin 8), ¬ (((stEv.ct 0).tls.get k).arm = true ∧
      ((stEv.ct 0).tls.get k).armv ≤ ((stEv.ct 0).tls.get k).done)) := by and_intros <;> decide
theorem witness_vector_async : ∃ f, ((st fun c => { c with frozen := some ⟨.localBounds, 3, false, 8, 0, false⟩ }).ct 0).frozen = some f ∧
    f.told = false ∧ savingQueue (st fun c => { c with frozen := some ⟨.localBounds, 3, false, 8, 0, false⟩ }) 0 = false ∧ (st id).me.inTrap = false ∧ (st id).me.status ≠ .halted := ⟨_, rfl, by decide⟩
theorem witness_preemption : ((st id).ct (ctAgent 0)).task.isSome = true ∧ ((st id).ct (ctAgent 0)).status ≠ .halted ∧
    ((st id).ct (ctAgent 0)).status ≠ .idle ∧ ((st id).ct (ctAgent 0)).strip = none ∧ ((st id).ct (ctAgent 0)).vq = [] ∧
    ((st id).ct (ctAgent 0)).frozen = none ∧ ((st id).ct (ctAgent 0)).out = [] ∧ ((st id).ct (ctAgent 0)).marks = [] ∧
    ((st id).ct (ctAgent 0)).held = [] ∧ ((st id).ct (ctAgent 0)).regBad = [] ∧ (∀ m ∈ ((st id).ct (ctAgent 0)).cmds, m.susp.isSome = true) ∧ ownsArray (st id) (ctAgent 0) = false := by decide
/-- A saved context of control thread 0, which stands idle or not. -/
def stIm (idle : Bool) : State :=
  { st (fun c => if idle then { c with task := none, launch := none, status := .idle } else c) with images := [(0, ⟨ct0, 0, 109568, 0, false⟩)] }
theorem witness_context_restore :
    (∃ im, tabGet (stIm true).images (ctAgent 0).val = some im ∧ restoreReady (stIm true) (ctAgent 0) = true ∧
      dispatchStopped (stIm true) (ctAgent 0) = false ∧
      im.ctx.vlcap.toNat ≤ ((stIm true).cores.get (coreOf (ctAgent 0))).healthy ∧ im.bad = false) ∧
    (∃ im, tabGet (stIm false).images (ctAgent 0).val = some im ∧ restoreReady (stIm false) (ctAgent 0) = false) :=
  ⟨⟨_, rfl, by decide, by decide, by decide, by decide⟩, _, rfl, by decide⟩
theorem witness_restore_refused : dispatchStopped ((stIm true).updPart 0 (fun q => { q with stopDispatch := true })) (ctAgent 0) = true ∧
    (((stIm true).updCore 0 (fun k => { k with well := [0, 1] })).cores.get (coreOf (ctAgent 0))).healthy < ct0.vlcap.toNat := by decide
theorem witness_yield : Quiet (st id) [] [.g 5] ∧ (st id).me.preempt = false ∧
    (let s := st (fun c => { c with preempt := true });
      Quiet s [] [.g 5] ∧ s.me.preempt = true ∧ s.me.loops = [] ∧ (∀ m ∈ s.me.cmds, m.susp.isSome = true) ∧
        ownsArray s s.cur = false) :=
  ⟨quiet_of (by decide), by decide, quiet_of (by decide), by decide, by decide, by decide, by decide⟩
theorem witness_uncorrectable : isUser 0 = true ∧ ((st id).dies.get (dieOf 0)).stopped = false ∧
    (∀ n ∈ [1, 2, 5], (⟨3, 0, 0, 0, 0, 0⟩ : ErrLoc).src ≠ n) ∧ retiring ((st id).ct 0) = none ∧ ((st id).ct 0).task.isSome = true ∧ ((st id).ct 0).strip = none ∧
    ((st id).ct 0).inTrap = false := by decide
/-- Lane group 7 of core 0 in test, with its spare lane steered in or not. -/
def stSelf (spare : Option Nat) : State := (st id).updCore 0 (fun k =>
  { k with tests := [(.lane 7 0, false)], spare := k.spare.set 7 spare })
theorem witness_self_test : (∀ ag ∈ coreAgents 0, ((stSelf none).ct ag).canStop = true) ∧
    ((stSelf none).dies.get (Fin.ofNat 4 (0 / 8))).pol = false ∧ (∀ x ∈ [none, some 3],
      (TestUnit.lane 7 0, false) ∈ ((stSelf x).cores.get 0).tests ∧ ((stSelf x).cores.get 0).spare.get 7 = x) ∧
    ((stSelf (some 3)).cores.get 0).well.Nodup ∧ 7 ∈ ((stSelf (some 3)).cores.get 0).well ∧
    (TestUnit.lane 7 0, true) ∉ ((stSelf none).cores.get 0).tests := by decide
/-- The package with queue 0 given. -/
def stQu (b : Queue) : State := { st id with queues := [(0, b)] }
/-- Queue 0, enabled. -/
def queue0 : Queue := { Queue.reset with en := true, sqsz := 4, cqsz := 4, tail := 2 }
theorem witness_watchdog : (∀ w ∈ [1, 2], watchState (stQu { queue0 with wdlim := BitVec.ofNat 31 w, pend := [7] }) 0 = 2) ∧
    ((stQu { queue0 with wdlim := 2, pend := [7] }).queue 0).wdtrap = false ∧
    (stQu { queue0 with wdlim := 2, pend := [7] }).parts.get
      (Fin.ofNat 32 ((stQu { queue0 with wdlim := 2, pend := [7] }).queue 0).part.toNat) = some part0 ∧ part0.common = [0] ∧
    ((st id).dies.get (dieOf (system0 0))).stopped = false ∧ ((st id).ct (system0 0)).inTrap = false := by decide
theorem witness_queue_events : ((stQu queue0).queue 0).en = true ∧ ((stQu queue0).queue 0).err = false ∧
    (∀ d, ((stQu queue0).dies.get d).up = true) ∧ hostShut (stQu queue0) = false ∧ hostShut (st id) = false ∧ 1 + rec0.npar ≤ available queue0 ∧ rec0.hseq = queue0.acc + 1 ∧ { rec0 with hseq := 2 }.hseq ≠ queue0.acc + 1 ∧
    rec0.tasks < 2 ^ 24 ∧ ringRoom { queue0 with cqh := 0 } = true ∧ queue0.held = [] ∧ ((st id).queue 0).en = false ∧
    (1 : W64).getLsbD 0 = true ∧ partOfFn (st id) 0 0 = true ∧ activeSpace (st id) 0 = true := by decide
/-- The kernel header that run 9 holds: code run 1, eight registers of each file, a window of 64 KiB. -/
def header0 : Mem :=
  memWrite (memWrite [] 64 (List.replicate 16 0xFF)) 0 (leBytes 24 (1 + (8 + 8 * 2 ^ 6 + 8 * 2 ^ 12) * 2 ^ 64 + 65536 * 2 ^ 128))
/-- A function whose partition is drained and compacted, or has a command that runs. -/
theorem witness_function_reset :
    let q := { part0 with fn := 3, drained := true }
    let s := { stY q (fun c => { c with status := .halted, wasRun := .running }) with cur := 128 }
    let u := stY q (fun c => { c with cmds := [⟨0, 1, .stage 1 1, [], [], none, Progress.start 0, 8, none⟩] })
    s.parts.get 0 = some q ∧ (∀ p : Fin 32, p ≠ 0 → s.parts.get p = none) ∧ allStand s 0 = true ∧
      (∀ ct ∈ partCts s 0, max (s.ct (ctAgent ct)).trail.pub (s.ct (ctAgent ct)).owed ≤ (s.ct (ctAgent ct)).trail.done) ∧
      u.parts.get 0 = some q ∧ allStand u 0 = false := by decide
/-- A launch of queue 0, in some state, of kernel 9, with a second thread idle. -/
def stLa (state : LState) (tasks depth : Nat) (parent : Option (Nat × Nat)) : State :=
  { st (fun c => { c with task := none, launch := none, status := .idle }) with
    runs := [(1, run0 .sealed 64 16 16 0 5), (9, run0 .sealed 64 17 17 0 11)]
    frames := [(5, ⟨1, [], []⟩), (11, ⟨1, header0, []⟩)]
    queues := [(0, { queue0 with pend := [7] })]
    launches := [(7, { launch0 with
      lrec := { rec0 with tasks := tasks }, state := state, depth := depth, parent := parent, bound := [], groups := [] })] }
theorem witness_launch_head : (∃ l, headLaunch (stLa .accepted 0 1 none) 0 = some (7, l) ∧ l.state = .accepted ∧
      l.lrec.tasks = 0 ∧ l.parent = none ∧ l.depth = 1 ∧ l.q = 0) ∧
    (∃ l, headLaunch (stLa .accepted 1 1 none) 0 = some (7, l) ∧ l.lrec.tasks ≠ 0 ∧
      partOfFn (stLa .accepted 1 1 none) 0 0 = true ∧ predecessors l.lrec = []) ∧
    partStopped (stLa .accepted 1 1 none) 0 = false :=
  ⟨⟨_, rfl, by decide⟩, ⟨_, rfl, by decide⟩, by decide⟩
theorem witness_staging : ∃ l bs, headLaunch (stLa .staging 1 1 none) 0 = some (7, l) ∧ l.state = .staging ∧
    partStopped (stLa .staging 1 1 none) l.part = false ∧
    headerOf (stLa .staging 1 1 none) l = .ok bs ∧ workingSet (stLa .staging 1 1 none) l (kernelOf bs) = some [] ∧
    l.lrec.cond = false := ⟨_, _, rfl, rfl, by decide, rfl, by decide, by decide⟩
theorem witness_binding : ∃ l u, headLaunch (stLa .binding 1 1 none) 0 = some (7, l) ∧ l.state = .binding ∧
    partStopped (stLa .binding 1 1 none) l.part = false ∧ turn (holdTurns (stLa .binding 1 1 none) l.part) l.part = some 0 ∧
    childWaits (stLa .binding 1 1 none) l.part 0 = false ∧ bindLaunch (holdTurns (stLa .binding 1 1 none) l.part) 7 l = .bound u :=
  ⟨_, _, rfl, rfl, by decide, by decide, by decide, rfl⟩
theorem witness_launch_complete : (∃ l, tabGet (stLa .running 0 1 none).launches 7 = some l ∧
      launchDone (stLa .running 0 1 none) 7 l = true ∧ l.parent = none ∧ l.depth = 1) ∧
    (∃ l, tabGet (stLa .accepted 1 2 (some (0, 3))).launches 7 = some l ∧ 2 ≤ l.depth ∧
      partStopped (stLa .accepted 1 2 (some (0, 3))) l.part = false ∧ l.state = .accepted ∧ predecessors l.lrec = []) ∧
    (∃ l bs, tabGet (stLa .staging 1 2 (some (0, 3))).launches 7 = some l ∧ l.state = .staging ∧
      headerOf (stLa .staging 1 2 (some (0, 3))) l = .ok bs ∧
      workingSet (stLa .staging 1 2 (some (0, 3))) l (kernelOf bs) = some [] ∧ l.lrec.cond = false) :=
  ⟨⟨_, rfl, by decide⟩, ⟨_, rfl, by decide⟩, _, _, rfl, rfl, rfl, by decide, by decide⟩
/-- Core 0 marked to move to partition 1, free. -/
def stMv : State :=
  { st id with
    frames := (st id).frames ++ [(77, ⟨1, [], []⟩)]
    poolBase := 2 ^ 20
    cts := State.reset.cts
    cores := (st id).cores.set 0 { Core.reset with part := some 0, mark := some 1 }
    parts := (st id).parts.set 1 (some { part0 with common := [1], locw := 1, coms := 0 })
    windows := [(1, 77)] }
theorem witness_core_move : (stMv.cores.get 0).mark = some 1 ∧ (stMv.cores.get 0).part = some 0 ∧
    (∃ q, stMv.parts.get 1 = some q ∧ q.stopDispatch = false) ∧ (∃ x, stMv.parts.get 0 = some x ∧ x.stopDispatch = false) ∧
    ownerOf stMv 0 = some 0 ∧ coreFree stMv 0 = true ∧ regionBytes (bufferOf stMv 0) 1 1 0 ≤ Config.coreSram :=
  ⟨by decide, by decide, ⟨_, rfl, by decide⟩, ⟨_, rfl, by decide⟩, by decide, by decide, by decide⟩
theorem witness_die_events : let d := (st id).dies.get 0
    (95 < d.ttrip.toNat ∧ d.tcap.toNat ≤ 95 ∧ d.floor.toNat < d.cclk ∧ d.capen = true) ∧ 89 + 5 < d.tcap.toNat ∧
    d.dump = none ∧ d.stopped = false ∧ d.up = true ∧ State.reset.dies.get 0 = Die.reset ∧ Die.reset.up = false ∧
    (((st id).updDie 0 (fun d => { d with hold := 2 })).dies.get 0).hold ≠ 0 ∧ ({ d with svn := 1 } : Die).minVer.toNat < 1 ∧
    (∃ u, (({ d with dump := some ⟨true, false, 5, 0, 0, [], [], [], [], 0⟩ } : Die)).dump = some u ∧ u.valid = true) ∧
    (let e := ((st id).updDie 0 (fun d => { d with rowCnt := [(3, 2048)] })).dies.get 0;
      e.rowThr ≤ ((tabGet e.rowCnt 3).getD 0).toNat ∧ ((tabGet e.rowCnt 4).getD 0).toNat < e.rowThr ∧ 4 ∉ e.rowBad) := by
  decide
/-- A record for each stack that its digest and its serial number hold for, and every stack passes its read test. -/
def restore0 : Restore :=
  ⟨(List.finRange 8).map (fun k => (k, ⟨[], Config.stackSerial k.val, recordDigest [] (Config.stackSerial k.val)⟩)), 255⟩
theorem witness_restore : ∀ k, (restoredRecord restore0 k).isSome = true := by
  intro k
  have hb : restore0.readOk.getLsbD k.val = true := by revert k; decide
  have h : (restore0.mail.find? (fun m => m.1 = k)) =
      some (k, ⟨[], Config.stackSerial k.val, recordDigest [] (Config.stackSerial k.val)⟩) := by
    match k with
    | 0 => rfl
    | 1 => rfl
    | 2 => rfl
    | 3 => rfl
    | 4 => rfl
    | 5 => rfl
    | 6 => rfl
    | 7 => rfl
  simp [restoredRecord, h, hb, Option.filter]
/-- An image that runs on a die whose minimum is 0, and one that does not. -/
theorem witness_firmware : let s := st id
    (∀ k, (s.dies.get k).minVer.toNat ≤ (⟨[], true, 1, []⟩ : Firmware).version.toNat) ∧ (⟨[], false, 1, []⟩ : Firmware).signed ≠ true ∧
    hostShut State.reset = true ∧ hostShut s = false := by decide
theorem witness_partition_create : (st id).parts.get 31 = none ∧ (2 ^ 31 : BitVec 32) ≠ 0 ∧ (0 : W64).toNat / 2 ^ 20 % 8 < 6 ∧
    ∀ k : Fin 32, (2 ^ 31 : BitVec 32).getLsbD k.val = true → ((st id).cores.get k).part = none ∧
      ((st id).dies.get (Fin.ofNat 4 (k.val / 8))).up = true ∧
      regionBytes (bufferOf (st id) k) ((0 : W64).toNat % 1024) ((0 : W64).toNat / 1024 % 1024) ((0 : W64).toNat / 2 ^ 20 % 8) ≤
        Config.coreSram := by decide
theorem witness_reset_events : (∃ l, tabGet (stLa .running 1 1 none).launches 7 = some l ∧ l.depth = 1 ∧ l.state = .running ∧
      l.dealt = true) ∧ (∀ e ∈ (stLa .accepted 1 1 none).launches, e.2.state ≠ .running) ∧
    (∀ e ∈ (st id).runs, e.2.dpend = false) ∧ (st id).parts.get 31 = none ∧ ((st id).cores.get 31).part = none ∧
    regionBytes (bufferOf (st id) 31) 1 1 2 ≤ Config.coreSram := ⟨⟨_, rfl, by decide⟩, by decide⟩
theorem witness_aperture : hostShut stMv = false ∧ (tabGet (stMv).windows 1).getD 0 = 77 ∧ stMv.runs.all (fun e => !frameRead e.2 77) = true ∧
    (∀ e ∈ stMv.runs, frameAppended e.2 77 0 8 = false) ∧ stMv.runs.all (fun e => !frameRead e.2 5) = false ∧
    (let r := run0 .open_ 64 4 0 1 12; frameRead r 12 = false ∧ frameAppended r 12 0 8 = true) ∧
    stMv.poolBase + 77 * 65536 ∉ stMv.poison ∧ 77 < 2 ^ 23 ∧ (∃ fr, tabGet stMv.frames 77 = some fr) := by
  refine ⟨by decide, by decide, by decide, by decide, by decide, by decide, by decide, by decide, _, rfl⟩
theorem witness_links : let l := (st id).links.get 0
    l.down = false ∧ l.halted = 0 ∧ ((st id).dies.get (portDie 0)).stopped = false ∧ l.rxSeq = 0 ∧ l.onChannel 1 = [] ∧
    (∀ k, ((st id).ct k).cmds = []) ∧ (∀ k, ((st id).links.get k).bufs = []) ∧
    routeTo { st id with routes := [(5, 4)] } 5 = some 4 ∧ (st id).device = 0 := by decide
/-- Sequence numbers ahead of the receiver's and behind it, and a channel whose buffers are full. -/
theorem witness_link_sequence : let l := (st id).links.get 0
    ((1#12) ≠ l.rxSeq ∧ (1#12 - l.rxSeq).toNat < 2048) ∧ 2048 ≤ (4095#12 - l.rxSeq).toNat ∧ l.stopped.getLsbD 3 = false ∧
    (∀ n, LumenMsg.data [] ≠ .replay n) ∧
    16 ≤ (({ l with bufs := List.replicate 16 ⟨1, 0, true, 0, .data []⟩ } : Link).onChannel 1).length := by
  refine ⟨by decide, by decide, by decide, fun n h => by simp at h, by decide⟩
/-! ### Fetch, decoding and the step -/

/-- Control thread 0 about to run `li g5, 3`. -/
def stRun (f : CT → CT) : State := (st f).withFetchWord 32 0x3E500003

/-- Control thread 0 named by the schedule. -/
def stNamed (f : CT → CT) : State := { stRun f with sched := [.run 0], cur := 5 }

theorem witness_pipe_moves : PipeMoves (stRun id) (stRun id) :=
  ⟨.inr ⟨rfl, by decide, by decide, rfl⟩, by decide, .inl (by decide), by decide, by decide, by decide, by decide, .inl (by decide)⟩
theorem witness_pipe_named : PipeMoves (stNamed id) { stNamed id with sched := [], cur := 0 } :=
  ⟨.inl ⟨0, [], rfl, rfl⟩, by decide, .inl (by decide), by decide, by decide, by decide, by decide, .inl (by decide)⟩
theorem witness_step_slow : (stRun id).me.slow = none ∧
    (let q : Slow := ⟨4, 9, 16, 8, .load false⟩
      let s := { stRun (fun c => { c with slow := some q }) with sched := [.run 0] }
      let u := { s with sched := [] }
      PipeMoves s u ∧ u.me.slow = some q ∧ passes (u.upd CT.atBoundary).me q (.li 5 3) = true ∧ u.sched = [] ∧ dumpingDie u = none ∧
        (u.dies.get (dieOf u.cur)).stopped = false ∧ (settleSlow u u.cur).me.slow = none) := by
  refine ⟨by decide, ⟨.inl ⟨0, [], rfl, rfl⟩, by decide, .inl (by decide), by decide, by decide, by decide, by decide, .inl (by decide)⟩,
    by decide, by decide, by decide, by decide, by decide, by decide⟩
theorem witness_step_decoded :
    let v := (stRun id).upd CT.atBoundary
    (decode [0x3E500003]).toOption = some (.li 5 3, 1) ∧ v.me.pc.toNat % 4 = 0 ∧ v.me.pc.toNat + 4 ≤ codeBytes v v.cur ∧
      codeParcel v v.cur v.me.pc.toNat = some 0x3E500003 ∧ codeHeld v v.cur v.me.pc.toNat = false ∧ laterEvent v = none :=
  ⟨by decide, by decide, by decide, by decide, by decide, by decide⟩
theorem witness_step_later :
    let v := (stRun (fun c => { c with preempt := true })).upd CT.atBoundary
    laterEvent v = some (.preemption 0) ∧ inWfe v.me = false ∧ yieldTakes (.li 5 3) (.preemption 0) = false ∧
      ∃ t, exec (.li 5 3) v = .next t := by
  exact ⟨by decide, by decide, rfl, _, rfl⟩
theorem witness_fetch_traps : (((stRun (fun c => { c with pc := 10 })).upd CT.atBoundary).me.pc.toNat % 4 ≠ 0) ∧
    (let v := (st fun c => { c with pc := 1024 }).upd CT.atBoundary;
      v.me.pc.toNat % 4 = 0 ∧ codeBytes v v.cur < v.me.pc.toNat + 4) := ⟨by decide, by decide⟩
theorem witness_step_events : isEvent (.meridianPeriod) = true ∧ interrupts (st id) .meridianPeriod = none ∧
    eventStopped (st id) .meridianPeriod = false ∧
    eventStopped ((st id).updDie 0 (fun d => { d with stopped := true })) (.compaction 1) = true ∧
    faultNext exec (stRun id) (ctAgent 0) = false ∧
    (st fun c => { c with cmds := [⟨0, 1, .stage 1 1, [], [], none, Progress.start 0, 8, none⟩], status := .waiting }).sched = [] ∧
    autoEvent (st fun c => { c with cmds := [⟨0, 1, .stage 1 1, [], [], none, Progress.start 0, 8, none⟩], status := .waiting }) =
      some (.engineCompletion 0 0 1 .none) ∧ ((st id).dies.get (dieOf (st id).cur)).stopped = false ∧
    (((st id).updDie 0 (fun d => { d with stopped := true })).dies.get 0).stopped = true :=
  ⟨rfl, rfl, by decide, by decide, by decide, rfl, by decide, by decide, by decide⟩
/-- A dump being written on die 1; none elsewhere, and die 0 stopped. -/
theorem witness_step_dump :
    let d : Dump := ⟨false, true, 5, 0, 0, [], [], [], [], 0⟩
    let s := (st id).updDie 1 (fun x => { x with stopped := true, dump := some d })
    let u := (st id).updDie 0 (fun x => { x with stopped := true, dump := some { d with writing := false } })
    s.sched = [] ∧ dumpingDie s = some 1 ∧ u.sched = [] ∧ dumpingDie u = none ∧ (u.dies.get (dieOf u.cur)).stopped = true := by decide
theorem witness_encode_decode : (Instr.li 5 3).wellFormed = true ∧ encode (.li 5 3) = [0x3E500003] ∧
    (Instr.vadd ⟨5, 1, 2, 0, 3, false, .i8, .none, 0, 0, true, 0⟩).wellFormed = true ∧
    encodeVec (.vadd ⟨5, 1, 2, 0, 3, false, .i8, .none, 0, 0, true, 0⟩) = some 0x2014108006100200 ∧
    isEvent (.li 5 3) = false := by decide
theorem witness_canonical : CanonicalMemory State.reset ∧ ∃ t, step State.reset = .next t :=
  ⟨⟨by decide, by simp [State.reset], by decide, by simp [State.reset], by decide, by decide⟩, _, rfl⟩

/-! ### Worked examples of the spec -/

/-- The state an outcome goes on to. -/
def nextOf : Host.Outcome State Fault Refusal → Option State
  | .next s => some s
  | _ => none
/-- The step runs the word that stands at the program counter: g5 becomes 3 and the program counter moves on. -/
theorem test_step_li : ((nextOf (step (stRun id))).map fun t => (t.me.getG 5, t.me.pc)) = some (3, 12) := by decide
/-- The first step after reset runs a word placed for it. -/
theorem test_first_step :
    ((nextOf (step (State.reset.withFetchWord 32 0x3E500003))).map fun t => t.me.getG 5) = some 3 := by decide
/-- Table 11.2. -/
theorem test_division_edges : (divS 7 0, remS 7 0, divU 7 0, remU 7 0) = (-1, 7, 0xFFFFFFFFFFFFFFFF, 7) ∧
    (divS (-7) 2, remS (-7) 2, divU (-7) 2, remU (-7) 2) = (-3, -1, 0x7FFFFFFFFFFFFFFC, 1) ∧
    (divS 0x8000000000000000 (-1), remS 0x8000000000000000 (-1), divU 0x8000000000000000 (-1), remU 0x8000000000000000 (-1)) =
      (0x8000000000000000, 0, 0, 0x8000000000000000) := by decide
/-- The two long forms that load a doubleword (after R190). -/
theorem test_long_load : ((nextOf (exec (.liLong 5 0x89ABCDEF) (st id))).map fun t => t.me.getG 5) = some 0xFFFFFFFF89ABCDEF ∧
    ((nextOf (exec (.luiLong 5 0x01234567) (st (withG [(5, 0xFFFFFFFF89ABCDEF)])))).map fun t => t.me.getG 5) =
      some 0x0123456789ABCDEF := by decide
/-- A signed condition and the unsigned one on the same operands (R191). -/
theorem test_compare_signs : ((nextOf (exec (.cmp .lt 1 9 8) (st (withG [(9, -1), (8, 1)])))).map fun t => (t.me.getP 1).getLsbD 2047) =
      some true ∧
    ((nextOf (exec (.cmp .ltn 1 9 8) (st (withG [(9, -1), (8, 1)])))).map fun t => (t.me.getP 1).getLsbD 0) = some false := by
  decide
/-- `pany` at VL 3 (after R193). -/
theorem test_any : ((nextOf (exec (.pany 4 3) ((st fun c => { c with vl := 3 }).upd fun c => c.setP 3 4))).map
    fun t => t.me.getP 4) = some (BitVec.allOnes 2048) := by decide
/-- A call writes the address after it and goes to its target (R195). -/
theorem test_call : ((nextOf (exec (.call 10) (st id))).map fun t => (t.me.getG 1, t.me.pc)) = some (12, 48) := by decide
/-- Tables 7.5 and 7.6: 1 + 2^-4 + 2^-9 by way of bf16 to e4m3. -/
theorem test_narrowing : let x := Machine.Num.fin false 545 (-9)
    let b := narrowTail .bf16 x
    let e := narrowTail .e4m3 (decodeNum .bf16 b.code b.tail)
    (b.code, b.tail) = (0x3F88, 1) ∧ (e.code, e.tail) = (0x38, 3) ∧ roundFinal .e4m3 e.code e.tail .rne false = (0x39, fNx) ∧
      roundFinal .e4m3 e.code e.tail .rz false = (0x38, fNx) := by decide
/-- Table 7.7: a ds4 block under rne with gap 2. -/
theorem test_quantise : (fun q : QBlock => (q.scales, q.codes, q.flags))
      (quantDs .ds4 2 .rne false
        ([Machine.Num.fin false 5 0, .fin false 3 (-2), .fin true 5 (-2), .fin false 3 0] ++ List.replicate 28 (Machine.Num.zero false))) =
    ((0x7F, 0x81), [0xA, 0x2, 0x6, 0xA] ++ List.replicate 28 0x8, fNx) := by decide
/-- A `trap 5` enters its trap with the code in `tval` and the address after it in `tpc` (R321, Table 25.1). -/
theorem test_system_call : ((nextOf (exec (.trap 5) (st id))).map fun t => (t.me.inTrap, t.me.tpc, t.me.tcause.toNat % 256, t.me.tval)) =
    some (true, 12, 0x17, 5) := by decide
end Sys2Proof.Tests
end

section
/-! SUPPORT. The granting of a vector length (R116, R117), the advance of strip pointers (R124) and the opening of a strip
(R207), and the statement about `vsetvl` that follows from them. -/

namespace Sys2Proof.Machine

open Sys2Proof

/-! ### The granted length -/

theorem tyIsBlock_iff (t : VTy) : tyIsBlock t = true ↔ t = .ds4 ∨ t = .ds8 ∨ t = .mx4 := by
  cases t <;> simp [tyIsBlock]

theorem grantVl_eq (t : VTy) (avl m : Nat) : grantVl t avl m =
    if t = .ds4 ∨ t = .ds8 ∨ t = .mx4 then min (32 * ((avl + 31) / 32)) m else min avl m := by
  simp only [grantVl, tyIsBlock_iff]

theorem dvd_lanes (s : State) (ag : Agent) : 32 ∣ lanes s ag := by
  unfold lanes
  split
  · exact Nat.dvd_mul_right ..
  · exact Nat.dvd_zero 32

/-- An element is at most 32 bits wide, in a power of two. -/
theorem tyWidth_dvd {t : VTy} (hn : t ≠ .none) (hr : t ≠ .record) : tyWidth t ∣ 32 := by
  cases t with
  | none => exact absurd rfl hn
  | record => exact absurd rfl hr
  | _ => decide

theorem vlmaxOf_element (a : Nat) {t : VType} (hn : t.ty ≠ .none) (hr : t.ty ≠ .record) :
    vlmaxOf a t = min 2048 (t.group * a * 32 / tyWidth t.ty) := by
  unfold vlmaxOf
  split
  · exact absurd ‹_› hn
  · exact absurd ‹_› hr
  · rfl

/-- VLMAX of an element type holds whole blocks: every lane group has 32 lanes, and every element fits a lane (R116). -/
theorem dvd_vlmax (s : State) (ag : Agent) (hn : (s.ct ag).vtype.ty ≠ .none) (hr : (s.ct ag).vtype.ty ≠ .record) :
    32 ∣ vlmax s ag := by
  unfold vlmax
  rw [vlmaxOf_element _ hn hr, Nat.mul_div_assoc _ (tyWidth_dvd hn hr)]
  have hl : 32 ∣ (s.ct ag).vtype.group * lanes s ag * (32 / tyWidth (s.ct ag).vtype.ty) :=
    Nat.dvd_mul_right_of_dvd (Nat.dvd_mul_left_of_dvd (dvd_lanes s ag) _) _
  rw [Nat.min_def]
  split
  · decide
  · exact hl

/-! ### Strip pointers -/

theorem ne_zero_of_mem_stripPointers {c : CT} {mask : BitVec 4} {q : GReg × Nat} (h : q ∈ stripPointers c mask) :
    q.1 ≠ 0 := by
  simpa using (List.mem_filter.mp h).2

/-- The bytes by which a strip pointer advances (R124, R207): whole blocks where a block type has pointers of size 0, else
elements of the pointer's own size. -/
def pointerBytes (t : VTy) (vl k : Nat) : Nat :=
  if tyIsBlock t && k == 0 then vl / 32 * stripBlock t else vl * 2 ^ k

theorem advancePointer_eq (t : VTy) (vl : Nat) (c : CT) (q : GReg × Nat) :
    advancePointer t vl c q = c.setG q.1 (c.getG q.1 + w64 (pointerBytes t vl q.2)) := rfl

theorem stripBlock_of_tyIsBlock {t : VTy} (h : t = .ds4 ∨ t = .ds8 ∨ t = .mx4) :
    stripBlock t = if t = .ds4 then 18 else if t = .ds8 then 34 else 17 := by
  rcases h with rfl | rfl | rfl <;> rfl

theorem pointerBytes_eq (t : VTy) (vl k : Nat) : pointerBytes t vl k =
    if (t = .ds4 ∨ t = .ds8 ∨ t = .mx4) ∧ k = 0 then vl / 32 * (if t = .ds4 then 18 else if t = .ds8 then 34 else 17)
    else vl * 2 ^ k := by
  simp only [pointerBytes, Bool.and_eq_true, tyIsBlock_iff, beq_iff_eq]
  split
  · next h => rw [stripBlock_of_tyIsBlock h.1]
  · rfl

section Pointers

variable (t : VTy) (vl : Nat)

/-- Advancing pointers changes scalar registers only: whatever no write of a scalar register changes stays. -/
theorem foldl_advancePointer_keeps {α : Type} (φ : CT → α) (h : ∀ c r w, φ (CT.setG c r w) = φ c)
    (ps : List (GReg × Nat)) (c : CT) : φ (ps.foldl (advancePointer t vl) c) = φ c := by
  induction ps generalizing c with
  | nil => rfl
  | cons q ps ih => rw [List.foldl_cons, ih, advancePointer_eq, h]

theorem getG_foldl_advancePointer_ne (ps : List (GReg × Nat)) (c : CT) {r : GReg} (h : ∀ q ∈ ps, q.1 ≠ r) :
    (ps.foldl (advancePointer t vl) c).getG r = c.getG r := by
  induction ps generalizing c with
  | nil => rfl
  | cons q ps ih =>
    obtain ⟨hq, hps⟩ := List.forall_mem_cons.mp h
    rw [List.foldl_cons, ih _ hps, advancePointer_eq, CT.getG_setG_ne _ _ hq.symm]

/-- A pointer named once advances once. -/
theorem getG_foldl_advancePointer_mem {ps : List (GReg × Nat)} (c : CT) (hd : (ps.map (·.1)).Nodup) {q : GReg × Nat}
    (hq : q ∈ ps) (h0 : q.1 ≠ 0) :
    (ps.foldl (advancePointer t vl) c).getG q.1 = c.getG q.1 + w64 (pointerBytes t vl q.2) := by
  induction ps generalizing c with
  | nil => simp at hq
  | cons p ps ih =>
    obtain ⟨hp, hd⟩ := List.nodup_cons.mp hd
    have hne : ∀ x ∈ ps, x.1 ≠ p.1 := fun x hx e => hp (List.mem_map.mpr ⟨x, hx, e⟩)
    rw [List.foldl_cons]
    rcases List.mem_cons.mp hq with rfl | hq
    · rw [getG_foldl_advancePointer_ne t vl ps _ hne, advancePointer_eq, CT.getG_setG _ _ h0]
    · rw [ih _ hd hq, advancePointer_eq, CT.getG_setG_ne _ _ (hne q hq)]

end Pointers

/-! ### The opening of a strip -/

/-- The registers that `vsetvl` writes: the pointers advanced, then gd. -/
def stripRegs (c : CT) (m : Nat) (d a : GReg) (mask : BitVec 4) : CT :=
  let vl := grantVl c.vtype.ty (c.getG a).toNat m
  ((stripPointers c mask).foldl (advancePointer c.vtype.ty vl) c).setG d (w64 vl)

theorem stripRegs_keeps {α : Type} (φ : CT → α) (h : ∀ c r w, φ (CT.setG c r w) = φ c) (c : CT) (m : Nat) (d a : GReg)
    (mask : BitVec 4) : φ (stripRegs c m d a mask) = φ c := by
  simp only [stripRegs, h, foldl_advancePointer_keeps _ _ φ h]

/-- The strip that `vsetvl` opens: nothing buffered, and the checkpoint taken at the instruction (R207). -/
def openedStrip (c : CT) (d a : GReg) (mask : BitVec 4) : Strip :=
  ⟨⟨c.pc, c.sup, c.inUev, c.inTrap, c.vtype, c.vl,
    (a :: d :: (stripPointers c mask).map (·.1)).map (fun r => (r, c.getG r, c.getGTag r))⟩,
    [], false, c.again.contains (c.level, c.pc), c.rp, []⟩

section Opening

variable {c : CT} (m : Nat) (d a : GReg) (mask : BitVec 4)

/-- With no register in error, `openStrip` writes registers, VL and `vstart`, and opens the strip. -/
theorem openStrip_eq (h : c.regBad = []) : openStrip c m d a mask =
    { stripRegs c m d a mask with
      vl := grantVl c.vtype.ty (c.getG a).toNat m, vstart := 0, strip := some (openedStrip c d a mask)
      again := c.again.filter (fun w => decide (w.1 ≠ c.level)) } := by
  have hb : (stripRegs c m d a mask).regBad = [] := by rw [stripRegs_keeps CT.regBad CT.setG_regBad, h]
  rw [← clean_nil [.csr 0x008, .csr 0x00B] hb]
  rfl

theorem openStrip_strip (h : c.regBad = []) : (openStrip c m d a mask).strip = some (openedStrip c d a mask) := by
  rw [openStrip_eq m d a mask h]

theorem openStrip_vl (h : c.regBad = []) : (openStrip c m d a mask).vl = grantVl c.vtype.ty (c.getG a).toNat m := by
  rw [openStrip_eq m d a mask h]

theorem openStrip_vstart (h : c.regBad = []) : (openStrip c m d a mask).vstart = 0 := by
  rw [openStrip_eq m d a mask h]

theorem openStrip_regBad (h : c.regBad = []) : (openStrip c m d a mask).regBad = [] := by
  rw [openStrip_eq m d a mask h]
  exact (stripRegs_keeps CT.regBad CT.setG_regBad c m d a mask).trans h

theorem getGTag_openStrip (h : c.regBad = []) (r : GReg) : (openStrip c m d a mask).getGTag r = c.getGTag r := by
  rw [openStrip_eq m d a mask h]
  exact stripRegs_keeps (fun c => c.getGTag r) (fun c k w => CT.getGTag_setG_other c k w r) c m d a mask

theorem getG_openStrip (h : c.regBad = []) (r : GReg) :
    (openStrip c m d a mask).getG r = (stripRegs c m d a mask).getG r := by
  rw [openStrip_eq m d a mask h]
  rfl

theorem getG_openStrip_dest (h : c.regBad = []) (hd : d ≠ 0) :
    (openStrip c m d a mask).getG d = w64 (grantVl c.vtype.ty (c.getG a).toNat m) := by
  rw [getG_openStrip m d a mask h, stripRegs, CT.getG_setG _ _ hd]

theorem getG_openStrip_pointer (h : c.regBad = []) (hn : ((stripPointers c mask).map (·.1)).Nodup) {q : GReg × Nat}
    (hq : q ∈ stripPointers c mask) (hd : q.1 ≠ d) : (openStrip c m d a mask).getG q.1 =
      c.getG q.1 + w64 (pointerBytes c.vtype.ty (grantVl c.vtype.ty (c.getG a).toNat m) q.2) := by
  rw [getG_openStrip m d a mask h, stripRegs, CT.getG_setG_ne _ _ hd,
    getG_foldl_advancePointer_mem _ _ _ hn hq (ne_zero_of_mem_stripPointers hq)]

theorem getG_openStrip_other (h : c.regBad = []) {r : GReg} (hd : r ≠ d) (hp : ∀ q ∈ stripPointers c mask, q.1 ≠ r) :
    (openStrip c m d a mask).getG r = c.getG r := by
  rw [getG_openStrip m d a mask h, stripRegs, CT.getG_setG_ne _ _ hd, getG_foldl_advancePointer_ne _ _ _ _ hp]

/-- What an opening strip leaves as it was: the type, the other registers and the memories. -/
theorem openStrip_frame (h : c.regBad = []) : (openStrip c m d a mask).vtype = c.vtype ∧
    (openStrip c m d a mask).p = c.p ∧ (openStrip c m d a mask).v = c.v ∧ (openStrip c m d a mask).loc = c.loc ∧
    (openStrip c m d a mask).trail = c.trail := by
  rw [openStrip_eq m d a mask h]
  exact ⟨stripRegs_keeps CT.vtype CT.setG_vtype c m d a mask, stripRegs_keeps CT.p CT.setG_p c m d a mask,
    stripRegs_keeps CT.v CT.setG_v c m d a mask, stripRegs_keeps CT.loc CT.setG_loc c m d a mask,
    stripRegs_keeps CT.trail CT.setG_trail c m d a mask⟩

end Opening

/-! ### The step -/

/-- A strip with nothing buffered has nothing to commit early (R210). -/
theorem settleFrame_empty {s : State} {ag : Agent} {k : Strip} (h : (s.ct ag).strip = some k) (hw : k.writes = []) :
    settleFrame s ag = s := by
  simp [settleFrame, h, hw, bufLocal]

/-- An undisturbed instruction that ends normally with a strip open in which nothing is buffered. -/
theorem quiet_opens {s : State} {m : Shape} {body : Nat → State → Res} (f : CT → CT) {k : Strip}
    (h : Quiet s m.reads m.writes) (hp : m.priv = true → s.me.sup = true) (hn : ∀ q ∈ m.numbers, q.1 < q.2)
    (hon : ∀ t, m.rule = .on t → t = 0) (hg : m.fault = none)
    (hb : body ((s.me.lift.active.head?).getD 0) s = .ok (s.upd f)) (hf : ∀ x ∈ m.writes, (f s.me).refTag x = 0)
    (hst : (f s.me).strip = some k) (hw : k.writes = []) (hc : (f s.me).regBad = []) :
    scalar s m body = .next (settled s m.size f) := by
  rw [scalar_quiet hp (quiet_numbers h hn) h.tags h.regions h.queue h.strip hon hg h.sound, hb]
  have hset : s.upd (fun c => (setTags (f c) m 0).proceed m.size) = settled s m.size f :=
    State.upd_congr s _ _ (by rw [setTags_zero hf hc])
  have hstrip : ((settled s m.size f).ct s.cur).strip = some k := by
    change (settled s m.size f).me.strip = some k
    simp [settled, hst]
  simp only [State.upd_upd, finish, hset, settleFrame_empty hstrip hw]

/-- An undisturbed `vsetvl` opens its strip and goes on. -/
theorem exec_vsetvl_quiet {s : State} {d a : GReg} {mask : BitVec 4}
    (h : Quiet s (.g a :: (stripPointers s.me mask).map (fun q => .g q.1))
      (.g d :: (stripPointers s.me mask).map (fun q => .g q.1))) :
    exec (.vsetvl d a mask) s = .next (settled s 1 (fun c => openStrip c (vlmax s s.cur) d a mask)) := by
  change execVsetvl d a mask s = _
  unfold execVsetvl
  refine quiet_opens _ h (by simp) (by simp) (by simp) rfl ?_ ?_ (openStrip_strip _ d a mask h.sound) rfl
    (openStrip_regBad _ d a mask h.sound)
  · rw [commitStrip_none h.strip]
  · intro x hx
    have hx0 : s.me.refTag x = 0 := h.tags x (List.mem_append_right _ hx)
    obtain ⟨r, rfl⟩ : ∃ r, x = .g r := by
      rcases List.mem_cons.mp hx with rfl | hx
      · exact ⟨d, rfl⟩
      · obtain ⟨q, -, rfl⟩ := List.mem_map.mp hx
        exact ⟨q.1, rfl⟩
    exact (getGTag_openStrip _ d a mask h.sound r).trans hx0

/-- Settles O40: `vsetvl` runs as `openStrip`, whose registers, length, strip and frame the lemmas above give. -/
theorem stripOpening : Obligations.StripOpening := by
  unfold Obligations.StripOpening
  rintro s d a mask _ - rfl hq t avl vl
  have hb : s.me.regBad = [] := hq.sound
  have hvl : grantVl t avl (vlmax s s.cur) = vl := grantVl_eq t avl _
  refine ⟨fun c => openStrip c (vlmax s s.cur) d a mask, exec_vsetvl_quiet hq,
    fun hn hr => Nat.mod_eq_zero_of_dvd (dvd_vlmax s s.cur hn hr), (openStrip_vl _ d a mask hb).trans hvl,
    openStrip_vstart _ d a mask hb, ?_, ?_, fun r hne hp => getG_openStrip_other _ d a mask hb hne hp,
    ⟨openedStrip s.me d a mask, openStrip_strip _ d a mask hb, rfl, rfl, rfl, rfl, rfl,
      fun r hr => List.mem_map_of_mem hr⟩, openStrip_frame _ d a mask hb⟩
  · intro hd
    rw [getG_openStrip_dest _ d a mask hb hd, hvl]
  · intro hn q hmem hne
    rw [getG_openStrip_pointer _ d a mask hb hn hmem hne, hvl, pointerBytes_eq]

end Sys2Proof.Machine
end

section
/-! SUPPORT. The values of the integer instructions as the arithmetic of R187 to R190, the transfers of control of R194 to R196,
and the statements about both. -/

namespace Sys2Proof.Machine

open Sys2Proof

/-! ### Values -/

section Values

variable (x y : W64)

theorem sext64_eq_ofInt {n : Nat} (i : BitVec n) : sext64 i = BitVec.ofInt 64 i.toInt := rfl

theorem add_eq_ofInt : x + y = BitVec.ofInt 64 (x.toInt + y.toInt) := by
  rw [BitVec.ofInt_add, BitVec.ofInt_toInt, BitVec.ofInt_toInt]

theorem sub_eq_ofInt : x - y = BitVec.ofInt 64 (x.toInt - y.toInt) := by
  rw [BitVec.sub_eq_add_neg, Int.sub_eq_add_neg, BitVec.ofInt_add, BitVec.ofInt_neg, BitVec.ofInt_toInt, BitVec.ofInt_toInt]

theorem mul_eq_ofInt : x * y = BitVec.ofInt 64 (x.toInt * y.toInt) := by
  rw [BitVec.ofInt_mul, BitVec.ofInt_toInt, BitVec.ofInt_toInt]

theorem add_sext64_eq_ofInt {n : Nat} (i : BitVec n) : x + sext64 i = BitVec.ofInt 64 (x.toInt + i.toInt) := by
  rw [BitVec.ofInt_add, BitVec.ofInt_toInt, sext64_eq_ofInt]

/-- R188: the overflow's answer is the quotient modulo 2^64. -/
theorem divS_eq_ofInt : divS x y = if y = 0 then BitVec.allOnes 64 else BitVec.ofInt 64 (x.toInt.tdiv y.toInt) := by
  unfold divS
  split
  · rfl
  · split
    · next h => rw [h.1, h.2]; decide
    · rfl

/-- R188: the remainder for a zero divisor and on overflow is that of truncating division too. -/
theorem remS_eq_ofInt : remS x y = BitVec.ofInt 64 (x.toInt.tmod y.toInt) := by
  unfold remS
  split
  · next h => rw [h, BitVec.ofNat_eq_ofNat, BitVec.toInt_zero, Int.tmod_zero, BitVec.ofInt_toInt]
  · split
    · next h => rw [h.1, h.2]; decide
    · rw [Int.tmod_def]

theorem remU_eq_ofNat : remU x y = BitVec.ofNat 64 (x.toNat % y.toNat) := by
  unfold remU
  split
  · next h => rw [h, BitVec.ofNat_eq_ofNat, BitVec.toNat_ofNat, Nat.zero_mod, Nat.mod_zero, BitVec.ofNat_toNat, BitVec.setWidth_eq]
  · rw [Nat.mod_def]

theorem shiftLeft_eq_ofNat (k : Nat) : x <<< k = BitVec.ofNat 64 (x.toNat * 2 ^ k) := by
  rw [← Nat.shiftLeft_eq]; rfl

theorem ushiftRight_eq_ofNat (k : Nat) : x >>> k = BitVec.ofNat 64 (x.toNat / 2 ^ k) := by
  rw [← Nat.shiftRight_eq_div_pow, ← BitVec.toNat_ushiftRight, BitVec.ofNat_toNat, BitVec.setWidth_eq]

theorem sshiftRight_eq_ofInt (k : Nat) : x.sshiftRight k = BitVec.ofInt 64 (x.toInt / 2 ^ k) := by
  rw [BitVec.sshiftRight, Int.shiftRight_eq_div_pow, Int.natCast_pow]
  rfl

theorem minS_eq_ofInt : minS x y = BitVec.ofInt 64 (min x.toInt y.toInt) := by
  rw [Int.min_def, apply_ite (BitVec.ofInt 64), BitVec.ofInt_toInt, BitVec.ofInt_toInt, minS]

theorem maxS_eq_ofInt : maxS x y = BitVec.ofInt 64 (max x.toInt y.toInt) := by
  rw [Int.max_def, apply_ite (BitVec.ofInt 64), BitVec.ofInt_toInt, BitVec.ofInt_toInt, maxS]

theorem minU_eq_ofNat : minU x y = BitVec.ofNat 64 (min x.toNat y.toNat) := by
  rw [Nat.min_def, apply_ite (BitVec.ofNat 64), BitVec.ofNat_toNat, BitVec.ofNat_toNat, BitVec.setWidth_eq,
    BitVec.setWidth_eq, minU]

theorem maxU_eq_ofNat : maxU x y = BitVec.ofNat 64 (max x.toNat y.toNat) := by
  rw [Nat.max_def, apply_ite (BitVec.ofNat 64), BitVec.ofNat_toNat, BitVec.ofNat_toNat, BitVec.setWidth_eq,
    BitVec.setWidth_eq, maxU]

theorem lowHalf_eq_ofNat : (x.truncate 32).zeroExtend 64 = BitVec.ofNat 64 (x.toNat % 2 ^ 32) := by
  apply BitVec.eq_of_toNat_eq
  simp

theorem shiftLeft_32_eq_mul : x <<< 32 = x * BitVec.ofNat 64 (2 ^ 32) :=
  BitVec.shiftLeft_eq_mul_twoPow x 32

/-- R189: `lui` puts its immediate above the low half of the register. -/
theorem lui_eq_ofInt (i : BitVec 15) : sext64 i <<< 32 + (x.truncate 32).zeroExtend 64 =
    BitVec.ofInt 64 (i.toInt * 2 ^ 32 + (x.toNat % 2 ^ 32 : Nat)) := by
  rw [lowHalf_eq_ofNat, shiftLeft_32_eq_mul, sext64_eq_ofInt, BitVec.ofInt_add, BitVec.ofInt_mul, BitVec.ofInt_natCast]
  rfl

/-- R190: long `lui` puts its 32 bits above the low half of the register. -/
theorem luiLong_eq_ofNat (i : BitVec 32) : i.zeroExtend 64 <<< 32 + (x.truncate 32).zeroExtend 64 =
    BitVec.ofNat 64 (i.toNat * 2 ^ 32 + x.toNat % 2 ^ 32) := by
  rw [lowHalf_eq_ofNat, shiftLeft_32_eq_mul, BitVec.ofNat_add, BitVec.ofNat_mul, BitVec.ofNat_toNat]

end Values

/-! ### Integer instructions -/

/-- A write of the one scalar register of an undisturbed instruction's destinations leaves it unbatched, no strip open and no
register in error. -/
theorem quiet_setG {s : State} {reads : List RegRef} {d : GReg} (h : Quiet s reads [.g d]) (w : W64) :
    (∀ x ∈ [RegRef.g d], (s.me.setG d w).refTag x = 0) ∧ (s.me.setG d w).strip = none ∧ (s.me.setG d w).regBad = [] := by
  refine ⟨fun x hx => ?_, (CT.setG_strip s.me d w).trans h.strip, (CT.setG_regBad s.me d w).trans h.sound⟩
  obtain rfl := List.mem_singleton.mp hx
  exact (CT.getGTag_setG_other s.me d w d).trans (h.tags _ (List.mem_append_right _ hx))

/-- An undisturbed instruction that writes a value of the state to one scalar register. -/
theorem scalar_writesG {s : State} {n : Nat} {reads : List RegRef} {d : GReg} (f : CT → W64) {w : W64} (hw : f s.me = w)
    (h : Quiet s reads [.g d]) :
    scalar s { size := n, reads := reads, writes := [.g d] } (fun _ s => .ok (s.upd (fun c => c.setG d (f c)))) =
      .next (settled s n (fun c => c.setG d w)) := by
  obtain ⟨htags, hstrip, hbad⟩ := quiet_setG h w
  have hbody : s.upd (fun c => c.setG d (f c)) = s.upd (fun c => c.setG d w) := State.upd_congr s _ _ (by rw [hw])
  exact quiet_ok _ h (by simp) (by simp) (by simp) rfl (congrArg Res.ok hbody) htags hstrip hbad

section Shapes

variable {s : State} {n : Nat} {d a b : GReg} {w : W64}

theorem opRR_quiet (f : W64 → W64 → W64) (hw : f (s.me.getG a) (s.me.getG b) = w) (h : Quiet s [.g a, .g b] [.g d]) :
    opRR d a b f s = .next (settled s 1 (fun c => c.setG d w)) :=
  scalar_writesG (fun c => f (c.getG a) (c.getG b)) hw h

theorem opR_quiet (f : W64 → W64) (hw : f (s.me.getG a) = w) (h : Quiet s [.g a] [.g d]) :
    opR d a f s = .next (settled s 1 (fun c => c.setG d w)) :=
  scalar_writesG (fun c => f (c.getG a)) hw h

theorem opD_quiet (f : W64 → W64) (hw : f (s.me.getG d) = w) (h : Quiet s [.g d] [.g d]) :
    opD n d f s = .next (settled s n (fun c => c.setG d w)) :=
  scalar_writesG (fun c => f (c.getG d)) hw h

theorem opK_quiet (h : Quiet s [] [.g d]) : opK n d w s = .next (settled s n (fun c => c.setG d w)) :=
  scalar_writesG (fun _ => w) rfl h

end Shapes

/-- Settles O1: each integer instruction has one of four shapes, and its value is the one of the tables. -/
theorem integerResults : Obligations.IntegerResults := by
  unfold Obligations.IntegerResults
  intro s i d reads n w h hq
  cases i with
  | add => cases h; exact opRR_quiet (fun x y => x + y) (add_eq_ofInt _ _) hq
  | sub => cases h; exact opRR_quiet (fun x y => x - y) (sub_eq_ofInt _ _) hq
  | mul => cases h; exact opRR_quiet (fun x y => x * y) (mul_eq_ofInt _ _) hq
  | mulh => cases h; exact opRR_quiet mulHS rfl hq
  | mulhn => cases h; exact opRR_quiet mulHU rfl hq
  | div => cases h; exact opRR_quiet divS (divS_eq_ofInt _ _) hq
  | rem => cases h; exact opRR_quiet remS (remS_eq_ofInt _ _) hq
  | divn => cases h; exact opRR_quiet divU rfl hq
  | remn => cases h; exact opRR_quiet remU (remU_eq_ofNat _ _) hq
  | and => cases h; exact opRR_quiet (fun x y => x &&& y) rfl hq
  | or => cases h; exact opRR_quiet (fun x y => x ||| y) rfl hq
  | xor => cases h; exact opRR_quiet (fun x y => x ^^^ y) rfl hq
  | andn => cases h; exact opRR_quiet (fun x y => x &&& ~~~y) rfl hq
  | shl => cases h; exact opRR_quiet (fun x y => x <<< shAmt y) (shiftLeft_eq_ofNat _ _) hq
  | shr => cases h; exact opRR_quiet (fun x y => x >>> shAmt y) (ushiftRight_eq_ofNat _ _) hq
  | sha => cases h; exact opRR_quiet (fun x y => x.sshiftRight (shAmt y)) (sshiftRight_eq_ofInt _ _) hq
  | min => cases h; exact opRR_quiet minS (minS_eq_ofInt _ _) hq
  | max => cases h; exact opRR_quiet maxS (maxS_eq_ofInt _ _) hq
  | minn => cases h; exact opRR_quiet minU (minU_eq_ofNat _ _) hq
  | maxn => cases h; exact opRR_quiet maxU (maxU_eq_ofNat _ _) hq
  | addi d a i => cases h; exact opR_quiet (fun x => x + sext64 i) (add_sext64_eq_ofInt _ _) hq
  | andi d a i => cases h; exact opR_quiet (fun x => x &&& sext64 i) rfl hq
  | ori d a i => cases h; exact opR_quiet (fun x => x ||| sext64 i) rfl hq
  | xori d a i => cases h; exact opR_quiet (fun x => x ^^^ sext64 i) rfl hq
  | shli d a i => cases h; exact opR_quiet (fun x => x <<< i.toNat) (shiftLeft_eq_ofNat _ _) hq
  | shri d a i => cases h; exact opR_quiet (fun x => x >>> i.toNat) (ushiftRight_eq_ofNat _ _) hq
  | shai d a i => cases h; exact opR_quiet (fun x => x.sshiftRight i.toNat) (sshiftRight_eq_ofInt _ _) hq
  | lui d i => cases h; exact opD_quiet (fun x => sext64 i <<< 32 + (x.truncate 32).zeroExtend 64) (lui_eq_ofInt _ _) hq
  | li => cases h; exact opK_quiet hq
  | liLong => cases h; exact opK_quiet hq
  | luiLong d i =>
    cases h; exact opD_quiet (fun x => i.zeroExtend 64 <<< 32 + (x.truncate 32).zeroExtend 64) (luiLong_eq_ofNat _ _) hq
  | addiLong d i => cases h; exact opD_quiet (fun x => x + sext64 i) (add_sext64_eq_ofInt _ _) hq
  | _ => cases h

/-! ### Transfers of control -/

/-- A branch target is the branch's own address and four times its offset (R194). -/
theorem relative_eq_ofInt {n : Nat} (c : CT) (off : BitVec n) :
    c.relative off = c.pc + BitVec.ofInt 64 (4 * off.toInt) := by
  rw [CT.relative, sext64_eq_ofInt, BitVec.mul_comm, BitVec.ofInt_mul]
  rfl

theorem jumpTo_inside {s : State} {t : W64} (h : t.toNat < codeBytes s s.cur) : jumpTo s t = .jump t s :=
  if_neg (Nat.not_le.mpr h)

theorem jumpInd_inside {s : State} {t : W64} (h4 : t.toNat % 4 = 0) (h : t.toNat < codeBytes s s.cur) :
    jumpInd s t = .jump t s := by
  rw [jumpInd, if_neg (not_not_intro h4), jumpTo_inside h]

section Transfers

variable {s : State} {reads : List RegRef} {rule : LiftRule} {body : Nat → State → Res}

/-- An undisturbed instruction that writes no register and does nothing. -/
theorem scalar_skips (h : Quiet s reads []) (hon : ∀ t, rule = .on t → t = 0)
    (hb : body ((s.me.lift.active.head?).getD 0) s = .ok s) :
    scalar s { reads := reads, rule := rule } body = .next (settled s 1 id) :=
  quiet_ok id h (by simp) (by simp) hon rfl (hb.trans (congrArg Res.ok (State.upd_id s id rfl).symm)) (by simp) h.strip h.sound

/-- An undisturbed transfer of control that writes no register. -/
theorem scalar_jumps {t : W64} (h : Quiet s reads []) (hon : ∀ t, rule = .on t → t = 0)
    (hb : body ((s.me.lift.active.head?).getD 0) s = .jump t s) :
    scalar s { reads := reads, rule := rule } body = .next (jumped s t id) :=
  quiet_jump id t h (by simp) (by simp) hon rfl (hb.trans (congrArg (Res.jump t) (State.upd_id s id rfl).symm)) (by simp)
    h.strip h.sound

/-- An undisturbed transfer of control that leaves the address after it in a register (R195). -/
theorem scalar_links {t : W64} {d : GReg} (h : Quiet s reads [.g d]) (hon : ∀ t, rule = .on t → t = 0)
    (hb : body ((s.me.lift.active.head?).getD 0) s = .jump t (s.upd (fun c => c.setG d (c.pc + 4)))) :
    scalar s { reads := reads, writes := [.g d], rule := rule } body =
      .next (jumped s t (fun c => c.setG d (s.me.pc + 4))) := by
  obtain ⟨htags, hstrip, hbad⟩ := quiet_setG h (s.me.pc + 4)
  have hlink : s.upd (fun c => c.setG d (c.pc + 4)) = s.upd (fun c => c.setG d (s.me.pc + 4)) := State.upd_congr s _ _ rfl
  exact quiet_jump _ t h (by simp) (by simp) hon rfl (hb.trans (congrArg (Res.jump t) hlink)) htags hstrip hbad

end Transfers

section Instructions

variable {s : State}

theorem exec_br_quiet {off : BitVec 25} (h : Quiet s [] []) (ht : (s.me.relative off).toNat < codeBytes s s.cur) :
    exec (.br off) s = .next (jumped s (s.me.relative off) id) :=
  scalar_jumps h (by simp) (jumpTo_inside ht)

theorem exec_bp_taken {p : PReg} {neg : Bool} {off : BitVec 17} (h : Quiet s [.p p] [])
    (hp : (s.me.getP p).getLsbD 0 ≠ neg) (ht : (s.me.relative off).toNat < codeBytes s s.cur) :
    exec (.bp p neg off) s = .next (jumped s (s.me.relative off) id) := by
  have htag : s.me.getPTag p = 0 := h.tags (.p p) (by simp)
  refine scalar_jumps h (by simp) ?_
  simp only [htag, if_true, pCond, bne_iff_ne, if_pos hp, jumpTo_inside ht]

theorem exec_bp_untaken {p : PReg} {neg : Bool} {off : BitVec 17} (h : Quiet s [.p p] [])
    (hp : (s.me.getP p).getLsbD 0 = neg) : exec (.bp p neg off) s = .next (settled s 1 id) := by
  have htag : s.me.getPTag p = 0 := h.tags (.p p) (by simp)
  refine scalar_skips h (by simp) ?_
  simp only [htag, if_true, pCond, bne_iff_ne, if_neg (not_not_intro hp)]

theorem exec_call_quiet {off : BitVec 25} (h : Quiet s [] [.g 1]) (ht : (s.me.relative off).toNat < codeBytes s s.cur) :
    exec (.call off) s = .next (jumped s (s.me.relative off) (fun c => c.setG 1 (s.me.pc + 4))) := by
  refine scalar_links h (by simp) ?_
  simp only [jumpTo_inside ht]

section Indirect

variable {d a : GReg} (h4 : (s.me.getG a).toNat % 4 = 0) (ht : (s.me.getG a).toNat < codeBytes s s.cur)
include h4 ht

theorem exec_ret_quiet (h : Quiet s [.g a] []) : exec (.ret a) s = .next (jumped s (s.me.getG a) id) :=
  scalar_jumps h (by simp) (jumpInd_inside h4 ht)

theorem exec_jr_quiet (h : Quiet s [.g a] [.g d]) :
    exec (.jr d a) s = .next (jumped s (s.me.getG a) (fun c => c.setG d (s.me.pc + 4))) := by
  refine scalar_links h (by simp) ?_
  simp only [jumpInd_inside h4 ht]

end Indirect

theorem exec_nop_quiet (h : Quiet s [] []) : exec .nop s = .next (settled s 1 id) :=
  scalar_skips h (by simp) rfl

end Instructions

/-- Settles O4: each transfer lands on the target of its rule when that lies in the code run, and `nop` skips. -/
theorem branchResults : Obligations.BranchResults := by
  unfold Obligations.BranchResults
  simp only [← relative_eq_ofInt]
  exact fun s => ⟨fun _ h ht => exec_br_quiet h ht,
    fun _ _ _ h => ⟨fun hp ht => exec_bp_taken h hp ht, fun hp => exec_bp_untaken h hp⟩,
    fun _ h ht => exec_call_quiet h ht, fun _ h h4 ht => exec_ret_quiet h4 ht h, fun _ _ h h4 ht => exec_jr_quiet h4 ht h,
    exec_nop_quiet, (Laws.RoundTrip.nop rfl).1 [] (by decide)⟩

end Sys2Proof.Machine
end

section
/-! SUPPORT. The opening of a level of batching and its faults (R268, R276), the collapse of registers at its end (R273), and the
statement about `lift` and `lend`. -/

namespace Sys2Proof.Machine

open Sys2Proof

/-! ### Precise faults -/

section Faults

variable {s : State} (hsup : s.me.sup = false) (hvq : s.me.vq = []) (hst : s.me.strip = none)
include hsup hvq hst

/-- With no strip open and nothing queued, a precise fault of user mode is the trap entry itself. -/
theorem preciseTrap_quiet (cause : Cause) (tval : W64) :
    preciseTrap s s.cur cause tval false none s.me.pc = trapped s cause tval := by
  have hq : (s.ct s.cur).vq = [] := hvq
  have hu : (s.ct s.cur).sup = false := hsup
  have hc : commitStrip (s.updCt s.cur (fun c => { c with faulting := true })) s.cur =
      .done (s.updCt s.cur (fun c => { c with faulting := true })) := by
    apply commitStrip_none
    rw [State.ct_updCt]
    exact hst
  simp only [preciseTrap, hq, hu, hc]
  rfl

theorem finish_trap_quiet (m : Shape) (cause : Cause) (tval : W64) :
    finish s m (.trap cause tval false) = .next (trapped s cause tval) :=
  congrArg Host.Outcome.next (preciseTrap_quiet hsup hvq hst cause tval)

end Faults

/-! ### `lift` -/

/-- R276: the conditions under which a lift of an extent does not overflow. -/
def LiftFits (c : CT) (e : Nat) : Prop :=
  let es := c.extents ++ [e]
  let slots := ((List.range es.length).map (fun k => (es.take (k + 1)).foldl (· * ·) 1)).sum
  1 ≤ e ∧ e ≤ 256 ∧ c.lift.levels.length ≠ 3 ∧ es.foldl (· * ·) 1 ≤ 4096 ∧ c.slotBytes * slots ≤ c.kernel.lift

theorem extProd_length (es : List Nat) : extProd es es.length = es.foldl (· * ·) 1 := by
  rw [extProd, List.take_length]

theorem extProd_eq (es : List Nat) (k : Nat) : extProd es k = (es.take k).foldl (· * ·) 1 := rfl

theorem axisOverflow_iff (c : CT) (e : Nat) : axisOverflow c e = true ↔ ¬ LiftFits c e := by
  have hd : c.depth = c.lift.levels.length := rfl
  simp only [axisOverflow, LiftFits, ← extProd_eq, extProd_length, Bool.or_eq_true, decide_eq_true_eq]
  omega

section Lift

variable {s : State} {a : GReg} {i : BitVec 15}

theorem exec_lift_opens (h : Quiet s [.g a] []) (hf : LiftFits s.me (s.me.getG a).toNat)
    (ht : (s.me.relative i).toNat < codeBytes s s.cur) :
    exec (.lift a i) s = .next (jumped s (s.me.relative i) (fun c => openLift c (s.me.getG a).toNat)) := by
  have hov : axisOverflow s.me (s.me.getG a).toNat = false := by
    rw [← Bool.not_eq_true, axisOverflow_iff]
    exact not_not_intro hf
  change execLift a i s = _
  unfold execLift
  refine quiet_jump _ _ h (by simp) (by simp) (by simp) rfl ?_ (by simp) h.strip h.sound
  simp only [hov, jumpTo_inside ht, Bool.false_eq_true, if_false]

theorem exec_lift_overflows (h : Quiet s [.g a] []) (hf : ¬ LiftFits s.me (s.me.getG a).toNat) (hsup : s.me.sup = false) :
    exec (.lift a i) s = .next (trapped s .axisOverflow (s.me.getG a)) := by
  change execLift a i s = _
  unfold execLift
  rw [quiet_other (r := .trap .axisOverflow (s.me.getG a) false) h (by simp) (by simp) (by simp) rfl
    (if_pos ((axisOverflow_iff _ _).mpr hf)) (by simp) (by simp)]
  exact finish_trap_quiet hsup h.queue h.strip _ _ _

/-- The level that `openLift` adds, as a field of the state that the instruction found. -/
theorem jumped_openLift (t : W64) (e : Nat) : jumped s t (fun c => openLift c e) =
    jumped s t (fun c => { c with lift := { c.lift with
      levels := c.lift.levels ++ [⟨e, s.me.pc + 4, c.lift.active⟩]
      active := c.lift.active.flatMap (fun n => (List.range e).map (fun j => n * e + j)) } }) :=
  State.upd_congr s _ _ rfl

end Lift

/-! ### Tags -/

/-- A tag without the axis of a depth. -/
def withoutAxis (t : Tag) (d : Nat) : Tag := t &&& ~~~(BitVec.ofNat 3 (2 ^ (d - 1)))

theorem getLsbD_withoutAxis (t : Tag) (d j : Nat) :
    (withoutAxis t d).getLsbD j = (t.getLsbD j && decide (d - 1 ≠ j)) := by
  by_cases hj : j < 3
  · simp only [withoutAxis, BitVec.getLsbD_and, BitVec.getLsbD_not, BitVec.getLsbD_ofNat, Nat.testBit_two_pow, hj,
      decide_true, Bool.true_and, decide_not]
  · simp [BitVec.getLsbD_of_ge _ j (Nat.le_of_not_lt hj)]

theorem hasAxis_zero (d : Nat) : hasAxis 0 d = false := BitVec.getLsbD_zero

theorem ne_zero_of_hasAxis {t : Tag} {d : Nat} (h : hasAxis t d = true) : t ≠ 0 := by
  rintro rfl
  exact Bool.false_ne_true ((hasAxis_zero d).symm.trans h)

theorem hasAxis_withoutAxis (t : Tag) (d : Nat) : hasAxis (withoutAxis t d) d = false := by
  simp [hasAxis, getLsbD_withoutAxis]

theorem getLsbD_withoutAxis_other (t : Tag) {d j : Nat} (hj : j + 1 ≠ d) (hd : d ≠ 0) :
    (withoutAxis t d).getLsbD j = t.getLsbD j := by
  have hne : d - 1 ≠ j := by omega
  simp [getLsbD_withoutAxis, hne]

theorem withoutAxis_zero (d : Nat) : withoutAxis 0 d = 0 := BitVec.zero_and

theorem CT.getVTag_beyond (c : CT) {r : Nat} (h : ¬ r < 48) : c.getVTag r = 0 := dif_neg h

theorem CT.getGTag_setGTag (c : CT) {r : GReg} (t : Tag) (h : r ≠ 0) : (c.setGTag r t).getGTag r = t := by
  simp [CT.getGTag, CT.setGTag, h, vget]

theorem CT.getGTag_setGTag_ne (c : CT) {r k : GReg} (t : Tag) (h : k ≠ r) : (c.setGTag r t).getGTag k = c.getGTag k := by
  have hne : r.val ≠ k.val := fun e => h (Fin.ext e.symm)
  unfold CT.getGTag CT.setGTag
  by_cases hr : r = 0 <;> simp [hr, vget, hne]

theorem CT.getPTag_setPTag (c : CT) {r : PReg} (t : Tag) (h : r ≠ 0) : (c.setPTag r t).getPTag r = t := by
  simp [CT.getPTag, CT.setPTag, h, vget]

theorem CT.getPTag_setPTag_ne (c : CT) {r k : PReg} (t : Tag) (h : k ≠ r) : (c.setPTag r t).getPTag k = c.getPTag k := by
  have hne : r.val ≠ k.val := fun e => h (Fin.ext e.symm)
  unfold CT.getPTag CT.setPTag
  by_cases hr : r = 0 <;> simp [hr, vget, hne]

theorem CT.getVTag_setVTag (c : CT) {r : Nat} (t : Tag) (h : r < 48) : (c.setVTag r t).getVTag r = t := by
  simp [CT.getVTag, CT.setVTag, h]

theorem CT.getVTag_setVTag_ne (c : CT) {r k : Nat} (t : Tag) (h : k ≠ r) : (c.setVTag r t).getVTag k = c.getVTag k := by
  unfold CT.getVTag CT.setVTag
  by_cases hk : k < 48 <;> by_cases hr : r < 48 <;> simp [hk, hr, h.symm]

/-- A batched register is one that has a tag to set. -/
theorem refTag_setRefTag_self (c : CT) {x : RegRef} (t : Tag) (h : c.refTag x ≠ 0) : (c.setRefTag x t).refTag x = t := by
  cases x with
  | g r => exact CT.getGTag_setGTag c t (fun e => h (e ▸ CT.getGTag_zero c))
  | p r => exact CT.getPTag_setPTag c t (fun e => h (e ▸ CT.getPTag_zero c))
  | v r w => exact CT.getVTag_setVTag c t (Decidable.not_not.mp (fun hr => h (CT.getVTag_beyond c hr)))

/-- Setting the tag of a batched register leaves every tag as it was but that of the register itself, under each of its names. -/
theorem refTag_setRefTag (c : CT) {x : RegRef} (t : Tag) (h : c.refTag x ≠ 0) (y : RegRef) :
    (c.setRefTag x t).refTag y = c.refTag y ∨ (c.setRefTag x t).refTag y = t ∧ c.refTag y = c.refTag x := by
  have hself := refTag_setRefTag_self c t h
  cases x with
  | g r => cases y with
    | g k =>
      by_cases e : k = r
      · exact .inr ⟨e ▸ hself, e ▸ rfl⟩
      · exact .inl (CT.getGTag_setGTag_ne c t e)
    | p k => exact .inl (CT.getPTag_setGTag_other c r t k)
    | v k w => exact .inl (CT.getVTag_setGTag_other c r t k)
  | p r => cases y with
    | g k => exact .inl (CT.getGTag_setPTag_other c r t k)
    | p k =>
      by_cases e : k = r
      · exact .inr ⟨e ▸ hself, e ▸ rfl⟩
      · exact .inl (CT.getPTag_setPTag_ne c t e)
    | v k w => exact .inl (CT.getVTag_setPTag_other c r t k)
  | v r w => cases y with
    | g k => exact .inl (CT.getGTag_setVTag_other c r t k)
    | p k => exact .inl (CT.getPTag_setVTag_other c r t k)
    | v k u =>
      by_cases e : k = r
      · exact .inr ⟨e ▸ hself, e ▸ rfl⟩
      · exact .inl (CT.getVTag_setVTag_ne c t e)

/-- A register holds its value, not its tag. -/
theorem getG_setRefTag (c : CT) (x : RegRef) (t : Tag) (r : GReg) : (c.setRefTag x t).getG r = c.getG r := by
  cases x with
  | g k => exact CT.getG_setGTag_other c k t r
  | p k => exact CT.getG_setPTag_other c k t r
  | v k w => exact CT.getG_setVTag_other c k t r

/-- A scalar register keeps its tag where another's is set. -/
theorem getGTag_setRefTag_ne (c : CT) {x : RegRef} (t : Tag) {r : GReg} (h : x ≠ .g r) :
    (c.setRefTag x t).getGTag r = c.getGTag r := by
  cases x with
  | g k => exact CT.getGTag_setGTag_ne c t (fun e => h (e ▸ rfl))
  | p k => exact CT.getGTag_setPTag_other c k t r
  | v k w => exact CT.getGTag_setVTag_other c k t r

theorem refTag_loadRef (c : CT) (a : Nat) (x : RegRef) (bs : List Byte) (y : RegRef) :
    (c.loadRef a x bs).refTag y = c.refTag y := by
  cases y with
  | g r => cases x <;> simp [CT.loadRef, CT.refTag]
  | p r => cases x <;> simp [CT.loadRef, CT.refTag]
  | v r w => cases x <;> simp [CT.loadRef, CT.refTag]

theorem getG_loadRef_self (c : CT) (a : Nat) {r : GReg} (bs : List Byte) (h : r ≠ 0) :
    (c.loadRef a (.g r) bs).getG r = w64 (leNat bs) := CT.getG_setG c _ h

theorem getG_loadRef_ne (c : CT) (a : Nat) {x : RegRef} (bs : List Byte) {r : GReg} (h : x ≠ .g r) :
    (c.loadRef a x bs).getG r = c.getG r := by
  cases x with
  | g k => exact CT.getG_setG_ne c _ (fun e => h (e ▸ rfl))
  | p k => exact CT.getG_setP_other c k _ r
  | v k w => exact CT.getG_setV_other c k _ r

/-! ### What the end of a level keeps -/

/-- The lift nest, the kernel, the strip and the register errors are those of another state: what the place of a copy and the closing of
a level look at besides the registers. -/
structure SameNest (c d : CT) : Prop where
  lift : d.lift = c.lift
  kernel : d.kernel = c.kernel
  strip : d.strip = c.strip
  regBad : d.regBad = c.regBad

/-- No strip is open, and no register has an error. -/
structure CT.Calm (c : CT) : Prop where
  strip : c.strip = none
  regBad : c.regBad = []

theorem SameNest.calm {c d : CT} (h : SameNest c d) (hc : c.Calm) : d.Calm :=
  ⟨h.strip.trans hc.strip, h.regBad.trans hc.regBad⟩

theorem SameNest.refl (c : CT) : SameNest c c := ⟨rfl, rfl, rfl, rfl⟩

theorem SameNest.trans {c d e : CT} (h : SameNest c d) (k : SameNest d e) : SameNest c e :=
  ⟨k.lift.trans h.lift, k.kernel.trans h.kernel, k.strip.trans h.strip, k.regBad.trans h.regBad⟩

theorem sameNest_loadRef (c : CT) (a : Nat) (x : RegRef) (bs : List Byte) : SameNest c (c.loadRef a x bs) := by
  cases x <;> constructor <;> simp [CT.loadRef]

theorem sameNest_setRefTag (c : CT) (x : RegRef) (t : Tag) : SameNest c (c.setRefTag x t) := by
  cases x <;> constructor <;> simp [CT.setRefTag]

theorem loadRef_loc (c : CT) (a : Nat) (x : RegRef) (bs : List Byte) : (c.loadRef a x bs).loc = c.loc := by
  cases x <;> simp [CT.loadRef]

theorem setRefTag_loc (c : CT) (x : RegRef) (t : Tag) : (c.setRefTag x t).loc = c.loc := by
  cases x <;> simp [CT.setRefTag]

/-- A copy lies where the kernel and the nest say, and is read from the window and the strip (R269). -/
theorem copyBytes_congr {c d : CT} (h : SameNest c d) (hl : d.loc = c.loc) (x : RegRef) (t : Tag) (n : Nat) :
    d.copyBytes x t n = c.copyBytes x t n := by
  have hf : slotField d x = slotField c x := by cases x <;> simp only [slotField, h.kernel]
  simp only [CT.copyBytes, CT.copyAddr, CT.slotAddr, CT.slotBytes, CT.extents, CT.locRead, CT.locByte, hf, h.lift, h.kernel,
    h.strip, hl]

/-- A control thread with another local window. -/
def CT.withWindow (c : CT) (l : Mem) (b : Marks) : CT := { c with loc := l, locBad := b }

theorem sameNest_withWindow (c : CT) (l : Mem) (b : Marks) : SameNest c (c.withWindow l b) := ⟨rfl, rfl, rfl, rfl⟩

theorem refTag_withWindow (c : CT) (l : Mem) (b : Marks) (x : RegRef) : (c.withWindow l b).refTag x = c.refTag x := by
  cases x <;> rfl

theorem getG_withWindow (c : CT) (l : Mem) (b : Marks) (r : GReg) : (c.withWindow l b).getG r = c.getG r := rfl

/-- Steps that change the local window only change the local window only. -/
theorem foldl_withWindow {α : Type} {c : CT} (f : CT → α → CT) (xs : List α)
    (h : ∀ l b k, ∃ l' b', f (c.withWindow l b) k = c.withWindow l' b') : ∃ l b, xs.foldl f c = c.withWindow l b := by
  refine List.foldlRecOn (motive := fun q => ∃ l b, q = c.withWindow l b) xs f ⟨c.loc, c.locBad, rfl⟩ ?_
  rintro _ ⟨l, b, rfl⟩ k -
  exact h l b k

/-- With no strip open, a write of the part to the frame goes to the window. -/
theorem frameWrite_withWindow {c : CT} (hs : c.strip = none) (l : Mem) (b : Marks) (n : Nat) (bs : List Byte) (bad : Marks) :
    ∃ l' b', (c.withWindow l b).frameWrite n bs bad = c.withWindow l' b' := by
  refine ⟨memWrite l n bs, remark b c.locStuck n bs.length bad, ?_⟩
  have hw : (c.withWindow l b).strip = none := hs
  rw [CT.frameWrite, hw]
  rfl

theorem writeCopy_withWindow {c : CT} (hs : c.strip = none) (l : Mem) (b : Marks) (x : RegRef) (t : Tag) (n : Nat)
    (bs : List Byte) (bad : Marks) : ∃ l' b', (c.withWindow l b).writeCopy x t n bs bad = c.withWindow l' b' := by
  unfold CT.writeCopy
  split
  · exact ⟨l, b, rfl⟩
  · refine foldl_withWindow (c := c.withWindow l b) _ _ (fun l b k => ?_)
    dsimp only
    split
    · exact frameWrite_withWindow hs l b _ _ _
    · exact ⟨l, b, rfl⟩

theorem cleanRef_nil {c : CT} (a : Nat) (x : RegRef) (h : c.regBad = []) : c.cleanRef a x = c := if_pos h

/-! ### The collapse of one register -/

section Collapse

variable {c : CT} (a d e : Nat) (x : RegRef)

theorem collapse_unbatched (h : hasAxis (c.refTag x) d = false) : collapse a d e c x = c := by
  simp [collapse, h]

/-- R273: a register with no other axis takes its copy at the last index. -/
theorem collapse_last (hb : c.regBad = []) (h : hasAxis (c.refTag x) d = true) (hr : withoutAxis (c.refTag x) d = 0) :
    collapse a d e c x = (c.loadRef a x (c.copyBytes x (c.refTag x) (e - 1))).setRefTag x 0 := by
  have hbad : ((c.loadRef a x (c.copyBytes x (c.refTag x) (e - 1))).setRefTag x 0).regBad = [] :=
    ((sameNest_loadRef c a x _).trans (sameNest_setRefTag _ x 0)).regBad.trans hb
  have hr' : c.refTag x &&& ~~~(BitVec.ofNat 3 (2 ^ (d - 1))) = 0 := hr
  simp only [collapse, h, Bool.not_true, Bool.false_eq_true, if_false, hr', if_true, cleanRef_nil a x hbad]

/-- R273: a register with other axes keeps those, and its copies are written to the region of a shallower depth. -/
theorem collapse_outer (hs : c.strip = none) (h : hasAxis (c.refTag x) d = true) (hr : withoutAxis (c.refTag x) d ≠ 0) :
    ∃ l b, collapse a d e c x = (c.withWindow l b).setRefTag x (withoutAxis (c.refTag x) d) := by
  have hr' : ¬ c.refTag x &&& ~~~(BitVec.ofNat 3 (2 ^ (d - 1))) = 0 := hr
  simp only [collapse, h, Bool.not_true, Bool.false_eq_true, if_false, hr']
  refine Exists.imp (fun l => Exists.imp (fun b => congrArg (fun q => CT.setRefTag q x (withoutAxis (c.refTag x) d))))
    (foldl_withWindow _ _ (fun l b k => ?_))
  exact writeCopy_withWindow hs l b x _ _ _ _

/-- What the end of a level can do to one register: nothing where it lacks the axis; else its tag drops the axis, and of the scalar
registers, the tags and the nest nothing else changes. -/
theorem collapse_cases (hc : c.Calm) :
    hasAxis (c.refTag x) d = false ∧ collapse a d e c x = c ∨
    hasAxis (c.refTag x) d = true ∧ ∃ q, collapse a d e c x = q.setRefTag x (withoutAxis (c.refTag x) d) ∧
      SameNest c q ∧ (∀ y, q.refTag y = c.refTag y) ∧ ∀ r, x ≠ .g r → q.getG r = c.getG r := by
  by_cases h : hasAxis (c.refTag x) d = true
  · refine .inr ⟨h, ?_⟩
    by_cases hr : withoutAxis (c.refTag x) d = 0
    · exact ⟨_, hr.symm ▸ collapse_last a d e x hc.regBad h hr, sameNest_loadRef c a x _, refTag_loadRef c a x _,
        fun r hx => getG_loadRef_ne c a _ hx⟩
    · obtain ⟨l, b, he⟩ := collapse_outer a d e x hc.strip h hr
      exact ⟨_, he, sameNest_withWindow c l b, refTag_withWindow c l b, fun r _ => getG_withWindow c l b r⟩
  · rw [Bool.not_eq_true] at h
    exact .inl ⟨h, collapse_unbatched a d e x h⟩

section Calm

variable (hc : c.Calm)
include hc

theorem sameNest_collapse : SameNest c (collapse a d e c x) := by
  obtain ⟨-, he⟩ | ⟨-, q, he, hn, -, -⟩ := collapse_cases a d e x hc
  · rw [he]
    exact .refl c
  · rw [he]
    exact hn.trans (sameNest_setRefTag q x _)

/-- A collapse leaves each tag as it was, or takes the axis from it. -/
theorem refTag_collapse (y : RegRef) : (collapse a d e c x).refTag y = c.refTag y ∨
    (collapse a d e c x).refTag y = withoutAxis (c.refTag y) d := by
  obtain ⟨-, he⟩ | ⟨h, q, he, -, ht, -⟩ := collapse_cases a d e x hc
  · exact .inl (by rw [he])
  · rw [he]
    obtain hy | ⟨hy, hxy⟩ := refTag_setRefTag q _ (ht x ▸ ne_zero_of_hasAxis h) y
    · exact .inl (hy.trans (ht y))
    · rw [ht, ht] at hxy
      exact .inr (by rw [hy, hxy])

/-- The register itself loses the axis. -/
theorem refTag_collapse_self : hasAxis ((collapse a d e c x).refTag x) d = false := by
  obtain ⟨h, he⟩ | ⟨h, q, he, -, ht, -⟩ := collapse_cases a d e x hc
  · rw [he, h]
  · rw [he, refTag_setRefTag_self q _ (ht x ▸ ne_zero_of_hasAxis h), hasAxis_withoutAxis]

/-- A scalar register that is not batched keeps its value. -/
theorem getG_collapse {r : GReg} (h : c.getGTag r = 0) : (collapse a d e c x).getG r = c.getG r := by
  obtain ⟨-, he⟩ | ⟨hx, q, he, -, -, hg⟩ := collapse_cases a d e x hc
  · rw [he]
  · have hne : x ≠ .g r := by
      rintro rfl
      exact ne_zero_of_hasAxis hx h
    rw [he, getG_setRefTag, hg r hne]

end Calm

end Collapse

/-! ### The collapse of every register -/

section Fold

variable {c : CT} (a d e : Nat) (hc : c.Calm)
include hc

/-- What every collapse keeps, all of them together keep. -/
theorem foldl_collapse_induction (P : CT → Prop) (h0 : P c)
    (h : ∀ q x, SameNest c q → q.Calm → P q → P (collapse a d e q x)) (xs : List RegRef) :
    SameNest c (xs.foldl (collapse a d e) c) ∧ P (xs.foldl (collapse a d e) c) := by
  refine List.foldlRecOn (motive := fun q => SameNest c q ∧ P q) xs _ ⟨.refl c, h0⟩ ?_
  rintro q ⟨hn, hp⟩ x -
  exact ⟨hn.trans (sameNest_collapse a d e x (hn.calm hc)), h q x hn (hn.calm hc) hp⟩

theorem sameNest_foldl_collapse (xs : List RegRef) : SameNest c (xs.foldl (collapse a d e) c) :=
  (foldl_collapse_induction a d e hc (fun _ => True) trivial (fun _ _ _ _ _ => trivial) xs).1

/-- An axis that a tag lacks stays away. -/
theorem hasAxis_foldl_collapse_of_lacks (xs : List RegRef) {y : RegRef} (h : hasAxis (c.refTag y) d = false) :
    hasAxis ((xs.foldl (collapse a d e) c).refTag y) d = false := by
  refine (foldl_collapse_induction a d e hc (fun q => hasAxis (q.refTag y) d = false) h (fun q x _ hqc hq => ?_) xs).2
  obtain hy | hy := refTag_collapse a d e x hqc y
  · rw [hy, hq]
  · rw [hy, hasAxis_withoutAxis]

theorem getLsbD_foldl_collapse (xs : List RegRef) (y : RegRef) {j : Nat} (hj : j + 1 ≠ d) (hd : d ≠ 0) :
    ((xs.foldl (collapse a d e) c).refTag y).getLsbD j = (c.refTag y).getLsbD j := by
  refine (foldl_collapse_induction a d e hc (fun q => (q.refTag y).getLsbD j = (c.refTag y).getLsbD j) rfl
    (fun q x _ hqc hq => ?_) xs).2
  obtain hy | hy := refTag_collapse a d e x hqc y
  · rw [hy, hq]
  · rw [hy, getLsbD_withoutAxis_other _ hj hd, hq]

theorem getG_foldl_collapse (xs : List RegRef) {r : GReg} (h : c.getGTag r = 0) :
    (xs.foldl (collapse a d e) c).getG r = c.getG r := by
  refine (foldl_collapse_induction a d e hc (fun q => q.getGTag r = 0 ∧ q.getG r = c.getG r) ⟨h, rfl⟩
    (fun q x _ hqc ⟨hq0, hq⟩ => ⟨?_, (getG_collapse a d e x hqc hq0).trans hq⟩) xs).2.2
  obtain hy | hy := refTag_collapse a d e x hqc (.g r)
  · exact hy.trans hq0
  · rw [show q.refTag (.g r) = 0 from hq0, withoutAxis_zero] at hy
    exact hy

end Fold

/-- Every register that is collapsed loses the axis. -/
theorem hasAxis_foldl_collapse {c : CT} (a d e : Nat) (hc : c.Calm) {xs : List RegRef} {y : RegRef} (hy : y ∈ xs) :
    hasAxis ((xs.foldl (collapse a d e) c).refTag y) d = false := by
  induction xs generalizing c with
  | nil => simp at hy
  | cons x xs ih =>
    have hcx := (sameNest_collapse a d e x hc).calm hc
    rw [List.foldl_cons]
    rcases List.mem_cons.mp hy with rfl | hy
    · exact hasAxis_foldl_collapse_of_lacks a d e hcx xs (refTag_collapse_self a d e y hc)
    · exact ih hcx hy

/-- Each register is in the list of those that are collapsed, under one of its names, or has no tag at all. -/
theorem mem_allRefs (y : RegRef) : (∀ c : CT, c.refTag y = 0) ∨ ∃ x ∈ allRefs, ∀ c : CT, c.refTag x = c.refTag y := by
  cases y with
  | g r => exact .inr ⟨.g r, by simp [allRefs], fun _ => rfl⟩
  | p r => exact .inr ⟨.p r, by simp [allRefs], fun _ => rfl⟩
  | v r w =>
    by_cases h : r < 48
    · exact .inr ⟨.v r .one, by simp [allRefs, h], fun _ => rfl⟩
    · exact .inl fun c => CT.getVTag_beyond c h

/-! ### At depth 1 -/

/-- The state while the only level of a nest ends: no tag has another axis, no copy is written, and once a scalar register is unbatched it
holds its last copy. -/
structure EndsOnly (c : CT) (e : Nat) (r : GReg) (q : CT) : Prop where
  tags : ∀ y, q.refTag y = 0 ∨ q.refTag y = 1
  loc : q.loc = c.loc
  value : q.getGTag r = 0 → q.getG r = w64 (leNat (c.copyBytes (.g r) 1 (e - 1)))

/-- The collapse of a batched register whose only axis is the first. -/
theorem collapse_first {c : CT} (a e : Nat) {x : RegRef} (hb : c.regBad = []) (h : c.refTag x = 1) :
    collapse a 1 e c x = (c.loadRef a x (c.copyBytes x 1 (e - 1))).setRefTag x 0 := by
  have hx : hasAxis (c.refTag x) 1 = true := by rw [h]; decide
  have hw : withoutAxis (c.refTag x) 1 = 0 := by rw [h]; decide
  rw [collapse_last a 1 e x hb hx hw, h]

theorem endsOnly_collapse {c q : CT} (a : Nat) {e : Nat} {r : GReg} (x : RegRef) (hn : SameNest c q) (hq : q.Calm)
    (h : EndsOnly c e r q) : EndsOnly c e r (collapse a 1 e q x) := by
  obtain hx | hx := h.tags x
  · rw [collapse_unbatched a 1 e x (by rw [hx]; exact hasAxis_zero 1)]
    exact h
  · have he := collapse_first a e hq.regBad hx
    refine ⟨fun y => ?_, by rw [he, setRefTag_loc, loadRef_loc, h.loc], fun h0 => ?_⟩
    · obtain hy | hy := refTag_collapse a 1 e x hq y
      · rw [hy]
        exact h.tags y
      · obtain h1 | h1 := h.tags y <;> rw [hy, h1] <;> decide
    · by_cases hxr : x = .g r
      · subst hxr
        have hr : r ≠ 0 := by
          rintro rfl
          exact absurd ((CT.getGTag_zero q).symm.trans hx) (by decide)
        rw [he, getG_setRefTag, getG_loadRef_self _ _ _ hr, copyBytes_congr hn h.loc]
      · rw [he, getGTag_setRefTag_ne _ _ hxr] at h0
        rw [he, getG_setRefTag, getG_loadRef_ne _ _ _ hxr]
        exact h.value ((refTag_loadRef q a x _ (.g r)).symm.trans h0)

/-- R273: at depth 1 a batched register takes its copy at the last index. -/
theorem getG_foldl_collapse_first {c : CT} (a e : Nat) (hc : c.Calm) (ht : ∀ x, c.refTag x = 0 ∨ c.refTag x = 1) {r : GReg}
    (hr : c.getGTag r = 1) :
    (allRefs.foldl (collapse a 1 e) c).getG r = w64 (leNat (c.copyBytes (.g r) 1 (e - 1))) := by
  have h0 : EndsOnly c e r c := ⟨ht, rfl, fun h => absurd (h.symm.trans hr) (by decide)⟩
  obtain ⟨-, h⟩ := foldl_collapse_induction a 1 e hc (EndsOnly c e r) h0
    (fun q x hn hq hp => endsOnly_collapse a x hn hq hp) allRefs
  have hax := hasAxis_foldl_collapse a 1 e hc (xs := allRefs) (y := .g r) (by simp [allRefs])
  refine h.value ((h.tags (.g r)).resolve_right fun h1 => ?_)
  rw [h1] at hax
  exact absurd hax (by decide)

/-! ### `lend` -/

section CloseLift

variable {c : CT} (a : Nat) {l : LiftLevel}

theorem CT.depth_ne_zero (h : c.lift.levels.getLast? = some l) : c.depth ≠ 0 := by
  rw [CT.depth, ne_eq, List.length_eq_zero_iff]
  rintro h0
  simp [h0] at h

variable (h : c.lift.levels.getLast? = some l) (hr : c.lift.regions = []) (hc : c.Calm)
include h hr hc

/-- With no region open, the end of a level collapses every register and restores the nest. -/
theorem closeLift_eq : closeLift a c =
    { allRefs.foldl (collapse a c.depth l.extent) c with
      lift := { c.lift with levels := c.lift.levels.dropLast, active := l.outer } } := by
  have hreg : { c with lift := { c.lift with regions := c.lift.regions.filter (fun r => r.depth ≠ c.depth) } } = c := by
    rw [hr, List.filter_nil, ← hr]
  have hl := (sameNest_foldl_collapse a c.depth l.extent hc allRefs).lift
  simp only [closeLift, h, hreg, hl]

theorem calm_closeLift : (closeLift a c).Calm := by
  have hu := (sameNest_foldl_collapse a c.depth l.extent hc allRefs).calm hc
  rw [closeLift_eq a h hr hc]
  exact ⟨hu.strip, hu.regBad⟩

theorem refTag_closeLift (x : RegRef) :
    (closeLift a c).refTag x = (allRefs.foldl (collapse a c.depth l.extent) c).refTag x := by
  rw [closeLift_eq a h hr hc]
  cases x <;> rfl

theorem getG_closeLift (r : GReg) : (closeLift a c).getG r = (allRefs.foldl (collapse a c.depth l.extent) c).getG r := by
  rw [closeLift_eq a h hr hc]
  rfl

/-- R273: no tag keeps the axis of the level that ends. -/
theorem hasAxis_closeLift (x : RegRef) : hasAxis ((closeLift a c).refTag x) c.depth = false := by
  rw [refTag_closeLift a h hr hc]
  obtain h0 | ⟨y, hy, he⟩ := mem_allRefs x
  · rw [h0, hasAxis_zero]
  · rw [← he]
    exact hasAxis_foldl_collapse a c.depth l.extent hc hy

/-- R273: the other axes are kept. -/
theorem getLsbD_closeLift (x : RegRef) {j : Nat} (hj : j + 1 ≠ c.depth) :
    ((closeLift a c).refTag x).getLsbD j = (c.refTag x).getLsbD j := by
  rw [refTag_closeLift a h hr hc]
  exact getLsbD_foldl_collapse a c.depth l.extent hc allRefs x hj (CT.depth_ne_zero h)

theorem getG_closeLift_unbatched {r : GReg} (h0 : c.getGTag r = 0) : (closeLift a c).getG r = c.getG r := by
  rw [getG_closeLift a h hr hc]
  exact getG_foldl_collapse a c.depth l.extent hc allRefs h0

theorem getG_closeLift_batched (hd : c.depth = 1) (ht : ∀ x, c.refTag x = 0 ∨ c.refTag x = 1) {r : GReg}
    (h1 : c.getGTag r = 1) : (closeLift a c).getG r = w64 (leNat (c.copyBytes (.g r) 1 (l.extent - 1))) := by
  rw [getG_closeLift a h hr hc, hd]
  exact getG_foldl_collapse_first a l.extent hc ht h1

end CloseLift

section Lend

variable {s : State}

/-- Where no local byte is poisoned and no strip is open, no copy that `lend` reads is poisoned. -/
theorem badLast_none {c : CT} (hl : c.locBad = []) (hs : c.strip = none) (e : Nat) : badLast c e = none := by
  simp [badLast, CT.maybePoisoned, hl, hs]

theorem exec_lend_closes {l : LiftLevel} (h : Quiet s [] []) (hl : s.me.lift.levels.getLast? = some l)
    (hbad : s.me.locBad = []) : exec .lend s = .next (jumped s l.ret (closeLift (lanes s s.cur))) := by
  have hc := calm_closeLift (lanes s s.cur) hl h.regions ⟨h.strip, h.sound⟩
  change execLend s = _
  simp only [execLend, hl]
  refine quiet_jump _ _ h (by simp) (by simp) (by simp) rfl ?_ (by simp) hc.strip hc.regBad
  simp only [badLast_none hbad h.strip]

/-- R273: at depth 0 there is nothing to end. -/
theorem exec_lend_illegal (hl : s.me.lift.levels = []) (hsup : s.me.sup = false) (hvq : s.me.vq = [])
    (hst : s.me.strip = none) : exec .lend s = .next (trapped s .illegal s.me.pc) := by
  change execLend s = _
  simp only [execLend, hl, List.getLast?_nil]
  exact finish_trap_quiet hsup hvq hst _ _ _

@[simp] theorem me_jumped (t : W64) (f : CT → CT) : (jumped s t f).me = (f s.me).landAt t := State.me_upd s _

@[simp] theorem refTag_landAt (c : CT) (t : W64) (x : RegRef) : (c.landAt t).refTag x = c.refTag x := by
  cases x <;> rfl

@[simp] theorem getG_landAt (c : CT) (t : W64) (r : GReg) : (c.landAt t).getG r = c.getG r := rfl

end Lend

/-- Settles O41: `lift` opens its level or traps by R276, and `lend` closes the deepest level by collapsing every register. -/
theorem liftResults : Obligations.LiftResults := by
  unfold Obligations.LiftResults
  intro s a i
  refine ⟨?_, ?_, fun hl _ hsup hvq hst => exec_lend_illegal hl hsup hvq hst⟩
  · intro h e es slots fits t
    refine ⟨fun hf ht => ?_, fun hf _ hsup => exec_lift_overflows h hf hsup⟩
    have hrel : s.me.relative i = t := relative_eq_ofInt s.me i
    rw [exec_lift_opens h hf (hrel ▸ ht), hrel, jumped_openLift]
  · intro l h hbad hl
    have hc : s.me.Calm := ⟨h.strip, h.sound⟩
    have hlift : (closeLift (lanes s s.cur) s.me).lift =
        { s.me.lift with levels := s.me.lift.levels.dropLast, active := l.outer } := by
      rw [closeLift_eq _ hl h.regions hc]
    refine ⟨_, exec_lend_closes h hl hbad, ?_⟩
    simp only [me_jumped, refTag_landAt, getG_landAt]
    exact ⟨rfl, congrArg Lift.levels hlift, congrArg Lift.active hlift,
      fun x => ⟨hasAxis_closeLift _ hl h.regions hc x, fun j hj => getLsbD_closeLift _ hl h.regions hc x hj⟩,
      fun r h0 => getG_closeLift_unbatched _ hl h.regions hc h0,
      fun hd ht r h1 => getG_closeLift_batched _ hl h.regions hc hd ht h1⟩

end Sys2Proof.Machine
end
